-- ==== Sys2Proof/Word.lean ====
section
/-! DEFINITION. The words of the ring and the numbers of the part (00_scope.md, Numbering). -/

namespace Sys2Proof

/-- One byte of a control cell, a packet or table memory. -/
abbrev Byte := BitVec 8

/-- One audio sample of a ring slot: a signed 24-bit value (00_scope.md, Frames and time). -/
abbrev Sample := BitVec 24

/-- A ring node number, 0 to 31: the low five bits of a cell's node byte (R173). -/
abbrev Node := BitVec 5

/-- A ring slot, 0 to 31. -/
abbrev Slot := Fin 32

/-- A source, S0 to S11. -/
abbrev Source := Fin 12

/-- An output, O0 to O23. -/
abbrev Output := Fin 24

/-- A listening zone, Z0 to Z3. -/
abbrev Zone := Fin 4

/-- A boost group, G0 to G3. -/
abbrev Group := Fin 4

/-- An equalisation section, 0 to 255. -/
abbrev SectionNo := Fin 256

/-- A cue memory address, 0 to 255. Addition wraps modulo 256 (R119). -/
abbrev CueAddr := Fin 256

/-- A cue runner, 0 or 1. -/
abbrev RunnerNo := Fin 2

/-- A set number, 0 to 255. Addition wraps (R63). -/
abbrev SetNo := Fin 256

/-- Eight bytes of cue memory: one cue entry (R119). -/
abbrev CueEntry := Vector Byte 8

end Sys2Proof
end

