-- ==== Sys2Proof/Syntax.lean ====
section
/-! DEFINITION. The commands: one constructor for each row of spec/opcode_table.json. -/

namespace Sys2Proof

/-- A control cell of the ring (11.1, R173): kind byte, destination byte, origin byte and six payload bytes, all as they come. -/
structure Cell where
  kind : Byte
  dest : Byte
  origin : Byte
  payload : Vector Byte 6
  deriving DecidableEq, Repr

/-- Where a sync arrives: one frame length after the last sync the port accepted, or anywhere else (R152). -/
inductive Spacing
  | oneFrame
  | other
  deriving DecidableEq, Repr

/-- The commands of the block. The requests (from `unknownRequest` on) carry no operands: each is the control unit's taking
of the complete packet that the ring port offers, and the request's fields are that packet's bytes (R161, 11.3; entry 2). -/
inductive Instr
  /-- POWER_ON: the five strap pins as a number from 0 to 31 (R151). -/
  | powerOn (strap : Nat)
  /-- SYNC_RECEIVED (R152). -/
  | syncReceived (spacing : Spacing)
  /-- SYNC_MISSING (R152). -/
  | syncMissing
  /-- FRAME_BOUNDARY (R1): the 32 slots of the frame it opens as they come from upstream; whether the head set is examined
  in this step; whether the TABLE unit's live batch is taken in this step, before the examination. What is not taken in this
  step is still owed at this boundary (entry 3). -/
  | frameBoundary (upstream : Vector Sample 32) (examine : Bool) (batch : Bool)
  /-- RAMP_COMPLETE (R37): the entry of the ramp table. -/
  | rampComplete (entry : Fin 64)
  /-- CROSSFADE_END (R94): the crossfade slot. -/
  | crossfadeEnd (slot : Fin 4)
  /-- LEAVING_END (R15). -/
  | leavingEnd
  /-- SET_APPLICATION (R69). -/
  | setApplication
  /-- SDV_TICK (R105). -/
  | sdvTick
  /-- CUE_FETCH_GRANT (R122): the runner. -/
  | cueFetchGrant (runner : RunnerNo)
  /-- STEP_COMPLETE (R123): the runner. -/
  | stepComplete (runner : RunnerNo)
  /-- WAIT_TIMEOUT (R125): the runner. -/
  | waitTimeout (runner : RunnerNo)
  /-- SECTION_WRITE_GRANT (R82). -/
  | sectionWriteGrant
  /-- CUE_WRITE_GRANT (R132). -/
  | cueWriteGrant
  /-- TABLE_ACCESS_GRANT (R146). -/
  | tableAccessGrant
  /-- TABLE_READ_COMPLETE (R145). -/
  | tableReadComplete
  /-- DIGEST_END (R148). -/
  | digestEnd
  /-- CONTROL_CELL (R156): the incoming cell of the frame. -/
  | controlCell (cell : Cell)
  /-- OUTGOING_PACKET_TAKE (R159). -/
  | outgoingPacketTake
  /-- NOTICE_QUEUE (R166). -/
  | noticeQueue
  /-- UNKNOWN_REQUEST (R161). -/
  | unknownRequest
  /-- IDENTIFY (R168). -/
  | identify
  /-- READ_STATUS (R168). -/
  | readStatus
  /-- UNIT_ENABLE (R169). -/
  | unitEnable
  /-- UNIT_RESET (R170). -/
  | unitReset
  /-- PART_RESET (R172). -/
  | partReset
  /-- NOTICE_ENABLE (R171). -/
  | noticeEnable
  /-- MODE (R11). -/
  | mode
  /-- SLOT_MAP (R155). -/
  | slotMap
  /-- STAGE_RECORD (R57). -/
  | stageRecord
  /-- ABORT_OPEN (R74). -/
  | abortOpen
  /-- FLUSH_QUEUE (R75). -/
  | flushQueue
  /-- SET_STATUS (R76). -/
  | setStatus
  /-- SECTION_LOAD (R83). -/
  | sectionLoad
  /-- SECTION_WRITE (R84). -/
  | sectionWrite
  /-- SECTION_RELEASE (R85). -/
  | sectionRelease
  /-- POOL_STATUS (R86). -/
  | poolStatus
  /-- SPEED_REPORT (R103). -/
  | speedReport
  /-- SDV_CONFIG (R114). -/
  | sdvConfig
  /-- SDV_MANUAL (R112). -/
  | sdvManual
  /-- SDV_AUTO (R113). -/
  | sdvAuto
  /-- SDV_STATUS (R115). -/
  | sdvStatus
  /-- CUE_WRITE (R132). -/
  | cueWrite
  /-- CUE_START (R129). -/
  | cueStart
  /-- CUE_RELEASE (R131). -/
  | cueRelease
  /-- CUE_HALT (R130). -/
  | cueHalt
  /-- CUE_STATUS (R134). -/
  | cueStatus
  /-- TABLE_READ (R144). -/
  | tableRead
  /-- DIGEST (R147). -/
  | digest
  deriving DecidableEq, Repr

end Sys2Proof
end

