-- ==== Sys2Proof/Decode.lean ====
section
/-! DEFINITION. Words of the opcode table. The table gives no row any bits (98_reader.md: n_rows_with_fixed 0), so no word
spells a command. -/

namespace Sys2Proof

/-- The command a word spells by the table's bits: none, for the table gives no row bits. -/
def decodeTableWord (_nbits _w : Nat) : Option Instr := none

end Sys2Proof
end

