-- ==== Sys2Proof/Config.lean ====
section
/-! DEFINITION. The free values: what the spec leaves open and the part goes on with. None has a body. Each is applied to
the counter `State.free`, which the reading step advances. -/

namespace Sys2Proof

/-- Free value of R3: the whole number the part takes where the bound does not decide a truncation. The reader
limits it to the two results the bound allows (entry 7). -/
opaque Config.freeWhole : Nat → Int

/-- Free value: the elapsed frames of a WAIT without a timeout after 6,291,360 frames, the end of the range R121 gives. The
reader limits it to that range (entry 9). -/
opaque Config.freeElapsed : Nat → Nat

/-- Free value: the two age bytes of an SDV_STATUS reply while the age is never (R115, 11.3; entry 10). -/
opaque Config.freeAge : Nat → BitVec 16

/-- Free value: the two k bytes of a free crossfade slot in a POOL_STATUS reply (R86, 11.3; entry 11). The second argument
is the slot. -/
opaque Config.freeSlotK : Nat → Nat → BitVec 16

/-- Free value: bits 4 to 7 of the level-0 byte of a POOL_STATUS reply (R86, R174, 11.3; entry 27). -/
opaque Config.freeLevel0 : Nat → BitVec 4

end Sys2Proof
end

