-- ==== Sys2Proof/Machine/State.lean ====
section
/-! DEFINITION. The state of the part as plain data, unit by unit, and the machine right after power-on. Levels and gains are
quarter-decibels (qdB), as signed integers (00_scope.md, Levels). -/

namespace Sys2Proof.Machine

/-! ## Names -/

/-- The six units a packet can name (11.2). -/
inductive UnitId
  | ctrl | stage | eq | sdv | cue | table
  deriving DecidableEq, Repr

/-- HUNT or LOCKED (R152). -/
inductive Lock
  | hunt | locked
  deriving DecidableEq, Repr

/-- The operating mode (R10). -/
inductive Mode
  | standby | run | leaving
  deriving DecidableEq, Repr

/-- A cell gain or a ramp target: a level in qdB, or OFF (R35, R36). -/
inductive Gain
  | off
  | level (qdb : Int)
  deriving DecidableEq, Repr

/-- The side of an output (R22). -/
inductive Side
  | left | centre | right
  deriving DecidableEq, Repr

/-- The row of an output (R22); `noRow` is NONE. -/
inductive Row
  | front | middle | rear | noRow
  deriving DecidableEq, Repr

/-- The six curves (R25), in the order of the CURVES table. -/
inductive CurveId
  | latLeft | latCentre | latRight | longFront | longMiddle | longRear
  deriving DecidableEq, Repr

/-- The keys of the ramp table (R34, R35). -/
inductive Key
  | level (o : Output)
  | cell (o : Output) (s : Source)
  | duck (s : Source)
  | boost (g : Group)
  deriving DecidableEq, Repr

/-- The states of a section (R78). -/
inductive SectionState
  | free | loading | loaded | claimed | live | retiring
  deriving DecidableEq, Repr

/-- The kind of a pending section write (R82). -/
inductive WriteKind
  | load | rewrite
  deriving DecidableEq, Repr

/-- The states of the SDV unit (R102). -/
inductive SdvState
  | off | tracking | holding | fallback | manual
  deriving DecidableEq, Repr

/-- The states of a cue runner (R121). -/
inductive RunnerState
  | idle | fetching | stepping | waiting | stopped
  deriving DecidableEq, Repr

/-- Why the head set waits (R64, R65); `none` is NONE. -/
inductive WaitReason
  | none | mode | outputBusy | crossfade | ramps
  deriving DecidableEq, Repr

/-- Why a runner raised CUE_STOPPED (R127). -/
inductive StopReason
  | stop | fault
  deriving DecidableEq, Repr

/-- The ten tables of the TABLE unit (R142). -/
inductive TableId
  | zones | cells | outputs | curves | boostCurve | groups | chains | sections | cueMemory | ramps
  deriving DecidableEq, Repr

/-- A read or a digest (R143). -/
inductive TableOpKind
  | read | digest
  deriving DecidableEq, Repr

/-! ## Change records (04, section 4.2) -/

/-- The field a ZONE record names, with its value (R53). -/
inductive ZoneChange
  | volume (qdb : Int)
  | balance (position : Int)
  | fade (position : Int)
  | mute (on : Bool)
  deriving DecidableEq, Repr

/-- The operator of a FLAGS record (R22, R54). -/
inductive FlagOp
  | set | clear | toggle
  deriving DecidableEq, Repr

/-- The flag a FLAGS record names (R22, R54). -/
inductive OutFlag
  | mute | invert
  deriving DecidableEq, Repr

/-- A change record (R53 to R56). `ms` is the optional ramp duration. -/
inductive ChangeRecord
  | zone (z : Zone) (change : ZoneChange) (ms : Option Nat)
  | cell (o : Output) (s : Source) (gain : Gain) (ms : Option Nat)
  | output (o : Output) (z : Zone) (side : Side) (row : Row) (group : Option Group) (trim : Int) (ceiling : Int)
  | flags (op : FlagOp) (flag : OutFlag) (mask : BitVec 24)
  | chain (o : Output) (sections : List SectionNo)
  | curve (c : CurveId) (first : Fin 31) (values : List Int)
  | boostCurve (points : List (Nat × Int))
  | group (g : Group) (weight : Nat)
  deriving DecidableEq, Repr

/-! ## Ring port (09) -/

/-- An occupied assembly context (R157): the origin, whether its opening cell was copied (a broadcast, R161), whether it is
complete, the payload bytes gathered and the cell count. -/
structure Context where
  origin : Node
  broadcast : Bool
  complete : Bool
  bytes : List Byte
  cells : Nat
  deriving DecidableEq, Repr

/-- The ring port's own state (09, opening list; R160). `outgoing` lists the cells still to send, `none` when there is no
outgoing packet (R159). -/
structure RingPort where
  ownNode : Node
  lock : Lock
  goodSyncs : Nat
  missingSyncs : Nat
  sourceMap : Vector (Option Slot) 12
  outputMap : Vector (Option Slot) 24
  contexts : Vector (Option Context) 2
  firstComplete : Fin 2
  outgoing : Option (List Cell)
  deriving DecidableEq, Repr

/-- The frame whose boundary is open (R1, R154): its slots as they arrive, and what acts from the next frame boundary on when it
changes, as it stood when this boundary was opened: the slot maps (R155, R160) and whether EQ is enabled (R97, R98). -/
structure Opened where
  slots : Vector Sample 32
  sourceMap : Vector (Option Slot) 12
  outputMap : Vector (Option Slot) 24
  eqOn : Bool
  deriving DecidableEq, Repr

/-- What is still to be taken of the frame in hand (the model's own bookkeeping, entry 3): a frame opened whose boundary is
to come (R152); the open boundary, with its frame (R1, R154); the head set's examination (R65); the frame's
control cell (R156); the frame's one port grant (R140); and the entries of live tables taken in it so far (R142). -/
structure Frame where
  boundaryDue : Bool
  opened : Option Opened
  examDue : Bool
  cellDue : Bool
  grantFree : Bool
  liveTaken : Nat
  deriving DecidableEq, Repr

/-- What the part last put on the ring: the composed samples (R6), the slots (R154) and the control cell (R156). -/
structure Lane where
  samples : Vector Sample 24
  slots : Vector Sample 32
  cell : Cell
  deriving DecidableEq, Repr

/-! ## Control unit (10) -/

/-- Who is answered: the request's tag, unit byte, request code byte and origin node (R164). -/
structure Requester where
  tag : Byte
  unitByte : Byte
  code : Byte
  origin : Node
  deriving DecidableEq, Repr

/-- A packet of the reply queue: its destination and its bytes, check included (11.2). -/
structure OutPacket where
  dest : Node
  bytes : List Byte
  deriving DecidableEq, Repr

/-- A place of the reply queue (R165): a request's place before its answer is written, a reservation, or a packet. -/
inductive Place
  | held (rq : Requester)
  | reservation (rq : Requester)
  | packet (p : OutPacket)
  deriving DecidableEq, Repr

/-- The notices (R166). -/
inductive Notice
  | setApplied (n : SetNo)
  | cueStopped (r : RunnerNo) (reason : StopReason) (addr : CueAddr)
  | sdvState (st : SdvState)
  | ringRelocked
  deriving DecidableEq, Repr

/-- The unit enable map (R163, R169). CTRL and STAGE are always enabled. -/
structure UnitEnables where
  eq : Bool
  sdv : Bool
  cue : Bool
  table : Bool
  deriving DecidableEq, Repr

/-- The notice enable map (R171). -/
structure NoticeEnables where
  setApplied : Bool
  cueStopped : Bool
  sdvState : Bool
  ringRelocked : Bool
  deriving DecidableEq, Repr

/-- The control unit's state (10, opening list; R172). `executing` holds one marker per unit, in unit code order; `flags` is
the flag word of 11.3; marker o of `clip` is output o's. -/
structure Control where
  queue : List Place
  executing : Vector Bool 6
  enabled : UnitEnables
  noticeOn : NoticeEnables
  notices : List Notice
  flags : BitVec 16
  clip : BitVec 24
  lastGood : Option Byte
  deriving DecidableEq, Repr

/-! ## Mixing core (01, 02) -/

/-- A zone record (R20). -/
structure ZoneRec where
  volume : Int
  balance : Int
  fade : Int
  mute : Bool
  deriving DecidableEq, Repr

/-- An output record (R22). -/
structure OutputRec where
  zone : Zone
  side : Side
  row : Row
  group : Option Group
  trim : Int
  ceiling : Int
  mute : Bool
  invert : Bool
  deriving DecidableEq, Repr

/-- The live tables that change records write (R20, R22, R25, R44, R56): zones, cell matrix (entry o × 12 + s), outputs,
curves (entry curve × 31 + entry), boost curve, group weights. The chains are the EQ unit's. -/
structure Live where
  zones : Vector ZoneRec 4
  cells : Vector Gain 288
  outputs : Vector OutputRec 24
  curves : Vector Int 186
  boostCurve : List (Nat × Int)
  weights : Vector Nat 4
  deriving DecidableEq, Repr

/-- The mixing core (R19, R32). -/
structure Core where
  mode : Mode
  gate : Nat
  held : Vector Sample 12
  live : Live
  levelTargets : Vector Int 24
  deriving DecidableEq, Repr

/-! ## Gain ramp unit (03) -/

/-- An active ramp entry (R36). `due` says that its last advance, the one that completes it, is still to be taken at the open
boundary (R37; entry 3). -/
structure Ramp where
  key : Key
  start : Int
  target : Gain
  n : Nat
  k : Nat
  due : Bool
  deriving DecidableEq, Repr

/-- The gain ramp unit: the 64 entries (R34) and the DUCK targets (R35, R45). -/
structure RampUnit where
  entries : Vector (Option Ramp) 64
  duckTargets : Vector Int 12
  deriving DecidableEq, Repr

/-! ## Commit engine (04) -/

/-- A queued set (R64). -/
structure QueuedSet where
  number : SetNo
  records : List ChangeRecord
  notify : Bool
  wait : WaitReason
  deriving DecidableEq, Repr

/-- The commit engine (R77). -/
structure Commit where
  staging : List ChangeRecord
  queue : List QueuedSet
  counter : SetNo
  lastApplied : Option SetNo
  deriving DecidableEq, Repr

/-! ## Equalisation unit (05) -/

/-- The five coefficients of a section, as the integers they hold (R78). -/
structure Coeffs where
  b0 : Int
  b1 : Int
  b2 : Int
  a1 : Int
  a2 : Int
  deriving DecidableEq, Repr

/-- The history of a section (R78). -/
structure History where
  x1 : Int
  x2 : Int
  y1 : Int
  y2 : Int
  deriving DecidableEq, Repr

/-- A section of the pool (R78). -/
structure EqSection where
  coeffs : Coeffs
  hist : History
  state : SectionState
  deriving DecidableEq, Repr

/-- A crossfade slot in use (R92). `due` says that its 480th advance is still to be taken at the open boundary (R94; entry
3). -/
structure Crossfade where
  output : Output
  old : List SectionNo
  k : Nat
  due : Bool
  deriving DecidableEq, Repr

/-- The pending section write (R82). -/
structure SectionWrite where
  sec : SectionNo
  kind : WriteKind
  coeffs : Coeffs
  deriving DecidableEq, Repr

/-- The equalisation unit (R100). -/
structure EqUnit where
  sections : Vector EqSection 256
  free1 : Vector (BitVec 64) 4
  free0 : BitVec 4
  chains : Vector (List SectionNo) 24
  slots : Vector (Option Crossfade) 4
  pendingWrite : Option SectionWrite
  deriving DecidableEq, Repr

/-! ## Speed-dependent volume unit (06) -/

/-- The SDV unit (R102). `tickDue` says that the tick phase's rise to 480 is still to be taken at the open boundary (R105;
entry 3). -/
structure Sdv where
  state : SdvState
  lastSpeed : Option Nat
  age : Option Nat
  phase : Nat
  manual : Option Nat
  boost : Int
  targets : Vector Int 4
  hold : Nat
  fallback : Nat
  hyst : Nat
  rampMs : Nat
  tickDue : Bool
  deriving DecidableEq, Repr

/-! ## Cue unit (07) -/

/-- Memory of bytes: the listed addresses in strictly rising order, none of them holding what an unlisted address reads. -/
abbrev Memory := List Host.Cell

/-- A cue runner (R121). The window lists the valid positions from position 0 on. `due` says that the count that ends the
STEP or WAIT at position 0 is still to be taken at the open boundary (R123; entry 3). -/
structure Runner where
  state : RunnerState
  window : List CueEntry
  nextFetch : CueAddr
  latch : Bool
  timedOut : Bool
  elapsed : Nat
  requests : Vector Int 12
  due : Bool
  deriving DecidableEq, Repr

/-- The pending cue write (R132). -/
structure CueWrite where
  addr : CueAddr
  entries : List CueEntry
  deriving DecidableEq, Repr

/-- The cue unit (R138). `cueFirst` says, while a section write waits too, that the cue write was accepted first (R141). -/
structure CueUnit where
  mem : Memory
  runners : Vector Runner 2
  pendingWrite : Option CueWrite
  cueFirst : Bool
  deriving DecidableEq, Repr

/-! ## TABLE unit (08) -/

/-- The TABLE unit's operation (R143). `taken` holds the entry bytes a READ has taken so far; `batchDue` says that a live
batch is still to be taken at the open boundary (R145, R148; entry 3). -/
structure TableOp where
  kind : TableOpKind
  table : TableId
  first : Nat
  count : Nat
  next : Nat
  covered : Nat
  crc : BitVec 16
  taken : List Byte
  batchDue : Bool
  deriving DecidableEq, Repr

/-! ## The whole part -/

/-- The state of the block: its units, the index of the next free value, and the commands that wait, first in first out. -/
structure State where
  port : RingPort
  frame : Frame
  lane : Lane
  ctl : Control
  core : Core
  ramp : RampUnit
  commit : Commit
  eq : EqUnit
  sdv : Sdv
  cue : CueUnit
  table : Option TableOp
  free : Nat
  pending : List Instr
  deriving DecidableEq, Repr

/-- Reasons to stop with a fault. None: the spec names no condition that stops the part. Every fault without an answer is a
sticky flag (R167), every refused request an answer (R163, R164). -/
inductive Fault
  deriving DecidableEq, Repr

/-- Reasons to refuse a command. -/
inductive Refusal
  /-- Raised by `exec` alone, for a command without a meaning in this model; no arm does. Safe: nothing follows from it. -/
  | notModelled (mnemonic : String)
  deriving DecidableEq, Repr

/-! ## Reset values -/

/-- R20, R32: volume 0, balance 0, fade 0, mute on. -/
def ZoneRec.reset : ZoneRec := { volume := 0, balance := 0, fade := 0, mute := true }

/-- R32: Z0, CENTRE, no row, no group, trim 0, ceiling 0, flags clear. -/
def OutputRec.reset : OutputRec :=
  { zone := 0, side := .centre, row := .noRow, group := none, trim := 0, ceiling := 0, mute := false, invert := false }

/-- R32, R50, R118: the live tables after power-on and PART_RESET. -/
def Live.reset : Live :=
  { zones := Vector.replicate 4 ZoneRec.reset
    cells := Vector.replicate 288 .off
    outputs := Vector.replicate 24 OutputRec.reset
    curves := Vector.replicate 186 0
    boostCurve := []
    weights := Vector.replicate 4 100 }

/-- R19, R32. -/
def Core.reset : Core :=
  { mode := .standby
    gate := 0
    held := Vector.replicate 12 0
    live := Live.reset
    levelTargets := Vector.replicate 24 (-480) }

/-- R50: all entries free, every DUCK target 0. -/
def RampUnit.reset : RampUnit :=
  { entries := Vector.replicate 64 none, duckTargets := Vector.replicate 12 0 }

/-- R77. -/
def Commit.reset : Commit := { staging := [], queue := [], counter := 0, lastApplied := none }

/-- R100: coefficients 0. -/
def Coeffs.zero : Coeffs := { b0 := 0, b1 := 0, b2 := 0, a1 := 0, a2 := 0 }

/-- R90, R100: history 0. -/
def History.zero : History := { x1 := 0, x2 := 0, y1 := 0, y2 := 0 }

/-- R100: FREE, coefficients 0, history 0. -/
def EqSection.reset : EqSection := { coeffs := Coeffs.zero, hist := History.zero, state := .free }

/-- R100. -/
def EqUnit.reset : EqUnit :=
  { sections := Vector.replicate 256 EqSection.reset
    free1 := Vector.replicate 4 (BitVec.allOnes 64)
    free0 := BitVec.allOnes 4
    chains := Vector.replicate 24 []
    slots := Vector.replicate 4 none
    pendingWrite := none }

/-- R118. -/
def Sdv.reset : Sdv :=
  { state := .off
    lastSpeed := none
    age := none
    phase := 0
    manual := none
    boost := 0
    targets := Vector.replicate 4 0
    hold := 30
    fallback := 500
    hyst := 2
    rampMs := 2000
    tickDue := false }

/-- R138: IDLE, window invalid, next-fetch address 0, latch, flag and count clear, requests 0. -/
def Runner.reset : Runner :=
  { state := .idle
    window := []
    nextFetch := 0
    latch := false
    timedOut := false
    elapsed := 0
    requests := Vector.replicate 12 0
    due := false }

/-- R138. -/
def CueUnit.reset : CueUnit :=
  { mem := [], runners := Vector.replicate 2 Runner.reset, pendingWrite := none, cueFirst := false }

/-- R172. -/
def Control.reset : Control :=
  { queue := []
    executing := Vector.replicate 6 false
    enabled := { eq := true, sdv := true, cue := true, table := true }
    noticeOn := { setApplied := true, cueStopped := true, sdvState := true, ringRelocked := true }
    notices := []
    flags := 0
    clip := 0
    lastGood := none }

/-- R160: the ring port at power-on, with its own node read from the straps. -/
def RingPort.powerOn (node : Node) : RingPort :=
  { ownNode := node
    lock := .hunt
    goodSyncs := 0
    missingSyncs := 0
    sourceMap := Vector.replicate 12 none
    outputMap := Vector.replicate 24 none
    contexts := Vector.replicate 2 none
    firstComplete := 0
    outgoing := none }

/-- No frame is open (R152: HUNT). -/
def Frame.idle : Frame :=
  { boundaryDue := false, opened := none, examDue := false, cellDue := false, grantFree := false, liveTaken := 0 }

/-- Nine zero bytes (R173): the IDLE cell. -/
def Cell.idle : Cell := { kind := 0, dest := 0, origin := 0, payload := Vector.replicate 6 0 }

/-- What the ring carries out of the part before anything was sent: DESIGN CHOICE, zeros (entry 6). -/
def Lane.quiet : Lane :=
  { samples := Vector.replicate 24 0, slots := Vector.replicate 32 0, cell := Cell.idle }

/-- The part at power-on (R151, R160 and the reset rules of each chapter), with own node `node`. -/
def State.powerOn (node : Node) : State :=
  { port := RingPort.powerOn node
    frame := Frame.idle
    lane := Lane.quiet
    ctl := Control.reset
    core := Core.reset
    ramp := RampUnit.reset
    commit := Commit.reset
    eq := EqUnit.reset
    sdv := Sdv.reset
    cue := CueUnit.reset
    table := none
    free := 0
    pending := [] }

/-- The machine right after reset: power-on with the straps at 0, which R151 takes as node 30 (DESIGN CHOICE, entry 5). -/
def State.reset : State := State.powerOn 30

end Sys2Proof.Machine
end

