-- ==== Sys2Proof/Machine/Flags.lean ====
section
/-! DEFINITION. The sticky flags and the clip map of the control unit (R167). -/

namespace Sys2Proof.Machine

/-- The ten sticky flags (R167). -/
inductive Flag
  | badCheck | badLength | badSequence | badTag | rxOverrun | undelivered | unknownUnit | unknownRequest | speedRejected
  | lockLost
  deriving DecidableEq, Repr

/-- A flag's bit of the flag word, from bit 0 upward (11.3). -/
def Flag.bit : Flag → Nat
  | .badCheck => 0
  | .badLength => 1
  | .badSequence => 2
  | .badTag => 3
  | .rxOverrun => 4
  | .undelivered => 5
  | .unknownUnit => 6
  | .unknownRequest => 7
  | .speedRejected => 8
  | .lockLost => 9

/-- R167: sets a flag. A flag already set stays set. -/
def setFlag (f : Flag) (s : State) : State :=
  { s with ctl := { s.ctl with flags := s.ctl.flags ||| BitVec.twoPow 16 f.bit } }

/-- Whether a flag is set. -/
def flagSet (f : Flag) (s : State) : Bool := s.ctl.flags.getLsbD f.bit

/-- R6, R167: sets output `o`'s marker of the clip map. -/
def markClip (o : Output) (s : State) : State :=
  { s with ctl := { s.ctl with clip := s.ctl.clip ||| BitVec.twoPow 24 o.val } }

/-- R168: clear-after-read clears the flags and the clip map. -/
def clearFlags (s : State) : State :=
  { s with ctl := { s.ctl with flags := 0, clip := 0 } }

end Sys2Proof.Machine
end

