-- ==== Sys2Proof/Machine/Operands.lean ====
section
/-! DEFINITION. The wire formats (11): byte order, codes, the fields of a request's data, change records, cue entries. -/

namespace Sys2Proof.Machine

/-! ## Numbers on the wire: most significant byte first, signed fields two's complement -/

/-- The low eight bits of a number. -/
def byteOf (i : Int) : Byte := BitVec.ofInt 8 i

/-- Two bytes, most significant first. -/
def bytes16 (i : Int) : List Byte := [byteOf (i / 256), byteOf i]

/-- Three bytes, most significant first. -/
def bytes24 (i : Int) : List Byte := [byteOf (i / 65536), byteOf (i / 256), byteOf i]

/-- An unsigned 16-bit field. -/
def u16 (h l : Byte) : Nat := h.toNat * 256 + l.toNat

/-- A signed 16-bit field. -/
def s16 (h l : Byte) : Int := (BitVec.ofNat 16 (u16 h l)).toInt

/-- A signed 24-bit field. -/
def s24 (h m l : Byte) : Int := (BitVec.ofNat 24 (u16 h m * 256 + l.toNat)).toInt

/-- A byte as a number from 0 to 255. -/
def byteFin (b : Byte) : Fin 256 := ⟨b.toNat, b.isLt⟩

/-- A byte that must lie below `n`. -/
def below (n : Nat) (b : Byte) : Option (Fin n) := if h : b.toNat < n then some ⟨b.toNat, h⟩ else none

/-- A byte that must be 0 or 1. -/
def bit01 (b : Byte) : Option Bool := if b = 0 then some false else if b = 1 then some true else none

/-- A number within a range. -/
def within (lo hi : Int) (i : Int) : Option Int := if lo ≤ i ∧ i ≤ hi then some i else none

/-- A marker as a byte. -/
def bitByte (b : Bool) : Byte := if b then 1 else 0

/-! ## Codes (11.2, 11.3) -/

/-- Unit codes (11.2). -/
def UnitId.code : UnitId → Byte
  | .ctrl => 0
  | .stage => 1
  | .eq => 2
  | .sdv => 3
  | .cue => 4
  | .table => 5

/-- A unit's place among the execution markers. -/
def UnitId.marker : UnitId → Fin 6
  | .ctrl => 0
  | .stage => 1
  | .eq => 2
  | .sdv => 3
  | .cue => 4
  | .table => 5

/-- The unit a unit byte names; none of the six otherwise (R163 step 1). -/
def UnitId.ofByte (b : Byte) : Option UnitId :=
  match b.toNat with
  | 0 => some .ctrl
  | 1 => some .stage
  | 2 => some .eq
  | 3 => some .sdv
  | 4 => some .cue
  | 5 => some .table
  | _ => none

/-- Result codes (11.2). -/
inductive Result
  | ok | busy | unitOff | unknownUnit | unknownRequest | badLength | badValue | wrongMode | wrongState | queueFull
  | stagingFull | rejected | noSpace | inUse | notLoaded | already | aborted
  deriving DecidableEq, Repr

/-- Result codes (11.2). -/
def Result.code : Result → Byte
  | .ok => 0
  | .busy => 1
  | .unitOff => 2
  | .unknownUnit => 3
  | .unknownRequest => 4
  | .badLength => 5
  | .badValue => 6
  | .wrongMode => 7
  | .wrongState => 8
  | .queueFull => 9
  | .stagingFull => 10
  | .rejected => 11
  | .noSpace => 12
  | .inUse => 13
  | .notLoaded => 14
  | .already => 15
  | .aborted => 16

/-- Mode codes (11.3). -/
def Mode.code : Mode → Byte
  | .standby => 0
  | .run => 1
  | .leaving => 2

/-- Lock state codes (11.3). -/
def Lock.code : Lock → Byte
  | .hunt => 0
  | .locked => 1

/-- SDV state codes (11.3). -/
def SdvState.code : SdvState → Byte
  | .off => 0
  | .tracking => 1
  | .holding => 2
  | .fallback => 3
  | .manual => 4

/-- Runner state codes (11.3). -/
def RunnerState.code : RunnerState → Byte
  | .idle => 0
  | .fetching => 1
  | .stepping => 2
  | .waiting => 3
  | .stopped => 4

/-- Section state codes (11.3). -/
def SectionState.code : SectionState → Byte
  | .free => 0
  | .loading => 1
  | .loaded => 2
  | .claimed => 3
  | .live => 4
  | .retiring => 5

/-- Wait reason codes (11.3). -/
def WaitReason.code : WaitReason → Byte
  | .none => 0
  | .mode => 1
  | .outputBusy => 2
  | .crossfade => 3
  | .ramps => 4

/-- Reasons of a rejected close (R59). -/
inductive RejectReason
  | sectionUnavailable | sectionRepeated | duplicateOutput | tooManyChains | tooManyRamps
  deriving DecidableEq, Repr

/-- Reject reason codes (11.3). -/
def RejectReason.code : RejectReason → Byte
  | .sectionUnavailable => 1
  | .sectionRepeated => 2
  | .duplicateOutput => 3
  | .tooManyChains => 4
  | .tooManyRamps => 5

/-- CUE_STOPPED reason codes (11.2). -/
def StopReason.code : StopReason → Byte
  | .stop => 0
  | .fault => 1

/-- Table ids (R142). -/
def TableId.code : TableId → Byte
  | .zones => 0
  | .cells => 1
  | .outputs => 2
  | .curves => 3
  | .boostCurve => 4
  | .groups => 5
  | .chains => 6
  | .sections => 7
  | .cueMemory => 8
  | .ramps => 9

/-- The table a table-id byte names (R144 check 1). -/
def TableId.ofByte (b : Byte) : Option TableId :=
  match b.toNat with
  | 0 => some .zones
  | 1 => some .cells
  | 2 => some .outputs
  | 3 => some .curves
  | 4 => some .boostCurve
  | 5 => some .groups
  | 6 => some .chains
  | 7 => some .sections
  | 8 => some .cueMemory
  | 9 => some .ramps
  | _ => none

/-- Side codes (11.4). -/
def Side.code : Side → Byte
  | .left => 0
  | .centre => 1
  | .right => 2

/-- Side codes (11.4). -/
def Side.ofByte (b : Byte) : Option Side :=
  match b.toNat with
  | 0 => some .left
  | 1 => some .centre
  | 2 => some .right
  | _ => none

/-- Row codes (11.4). -/
def Row.code : Row → Byte
  | .front => 0
  | .middle => 1
  | .rear => 2
  | .noRow => 3

/-- Row codes (11.4). -/
def Row.ofByte (b : Byte) : Option Row :=
  match b.toNat with
  | 0 => some .front
  | 1 => some .middle
  | 2 => some .rear
  | 3 => some .noRow
  | _ => none

/-- Group codes: 0 to 3, FF hex NONE (11.4). -/
def groupCode : Option Group → Byte
  | some g => byteOf g.val
  | none => 0xFF

/-- Group codes (11.4); the outer `none` is a value outside the codes. -/
def groupOfByte (b : Byte) : Option (Option Group) :=
  if b = 0xFF then some none else (below 4 b).map some

/-- A slot entry of a map: 0 to 31, FF hex NONE (11.3). -/
def slotCode : Option Slot → Byte
  | some i => byteOf i.val
  | none => 0xFF

/-- A slot entry of a map; the outer `none` is a value outside the codes. -/
def slotOfByte (b : Byte) : Option (Option Slot) :=
  if b = 0xFF then some none else (below 32 b).map some

/-- Curve numbers in table order (R25, R33). -/
def CurveId.idx : CurveId → Fin 6
  | .latLeft => 0
  | .latCentre => 1
  | .latRight => 2
  | .longFront => 3
  | .longMiddle => 4
  | .longRear => 5

/-- Curve codes (11.4). -/
def CurveId.ofByte (b : Byte) : Option CurveId :=
  match b.toNat with
  | 0 => some .latLeft
  | 1 => some .latCentre
  | 2 => some .latRight
  | 3 => some .longFront
  | 4 => some .longMiddle
  | 5 => some .longRear
  | _ => none

/-- A gain on the wire: 8000 hex is OFF (11.4, 11.6). -/
def gainBytes : Gain → List Byte
  | .off => [0x80, 0x00]
  | .level l => bytes16 l

/-! ## Change records (R53 to R57, 11.4) -/

/-- The optional ramp of a ZONE or CELL record: presence byte 0 or 1; on 0 the ramp bytes are disregarded (11.4). The outer
`none` is a presence byte outside its codes. -/
def parseRamp (present h l : Byte) : Option (Option Nat) :=
  match bit01 present with
  | some true => some (some (u16 h l))
  | some false => some none
  | none => none

/-- R53: the field of a ZONE record and its value's range. -/
def parseZoneChange (field h l : Byte) : Option ZoneChange :=
  match field.toNat with
  | 0 => (within (-480) 0 (s16 h l)).map .volume
  | 1 => (within (-15) 15 (s16 h l)).map .balance
  | 2 => (within (-15) 15 (s16 h l)).map .fade
  | 3 => if u16 h l = 0 then some (.mute false) else if u16 h l = 1 then some (.mute true) else none
  | _ => none

/-- R53: a ZONE record's body. -/
def parseZone : List Byte → Option ChangeRecord
  | [z, f, h, l, p, rh, rl] => do
      let z ← below 4 z
      let c ← parseZoneChange f h l
      let ms ← parseRamp p rh rl
      pure (.zone z c ms)
  | _ => none

/-- R53: a cell gain, −480 to +24 qdB or OFF (8000 hex). -/
def parseGain (h l : Byte) : Option Gain :=
  if u16 h l = 0x8000 then some .off else (within (-480) 24 (s16 h l)).map .level

/-- R53: a CELL record's body. -/
def parseCell : List Byte → Option ChangeRecord
  | [o, s, h, l, p, rh, rl] => do
      let o ← below 24 o
      let s ← below 12 s
      let g ← parseGain h l
      let ms ← parseRamp p rh rl
      pure (.cell o s g ms)
  | _ => none

/-- R54: an OUTPUT record's body. -/
def parseOutput : List Byte → Option ChangeRecord
  | [o, z, side, row, g, th, tl, ch, cl] => do
      let o ← below 24 o
      let z ← below 4 z
      let side ← Side.ofByte side
      let row ← Row.ofByte row
      let g ← groupOfByte g
      let trim ← within (-96) 24 (s16 th tl)
      let ceiling ← within (-240) 48 (s16 ch cl)
      pure (.output o z side row g trim ceiling)
  | _ => none

/-- R54: a FLAGS record's body. Every one of the 2^24 masks is valid. -/
def parseFlags : List Byte → Option ChangeRecord
  | [op, flag, m2, m1, m0] => do
      let op ← match op.toNat with
        | 0 => some FlagOp.set
        | 1 => some FlagOp.clear
        | 2 => some FlagOp.toggle
        | _ => none
      let flag ← match flag.toNat with
        | 0 => some OutFlag.mute
        | 1 => some OutFlag.invert
        | _ => none
      pure (.flags op flag (BitVec.ofNat 24 (u16 m2 m1 * 256 + m0.toNat)))
  | _ => none

/-- R55: a CHAIN record's body; at most 10 sections. -/
def parseChain (o : Byte) (list : List Byte) : Option ChangeRecord := do
  let o ← below 24 o
  if list.length ≤ 10 then pure (.chain o (list.map byteFin)) else none

/-- Values of two bytes each, every one within a range. -/
def parseValues (lo hi : Int) : List Byte → Option (List Int)
  | h :: l :: rest => do
      let v ← within lo hi (s16 h l)
      let vs ← parseValues lo hi rest
      pure (v :: vs)
  | _ => some []

/-- R55: a CURVE record's body; 1 to 16 values that do not run past index 30. -/
def parseCurve (c first : Byte) (list : List Byte) : Option ChangeRecord := do
  let c ← CurveId.ofByte c
  let first ← below 31 first
  let vs ← parseValues (-480) 0 list
  if 1 ≤ vs.length ∧ vs.length ≤ 16 ∧ first.val + vs.length ≤ 31 then pure (.curve c first vs) else none

/-- Breakpoints of two bytes: the speed in the upper nine bits, the boost in the lower seven (11.4). -/
def parsePoints : List Byte → List (Nat × Int)
  | h :: l :: rest => (u16 h l / 128, ((u16 h l % 128 : Nat) : Int)) :: parsePoints rest
  | _ => []

/-- R56: speeds strictly rising. -/
def rising : List (Nat × Int) → Bool
  | p :: q :: rest => decide (p.1 < q.1) && rising (q :: rest)
  | _ => true

/-- R56: 0 breakpoints or 2 to 16, speeds 0 to 320 strictly rising, boosts 0 to +48. -/
def curveValid (points : List (Nat × Int)) : Bool :=
  decide (points.length ≠ 1) && decide (points.length ≤ 16) && rising points
    && points.all fun p => decide (p.1 ≤ 320) && decide (0 ≤ p.2) && decide (p.2 ≤ 48)

/-- R56: a GROUP record's body. -/
def parseGroup : List Byte → Option ChangeRecord
  | [g, w] => do
      let g ← below 4 g
      if w.toNat ≤ 100 then pure (.group g w.toNat) else none
  | _ => none

/-- The outcome of R57's check of a record. -/
inductive RecordCheck
  | badValue
  | badLength
  | good (r : ChangeRecord)
  deriving DecidableEq, Repr

/-- A field check's outcome as R57's third check. -/
def RecordCheck.ofFields : Option ChangeRecord → RecordCheck
  | some r => .good r
  | none => .badValue

/-- R57's second and third checks for a kind of fixed length. -/
def checkFixed (n : Nat) (parse : List Byte → Option ChangeRecord) (body : List Byte) : RecordCheck :=
  if body.length = n then .ofFields (parse body) else .badLength

/-- R57: the kind, then the length the kind and its declared count require, then the fields; `body` is what follows the
kind byte. -/
def checkRecord (kind : Byte) (body : List Byte) : RecordCheck :=
  match kind.toNat with
  | 1 => checkFixed 7 parseZone body
  | 2 => checkFixed 7 parseCell body
  | 3 => checkFixed 9 parseOutput body
  | 4 => checkFixed 5 parseFlags body
  | 5 =>
      match body with
      | o :: n :: list => if list.length = n.toNat then .ofFields (parseChain o list) else .badLength
      | _ => .badLength
  | 6 =>
      match body with
      | c :: first :: n :: list =>
          if list.length = 2 * n.toNat then .ofFields (parseCurve c first list) else .badLength
      | _ => .badLength
  | 7 =>
      match body with
      | m :: list =>
          if list.length = 2 * m.toNat then
            if curveValid (parsePoints list) then .good (.boostCurve (parsePoints list)) else .badValue
          else .badLength
      | _ => .badLength
  | 8 => checkFixed 2 parseGroup body
  | _ => .badValue

/-! ## Section coefficients (11.5) -/

/-- The 15 bytes b0, b1, b2, a1, a2 of 24 bits each; every value is accepted (R83). -/
def parseCoeffs : List Byte → Option Coeffs
  | [p2, p1, p0, q2, q1, q0, r2, r1, r0, s2, s1, s0, t2, t1, t0] =>
      some { b0 := s24 p2 p1 p0, b1 := s24 q2 q1 q0, b2 := s24 r2 r1 r0, a1 := s24 s2 s1 s0, a2 := s24 t2 t1 t0 }
  | _ => none

/-- The 15 bytes of a section's coefficients (11.6). -/
def coeffBytes (c : Coeffs) : List Byte :=
  bytes24 c.b0 ++ bytes24 c.b1 ++ bytes24 c.b2 ++ bytes24 c.a1 ++ bytes24 c.a2

/-! ## Cue entries (R120, 11.5) -/

/-- A decoded cue entry (R120). -/
inductive Entry
  | step (mask : BitVec 12) (offset : Int) (rampMs : Nat) (holdMs : Nat)
  | wait (ms : Nat)
  | jump (addr : CueAddr)
  | stop (notify : Bool)
  | invalid
  deriving DecidableEq, Repr

/-- R120, 11.5: the kind is the upper four bits of byte 0; a STEP whose offset lies outside −480 to 0 is INVALID. -/
def decodeEntry (e : CueEntry) : Entry :=
  match e[0].toNat / 16 with
  | 1 =>
      if -480 ≤ s16 e[2] e[3] ∧ s16 e[2] e[3] ≤ 0 then
        .step (BitVec.ofNat 12 (u16 e[0] e[1])) (s16 e[2] e[3]) (u16 e[4] e[5]) (u16 e[6] e[7])
      else .invalid
  | 2 => .wait (u16 e[1] e[2])
  | 3 => .jump (byteFin e[1])
  | 4 => .stop (e[1].getLsbD 0)
  | _ => .invalid

/-- A list's first eight bytes as a cue entry; missing bytes read 0. -/
def entryOfBytes (bs : List Byte) : CueEntry := Vector.ofFn fun i => bs.getD i.val 0

/-- The entries of a CUE_WRITE, eight bytes each (R132); at most four are read. -/
def parseEntries : Nat → List Byte → List CueEntry
  | 0, _ => []
  | _, [] => []
  | n + 1, bs => entryOfBytes (bs.take 8) :: parseEntries n (bs.drop 8)

end Sys2Proof.Machine
end

