-- ==== Sys2Proof/Machine/Ops.lean ====
section
/-! DEFINITION. Shared operations: the bytes of cue memory, the two CRCs, the reply queue and its places, notices, and the
reports of table writes to the TABLE unit. -/

namespace Sys2Proof.Machine

/-! ## Memory: a canonical list of bytes -/

/-- What an unlisted byte reads: 0 (R119: all zero bytes at power-on). -/
def Memory.unlisted : Byte := 0

/-- The byte at an address. -/
def Memory.read : Memory → Nat → Byte
  | [], _ => Memory.unlisted
  | (a, b) :: m, x => if x = a then b else Memory.read m x

/-- Stores a byte. Storing what an unlisted byte reads removes the entry. -/
def Memory.write : Memory → Nat → Byte → Memory
  | [], x, v => if v = Memory.unlisted then [] else [(x, v)]
  | (a, b) :: m, x, v =>
      if x < a then if v = Memory.unlisted then (a, b) :: m else (x, v) :: (a, b) :: m
      else if x = a then if v = Memory.unlisted then m else (a, v) :: m
      else (a, b) :: Memory.write m x v

/-- The canonical form: addresses strictly rising, no entry equal to what an unlisted byte reads. -/
def Memory.wf : Memory → Bool
  | [] => true
  | [(_, b)] => decide (b ≠ Memory.unlisted)
  | (a, b) :: (a', b') :: m => decide (a < a') && decide (b ≠ Memory.unlisted) && Memory.wf ((a', b') :: m)

/-- The eight bytes of the cue entry at an address: entry a's byte i stands at 8a + i. -/
def readEntry (m : Memory) (a : CueAddr) : CueEntry := Vector.ofFn fun i => Memory.read m (8 * a.val + i.val)

/-- Stores bytes at consecutive addresses. -/
def writeBytes (m : Memory) (at_ : Nat) : List Byte → Memory
  | [] => m
  | b :: bs => writeBytes (Memory.write m at_ b) (at_ + 1) bs

/-- R132: stores entries at consecutive cue addresses, wrapping from 255 to 0. -/
def writeEntries (m : Memory) (a : CueAddr) : List CueEntry → Memory
  | [] => m
  | e :: es => writeEntries (writeBytes m (8 * a.val) e.toList) (a + 1) es

/-! ## Checks (11.2) -/

/-- One bit of the CRC-8 of polynomial 07 hex. -/
def crc8Bit (c : BitVec 8) : BitVec 8 := if c.msb then (c <<< 1) ^^^ 0x07 else c <<< 1

/-- One byte of the CRC-8, most significant bit first. -/
def crc8Byte (c : BitVec 8) (b : Byte) : BitVec 8 :=
  crc8Bit (crc8Bit (crc8Bit (crc8Bit (crc8Bit (crc8Bit (crc8Bit (crc8Bit (c ^^^ b))))))))

/-- The CRC-8 of a packet's bytes, initial value 0. -/
def crc8 (bs : List Byte) : BitVec 8 := bs.foldl crc8Byte 0

/-- One bit of the CRC-16 of polynomial 1021 hex. -/
def crc16Bit (c : BitVec 16) : BitVec 16 := if c.msb then (c <<< 1) ^^^ 0x1021 else c <<< 1

/-- One byte of the CRC-16, most significant bit first. -/
def crc16Byte (c : BitVec 16) (b : Byte) : BitVec 16 :=
  crc16Bit (crc16Bit (crc16Bit (crc16Bit (crc16Bit (crc16Bit (crc16Bit (crc16Bit
    (c ^^^ (b.zeroExtend 16 <<< 8)))))))))

/-- R147: feeds bytes to the digest's register. -/
def crc16 (c : BitVec 16) (bs : List Byte) : BitVec 16 := bs.foldl crc16Byte c

/-! ## Reply packets (R164, 11.2) -/

/-- A packet's bytes from those before the length: the length, the data and the CRC-8. -/
def packetBytes (head data : List Byte) : List Byte :=
  let body := head ++ byteOf data.length :: data
  body ++ [crc8 body]

/-- R164: the reply to a request, sent to its origin. The reply marker is bit 7 of the request code (entry 14). -/
def replyPacket (rq : Requester) (res : Result) (data : List Byte) : OutPacket :=
  { dest := rq.origin, bytes := packetBytes [rq.tag, rq.unitByte, rq.code ||| 0x80, res.code] data }

/-! ## The reply queue (R164, R165) -/

/-- The reply queue's four places (R165). -/
def queuePlaces : Nat := 4

/-- Whether the reply queue has a free place. -/
def placeFree (s : State) : Bool := decide (s.ctl.queue.length < queuePlaces)

/-- Writes a packet into a place held for a request's answer; other places stand. -/
def Place.answered (p : OutPacket) : Place → Place
  | .held _ => .packet p
  | .reservation rq => .reservation rq
  | .packet q => .packet q

/-- Turns a place held for a request's answer into a reservation; other places stand. -/
def Place.reserved : Place → Place
  | .held rq => .reservation rq
  | .reservation rq => .reservation rq
  | .packet q => .packet q

/-- Writes a packet into the reservation of a unit; other places stand. -/
def Place.filled (u : UnitId) (res : Result) (data : List Byte) : Place → Place
  | .held rq => .held rq
  | .reservation rq => if rq.unitByte = u.code then .packet (replyPacket rq res data) else .reservation rq
  | .packet q => .packet q

/-- Whether a place is held for an answer not yet written. -/
def Place.isHeld : Place → Bool
  | .held _ => true
  | .reservation _ => false
  | .packet _ => false

/-- The requester a unit's reservation is held for, if any place is one. -/
def reservationOf (u : UnitId) : List Place → Option Requester
  | [] => none
  | .reservation rq :: q => if rq.unitByte = u.code then some rq else reservationOf u q
  | .held _ :: q => reservationOf u q
  | .packet _ :: q => reservationOf u q

/-- R164: the last good tag after a reply with a result is written. -/
def lastGoodAfter (rq : Requester) (res : Result) (old : Option Byte) : Option Byte :=
  if res = .ok then some rq.tag else old

/-- R164: writes a request's reply into its place at once. -/
def answer (rq : Requester) (res : Result) (data : List Byte) (s : State) : State :=
  { s with ctl := { s.ctl with
      queue := s.ctl.queue.map (Place.answered (replyPacket rq res data))
      lastGood := lastGoodAfter rq res s.ctl.lastGood } }

/-- R164: converts the request's place into a reservation and marks the unit in execution. -/
def reserve (u : UnitId) (s : State) : State :=
  { s with ctl := { s.ctl with
      queue := s.ctl.queue.map Place.reserved
      executing := s.ctl.executing.set u.marker true } }

/-- R161, R162: releases the place of a packet that is not answered. -/
def releasePlace (s : State) : State :=
  { s with ctl := { s.ctl with queue := s.ctl.queue.filter fun p => !p.isHeld } }

/-- R164: writes the reply of a unit's operation into its reservation and clears the execution marker in the same step. -/
def fillReservation (u : UnitId) (res : Result) (data : List Byte) (s : State) : State :=
  { s with ctl := { s.ctl with
      queue := s.ctl.queue.map (Place.filled u res data)
      executing := s.ctl.executing.set u.marker false
      lastGood :=
        match reservationOf u s.ctl.queue with
        | some rq => lastGoodAfter rq res s.ctl.lastGood
        | none => s.ctl.lastGood } }

/-- Whether a unit is in execution (R163 step 5). -/
def inExecution (u : UnitId) (s : State) : Bool := s.ctl.executing[u.marker]

/-! ## Notices (R166) -/

/-- R166, R171: whether a notice's kind is enabled. -/
def NoticeEnables.allows (e : NoticeEnables) : Notice → Bool
  | .setApplied _ => e.setApplied
  | .cueStopped _ _ _ => e.cueStopped
  | .sdvState _ => e.sdvState
  | .ringRelocked => e.ringRelocked

/-- R166: whether two notices are one pending instance: one per kind, and one per runner of CUE_STOPPED. -/
def Notice.sameInstance : Notice → Notice → Bool
  | .setApplied _, .setApplied _ => true
  | .cueStopped r _ _, .cueStopped r' _ _ => decide (r = r')
  | .sdvState _, .sdvState _ => true
  | .ringRelocked, .ringRelocked => true
  | _, _ => false

/-- R166: a raised notice replaces its pending instance in its place, or becomes pending last. -/
def addNotice (n : Notice) : List Notice → List Notice
  | [] => [n]
  | m :: ms => if m.sameInstance n then n :: ms else m :: addNotice n ms

/-- The code of a notice (11.2). -/
def Notice.code : Notice → Byte
  | .setApplied _ => 0x41
  | .cueStopped _ _ _ => 0x42
  | .sdvState _ => 0x43
  | .ringRelocked => 0x44

/-- The data of a notice (11.2). -/
def Notice.data : Notice → List Byte
  | .setApplied n => [byteOf n.val]
  | .cueStopped r reason a => [byteOf r.val, reason.code, byteOf a.val]
  | .sdvState st => [st.code]
  | .ringRelocked => []

/-- R166, 11.2: the packet of a notice: tag 0, unit 0, its code with the reply marker, result OK, to node 0. -/
def noticePacket (n : Notice) : OutPacket :=
  { dest := 0, bytes := packetBytes [0, 0, n.code ||| 0x80, Result.ok.code] n.data }

/-- R166: the places that take the pending notices, oldest first, and the notices that stay pending. -/
def enqueueNotices : List Notice → List Place → List Place × List Notice
  | [], q => (q, [])
  | n :: ns, q =>
      if q.length < queuePlaces then enqueueNotices ns (q ++ [.packet (noticePacket n)]) else (q, n :: ns)

/-- R166: whenever a place is free and a notice is pending, the oldest is appended. NOTICE_QUEUE takes this step once;
every step that raises a notice, takes a packet or takes an outgoing packet finds it taken as far as it goes, for the spec
has it happen "at once" (entry 15). -/
def queueNotices (s : State) : State :=
  { s with ctl := { s.ctl with
      queue := (enqueueNotices s.ctl.notices s.ctl.queue).1
      notices := (enqueueNotices s.ctl.notices s.ctl.queue).2 } }

/-- R166: raises a notice when its kind is enabled. Notices owed a free place are queued before it. -/
def raiseNotice (n : Notice) (s : State) : State :=
  if s.ctl.noticeOn.allows n then
    let t := queueNotices s
    { t with ctl := { t.ctl with notices := addNotice n t.ctl.notices } }
  else s

/-! ## The TABLE unit's operation (R143, R149, R150) -/

/-- Outcomes of a digest (11.3). -/
inductive DigestOutcome
  | complete | part | disturbed | aborted
  deriving DecidableEq, Repr

/-- Outcome codes of a digest (11.3). -/
def DigestOutcome.code : DigestOutcome → Byte
  | .complete => 0
  | .part => 1
  | .disturbed => 2
  | .aborted => 3

/-- R148: the data of a digest's reply: outcome, CRC register, next index, covered count. -/
def digestData (o : DigestOutcome) (op : TableOp) : List Byte :=
  o.code :: bytes16 op.crc.toNat ++ bytes16 op.next ++ bytes16 op.covered

/-- R143: ends the operation: its reservation is filled, the marker cleared, and the operation is none. -/
def endTableOp (res : Result) (data : List Byte) (s : State) : State :=
  { fillReservation .table res data s with table := none }

/-- R149: whether a write to an entry disturbs an operation: a digest of that table whose covered part holds the entry. -/
def TableOp.disturbedBy (op : TableOp) (t : TableId) (i : Nat) : Bool :=
  decide (op.kind = .digest) && decide (op.table = t) && decide (op.first ≤ i) && decide (i < op.next)

/-- R142, R149: the TABLE unit hears of writes to entries of a table. -/
def reportWrites (t : TableId) (is : List Nat) (s : State) : State :=
  match s.table with
  | none => s
  | some op =>
      if is.any (op.disturbedBy t) then endTableOp .ok (digestData .disturbed op) s else s

/-- R150: abandons the operation: a digest with its fields, a read with no entries. -/
def abortTableOp (s : State) : State :=
  match s.table with
  | none => s
  | some op =>
      match op.kind with
      | .digest => endTableOp .aborted (digestData .aborted op) s
      | .read => endTableOp .aborted [] s

end Sys2Proof.Machine
end

