-- ==== Sys2Proof/Machine/Ramps.lean ====
section
/-! DEFINITION. The gain ramp unit (03): the ramp law, retargets, the advance, the two passes of an application, duck
requests and the emptying of the table. -/

namespace Sys2Proof.Machine

/-! ## The ramp law (R36) -/

/-- A gain as a level: OFF counts as −480 (R2, R36). -/
def Gain.qdb : Gain → Int
  | .off => -480
  | .level l => l

/-- R36: start + trunc((target − start) × k / n), the product formed in full. -/
def Ramp.value (r : Ramp) : Int := r.start + ((r.target.qdb - r.start) * (r.k : Int)).tdiv (r.n : Int)

/-- R41: the value a retarget starts from: where the entry's last advance is still owed at this boundary, the value that
advance reaches. -/
def Ramp.present (r : Ramp) : Int := if r.due then r.target.qdb else r.value

/-! ## Entries (R34, R38, R42) -/

/-- The entry that holds a key, the lowest-numbered where there were several. -/
def RampUnit.find (u : RampUnit) (k : Key) : Option (Fin 64) :=
  (List.finRange 64).find? fun i =>
    match u.entries[i] with
    | some r => decide (r.key = k)
    | none => false

/-- R38: the lowest-numbered free general entry. -/
def RampUnit.lowestFree (u : RampUnit) : Option (Fin 64) :=
  (List.finRange 64).find? fun i => decide (i.val < 48) && (u.entries[i]).isNone

/-- R42: the free general count. -/
def RampUnit.freeGeneral (u : RampUnit) : Nat :=
  (List.finRange 64).countP fun i => decide (i.val < 48) && (u.entries[i]).isNone

/-- R38: the entry a key takes: its dedicated entry (48 + s, 60 + g), or the lowest-numbered free general entry. -/
def RampUnit.entryFor (u : RampUnit) : Key → Option (Fin 64)
  | .level _ => u.lowestFree
  | .cell _ _ => u.lowestFree
  | .duck s => some ⟨48 + s.val, by omega⟩
  | .boost g => some ⟨60 + g.val, by omega⟩

/-- R35: a key's current value, given its target: its ramp's value, or the target when it is settled. -/
def RampUnit.current (u : RampUnit) (k : Key) (target : Gain) : Gain :=
  match u.find k with
  | some i =>
      match u.entries[i] with
      | some r => .level r.value
      | none => target
  | none => target

/-- R38: a key's present value when a retarget is taken, given the target it holds. -/
def RampUnit.present (u : RampUnit) (k : Key) (target : Gain) : Int :=
  match u.find k with
  | some i =>
      match u.entries[i] with
      | some r => r.present
      | none => target.qdb
  | none => target.qdb

/-! ## Retargets (R38 to R41) -/

/-- R38, second case: whether a retarget is a jump: in STANDBY, with 0 ms, or with no distance. -/
def RampUnit.jumps (u : RampUnit) (m : Mode) (k : Key) (old new : Gain) (ms : Nat) : Bool :=
  decide (m = .standby) || decide (ms = 0) || decide (u.present k old = new.qdb)

/-- The ramp a retarget starts (R38, R39): from the key's present value, n = 48 × ms, k = 0. -/
def RampUnit.newRamp (u : RampUnit) (k : Key) (old new : Gain) (ms : Nat) : Ramp :=
  { key := k, start := u.present k old, target := new, n := 48 * ms, k := 0, due := false }

/-- R40: frees the key's entry, if it has one. -/
def RampUnit.freeKey (u : RampUnit) (k : Key) : RampUnit :=
  match u.find k with
  | some i => { u with entries := u.entries.set i none }
  | none => u

/-- R38 to R40: a retarget of a key from the target `old` it holds to `new`, in mode `m`. The owner stores the new target.
A general retarget that finds no free entry does not occur (R38); it is taken as a jump (entry 20). -/
def RampUnit.retarget (u : RampUnit) (m : Mode) (k : Key) (old new : Gain) (ms : Nat) : RampUnit :=
  if new = old then u
  else if u.jumps m k old new ms then u.freeKey k
  else
    match u.find k with
    | some i => { u with entries := u.entries.set i (some (u.newRamp k old new ms)) }
    | none =>
        match u.entryFor k with
        | some i => { u with entries := u.entries.set i (some (u.newRamp k old new ms)) }
        | none => u

/-- One retarget of a set's application: key, target held, new target, duration in ms. -/
structure Move where
  key : Key
  old : Gain
  new : Gain
  ms : Nat
  deriving DecidableEq, Repr

/-- R42: whether a retarget belongs to the first pass: it leaves its key untouched or makes it jump. -/
def RampUnit.firstPass (u : RampUnit) (m : Mode) (v : Move) : Bool :=
  decide (v.new = v.old) || u.jumps m v.key v.old v.new v.ms

/-- Takes a list of retargets in order. -/
def RampUnit.takeMoves (u : RampUnit) (m : Mode) (vs : List Move) : RampUnit :=
  vs.foldl (fun u v => u.retarget m v.key v.old v.new v.ms) u

/-- R42: the two passes of an application, over its retargets in ascending key order. -/
def RampUnit.applyMoves (u : RampUnit) (m : Mode) (vs : List Move) : RampUnit :=
  (u.takeMoves m (vs.filter (u.firstPass m))).takeMoves m (vs.filter fun v => !u.firstPass m v)

/-! ## The advance (R37) -/

/-- R37: an active entry's advance at a boundary. The advance that brings k to n is RAMP_COMPLETE's, and is marked owed. -/
def Ramp.advance (r : Ramp) : Ramp := if r.k + 1 < r.n then { r with k := r.k + 1 } else { r with due := true }

/-- R37: every active entry advances. -/
def RampUnit.advance (u : RampUnit) : RampUnit := { u with entries := u.entries.map (Option.map Ramp.advance) }

/-- Whether an entry's completion is owed at this boundary. -/
def RampUnit.dueAt (u : RampUnit) (i : Fin 64) : Bool :=
  match u.entries[i] with
  | some r => r.due
  | none => false

/-- R37: completes an owed entry: it is freed, and its settled key's current value is its target (R35). -/
def RampUnit.complete (u : RampUnit) (i : Fin 64) : RampUnit :=
  if u.dueAt i then { u with entries := u.entries.set i none } else u

/-- Whether any entry's completion is owed. -/
def RampUnit.anyDue (u : RampUnit) : Bool := (List.finRange 64).any u.dueAt

/-- R49: every active entry is freed, each key landing on its target. -/
def RampUnit.empty (u : RampUnit) : RampUnit := { u with entries := Vector.replicate 64 none }

/-! ## Targets and current values of all keys (R35) -/

/-- An entry of the cell matrix (R44). -/
def cellIndex (o : Output) (s : Source) : Fin 288 := ⟨o.val * 12 + s.val, by omega⟩

/-- R35: the target a key holds, from its owner. -/
def keyTarget (s : State) : Key → Gain
  | .level o => .level s.core.levelTargets[o]
  | .cell o src => s.core.live.cells[cellIndex o src]
  | .duck src => .level s.ramp.duckTargets[src]
  | .boost g => .level s.sdv.targets[g]

/-- R35: a key's current value. -/
def keyCurrent (s : State) (k : Key) : Gain := s.ramp.current k (keyTarget s k)

/-! ## DUCK targets (R45, R128) -/

/-- The lower of the two runners' requests for a source. -/
def duckMin (c : CueUnit) (src : Source) : Int := min (c.runners[0].requests[src]) (c.runners[1].requests[src])

/-- R45: recomputes a source's minimum and retargets DUCK(s) when it differs from the target, with the duration of the change that
moved it. DESIGN CHOICE (entry 32): so also in every case of both runners' changes at one boundary where the last change to move the
minimum is not the one R45 expects: the deeper new request's taken first, whether the other request rises past it or both rise, and
two equal new requests above the old minimum, which the change taken second moves. -/
def recomputeDuck (src : Source) (ms : Nat) (s : State) : State :=
  { s with ramp :=
      { s.ramp.retarget s.core.mode (.duck src) (.level s.ramp.duckTargets[src]) (.level (duckMin s.cue src)) ms with
        duckTargets := s.ramp.duckTargets.set src (duckMin s.cue src) } }

/-- Replaces a runner. -/
def CueUnit.setRunner (c : CueUnit) (r : RunnerNo) (x : Runner) : CueUnit := { c with runners := c.runners.set r x }

/-- Changes a runner. -/
def onRunner (r : RunnerNo) (f : Runner → Runner) (s : State) : State :=
  { s with cue := s.cue.setRunner r (f s.cue.runners[r]) }

/-- R124, R128: a runner's request for a source becomes `v`. A request that already held `v` is not handed over. -/
def setRequest (r : RunnerNo) (v : Int) (ms : Nat) (src : Source) (s : State) : State :=
  if s.cue.runners[r].requests[src] = v then s
  else recomputeDuck src ms (onRunner r (fun x => { x with requests := x.requests.set src v }) s)

/-- R124, R128: the requests of the named sources become `v`, each with the cause's duration. -/
def setRequests (r : RunnerNo) (v : Int) (ms : Nat) (srcs : List Source) (s : State) : State :=
  srcs.foldl (fun s src => setRequest r v ms src s) s

end Sys2Proof.Machine
end

