-- ==== Sys2Proof/Machine/Runners.lean ====
section
/-! DEFINITION. The cue runners (07): the entry at position 0, shifts, releases and halts. -/

namespace Sys2Proof.Machine

/-- Frames of a millisecond (00_scope.md). -/
def msFrames (ms : Nat) : Nat := 48 * ms

/-- The greatest count of elapsed frames R121 gives. -/
def maxElapsed : Nat := 6291360

/-- R121: the position-0 address: the next-fetch address less the number of valid positions, modulo 256. -/
def Runner.address (x : Runner) : CueAddr := x.nextFetch - Fin.ofNat 256 x.window.length

/-- The sources in a STEP's mask (R120): marker i stands for source i. -/
def maskSources (m : BitVec 12) : List Source := (List.finRange 12).filter fun src => m.getLsbD src.val

/-- R123: the window moves up by one position. -/
def Runner.shift (x : Runner) : Runner := { x with window := x.window.tail, elapsed := 0, due := false }

/-- R123: a runner whose position 0 is invalid is FETCHING. -/
def Runner.fetching (x : Runner) : Runner := { x with state := .fetching, window := [], elapsed := 0, due := false }

/-- R127: the runner ends its cue; window, next-fetch address, timed-out flag and requests stand. -/
def Runner.stopped (x : Runner) : Runner := { x with state := .stopped, latch := false, elapsed := 0, due := false }

/-- R123 to R127: starts the entry at position 0, and those after it that complete as they start. `fuel` bounds the entries
of the window. -/
def startEntry (r : RunnerNo) : Nat → State → State
  | 0, s => onRunner r Runner.fetching s
  | fuel + 1, s =>
      match s.cue.runners[r].window with
      | [] => onRunner r Runner.fetching s
      | e :: _ =>
          match decodeEntry e with
          | .step mask offset rampMs holdMs =>
              let t := setRequests r offset rampMs (maskSources mask) s
              if rampMs + holdMs = 0 then startEntry r fuel (onRunner r Runner.shift t)
              else onRunner r (fun x => { x with state := .stepping, elapsed := 0, due := false }) t
          | .wait _ =>
              if s.cue.runners[r].latch then
                startEntry r fuel (onRunner r (fun x => { x.shift with latch := false, timedOut := false }) s)
              else onRunner r (fun x => { x with state := .waiting, elapsed := 0, due := false }) s
          | .jump a => onRunner r (fun x => { x.fetching with nextFetch := a }) s
          | .stop notify =>
              let t := onRunner r Runner.stopped s
              if notify then raiseNotice (.cueStopped r .stop s.cue.runners[r].address) t else t
          | .invalid => raiseNotice (.cueStopped r .fault s.cue.runners[r].address) (onRunner r Runner.stopped s)

/-- R123: starts the entry at position 0 of a runner's window. -/
def startWindow (r : RunnerNo) (s : State) : State := startEntry r (s.cue.runners[r].window.length + 1) s

/-- R123: completes the entry at position 0: the window shifts and the next entry starts in the same frame. -/
def completeEntry (r : RunnerNo) (s : State) : State := startWindow r (onRunner r Runner.shift s)

/-- R125: completes the WAIT at position 0, with the timed-out flag as given. -/
def completeWait (r : RunnerNo) (timedOut : Bool) (s : State) : State :=
  completeEntry r (onRunner r (fun x => { x with timedOut := timedOut }) s)

/-- The frames after which the entry at position 0 ends by itself: a STEP's length (R124), a WAIT's timeout when it is not 0
(R125). -/
def Runner.entryFrames (x : Runner) : Option Nat :=
  match x.window with
  | [] => none
  | e :: _ =>
      match decodeEntry e with
      | .step _ _ rampMs holdMs => some (msFrames (rampMs + holdMs))
      | .wait ms => if ms = 0 then none else some (msFrames ms)
      | .jump _ => none
      | .stop _ => none
      | .invalid => none

/-- R123: the count of a STEPPING or WAITING runner at a boundary. The count that ends its entry is STEP_COMPLETE's or
WAIT_TIMEOUT's and is marked owed. Past the range R121 gives, a WAIT without a timeout holds a free value (entry 9). -/
def Runner.advance (free : Nat) (x : Runner) : Runner :=
  if x.state = .stepping ∨ x.state = .waiting then
    match x.entryFrames with
    | some n => if x.elapsed + 1 < n then { x with elapsed := x.elapsed + 1 } else { x with due := true }
    | none =>
        if x.elapsed < maxElapsed then { x with elapsed := x.elapsed + 1 }
        else { x with elapsed := Config.freeElapsed free % (maxElapsed + 1) }
  else x

/-- R123: both runners count. The free value's index advances for each. -/
def advanceRunners (s : State) : State :=
  { onRunner 1 (Runner.advance (s.free + 1)) (onRunner 0 (Runner.advance s.free) s) with free := s.free + 2 }

/-- R123: a STEPPING runner whose last count is owed completes its STEP. -/
def takeStep (r : RunnerNo) (s : State) : State :=
  if s.cue.runners[r].state = .stepping ∧ s.cue.runners[r].due then completeEntry r s else s

/-- R125: a WAITING runner whose timeout's last count is owed expires. -/
def takeTimeout (r : RunnerNo) (s : State) : State :=
  if s.cue.runners[r].state = .waiting ∧ s.cue.runners[r].due then completeWait r true s else s

/-- R130: the runner's own part of a halt; the next-fetch address stands. -/
def Runner.halted (x : Runner) : Runner :=
  { x with state := .idle, window := [], latch := false, timedOut := false, elapsed := 0, due := false }

/-- The DUCK duration of a halt: 50 ms (R45). -/
def haltMs : Nat := 50

/-- R130: halts a runner; all twelve requests become 0, each change handed over as a halt. -/
def haltRunner (r : RunnerNo) (s : State) : State :=
  setRequests r 0 haltMs (List.finRange 12) (onRunner r Runner.halted s)

/-- R15, R136, R137: both runners are halted. -/
def haltBoth (s : State) : State := haltRunner 1 (haltRunner 0 s)

/-- R122: a granted fetch: four copies, the next-fetch address moves on by 4, the entry at position 0 starts. -/
def fetchWindow (r : RunnerNo) (s : State) : State :=
  startWindow r (onRunner r (fun x =>
    { x with
        window := [readEntry s.cue.mem x.nextFetch, readEntry s.cue.mem (x.nextFetch + 1),
          readEntry s.cue.mem (x.nextFetch + 2), readEntry s.cue.mem (x.nextFetch + 3)]
        nextFetch := x.nextFetch + 4 }) s)

/-- R133: abandons the pending cue write: its reservation is filled with ABORTED, the address and the number of entries. -/
def abortCueWrite (s : State) : State :=
  match s.cue.pendingWrite with
  | none => s
  | some w =>
      fillReservation .cue .aborted [byteOf w.addr.val, byteOf w.entries.length]
        { s with cue := { s.cue with pendingWrite := none } }

/-- R136: the cue unit is disabled. -/
def cueDisable (s : State) : State := haltBoth (abortCueWrite s)

/-- R137: UNIT_RESET(CUE). -/
def cueReset (s : State) : State :=
  onRunner 1 (fun x => { x with nextFetch := 0 }) (onRunner 0 (fun x => { x with nextFetch := 0 }) (haltBoth (abortCueWrite s)))

end Sys2Proof.Machine
end

