-- ==== Sys2Proof/Machine/Pool.lean ====
section
/-! DEFINITION. The equalisation unit's pool, free map, chains and crossfade slots (05). Each change of a section's
coefficients or state is reported to the TABLE unit (R88). -/

namespace Sys2Proof.Machine

/-! ## The free map (R80, R81) -/

/-- The section group of a section: 64 × g to 64 × g + 63 (R78). -/
def sectionGroup (i : SectionNo) : Fin 4 := ⟨i.val / 64, by omega⟩

/-- A section's marker of its group's word (R80). -/
def sectionMarker (i : SectionNo) : Nat := i.val % 64

/-- R80: a section's level-1 marker. -/
def EqUnit.marked (e : EqUnit) (i : SectionNo) : Bool := (e.free1[sectionGroup i]).getLsbD (sectionMarker i)

/-- R81: a section becomes FREE: its marker and its group's level-0 marker are set. -/
def EqUnit.markFree (e : EqUnit) (i : SectionNo) : EqUnit :=
  { e with
      free1 := e.free1.set (sectionGroup i) (e.free1[sectionGroup i] ||| BitVec.twoPow 64 (sectionMarker i))
      free0 := e.free0 ||| BitVec.twoPow 4 (sectionGroup i).val }

/-- R81: an allocated section's marker is cleared, and its group's level-0 marker when the word has none left. -/
def EqUnit.markUsed (e : EqUnit) (i : SectionNo) : EqUnit :=
  { e with
      free1 := e.free1.set (sectionGroup i) (e.free1[sectionGroup i] &&& ~~~BitVec.twoPow 64 (sectionMarker i))
      free0 :=
        if e.free1[sectionGroup i] &&& ~~~BitVec.twoPow 64 (sectionMarker i) = 0 then
          e.free0 &&& ~~~BitVec.twoPow 4 (sectionGroup i).val
        else e.free0 }

/-- R81: the lowest-numbered FREE section, through the two levels. -/
def EqUnit.lowestFree (e : EqUnit) : Option SectionNo :=
  match (List.finRange 4).find? fun g => e.free0.getLsbD g.val with
  | none => none
  | some g =>
      match (List.finRange 64).find? fun m => (e.free1[g]).getLsbD m.val with
      | none => none
      | some m => some ⟨64 * g.val + m.val, by omega⟩

/-- R80: the free count, the number of level-1 markers set. -/
def EqUnit.freeCount (e : EqUnit) : Nat := (List.finRange 256).countP e.marked

/-- R86: the number of sections in a state. -/
def EqUnit.stateCount (e : EqUnit) (st : SectionState) : Nat :=
  (List.finRange 256).countP fun i => decide ((e.sections[i]).state = st)

/-! ## Sections -/

/-- Puts a section into a state. -/
def EqUnit.putState (e : EqUnit) (i : SectionNo) (st : SectionState) : EqUnit :=
  { e with sections := e.sections.set i { e.sections[i] with state := st } }

/-- Puts sections into a state. -/
def EqUnit.putStates (e : EqUnit) (is : List SectionNo) (st : SectionState) : EqUnit :=
  is.foldl (fun e i => e.putState i st) e

/-- R90, R91: sections become LIVE with their history zero. -/
def EqUnit.makeLive (e : EqUnit) (is : List SectionNo) : EqUnit :=
  is.foldl (fun (e : EqUnit) (i : SectionNo) =>
    { e with sections := e.sections.set i { e.sections[i] with state := .live, hist := History.zero } }) e

/-- R88: the sections are reported to the TABLE unit as written. -/
def reportSections (is : List SectionNo) (s : State) : State := reportWrites .sections (is.map Fin.val) s

/-- Whether every one of the sections is LOADED (R59 check 4). -/
def EqUnit.allLoaded (e : EqUnit) (is : List SectionNo) : Bool := is.all fun i => decide ((e.sections[i]).state = .loaded)

/-- R61: the sections of an accepted set go from LOADED to CLAIMED. -/
def claimSections (is : List SectionNo) (s : State) : State :=
  reportSections is { s with eq := s.eq.putStates is .claimed }

/-- R75: the sections of a discarded set go from CLAIMED to LOADED. -/
def unclaimSections (is : List SectionNo) (s : State) : State :=
  reportSections is { s with eq := s.eq.putStates is .loaded }

/-! ## Crossfade slots (R92 to R95) -/

/-- Frames of a crossfade (R94). -/
def fadeFrames : Nat := 480

/-- Whether a slot in use carries an output. -/
def EqUnit.carries (e : EqUnit) (o : Output) (i : Fin 4) : Bool :=
  match e.slots[i] with
  | some x => decide (x.output = o)
  | none => false

/-- R91, R94: the slot that carries an output, if one does. -/
def EqUnit.slotOf (e : EqUnit) (o : Output) : Option Crossfade :=
  match (List.finRange 4).find? (e.carries o) with
  | some i => e.slots[i]
  | none => none

/-- R65: the slots free. -/
def EqUnit.freeSlots (e : EqUnit) : Nat := (List.finRange 4).countP fun i => (e.slots[i]).isNone

/-- R93: the lowest-numbered free slot. -/
def EqUnit.lowestSlot (e : EqUnit) : Option (Fin 4) := (List.finRange 4).find? fun i => (e.slots[i]).isNone

/-- R95: the chain is swapped at once: old sections LOADED, new ones LIVE with history zero. -/
def swapAtOnce (o : Output) (list : List SectionNo) (s : State) : State :=
  reportWrites .chains [o.val] (reportSections (s.eq.chains[o] ++ list)
    { s with eq :=
        { (s.eq.putStates s.eq.chains[o] .loaded).makeLive list with chains := s.eq.chains.set o list } })

/-- R93: the chain is swapped with a crossfade in slot `i`: old sections RETIRING, new ones LIVE with history zero. -/
def swapWithFade (i : Fin 4) (o : Output) (list : List SectionNo) (s : State) : State :=
  reportWrites .chains [o.val] (reportSections (s.eq.chains[o] ++ list)
    { s with eq :=
        { (s.eq.putStates s.eq.chains[o] .retiring).makeLive list with
            chains := s.eq.chains.set o list
            slots := s.eq.slots.set i (some { output := o, old := s.eq.chains[o], k := 0, due := false }) } })

/-- R71: a CHAIN record's swap: a crossfade in RUN with EQ enabled, at once otherwise. The examination has found a free slot
(R93); without one, which does not occur, the swap is at once (entry 20). -/
def swapChain (o : Output) (list : List SectionNo) (s : State) : State :=
  if s.core.mode = .run ∧ s.ctl.enabled.eq then
    match s.eq.lowestSlot with
    | some i => swapWithFade i o list s
    | none => swapAtOnce o list s
  else swapAtOnce o list s

/-- R94: a slot's advance at a boundary. The advance that reaches 480 is CROSSFADE_END's and is marked owed. -/
def Crossfade.advance (x : Crossfade) : Crossfade := if x.k + 1 < fadeFrames then { x with k := x.k + 1 } else { x with due := true }

/-- R94: every slot in use advances. -/
def EqUnit.advance (e : EqUnit) : EqUnit := { e with slots := e.slots.map (Option.map Crossfade.advance) }

/-- R94, R95: a slot ends at the k it has reached: its old chain's sections go from RETIRING to LOADED, the slot is freed. -/
def endSlot (i : Fin 4) (s : State) : State :=
  match s.eq.slots[i] with
  | some x =>
      reportSections x.old
        { s with eq := { s.eq.putStates x.old .loaded with slots := s.eq.slots.set i none } }
  | none => s

/-- Whether a slot's end is owed at this boundary. -/
def EqUnit.dueAt (e : EqUnit) (i : Fin 4) : Bool :=
  match e.slots[i] with
  | some x => x.due
  | none => false

/-- R94: takes an owed end of a crossfade. -/
def takeFadeEnd (i : Fin 4) (s : State) : State := if s.eq.dueAt i then endSlot i s else s

/-- R95: on entering STANDBY every slot in use ends at once. -/
def endAllSlots (s : State) : State := (List.finRange 4).foldl (fun s i => endSlot i s) s

/-! ## The pending section write, disable and reset (R82, R87, R97, R99) -/

/-- R82: the write is granted: coefficients stored, LOADING to LOADED, the reservation filled with OK and the number. -/
def completeSectionWrite (w : SectionWrite) (s : State) : State :=
  fillReservation .eq .ok [byteOf w.sec.val] (reportSections [w.sec]
    { s with eq :=
        { s.eq with
            sections := s.eq.sections.set w.sec { s.eq.sections[w.sec] with coeffs := w.coeffs, state := .loaded }
            pendingWrite := none } })

/-- R87: the pending write is abandoned: a LOAD's section goes to FREE with its markers set, a WRITE's to LOADED. -/
def abortSectionWrite (s : State) : State :=
  match s.eq.pendingWrite with
  | none => s
  | some w =>
      let e :=
        match w.kind with
        | .load => (s.eq.putState w.sec .free).markFree w.sec
        | .rewrite => s.eq.putState w.sec .loaded
      fillReservation .eq .aborted [byteOf w.sec.val]
        (reportSections [w.sec] { s with eq := { e with pendingWrite := none } })

/-- R99 steps 3 to 5: the whole pool FREE with coefficients and history 0, all markers set, every chain empty; each is
reported as written (entry 18). Slots are free in STANDBY and stand. -/
def resetPool (s : State) : State :=
  reportWrites .chains (List.range 24) (reportSections (List.finRange 256)
    { s with eq :=
        { s.eq with
            sections := EqUnit.reset.sections
            free1 := EqUnit.reset.free1
            free0 := EqUnit.reset.free0
            chains := EqUnit.reset.chains } })

end Sys2Proof.Machine
end

