-- ==== Sys2Proof/Machine/Speed.lean ====
section
/-! DEFINITION. The speed-dependent volume unit (06): the boost curve, group targets, the state machine, reports and the age. -/

namespace Sys2Proof.Machine

/-! ## The boost for a speed (R108) -/

/-- R108 past a breakpoint `p` with p's speed at or below v: the segment that holds v, or the last boost. -/
def boostFrom (v : Nat) (p : Nat × Int) : List (Nat × Int) → Int
  | [] => p.2
  | q :: rest =>
      if v < q.1 then p.2 + ((q.2 - p.2) * ((v : Int) - p.1)).tdiv ((q.1 : Int) - p.1) else boostFrom v q rest

/-- R108: the boost for a speed. The curve is not empty where a boost is computed; the empty curve's value is not used. -/
def boostAt (curve : List (Nat × Int)) (v : Nat) : Int :=
  match curve with
  | [] => 0
  | p :: rest => if v ≤ p.1 then p.2 else boostFrom v p rest

/-! ## Group targets (R109, R111) -/

/-- R109: trunc(b × w / 100). -/
def groupTarget (b : Int) (w : Nat) : Int := (b * (w : Int)).tdiv 100

/-- R46, R109: gives a group a target; where it differs, BOOST(g) is retargeted with the boost ramp in force. -/
def setGroupTarget (g : Group) (v : Int) (s : State) : State :=
  { s with
      ramp := s.ramp.retarget s.core.mode (.boost g) (.level s.sdv.targets[g]) (.level v) s.sdv.rampMs
      sdv := { s.sdv with targets := s.sdv.targets.set g v } }

/-- R109, R111: recomputes one group's target from the adopted boost and the group's weight. -/
def followGroup (g : Group) (s : State) : State :=
  setGroupTarget g (groupTarget s.sdv.boost s.core.live.weights[g]) s

/-- R109: recomputes all four group targets. -/
def followBoost (s : State) : State := (List.finRange 4).foldl (fun s g => followGroup g s) s

/-- R109: adopts a boost; the group targets follow. -/
def adoptBoost (b : Int) (s : State) : State := followBoost { s with sdv := { s.sdv with boost := b } }

/-! ## The state machine (R106, R107) -/

/-- R106: sets the state, raising SDV_STATE when it changes. -/
def setSdvState (st : SdvState) (s : State) : State :=
  if s.sdv.state = st then s
  else raiseNotice (.sdvState st) { s with sdv := { s.sdv with state := st } }

/-- R106: the state the age and the thresholds give. -/
def stateByAge (u : Sdv) : SdvState :=
  match u.age with
  | none => .fallback
  | some a => if a < u.hold then .tracking else if a < u.fallback then .holding else .fallback

/-- R108: the boost for the last accepted speed. -/
def lastBoost (s : State) : Int := boostAt s.core.live.boostCurve (s.sdv.lastSpeed.getD 0)

/-- R106: takes the state by age, with the adopted boost the state requires. -/
def takeStateByAge (s : State) : State :=
  match stateByAge s.sdv with
  | .fallback => adoptBoost 0 (setSdvState .fallback s)
  | .tracking => adoptBoost (lastBoost s) (setSdvState .tracking s)
  | .holding => adoptBoost (lastBoost s) (setSdvState .holding s)
  | .off => s
  | .manual => s

/-- R107: the move to FALLBACK: adopted boost 0, and with it every group target. -/
def enterFallback (s : State) : State := adoptBoost 0 (setSdvState .fallback s)

/-- R107: the age compared with the thresholds; the comparison moves the state only forward. -/
def compareAge (s : State) : State :=
  match s.sdv.age with
  | none => s
  | some a =>
      match s.sdv.state with
      | .tracking =>
          if s.sdv.fallback ≤ a then enterFallback s
          else if s.sdv.hold ≤ a then setSdvState .holding s
          else s
      | .holding => if s.sdv.fallback ≤ a then enterFallback s else s
      | .fallback => s
      | .manual => s
      | .off => s

/-- Frames of an SDV tick (00_scope.md, R102). -/
def tickFrames : Nat := 480

/-- The greatest age (R105). -/
def maxAge : Nat := 65535

/-- R105: the rise of the tick phase at a boundary; at 480 the age rises and is compared. -/
def ageRise (s : State) : State :=
  match s.sdv.age with
  | none => s
  | some a =>
      if s.sdv.phase + 1 < tickFrames then { s with sdv := { s.sdv with phase := s.sdv.phase + 1 } }
      else compareAge { s with sdv := { s.sdv with phase := 0, age := some (min (a + 1) maxAge) } }

/-- R105 at FRAME_BOUNDARY: the phase rises, but for the rise that makes a tick, which is SDV_TICK's and is marked owed. -/
def ageAdvance (s : State) : State :=
  match s.sdv.age with
  | none => s
  | some _ =>
      if s.sdv.phase + 1 < tickFrames then { s with sdv := { s.sdv with phase := s.sdv.phase + 1 } }
      else { s with sdv := { s.sdv with tickDue := true } }

/-- R105: takes the owed rise of the phase. -/
def takeTick (s : State) : State :=
  if s.sdv.tickDue then ageRise { s with sdv := { s.sdv with tickDue := false } } else s

/-! ## Reports (R103, R104) -/

/-- The outcome of a speed report (R104). -/
inductive ReportOutcome
  | accepted | ignored | invalid
  deriving DecidableEq, Repr

/-- Outcome codes of SPEED_REPORT (11.3). -/
def ReportOutcome.code : ReportOutcome → Byte
  | .accepted => 0
  | .ignored => 1
  | .invalid => 2

/-- R103: how a report is taken: the first case that applies. -/
def reportOutcome (st : SdvState) (speed : Nat) (valid : Bool) : ReportOutcome :=
  if !valid || decide (320 < speed) then .invalid
  else if st = .off ∨ st = .manual then .ignored
  else .accepted

/-- R108: whether a boost differs from the adopted one by at least the hysteresis. -/
def beyondHysteresis (u : Sdv) (c : Int) : Bool := decide ((u.hyst : Int) ≤ (c - u.boost).natAbs)

/-- R103: an accepted report: the speed is held, age and phase start over, and the state is acted on. -/
def acceptReport (speed : Nat) (s : State) : State :=
  let t := { s with sdv := { s.sdv with lastSpeed := some speed, age := some 0, phase := 0 } }
  let c := boostAt t.core.live.boostCurve speed
  if s.sdv.state = .tracking then
    if beyondHysteresis s.sdv c then adoptBoost c t else t
  else adoptBoost c (setSdvState .tracking t)

/-- R103: a report that reaches the enabled unit. -/
def speedReport (speed : Nat) (valid : Bool) (s : State) : State :=
  match reportOutcome s.sdv.state speed valid with
  | .invalid => setFlag .speedRejected s
  | .ignored => s
  | .accepted => acceptReport speed s

/-! ## Changes from applied sets (R110, R111) -/

/-- R110: an applied set held a BOOST_CURVE record; the live table already holds the curve the set leaves. -/
def curveChange (s : State) : State :=
  if s.core.live.boostCurve = [] then
    if s.sdv.state = .off then s
    else
      let t := setSdvState .off s
      adoptBoost 0 { t with sdv := { t.sdv with manual := none } }
  else
    match s.sdv.state with
    | .off => if s.ctl.enabled.sdv then takeStateByAge s else s
    | .tracking => adoptBoost (lastBoost s) s
    | .holding => adoptBoost (lastBoost s) s
    | .fallback => s
    | .manual => adoptBoost (boostAt s.core.live.boostCurve (s.sdv.manual.getD 0)) s

/-- R111: an applied set changed a group's weight. -/
def weightChange (g : Group) (s : State) : State := followGroup g s

/-! ## Enable, disable, reset (R116, R117) -/

/-- R116: the unit is disabled: OFF, boost 0, manual speed none, group targets 0. -/
def sdvDisable (s : State) : State :=
  let t := setSdvState .off s
  adoptBoost 0 { t with sdv := { t.sdv with manual := none } }

/-- R116: the unit is enabled: it reads the boost curve as it stands. -/
def sdvEnable (s : State) : State := if s.core.live.boostCurve = [] then s else takeStateByAge s

/-- R117: UNIT_RESET(SDV), in the rule's order. -/
def sdvReset (s : State) : State :=
  let t := { s with sdv := { s.sdv with
    hold := Sdv.reset.hold, fallback := Sdv.reset.fallback, hyst := Sdv.reset.hyst, rampMs := Sdv.reset.rampMs
    manual := none, lastSpeed := none, age := none, phase := 0 } }
  let st := if t.ctl.enabled.sdv ∧ t.core.live.boostCurve ≠ [] then SdvState.fallback else SdvState.off
  adoptBoost 0 (setSdvState st t)

end Sys2Proof.Machine
end

