-- ==== Sys2Proof/Machine/Sets.lean ====
section
/-! DEFINITION. Change sets (04) and the LEVEL targets (02): validation at close, the writing of records, causes and
durations, the examination of the head set and its application. -/

namespace Sys2Proof.Machine

/-! ## Close validation (R59, R60) -/

/-- R60: a record that may move a LEVEL key. -/
def ChangeRecord.movesLevels : ChangeRecord → Bool
  | .zone _ _ _ => true
  | .output _ _ _ _ _ _ _ => true
  | .flags _ _ _ => true
  | .curve _ _ _ => true
  | .cell _ _ _ _ => false
  | .chain _ _ => false
  | .boostCurve _ => false
  | .group _ _ => false

/-- The pair a CELL record names. -/
def ChangeRecord.pair? : ChangeRecord → Option (Output × Source)
  | .cell o s _ _ => some (o, s)
  | _ => none

/-- The output and list of a CHAIN record. -/
def ChangeRecord.chain? : ChangeRecord → Option (Output × List SectionNo)
  | .chain o l => some (o, l)
  | _ => none

/-- R60: the worst-case count of new general ramp keys of a group of records. -/
def worstCase (rs : List ChangeRecord) : Nat :=
  (if rs.any ChangeRecord.movesLevels then 24 else 0) + (rs.filterMap ChangeRecord.pair?).dedup.length

/-- The sections a group of records names in CHAIN records, in order. -/
def namedSections (rs : List ChangeRecord) : List SectionNo := ((rs.filterMap ChangeRecord.chain?).map Prod.snd).flatten

/-- R59 checks 1 to 4 at a CHAIN record, in their order; `before` are the records before it. -/
def chainFailure (e : EqUnit) (before : List ChangeRecord) (o : Output) (list : List SectionNo) : Option RejectReason :=
  if 4 < (before.filterMap ChangeRecord.chain?).length + 1 then some .tooManyChains
  else if ((before.filterMap ChangeRecord.chain?).map Prod.fst).contains o then some .duplicateOutput
  else if ¬ (list.Nodup ∧ ∀ i ∈ list, i ∉ namedSections before) then some .sectionRepeated
  else if ¬ e.allLoaded list then some .sectionUnavailable
  else none

/-- R59: the first condition that fails at a record. -/
def recordFailure (e : EqUnit) (before : List ChangeRecord) (r : ChangeRecord) : Option RejectReason :=
  match r.chain?.bind fun c => chainFailure e before c.1 c.2 with
  | some reason => some reason
  | none => if 48 < worstCase (before ++ [r]) then some .tooManyRamps else none

/-- R59: the first record at which a condition fails, with its index and the reason; `before` have passed. -/
def firstFailure (e : EqUnit) (before : List ChangeRecord) : List ChangeRecord → Option (Nat × RejectReason)
  | [] => none
  | r :: rs =>
      match recordFailure e before r with
      | some reason => some (before.length, reason)
      | none => firstFailure e (before ++ [r]) rs

/-! ## Writing records into the live tables (R69) -/

/-- Writes the named field of a zone record. -/
def ZoneRec.write (z : ZoneRec) : ZoneChange → ZoneRec
  | .volume v => { z with volume := v }
  | .balance v => { z with balance := v }
  | .fade v => { z with fade := v }
  | .mute b => { z with mute := b }

/-- R22: an operator on a flag. -/
def FlagOp.on : FlagOp → Bool → Bool
  | .set, _ => true
  | .clear, _ => false
  | .toggle, b => !b

/-- R22: an operator on the named flag of an output record. -/
def OutputRec.flag (x : OutputRec) (op : FlagOp) : OutFlag → OutputRec
  | .mute => { x with mute := op.on x.mute }
  | .invert => { x with invert := op.on x.invert }

/-- The first entry of a curve in the curve table (R33). -/
def CurveId.base (c : CurveId) : Nat := c.idx.val * 31

/-- R25: values replace the entries from an index onward. -/
def writeRun (v : Vector Int 186) (at_ : Nat) : List Int → Vector Int 186
  | [] => v
  | x :: xs => writeRun (v.setIfInBounds at_ x) (at_ + 1) xs

/-- R69: a record's write into the live tables. A CHAIN record writes the EQ unit's chains (R71), not these. -/
def Live.write (l : Live) : ChangeRecord → Live
  | .zone z c _ => { l with zones := l.zones.set z ((l.zones[z]).write c) }
  | .cell o s g _ => { l with cells := l.cells.set (cellIndex o s) g }
  | .output o z side row g trim ceiling =>
      { l with
          outputs :=
            l.outputs.set o
              { l.outputs[o] with zone := z, side := side, row := row, group := g, trim := trim, ceiling := ceiling } }
  | .flags op f mask =>
      { l with outputs := Vector.ofFn fun o : Output =>
          if mask.getLsbD o.val then (l.outputs[o]).flag op f else l.outputs[o] }
  | .chain _ _ => l
  | .curve c first vs => { l with curves := writeRun l.curves (c.base + first.val) vs }
  | .boostCurve ps => { l with boostCurve := ps }
  | .group g w => { l with weights := l.weights.set g w }

/-- R69: the records of a set, in staging order. -/
def Live.writeAll (l : Live) (rs : List ChangeRecord) : Live := rs.foldl Live.write l

/-! ## LEVEL targets (R25, R26) -/

/-- R20, R25: the entry of a curve at a position from −15 to +15. -/
def curveIndex (c : CurveId) (position : Int) : Fin 186 :=
  ⟨c.idx.val * 31 + (position + 15).toNat % 31, by have := c.idx.isLt; have := Nat.mod_lt (position + 15).toNat (show 0 < 31 by decide); omega⟩

/-- R25: the lateral curve of a side. -/
def Side.curve : Side → CurveId
  | .left => .latLeft
  | .centre => .latCentre
  | .right => .latRight

/-- R25: the longitudinal curve of a row; none for NONE. -/
def Row.curve : Row → Option CurveId
  | .front => some .longFront
  | .middle => some .longMiddle
  | .rear => some .longRear
  | .noRow => none

/-- R26: the zone record of an output. -/
def Live.zoneOf (l : Live) (o : Output) : ZoneRec := l.zones[(l.outputs[o]).zone]

/-- R30: the lateral curve entry an output reads. -/
def Live.lateralEntry (l : Live) (o : Output) : Fin 186 := curveIndex (l.outputs[o]).side.curve (l.zoneOf o).balance

/-- R30: the longitudinal curve entry an output reads, when its row is not NONE. -/
def Live.longEntry (l : Live) (o : Output) : Option (Fin 186) :=
  (l.outputs[o]).row.curve.map fun c => curveIndex c (l.zoneOf o).fade

/-- R26: the longitudinal term, 0 when the row is NONE. -/
def Live.longTerm (l : Live) (o : Output) : Int :=
  match l.longEntry o with
  | some i => l.curves[i]
  | none => 0

/-- R26: the LEVEL target of an output. -/
def Live.levelTarget (l : Live) (o : Output) : Int :=
  if (l.zoneOf o).mute || (l.outputs[o]).mute then -480
  else max (-480) ((l.zoneOf o).volume + (l.outputs[o]).trim + l.curves[l.lateralEntry o] + l.longTerm o)

/-! ## Causes and durations (R29, R30, R44) -/

/-- R29: the default duration of a ZONE record's cause in ms. -/
def ZoneChange.defaultMs : ZoneChange → Nat
  | .volume _ => 200
  | .balance _ => 200
  | .fade _ => 200
  | .mute _ => 10

/-- R29, R30: the duration with which a record, written to `l`, is a cause for output `o`, whose inputs are those of the
tables `after` the whole set; none when it is no cause. -/
def causeMs (l after : Live) (o : Output) (r : ChangeRecord) : Option Nat :=
  match r with
  | .zone z c ms =>
      if z = (after.outputs[o]).zone ∧ (l.zones[z]).write c ≠ l.zones[z] then some (ms.getD c.defaultMs) else none
  | .output o' z side row _ trim _ =>
      if o' = o ∧ ((l.outputs[o]).zone ≠ z ∨ (l.outputs[o]).side ≠ side ∨ (l.outputs[o]).row ≠ row
          ∨ (l.outputs[o]).trim ≠ trim) then some 200 else none
  | .flags op .mute mask =>
      if mask.getLsbD o.val ∧ op.on (l.outputs[o]).mute ≠ (l.outputs[o]).mute then some 10 else none
  | .flags _ .invert _ => none
  | .curve _ _ _ =>
      if (l.write r).curves[after.lateralEntry o] ≠ l.curves[after.lateralEntry o] then some 200
      else
        match after.longEntry o with
        | some i => if (l.write r).curves[i] ≠ l.curves[i] then some 200 else none
        | none => none
  | .cell _ _ _ _ => none
  | .chain _ _ => none
  | .boostCurve _ => none
  | .group _ _ => none

/-- R30: the durations of an output's causes in a set, each record taken at its point in record order. -/
def causes (after : Live) (o : Output) : Live → List ChangeRecord → List Nat
  | _, [] => []
  | l, r :: rs => (causeMs l after o r).toList ++ causes after o (l.write r) rs

/-- The least of the durations; R30 shows that a moved target has one. -/
def shortest (default : Nat) : List Nat → Nat
  | [] => default
  | d :: ds => ds.foldl min d

/-- R44: the duration with which a record, written to `l`, changes the cell entry of a pair; none when it does not. -/
def cellCauseMs (l : Live) (o : Output) (src : Source) (r : ChangeRecord) : Option Nat :=
  match r with
  | .cell o' s' g ms => if o' = o ∧ s' = src ∧ l.cells[cellIndex o src] ≠ g then some (ms.getD 50) else none
  | _ => none

/-- R44: the durations of the CELL records of a set that changed a pair's entry at their point. -/
def cellCauses (o : Output) (src : Source) : Live → List ChangeRecord → List Nat
  | _, [] => []
  | l, r :: rs => (cellCauseMs l o src r).toList ++ cellCauses o src (l.write r) rs

/-- R27, R70: the LEVEL retargets of a set, in ascending key order. `held` are the targets held before it. -/
def levelMoves (held : Vector Int 24) (l : Live) (rs : List ChangeRecord) : List Move :=
  (List.finRange 24).filterMap fun o =>
    if (l.writeAll rs).levelTarget o = held[o] then none
    else some { key := .level o, old := .level held[o], new := .level ((l.writeAll rs).levelTarget o),
                ms := shortest 200 (causes (l.writeAll rs) o l rs) }

/-- Source `i % 12` of output `i / 12`: the pair of a cell matrix entry. -/
def cellPair (i : Fin 288) : Output × Source := (⟨i.val / 12, by omega⟩, ⟨i.val % 12, by omega⟩)

/-- R44, R70: the CELL retargets of a set, in ascending matrix index. -/
def cellMoves (l : Live) (rs : List ChangeRecord) : List Move :=
  (List.finRange 288).filterMap fun i =>
    if (l.writeAll rs).cells[i] = l.cells[i] then none
    else some { key := .cell (cellPair i).1 (cellPair i).2, old := l.cells[i], new := (l.writeAll rs).cells[i],
                ms := shortest 50 (cellCauses (cellPair i).1 (cellPair i).2 l rs) }

/-- R66, R70: the general keys a set moves, in the order of R42: LEVEL(0) to LEVEL(23), then CELL keys. -/
def setMoves (s : State) (rs : List ChangeRecord) : List Move :=
  levelMoves s.core.levelTargets s.core.live rs ++ cellMoves s.core.live rs

/-! ## Examination (R65, R66) -/

/-- R66: how many of a set's general keys have no active entry. -/
def entriesNeeded (s : State) (rs : List ChangeRecord) : Nat :=
  (setMoves s rs).countP fun v => (s.ramp.find v.key).isNone

/-- R65: the first condition that fails for the head set; NONE when every condition holds. -/
def examine (s : State) (q : QueuedSet) : WaitReason :=
  let chains := q.records.filterMap ChangeRecord.chain?
  if s.core.mode = .leaving then .mode
  else if chains.any fun c => (s.eq.slotOf c.1).isSome then .outputBusy
  else if s.core.mode = .run ∧ s.ctl.enabled.eq ∧ s.eq.freeSlots < chains.length then .crossfade
  else if s.ramp.freeGeneral < entriesNeeded s q.records then .ramps
  else .none

/-! ## Application (R69 to R73) -/

/-- R73: reports the table entries a record wrote, but for a CHAIN record's, which its swap reports. -/
def reportRecord (r : ChangeRecord) (s : State) : State :=
  match r with
  | .zone z _ _ => reportWrites .zones [z.val] s
  | .cell o src _ _ => reportWrites .cells [(cellIndex o src).val] s
  | .output o _ _ _ _ _ _ => reportWrites .outputs [o.val] s
  | .flags _ _ mask => reportWrites .outputs ((List.range 24).filter fun o => mask.getLsbD o) s
  | .chain _ _ => s
  | .curve c first vs => reportWrites .curves ((List.range vs.length).map fun i => c.base + first.val + i) s
  | .boostCurve _ => reportWrites .boostCurve (List.range 16) s
  | .group g _ => reportWrites .groups [g.val] s

/-- R69: writes a set's records into the live tables and reports the entries. -/
def writeRecords (rs : List ChangeRecord) (s : State) : State :=
  rs.foldl (fun s r => reportRecord r s) { s with core := { s.core with live := s.core.live.writeAll rs } }

/-- R27, R70: stores the recomputed LEVEL targets and takes the retargets `vs`. -/
def retargetSet (vs : List Move) (s : State) : State :=
  { s with
      core := { s.core with levelTargets := Vector.ofFn fun o => s.core.live.levelTarget o }
      ramp := s.ramp.applyMoves s.core.mode vs }

/-- R71: swaps the chains of a set's CHAIN records in staging order. -/
def swapChains (rs : List ChangeRecord) (s : State) : State :=
  (rs.filterMap ChangeRecord.chain?).foldl (fun s c => swapChain c.1 c.2 s) s

/-- Whether a record carries the boost curve. -/
def ChangeRecord.isBoostCurve : ChangeRecord → Bool
  | .boostCurve _ => true
  | _ => false

/-- R72: tells the SDV unit of a boost curve record and of each group whose weight differs from before the set. DESIGN CHOICE
(entry 26): the curve change (R110) comes before the weight changes (R111), and these in the order of groups 0 to 3. -/
def tellSdv (before : Live) (rs : List ChangeRecord) (s : State) : State :=
  (List.finRange 4).foldl
    (fun s g => if s.core.live.weights[g] = before.weights[g] then s else weightChange g s)
    (if rs.any ChangeRecord.isBoostCurve then curveChange s else s)

/-- R73: the set leaves the queue, its number becomes the last applied, and SET_APPLIED is raised when it is marked. -/
def finishSet (q : QueuedSet) (s : State) : State :=
  let t := { s with commit := { s.commit with queue := s.commit.queue.tail, lastApplied := some q.number } }
  if q.notify then raiseNotice (.setApplied q.number) t else t

/-- R69: applies the head set whole. -/
def applySet (q : QueuedSet) (s : State) : State :=
  finishSet q (tellSdv s.core.live q.records (swapChains q.records
    (retargetSet (setMoves s q.records) (writeRecords q.records s))))

/-- R65: the head set's examination: it is applied when every condition holds, else it keeps the first failing reason. -/
def examineHead (s : State) : State :=
  match s.commit.queue with
  | [] => s
  | q :: rest =>
      match examine s q with
      | .none => applySet q s
      | reason => { s with commit := { s.commit with queue := { q with wait := reason } :: rest } }

/-! ## Closing and discarding (R59, R61, R74, R75, R77) -/

/-- R61: accepts a closed set: number, claims, queue. -/
def acceptSet (rs : List ChangeRecord) (notify : Bool) (s : State) : State :=
  claimSections (namedSections rs)
    { s with commit :=
        { s.commit with
            staging := []
            queue := s.commit.queue ++ [{ number := s.commit.counter, records := rs, notify := notify, wait := .none }]
            counter := s.commit.counter + 1 } }

/-- R74: the staging list is emptied. -/
def abortOpen (s : State) : State := { s with commit := { s.commit with staging := [] } }

/-- R75: every queued set is discarded and its claimed sections return to LOADED. -/
def flushQueue (s : State) : State :=
  unclaimSections ((s.commit.queue.map fun q => namedSections q.records).flatten)
    { s with commit := { s.commit with queue := [] } }

/-- R77: UNIT_RESET(STAGE). -/
def stageReset (s : State) : State := flushQueue (abortOpen s)

/-- R99: UNIT_RESET(EQ), in the rule's order. -/
def eqReset (s : State) : State := resetPool (abortSectionWrite (flushQueue s))

end Sys2Proof.Machine
end

