-- ==== Sys2Proof/Machine/Tables.lean ====
section
/-! DEFINITION. The TABLE unit (08): the table space, entry encodings (11.6), and the taking of entries by reads and digests. -/

namespace Sys2Proof.Machine

/-- R142: the entries of a table. -/
def TableId.size : TableId → Nat
  | .zones => 4
  | .cells => 288
  | .outputs => 24
  | .curves => 186
  | .boostCurve => 16
  | .groups => 4
  | .chains => 24
  | .sections => 256
  | .cueMemory => 256
  | .ramps => 64

/-- R144: the most entries one reply carries. -/
def TableId.replyLimit : TableId → Nat
  | .zones => 4
  | .cells => 19
  | .outputs => 4
  | .curves => 19
  | .boostCurve => 12
  | .groups => 4
  | .chains => 3
  | .sections => 2
  | .cueMemory => 4
  | .ramps => 3

/-- R142: whether a table lies in table memory, read through the port. -/
def TableId.inMemory : TableId → Bool
  | .sections => true
  | .cueMemory => true
  | .zones => false
  | .cells => false
  | .outputs => false
  | .curves => false
  | .boostCurve => false
  | .groups => false
  | .chains => false
  | .ramps => false

/-- 11.6: a ramp entry's key: the kind in the upper three bits, the index in the lower nine. -/
def keyCode : Key → Nat
  | .level o => 1 * 8192 + o.val
  | .cell o s => 2 * 8192 + (o.val * 12 + s.val)
  | .duck s => 3 * 8192 + s.val
  | .boost g => 4 * 8192 + g.val

/-- 11.6: an entry of RAMPS; a free entry is twelve zero bytes. -/
def rampBytes : Option Ramp → List Byte
  | some r => bytes16 (keyCode r.key) ++ bytes16 r.start ++ gainBytes r.target ++ bytes24 r.n ++ bytes24 r.k
  | none => List.replicate 12 0

/-- 11.6: the output record's flags byte: bit 0 MUTE, bit 1 INVERT. -/
def outputFlagByte (x : OutputRec) : Byte := byteOf ((if x.mute then 1 else 0) + (if x.invert then 2 else 0))

/-- 11.6: an entry of CHAINS: count, ten section bytes, 0 beyond the count. -/
def chainBytes (l : List SectionNo) : List Byte :=
  byteOf l.length :: (List.range 10).map fun i =>
    match l[i]? with
    | some n => byteOf n.val
    | none => 0

/-- 11.6: an entry of BOOST_CURVE; an empty place is FFFF hex, 0. -/
def pointBytes : Option (Nat × Int) → List Byte
  | some p => bytes16 p.1 ++ [byteOf p.2]
  | none => [0xFF, 0xFF, 0]

/-- 11.6: the bytes of an entry, as the state holds it. An index beyond the table, which no check lets pass, is taken modulo
the table's size. -/
def entryBytes (s : State) (t : TableId) (i : Nat) : List Byte :=
  match t with
  | .zones =>
      let z := s.core.live.zones[Fin.ofNat 4 i]
      bytes16 z.volume ++ [byteOf z.balance, byteOf z.fade, bitByte z.mute]
  | .cells => gainBytes s.core.live.cells[Fin.ofNat 288 i]
  | .outputs =>
      let x := s.core.live.outputs[Fin.ofNat 24 i]
      [byteOf x.zone.val, x.side.code, x.row.code, groupCode x.group] ++ bytes16 x.trim ++ bytes16 x.ceiling
        ++ [outputFlagByte x]
  | .curves => bytes16 s.core.live.curves[Fin.ofNat 186 i]
  | .boostCurve => pointBytes s.core.live.boostCurve[i]?
  | .groups => [byteOf s.core.live.weights[Fin.ofNat 4 i]]
  | .chains => chainBytes s.eq.chains[Fin.ofNat 24 i]
  | .sections =>
      let x := s.eq.sections[Fin.ofNat 256 i]
      coeffBytes x.coeffs ++ [x.state.code]
  | .cueMemory => (readEntry s.cue.mem (Fin.ofNat 256 i)).toList
  | .ramps => rampBytes s.ramp.entries[Fin.ofNat 64 i]

/-- The bytes of `n` entries from an index on, in index order. -/
def entriesBytes (s : State) (t : TableId) (first n : Nat) : List Byte :=
  ((List.range n).map fun i => entryBytes s t (first + i)).flatten

/-- R148: the most entries one digest request covers. -/
def digestLimit : Nat := 128

/-- R143 to R148: the entries an operation still owes. -/
def TableOp.owed (op : TableOp) : Nat :=
  match op.kind with
  | .read => op.count - op.covered
  | .digest => min op.count digestLimit - op.covered

/-- The entries of a live table taken at one boundary, at most (R142, R145, R148). -/
def batchSize : Nat := 8

/-- R142, R146, R148: the entries one step of an operation takes: 8 live entries, four cue entries or one section. -/
def TableOp.pace (op : TableOp) : Nat :=
  match op.table with
  | .sections => 1
  | .cueMemory => 4
  | _ => batchSize

/-- The entries the next step of an operation takes: the least of its pace and what it owes. -/
def TableOp.step (op : TableOp) : Nat := min op.pace op.owed

/-- Whether the next step takes the last entries owed. -/
def TableOp.lastStep (op : TableOp) : Bool := decide (op.owed ≤ op.pace)

/-- R144: the data of a TABLE_READ reply: table id, first index, N, the entries. -/
def readData (op : TableOp) : List Byte := op.table.code :: bytes16 op.first ++ byteOf op.count :: op.taken

/-- R145, R146, R148: takes the operation's next entries from the state. -/
def TableOp.take (op : TableOp) (s : State) : TableOp :=
  let bs := entriesBytes s op.table op.next op.step
  { op with
      next := op.next + op.step
      covered := op.covered + op.step
      crc := crc16 op.crc bs
      taken := op.taken ++ (match op.kind with | .read => bs | .digest => [])
      batchDue := false }

/-- R145, R146, R148: the reply of an operation that owes no more entries. -/
def finishTableOp (op : TableOp) (s : State) : State :=
  match op.kind with
  | .read => endTableOp .ok (readData op) s
  | .digest =>
      endTableOp .ok (digestData (if op.covered = op.count then .complete else .part) op) s

/-- R142: counts `n` entries taken of table `d` in the frame: of a live one, in a LOCKED frame. In HUNT there is no frame to
count them in (entry 28). -/
def countLive (d : TableId) (n : Nat) (s : State) : State :=
  if d.inMemory = false ∧ s.port.lock = .locked then
    { s with frame := { s.frame with liveTaken := s.frame.liveTaken + n } }
  else s

/-- R142: whether `n` more entries of table `d` can be taken in the frame: at most 8 of live tables in one LOCKED frame. -/
def liveRoom (d : TableId) (n : Nat) (s : State) : Bool :=
  d.inMemory || decide (s.port.lock = .hunt) || decide (s.frame.liveTaken + n ≤ batchSize)

/-- R145, R146, R148: one step of the operation: it takes its next entries and ends when it owes no more. -/
def stepTableOp (op : TableOp) (s : State) : State :=
  let next := op.take s
  let t := countLive op.table op.step s
  if next.owed = 0 then finishTableOp next t else { t with table := some next }

/-- R145, R148: at a boundary a live read or digest is owed its batch. -/
def markBatch (s : State) : State :=
  { s with table := s.table.map fun op => if op.table.inMemory then op else { op with batchDue := true } }

/-- R145, R148: takes an owed live batch. -/
def takeBatch (s : State) : State :=
  match s.table with
  | some op => if op.batchDue then stepTableOp op s else s
  | none => s

/-- Whether a live batch is owed at this boundary. -/
def batchOwed (s : State) : Bool :=
  match s.table with
  | some op => op.batchDue
  | none => false

end Sys2Proof.Machine
end

