-- ==== Sys2Proof/Machine/Audio.lean ====
section
/-! DEFINITION. The signal path (01) and the section arithmetic (R90, R94). lin is irrational, so the exact value at each stage is
kept between two ends 2^−64 apart or little more. Where a value is truncated, the bound of R3 decides the result or leaves two,
between which a free value chooses (entries 7 and 24). -/

namespace Sys2Proof.Machine

/-! ## Intervals in units of 2^−64 -/

/-- The unit of the interval ends: 2^64 steps to a whole sample. -/
def one64 : Int := 18446744073709551616

/-- Where an exact value lies: between two ends, both in units of 2^−64. -/
structure Ivl where
  lo : Int
  hi : Int
  deriving DecidableEq, Repr

/-- A whole value. -/
def Ivl.exact (n : Int) : Ivl := { lo := n * one64, hi := n * one64 }

/-- The quotient rounded toward greater values. -/
def ceilDiv (a b : Int) : Int := -((-a) / b)

/-- Whether a value is exactly zero. -/
def Ivl.isZero (v : Ivl) : Bool := decide (v.lo = 0) && decide (v.hi = 0)

/-- The sum of two values. -/
def Ivl.add (v w : Ivl) : Ivl := { lo := v.lo + w.lo, hi := v.hi + w.hi }

/-- The negated value (R6 step 2). -/
def Ivl.neg (v : Ivl) : Ivl := { lo := -v.hi, hi := -v.lo }

/-- A value times a gain that is not negative. -/
def Ivl.scale (v g : Ivl) : Ivl :=
  { lo := if 0 ≤ v.lo then v.lo * g.lo / one64 else v.lo * g.hi / one64
    hi := if 0 ≤ v.hi then ceilDiv (v.hi * g.hi) one64 else ceilDiv (v.hi * g.lo) one64 }

/-- A value times a fraction u / d (R6 step 1). -/
def Ivl.fraction (v : Ivl) (u d : Nat) : Ivl := { lo := v.lo * (u : Int) / (d : Int), hi := ceilDiv (v.hi * (u : Int)) (d : Int) }

/-! ## The linear gain lin(L) = 10^(L/80) (R2) -/

/-- Whether q / 2^64 is at or below 10^(L/80), compared as 80th powers of whole numbers. -/
def belowLin (l : Int) (q : Nat) : Bool :=
  if 0 ≤ l then decide (q ^ 80 ≤ 10 ^ l.toNat * 2 ^ 5120) else decide (q ^ 80 * 10 ^ (-l).toNat ≤ 2 ^ 5120)

/-- The greatest q below 2^bits more than the given one that is at or below lin(L), found bit by bit. -/
def linSearch (l : Int) : Nat → Nat → Nat
  | 0, q => q
  | b + 1, q => if belowLin l (q + 2 ^ b) then linSearch l b (q + 2 ^ b) else linSearch l b q

/-- lin(L) in units of 2^−64, rounded down; it lies below 2^(65 + L) where L ≥ 0, and below 2^65 elsewhere. -/
def linFloor (l : Int) : Nat := linSearch l (65 + l.toNat) 0

/-- lin(L), between two ends 2^−64 apart. -/
def linGain (l : Int) : Ivl := { lo := (linFloor l : Int), hi := (linFloor l : Int) + 1 }

/-- The floor: a composed gain at or below it contributes exactly zero (R2, R5). -/
def floorQdb : Int := -480

/-- R2, R5: a value times lin(L); exactly zero at or below the floor. -/
def Ivl.gain (v : Ivl) (l : Int) : Ivl := if l ≤ floorQdb then Ivl.exact 0 else if v.isZero then v else v.scale (linGain l)

/-! ## Whole values (R3, R6, R90) -/

/-- Truncation toward zero of an interval end. -/
def wholePart (i : Int) : Int := i.tdiv one64

/-- The whole value nearest to an interval end. -/
def nearestWhole (i : Int) : Int := (i + one64 / 2) / one64

/-- R3: whether the bound leaves a value's truncation undecided: a whole value other than 0 is the nearest one, and lies within
the relative error of 2^−24. DESIGN CHOICE (entry 24): only the nearest whole value is looked at, also beyond the 24-bit range, where
the bound is above one half and may reach a second one. So a sample just outside the limits of R6 that is nearest to the next whole
value beyond (8,388,608.5, or a little below −8,388,609.5) is saturated with its clip marker, though the bound alone would also let it
stand at the limit without one. -/
def Ivl.undecided (v : Ivl) : Bool :=
  let b := nearestWhole v.lo
  let near := fun e : Int => decide ((e - b * one64).natAbs * 16777216 < min v.lo.natAbs v.hi.natAbs)
  decide (b ≠ 0) && decide (nearestWhole v.hi = b) && near v.lo && near v.hi

/-- R3: the whole value that a value truncates to toward zero. Where the bound does not decide it there are two, those of the two
sides of the nearest whole value, and a free value chooses. DESIGN CHOICE (entry 24): the bound of 2^−24 is taken once, between the
carried value that is truncated and its exact value, and not anew for lin and for each product and sum before it. Decided values have
ends that truncate alike, and elsewhere the lower end is taken (entry 20). -/
def Ivl.whole (v : Ivl) (free : Nat) : Int :=
  if v.undecided then
    let b := nearestWhole v.lo
    max (min b (b - b.sign)) (min (max b (b - b.sign)) (Config.freeWhole free))
  else wholePart v.lo

/-- Limits a value to a range. -/
def clampTo (lo hi : Int) (i : Int) : Int := max lo (min hi i)

/-- R90: the section range. -/
def sectionClamp (i : Int) : Int := clampTo (-134217728) 134217727 i

/-- R6: the 24-bit sample range. -/
def sampleClamp (i : Int) : Int := clampTo (-8388608) 8388607 i

/-! ## Sections and chains (R90, R91, R94) -/

/-- R90: S = b0 x + b1 x1 + b2 x2 − a1 y1 − a2 y2, divided by 2^21, truncated toward zero and saturated. -/
def sectionOutput (c : Coeffs) (h : History) (x : Int) : Int :=
  sectionClamp ((c.b0 * x + c.b1 * h.x1 + c.b2 * h.x2 - c.a1 * h.y1 - c.a2 * h.y2).tdiv 2097152)

/-- R90: the history moves on. -/
def History.move (h : History) (x y : Int) : History := { x1 := x, x2 := h.x1, y1 := y, y2 := h.y1 }

/-- R90, R91: a chain computes its sections in order: its output, and the sections with their histories moved on. -/
def runChain (pool : Vector EqSection 256) : List SectionNo → Int → Int × Vector EqSection 256
  | [], x => (x, pool)
  | i :: is, x =>
      let y := sectionOutput (pool[i]).coeffs (pool[i]).hist x
      runChain (pool.set i { pool[i] with hist := (pool[i]).hist.move x y }) is y

/-- R94: ((480 − k) × old + k × new) / 480, formed exactly. -/
def blend (k : Nat) (old new : Ivl) : Ivl :=
  { lo := ((480 - (k : Int)) * old.lo + (k : Int) * new.lo) / 480
    hi := ceilDiv ((480 - (k : Int)) * old.hi + (k : Int) * new.hi) 480 }

/-- R4, R91: one side of the equalisation stage: an empty chain passes the mix, another gives its last section's output. -/
def chainSide (pool : Vector EqSection 256) (list : List SectionNo) (mix : Ivl) (x : Int) : Ivl × Vector EqSection 256 :=
  match list with
  | [] => (mix, pool)
  | i :: is => (Ivl.exact (runChain pool (i :: is) x).1, (runChain pool (i :: is) x).2)

/-- R4: the equalised value of an output's mix, with EQ enabled or not, and the pool with its histories moved on. `free` is the
index of the free value that decides the mix's whole value, one for both chains, which are fed the same mix. -/
def equalise (eqOn : Bool) (s : State) (o : Output) (mix : Ivl) (free : Nat) : Ivl × Vector EqSection 256 :=
  let x := sectionClamp (mix.whole free)
  if eqOn then
    match s.eq.slotOf o with
    | some f =>
        let old := chainSide s.eq.sections f.old mix x
        let new := chainSide old.2 s.eq.chains[o] mix x
        (blend f.k old.1 new.1, new.2)
    | none => chainSide s.eq.sections s.eq.chains[o] mix x
  else (mix, s.eq.sections)

/-! ## One output (R2 to R6) -/

/-- R2: the contribution of a source to an output. -/
def contribution (s : State) (o : Output) (src : Source) : Ivl :=
  if s.core.held[src] = 0 then Ivl.exact 0
  else Ivl.gain (Ivl.exact (s.core.held[src]).toInt)
    ((keyCurrent s (.cell o src)).qdb + (keyCurrent s (.duck src)).qdb)

/-- R3: the mix of an output, the sum of its twelve contributions. -/
def mixOf (s : State) (o : Output) : Ivl :=
  (List.finRange 12).foldl (fun v src => v.add (contribution s o src)) (Ivl.exact 0)

/-- R5: the boost contribution of an output. -/
def boostOf (s : State) (o : Output) : Int :=
  match (s.core.live.outputs[o]).group with
  | some g => (keyCurrent s (.boost g)).qdb
  | none => 0

/-- R5: the final gain E = min(LEVEL + B, C). -/
def finalGain (s : State) (o : Output) : Int :=
  min ((keyCurrent s (.level o)).qdb + boostOf s o) (s.core.live.outputs[o]).ceiling

/-- The full gate position (R8). -/
def gateFull : Nat := 2400

/-- R5, R6 steps 1 and 2: level, gate and polarity. -/
def staged (s : State) (o : Output) (v : Ivl) : Ivl :=
  let w := (v.gain (finalGain s o)).fraction s.core.gate gateFull
  if (s.core.live.outputs[o]).invert then w.neg else w

/-- R6 steps 3 and 4 for a whole sample `w`: the lane's sample, and the clip marker when it is out of range. -/
def emitSample (o : Output) (w : Int) (s : State) : State :=
  let t := { s with lane := { s.lane with samples := s.lane.samples.set o (BitVec.ofInt 24 (sampleClamp w)) } }
  if sampleClamp w = w then t else markClip o t

/-- R2 to R6: composes one output. The index of the next free value moves on by two: the mix's whole value and the
sample's. -/
def composeOutput (eqOn : Bool) (s : State) (o : Output) : State :=
  let e := equalise eqOn s o (mixOf s o) s.free
  emitSample o ((staged s o e.1).whole (s.free + 1))
    { s with eq := { s.eq with sections := e.2 }, free := s.free + 2 }

/-- R7: composes all 24 outputs, mapped or not. -/
def composeAll (eqOn : Bool) (s : State) : State := (List.finRange 24).foldl (composeOutput eqOn) s

/-! ## Slots (R7, R154) -/

/-- R154: the output mapped to a slot, if one is; the output map never names a slot twice. -/
def outputAt (m : Vector (Option Slot) 24) (i : Slot) : Option Output := (List.finRange 24).find? fun o => decide (m[o] = some i)

/-- R154: a frame's slots as they go downstream, the composed samples in their places. -/
def slotsDown (f : Opened) (samples : Vector Sample 24) : Vector Sample 32 :=
  Vector.ofFn fun i =>
    match outputAt f.outputMap i with
    | some o => samples[o]
    | none => f.slots[i]

/-- R1, R154: the source samples read in a frame; NONE reads zero. -/
def sourcesRead (f : Opened) : Vector Sample 12 :=
  Vector.ofFn fun src =>
    match f.sourceMap[src] with
    | some i => f.slots[i]
    | none => 0

/-- R154: a frame's slots: mapped outputs replaced, mapped sources read for the next boundary. -/
def transferSlots (f : Opened) (s : State) : State :=
  { s with
      lane := { s.lane with slots := slotsDown f s.lane.samples }
      core := { s.core with held := sourcesRead f } }

end Sys2Proof.Machine
end

