-- ==== Sys2Proof/Machine/Modes.lean ====
section
/-! DEFINITION. The entry into STANDBY (R15), lock loss (R153), lock gained (R152), and the reset of the part (R172). -/

namespace Sys2Proof.Machine

/-- R15: the entry into STANDBY: ramps land on their targets, crossfades end, runners halt, and the MODE request's
reservation is filled with OK and the mode STANDBY. -/
def enterStandby (s : State) : State :=
  fillReservation .ctrl .ok [Mode.standby.code] (haltBoth (endAllSlots
    { s with
        core := { s.core with mode := .standby, gate := 0 }
        ramp := s.ramp.empty }))

/-- R15: takes an owed end of LEAVING: the gate has reached 0. -/
def takeLeavingEnd (s : State) : State := if s.core.mode = .leaving ∧ s.core.gate = 0 then enterStandby s else s

/-- R153: partial contexts are emptied, complete ones kept. -/
def keepComplete : Option Context → Option Context
  | some c => if c.complete then some c else none
  | none => none

/-- R150: lock loss abandons a digest; a read waits. -/
def abortDigest (s : State) : State :=
  match s.table with
  | some op => if op.kind = .digest then abortTableOp s else s
  | none => s

/-- R16: lock loss in LEAVING enters STANDBY at once. -/
def lossInLeaving (s : State) : State := if s.core.mode = .leaving then enterStandby s else s

/-- R1, R9, R153: what lock loss does to the port, the gate and the held source vector. -/
def dropLock (s : State) : State :=
  { s with
      port := { s.port with
        lock := .hunt
        goodSyncs := 0
        missingSyncs := 0
        contexts := s.port.contexts.map keepComplete
        outgoing := none }
      frame := Frame.idle
      core := { s.core with gate := 0, held := Vector.replicate 12 0 } }

/-- R153: lock loss. DESIGN CHOICE (entry 25): in LEAVING the entry into STANDBY (R16), with its crossfade ends (R95, R88), comes
before the digest's abandonment (R150), so a SECTIONS digest that has covered an old chain's section ends DISTURBED, not
ABORTED. -/
def lockLoss (s : State) : State := abortDigest (lossInLeaving (setFlag .lockLost (dropLock s)))

/-- R152, R153: the port becomes LOCKED and its first frame opens; in RUN RING_RELOCKED is raised. -/
def gainLock (s : State) : State :=
  let t := { s with
    port := { s.port with lock := .locked, goodSyncs := 0, missingSyncs := 0 }
    frame := { s.frame with boundaryDue := true } }
  if s.core.mode = .run then raiseNotice .ringRelocked t else t

/-- R151: a strap value from 1 to 30 is the own node; any other is taken as 30. -/
def strapNode (strap : Nat) : Node := if 1 ≤ strap ∧ strap ≤ 30 then BitVec.ofNat 5 strap else 30

/-- R151, R160: power-on. The queue of commands and the index of the next free value are the model's own and stand. -/
def powerOn (strap : Nat) (s : State) : State :=
  { State.powerOn (strapNode strap) with free := s.free, pending := s.pending }

/-- R160, R172: PART_RESET: every block's reset values; the lock state with its counts, the own node and the frame in hand are
kept, and so is what the ring already carries. -/
def partReset (s : State) : State :=
  { State.powerOn s.port.ownNode with
      port := { RingPort.powerOn s.port.ownNode with
        lock := s.port.lock
        goodSyncs := s.port.goodSyncs
        missingSyncs := s.port.missingSyncs }
      frame := s.frame
      lane := s.lane
      free := s.free
      pending := s.pending }

end Sys2Proof.Machine
end

