-- ==== Sys2Proof/Machine/Boundary.lean ====
section
/-! DEFINITION. The frame boundary (R1). FRAME_BOUNDARY opens it and takes every advance. What completes there is a step of
its own, marked owed; its order is the sender's. When nothing is owed the samples are composed and the boundary closes; a
sync or a missed sync, which opens the next frame or ends lock, first takes what is still owed (entry 3). -/

namespace Sys2Proof.Machine

/-- R8: the gate's step in the mode in force. -/
def gateStep (m : Mode) (u : Nat) : Nat :=
  match m with
  | .run => min (u + 1) gateFull
  | .leaving => u - 5
  | .standby => 0

/-- The frame opens: its boundary is in hand, with the slot maps and EQ's enable state in force (R155, R97, R98); its cell and its
port grant are to come (R140, R156), and no entry of a live table is taken in it yet (R142). DESIGN CHOICE (entry 30): grant and count are renewed here, and not at the sync, so a frame runs from
one FRAME_BOUNDARY to the next. -/
def openFrame (up : Vector Sample 32) (s : State) : State :=
  { s with frame :=
      { boundaryDue := false
        opened := some
          { slots := up, sourceMap := s.port.sourceMap, outputMap := s.port.outputMap, eqOn := s.ctl.enabled.eq }
        examDue := true
        cellDue := true
        grantFree := true
        liveTaken := 0 } }

/-- R8, R37, R94: the advances of gate, ramps and crossfades. -/
def advanceGains (s : State) : State :=
  { s with
      core := { s.core with gate := gateStep s.core.mode s.core.gate }
      ramp := s.ramp.advance
      eq := s.eq.advance }

/-- R8, R37, R94, R105, R123, R145, R148: the advances of a boundary. -/
def advanceAll (s : State) : State := markBatch (ageAdvance (advanceRunners (advanceGains s)))

/-- R65: takes the owed examination of the head set. -/
def takeExam (s : State) : State :=
  if s.frame.examDue then examineHead { s with frame := { s.frame with examDue := false } } else s

/-- Whether anything is still owed at the open boundary. -/
def owing (s : State) : Bool :=
  s.ramp.anyDue || (List.finRange 4).any s.eq.dueAt || s.sdv.tickDue || (s.cue.runners[0]).due || (s.cue.runners[1]).due
    || decide (s.core.mode = .leaving ∧ s.core.gate = 0) || s.frame.examDue || batchOwed s

/-- R1, R7, R154: composes the open boundary's samples and moves its frame's slots, by the maps and with the EQ state of its
opening (R155, R97, R98). -/
def closeBoundary (s : State) : State :=
  match s.frame.opened with
  | some f => transferSlots f (composeAll f.eqOn { s with frame := { s.frame with opened := none } })
  | none => s

/-- Closes the boundary when nothing is owed at it. -/
def closeIfSettled (s : State) : State := if owing s then s else closeBoundary s

/-- Takes the completion of an owed ramp entry (R37). -/
def takeRampEnd (i : Fin 64) (s : State) : State := { s with ramp := s.ramp.complete i }

/-- Takes everything still owed at the open boundary, in one of the orders the spec allows: completions, crossfade ends, the
tick, the runners, the end of LEAVING, the head set, the TABLE unit's batch (DESIGN CHOICE, entry 3; the sender has any other
order by its commands). -/
def takeOwed (s : State) : State :=
  let s := (List.finRange 64).foldl (fun s i => takeRampEnd i s) s
  let s := (List.finRange 4).foldl (fun s i => takeFadeEnd i s) s
  let s := takeTick s
  let s := takeTimeout 1 (takeStep 1 (takeTimeout 0 (takeStep 0 s)))
  takeBatch (takeExam (takeLeavingEnd s))

/-- The end of an open boundary, forced by the next sync: everything owed, then the samples. -/
def finishBoundary (s : State) : State :=
  match s.frame.opened with
  | some _ => closeBoundary (takeOwed s)
  | none => s

/-! ## FRAME_BOUNDARY and the steps of a boundary -/

/-- R1, R152: slots that reach the part where no boundary is due. In HUNT no boundary occurs and every slot is repeated as it
arrives (entry 29); a LOCKED frame has one boundary, and a second one does not occur. -/
def repeatSlots (upstream : Vector Sample 32) (s : State) : State :=
  match s.port.lock with
  | .hunt => { s with lane := { s.lane with slots := upstream } }
  | .locked => s

/-- FRAME_BOUNDARY (R1): in a frame a sync has opened, the boundary's advances; then, when asked for here, the live batch and
the head set's examination. Without an opened frame no boundary occurs (R1: none in HUNT), and the slots are repeated (R152). -/
def execFrameBoundary (upstream : Vector Sample 32) (examine batch : Bool) (s : State) : Host.Outcome State Fault Refusal :=
  .next
    (if s.frame.boundaryDue then
      let t := advanceAll (openFrame upstream s)
      let t := if batch then takeBatch t else t
      let t := if examine then takeExam t else t
      closeIfSettled t
    else repeatSlots upstream s)

/-- RAMP_COMPLETE (R37): the owed completion of an entry. When it is not owed nothing changes. -/
def execRampComplete (entry : Fin 64) (s : State) : Host.Outcome State Fault Refusal :=
  .next (if s.ramp.dueAt entry then closeIfSettled (takeRampEnd entry s) else s)

/-- CROSSFADE_END (R94): the owed end of a slot. When it is not owed nothing changes. -/
def execCrossfadeEnd (slot : Fin 4) (s : State) : Host.Outcome State Fault Refusal :=
  .next (if s.eq.dueAt slot then closeIfSettled (takeFadeEnd slot s) else s)

/-- LEAVING_END (R15): the gate has reached 0 in LEAVING. Otherwise nothing changes. -/
def execLeavingEnd (s : State) : Host.Outcome State Fault Refusal :=
  .next (if s.core.mode = .leaving ∧ s.core.gate = 0 then closeIfSettled (enterStandby s) else s)

/-- SET_APPLICATION (R65, R69): the owed examination of the head set, which applies it whole or leaves it waiting with its
reason. When it is not owed nothing changes. -/
def execSetApplication (s : State) : Host.Outcome State Fault Refusal :=
  .next (if s.frame.examDue then closeIfSettled (takeExam s) else s)

/-- SDV_TICK (R105): the owed rise of the tick phase. When it is not owed nothing changes. -/
def execSdvTick (s : State) : Host.Outcome State Fault Refusal :=
  .next (if s.sdv.tickDue then closeIfSettled (takeTick s) else s)

/-- STEP_COMPLETE (R123): the owed last count of a STEPPING runner. When it is not owed nothing changes. -/
def execStepComplete (r : RunnerNo) (s : State) : Host.Outcome State Fault Refusal :=
  .next (if s.cue.runners[r].state = .stepping ∧ s.cue.runners[r].due then closeIfSettled (completeEntry r s) else s)

/-- WAIT_TIMEOUT (R125): the owed last count of a WAITING runner. When it is not owed nothing changes. -/
def execWaitTimeout (r : RunnerNo) (s : State) : Host.Outcome State Fault Refusal :=
  .next (if s.cue.runners[r].state = .waiting ∧ s.cue.runners[r].due then closeIfSettled (completeWait r true s) else s)

end Sys2Proof.Machine
end

