-- ==== Sys2Proof/Machine/Ring.lean ====
section
/-! DEFINITION. The ring port (09): power-on, syncs, the control cell, packet assembly and outgoing packets; and the queueing
of notices (R166). -/

namespace Sys2Proof.Machine

/-- POWER_ON (R151). -/
def execPowerOn (strap : Nat) (s : State) : Host.Outcome State Fault Refusal := .next (powerOn strap s)

/-- R152: a sync while hunting. -/
def syncHunting (spacing : Spacing) (s : State) : State :=
  match spacing with
  | .oneFrame =>
      if s.port.goodSyncs + 1 < 3 then { s with port := { s.port with goodSyncs := s.port.goodSyncs + 1 } }
      else gainLock s
  | .other => { s with port := { s.port with goodSyncs := 1 } }

/-- R152: the frame in hand ends and the next opens; its boundary is to be taken. DESIGN CHOICE (entry 30): until FRAME_BOUNDARY
takes that boundary, the last frame's unspent grant and its room for live entries stand (R140, R142), so a grant commanded here
and the new frame's own can both follow one sync. -/
def nextFrame (missing : Nat) (s : State) : State :=
  let t := finishBoundary s
  { t with port := { t.port with missingSyncs := missing }, frame := { t.frame with boundaryDue := true } }

/-- SYNC_RECEIVED (R152). -/
def execSyncReceived (spacing : Spacing) (s : State) : Host.Outcome State Fault Refusal :=
  .next
    (match s.port.lock with
    | .hunt => syncHunting spacing s
    | .locked =>
        match spacing with
        | .oneFrame => nextFrame 0 s
        | .other => s)

/-- SYNC_MISSING (R152): the first miss opens the frame at the expected position, the second loses lock. -/
def execSyncMissing (s : State) : Host.Outcome State Fault Refusal :=
  .next
    (match s.port.lock with
    | .hunt => { s with port := { s.port with goodSyncs := 0 } }
    | .locked => if s.port.missingSyncs = 0 then nextFrame 1 s else lockLoss (finishBoundary s))

/-! ## Packet assembly (R157, R158) -/

/-- The node of a node byte: its low five bits (R173). -/
def nodeOf (b : Byte) : Node := b.truncate 5

/-- R157: whether a context is its origin's partial context. -/
def Context.partialOf (o : Node) : Option Context → Bool
  | some c => !c.complete && decide (c.origin = o)
  | none => false

/-- R157: the partial context of an origin. -/
def RingPort.partialContext (p : RingPort) (o : Node) : Option (Fin 2) :=
  (List.finRange 2).find? fun i => Context.partialOf o p.contexts[i]

/-- R157: a free context. DESIGN CHOICE (entry 31): of two free ones, the lower-numbered. -/
def RingPort.freeContext (p : RingPort) : Option (Fin 2) := (List.finRange 2).find? fun i => (p.contexts[i]).isNone

/-- Whether a context holds a complete packet. -/
def RingPort.isComplete (p : RingPort) (i : Fin 2) : Bool :=
  match p.contexts[i] with
  | some c => c.complete
  | none => false

/-- R158: the context that completed first, when context `i` completes now. -/
def RingPort.firstAfter (p : RingPort) (i : Fin 2) : Fin 2 := if p.isComplete (i + 1) then i + 1 else i

/-- Puts a context in place; when it is complete the order of completion is kept (R158). -/
def putContext (i : Fin 2) (c : Context) (s : State) : State :=
  { s with port := { s.port with
      contexts := s.port.contexts.set i (some c)
      firstComplete := if c.complete then s.port.firstAfter i else s.port.firstComplete } }

/-- Frees a context. -/
def freeContextAt (i : Fin 2) (s : State) : State :=
  { s with port := { s.port with contexts := s.port.contexts.set i none } }

/-- A context opened by a cell: 6 bytes and 1 cell (R157). -/
def openContext (broadcast complete : Bool) (c : Cell) : Context :=
  { origin := nodeOf c.origin, broadcast := broadcast, complete := complete, bytes := c.payload.toList, cells := 1 }

/-- R157, R158: a FIRST (`complete` false) or ONLY (`complete` true). -/
def openPacket (broadcast complete : Bool) (c : Cell) (s : State) : State :=
  match s.port.partialContext (nodeOf c.origin) with
  | some i => putContext i (openContext broadcast complete c) (setFlag .badSequence s)
  | none =>
      match s.port.freeContext with
      | some i => putContext i (openContext broadcast complete c) s
      | none => setFlag .rxOverrun s

/-- R157: a MIDDLE (`last` false) or LAST (`last` true). -/
def extendPacket (last : Bool) (c : Cell) (s : State) : State :=
  match s.port.partialContext (nodeOf c.origin) with
  | none => setFlag .badSequence s
  | some i =>
      match s.port.contexts[i] with
      | none => setFlag .badSequence s
      | some x =>
          if x.cells < 8 then
            putContext i { x with bytes := x.bytes ++ c.payload.toList, cells := x.cells + 1, complete := last } s
          else setFlag .badLength (freeContextAt i s)

/-- R157: a cell handed to assembly; a kind outside the five is discarded with BAD_SEQUENCE (R156). -/
def assemble (broadcast : Bool) (c : Cell) (s : State) : State :=
  match c.kind.toNat with
  | 1 => openPacket broadcast true c s
  | 2 => openPacket broadcast false c s
  | 3 => extendPacket false c s
  | 4 => extendPacket true c s
  | _ => setFlag .badSequence s

/-! ## The control cell (R156, R159) -/

/-- Sends a cell downstream. -/
def sendCell (c : Cell) (s : State) : State := { s with lane := { s.lane with cell := c } }

/-- R156, R159: a free position carries the next cell of the outgoing packet, or IDLE. -/
def fillPosition (s : State) : State :=
  match s.port.outgoing with
  | some (c :: cs) =>
      sendCell c { s with port := { s.port with outgoing := if cs = [] then none else some cs } }
  | some [] => sendCell Cell.idle { s with port := { s.port with outgoing := none } }
  | none => sendCell Cell.idle s

/-- R156: the incoming control cell of a LOCKED frame. -/
def lockedCell (c : Cell) (s : State) : State :=
  if c.kind = 0 then fillPosition s
  else if nodeOf c.dest = s.port.ownNode then fillPosition (assemble false c s)
  else if nodeOf c.dest = 31 then sendCell c (assemble true c s)
  else if nodeOf c.origin = s.port.ownNode then fillPosition (setFlag .undelivered s)
  else sendCell c s

/-- CONTROL_CELL (R152, R156): in HUNT the cell is repeated; in LOCKED a frame has one control cell, and a second cell in one
frame does not occur and changes nothing. -/
def execControlCell (cell : Cell) (s : State) : Host.Outcome State Fault Refusal :=
  .next
    (match s.port.lock with
    | .hunt => sendCell cell s
    | .locked =>
        if s.frame.cellDue then lockedCell cell { s with frame := { s.frame with cellDue := false } } else s)

/-! ## Outgoing packets (R159) -/

/-- Six payload bytes from a list, padded with zero bytes. -/
def payloadOf (bs : List Byte) : Vector Byte 6 := Vector.ofFn fun i => bs.getD i.val 0

/-- The kind of a packet's cell: ONLY, FIRST, MIDDLE or LAST (11.1). -/
def cellKind (first last : Bool) : Byte :=
  match first, last with
  | true, true => 1
  | true, false => 2
  | false, false => 3
  | false, true => 4

/-- R159: cuts bytes into cells of six payload bytes; at most `n` cells. -/
def cutCells (dest own : Node) : Nat → Bool → List Byte → List Cell
  | 0, _, _ => []
  | n + 1, first, bs =>
      { kind := cellKind first (bs.drop 6).isEmpty, dest := dest.zeroExtend 8, origin := own.zeroExtend 8,
        payload := payloadOf (bs.take 6) } ::
        if (bs.drop 6).isEmpty then [] else cutCells dest own n false (bs.drop 6)

/-- R159: the cells of a packet; a packet holds at most 48 bytes. -/
def packetCells (own : Node) (p : OutPacket) : List Cell := cutCells p.dest own 8 true p.bytes

/-- R159: the packet at the head of the reply queue becomes the outgoing packet and its place is free. -/
def takeOutgoing (s : State) : State :=
  match s.port.outgoing, s.ctl.queue with
  | none, .packet p :: q =>
      { s with
          port := { s.port with outgoing := some (packetCells s.port.ownNode p) }
          ctl := { s.ctl with queue := q } }
  | _, _ => s

/-- OUTGOING_PACKET_TAKE (R159). With an outgoing packet, or no packet at the head, none is taken; notices owed a free place
are queued all the same (R166). -/
def execOutgoingPacketTake (s : State) : Host.Outcome State Fault Refusal := .next (takeOutgoing (queueNotices s))

/-- R166: the oldest pending notice takes a free place. -/
def queueOneNotice (s : State) : State :=
  match s.ctl.notices with
  | n :: ns =>
      if placeFree s then
        { s with ctl := { s.ctl with queue := s.ctl.queue ++ [.packet (noticePacket n)], notices := ns } }
      else s
  | [] => s

/-- NOTICE_QUEUE (R166). With no free place or no pending notice nothing changes. -/
def execNoticeQueue (s : State) : Host.Outcome State Fault Refusal := .next (queueOneNotice s)

end Sys2Proof.Machine
end

