-- ==== Sys2Proof/Machine/Requests.lean ====
section
/-! DEFINITION. The taking of a packet (R161), broadcasts (R162) and the decode of a request (R163). -/

namespace Sys2Proof.Machine

/-- The requests of the six units (R163). -/
inductive Request
  | identify | readStatus | unitEnable | unitReset | partReset | noticeEnable | mode | slotMap
  | stageRecord | abortOpen | flushQueue | setStatus
  | sectionLoad | sectionWrite | sectionRelease | poolStatus
  | speedReport | sdvConfig | sdvManual | sdvAuto | sdvStatus
  | cueWrite | cueStart | cueRelease | cueHalt | cueStatus
  | tableRead | digest
  deriving DecidableEq, Repr

/-- The unit of a request (R163, 11.3). -/
def Request.unit : Request → UnitId
  | .identify | .readStatus | .unitEnable | .unitReset | .partReset | .noticeEnable | .mode | .slotMap => .ctrl
  | .stageRecord | .abortOpen | .flushQueue | .setStatus => .stage
  | .sectionLoad | .sectionWrite | .sectionRelease | .poolStatus => .eq
  | .speedReport | .sdvConfig | .sdvManual | .sdvAuto | .sdvStatus => .sdv
  | .cueWrite | .cueStart | .cueRelease | .cueHalt | .cueStatus => .cue
  | .tableRead | .digest => .table

/-- The request a unit's request code names (11.3). -/
def Request.ofCode (u : UnitId) (code : Byte) : Option Request :=
  match u, code.toNat with
  | .ctrl, 1 => some .identify
  | .ctrl, 2 => some .readStatus
  | .ctrl, 3 => some .unitEnable
  | .ctrl, 4 => some .unitReset
  | .ctrl, 5 => some .partReset
  | .ctrl, 6 => some .noticeEnable
  | .ctrl, 7 => some .mode
  | .ctrl, 8 => some .slotMap
  | .stage, 1 => some .stageRecord
  | .stage, 2 => some .abortOpen
  | .stage, 3 => some .flushQueue
  | .stage, 4 => some .setStatus
  | .eq, 1 => some .sectionLoad
  | .eq, 2 => some .sectionWrite
  | .eq, 3 => some .sectionRelease
  | .eq, 4 => some .poolStatus
  | .sdv, 1 => some .speedReport
  | .sdv, 2 => some .sdvConfig
  | .sdv, 3 => some .sdvManual
  | .sdv, 4 => some .sdvAuto
  | .sdv, 5 => some .sdvStatus
  | .cue, 1 => some .cueWrite
  | .cue, 2 => some .cueStart
  | .cue, 3 => some .cueRelease
  | .cue, 4 => some .cueHalt
  | .cue, 5 => some .cueStatus
  | .table, 1 => some .tableRead
  | .table, 2 => some .digest
  | _, _ => none

/-- R163 step 4: the shortest and the longest data length of a request (11.3). STAGE_RECORD's shortest form is a BOOST_CURVE
record of 0 breakpoints, three bytes (R56, R57, R163; entry 12). -/
def Request.lengths : Request → Nat × Nat
  | .identify => (0, 0)
  | .readStatus => (1, 1)
  | .unitEnable => (4, 4)
  | .unitReset => (1, 1)
  | .partReset => (0, 0)
  | .noticeEnable => (4, 4)
  | .mode => (1, 1)
  | .slotMap => (1, 25)
  | .stageRecord => (3, 37)
  | .abortOpen => (0, 0)
  | .flushQueue => (0, 0)
  | .setStatus => (0, 0)
  | .sectionLoad => (15, 15)
  | .sectionWrite => (16, 16)
  | .sectionRelease => (1, 1)
  | .poolStatus => (0, 0)
  | .speedReport => (3, 3)
  | .sdvConfig => (7, 7)
  | .sdvManual => (2, 2)
  | .sdvAuto => (0, 0)
  | .sdvStatus => (0, 0)
  | .cueWrite => (9, 33)
  | .cueStart => (2, 2)
  | .cueRelease => (1, 1)
  | .cueHalt => (1, 1)
  | .cueStatus => (0, 0)
  | .tableRead => (5, 5)
  | .digest => (5, 7)

/-! ## The bytes of a complete packet (R161, 11.2) -/

/-- A byte of a packet. -/
def Context.byteAt (c : Context) (i : Nat) : Byte := c.bytes.getD i 0

/-- The data length L a packet declares. -/
def Context.dataLength (c : Context) : Nat := (c.byteAt 3).toNat

/-- The data of a packet: the L bytes after the length. -/
def Context.data (c : Context) : List Byte := (c.bytes.drop 4).take c.dataLength

/-- Who a packet's answer goes to. -/
def Context.requester (c : Context) : Requester :=
  { tag := c.byteAt 0, unitByte := c.byteAt 1, code := c.byteAt 2, origin := c.origin }

/-- R161 step 1: the cells are as many as 5 + L bytes need at six a cell. -/
def Context.framed (c : Context) : Bool := decide (c.cells = (5 + c.dataLength + 5) / 6)

/-- R161 step 2: the CRC-8 of every byte before the check byte equals it. -/
def Context.checked (c : Context) : Bool := decide (crc8 (c.bytes.take (4 + c.dataLength)) = c.byteAt (4 + c.dataLength))

/-- R161 step 3: a broadcast's tag is 255, a request's is 1 to 254. -/
def Context.tagged (c : Context) : Bool :=
  if c.broadcast then decide (c.byteAt 0 = 255) else decide (c.byteAt 0 ≠ 0) && decide (c.byteAt 0 ≠ 255)

/-- R161: the flag of the first step at which a packet is discarded. -/
def Context.discard (c : Context) : Option Flag :=
  if !c.framed then some .badLength
  else if !c.checked then some .badCheck
  else if !c.tagged then some .badTag
  else none

/-- The request a packet's unit and request code name. -/
def Context.named (c : Context) : Option Request :=
  match UnitId.ofByte (c.byteAt 1) with
  | some u => Request.ofCode u (c.byteAt 2)
  | none => none

/-- R162: the one broadcast that is acted on: a SPEED_REPORT of the right length while SDV is enabled. -/
def Context.broadcastReport (c : Context) (e : UnitEnables) : Bool :=
  decide (c.named = some .speedReport) && decide (c.dataLength = 3) && e.sdv

/-- The row of the opcode table a packet belongs to: a request of the table, or none for UNKNOWN_REQUEST. -/
def Context.row (c : Context) (e : UnitEnables) : Option Request :=
  if c.discard.isSome then none
  else if c.broadcast then (if c.broadcastReport e then some .speedReport else none)
  else c.named

/-! ## Which packet is taken (R158, R161, R166) -/

/-- R161: a complete request whose unit, request code and data length bytes are those of PART_RESET. -/
def Context.looksLikePartReset (c : Context) : Bool :=
  c.complete && !c.broadcast && decide (c.byteAt 1 = 0) && decide (c.byteAt 2 = 5) && decide (c.byteAt 3 = 0)

/-- The contexts in the order in which complete ones are offered (R158). -/
def RingPort.offerOrder (p : RingPort) : List (Fin 2) := [p.firstComplete, p.firstComplete + 1]

/-- A packet the control unit may take: the context, its contents, and whether a place is appended for it. -/
structure Offer where
  ctx : Fin 2
  packet : Context
  placed : Bool
  deriving DecidableEq, Repr

/-- The first context of a list that holds a packet of a kind. -/
def RingPort.firstWith (p : RingPort) (f : Context → Bool) : List (Fin 2) → Option (Fin 2 × Context)
  | [] => none
  | i :: is =>
      match p.contexts[i] with
      | some c => if f c then some (i, c) else p.firstWith f is
      | none => p.firstWith f is

/-- R158, R161: the packet the control unit takes next: with a free place the one that completed first; with none, and CTRL not
in execution, one that looks like PART_RESET, for which no place is appended (entry 17). -/
def nextOffer (s : State) : Option Offer :=
  if placeFree s then
    (s.port.firstWith Context.complete s.port.offerOrder).map fun x => { ctx := x.1, packet := x.2, placed := true }
  else if inExecution .ctrl s then none
  else
    (s.port.firstWith Context.looksLikePartReset s.port.offerOrder).map fun x =>
      { ctx := x.1, packet := x.2, placed := false }

/-- R161: taking a packet frees its context and appends a place for its answer. -/
def takeOffer (o : Offer) (s : State) : State :=
  let t := freeContextAt o.ctx s
  if o.placed then { t with ctl := { t.ctl with queue := t.ctl.queue ++ [.held o.packet.requester] } } else t

/-- R161, R166: the control unit takes the packet offered next, pending notices first, when it is of the given row, and acts on
it by `body`. When no packet is taken, or one of another row is offered, nothing changes. -/
def takePacket (row : Option Request) (body : Context → State → State) (s : State) : State :=
  match nextOffer (queueNotices s) with
  | some o => if o.packet.row s.ctl.enabled = row then body o.packet (takeOffer o (queueNotices s)) else s
  | none => s

/-! ## Decode (R163) -/

/-- R163 step 2: whether a unit is enabled. -/
def UnitEnables.allows (e : UnitEnables) : UnitId → Bool
  | .ctrl => true
  | .stage => true
  | .eq => e.eq
  | .sdv => e.sdv
  | .cue => e.cue
  | .table => e.table

/-- R163 step 5: READ_STATUS and POOL_STATUS pass whatever their unit's marker. -/
def Request.passesBusy : Request → Bool
  | .readStatus => true
  | .poolStatus => true
  | _ => false

/-- R163 steps 2, 4 and 5 for a request of the table: the first that fails. -/
def decodeRefusal (q : Request) (len : Nat) (s : State) : Option Result :=
  if !s.ctl.enabled.allows q.unit then some .unitOff
  else if len < q.lengths.1 ∨ q.lengths.2 < len then some .badLength
  else if !q.passesBusy && inExecution q.unit s then some .busy
  else none

/-- R163: a taken packet that is a request of the table: the decode's refusal, or the request's own checks and effect. -/
def decodeThen (q : Request) (body : Requester → List Byte → State → State) (c : Context) (s : State) : State :=
  match decodeRefusal q c.dataLength s with
  | some res => answer c.requester res [] s
  | none => body c.requester c.data s

/-- A request row: the control unit takes the packet offered next when it is this request, and decodes it. -/
def takeRequest (q : Request) (body : Requester → List Byte → State → State) (s : State) : Host.Outcome State Fault Refusal :=
  .next (takePacket (some q) (decodeThen q body) s)

/-! ## UNKNOWN_REQUEST -/

/-- R163 steps 1 to 3 for a packet that names no request of the table. -/
def refuseUnknown (c : Context) (s : State) : State :=
  match UnitId.ofByte (c.byteAt 1) with
  | none => answer c.requester .unknownUnit [] (setFlag .unknownUnit s)
  | some u =>
      if s.ctl.enabled.allows u then answer c.requester .unknownRequest [] (setFlag .unknownRequest s)
      else answer c.requester .unitOff [] s

/-- R161, R162, R163: a packet of no row: discarded with its flag, ignored as a broadcast, or refused. -/
def judgeUnknown (c : Context) (s : State) : State :=
  match c.discard with
  | some f => releasePlace (setFlag f s)
  | none => if c.broadcast then releasePlace s else refuseUnknown c s

/-- UNKNOWN_REQUEST (R161, R162, R163). -/
def execUnknownRequest (s : State) : Host.Outcome State Fault Refusal := .next (takePacket none judgeUnknown s)

end Sys2Proof.Machine
end

