-- ==== Sys2Proof/Machine/Control.lean ====
section
/-! DEFINITION. The requests of the CTRL unit (01 R11 to R14, 09 R155, 10 R168 to R172). -/

namespace Sys2Proof.Machine

/-! ## IDENTIFY, READ_STATUS -/

/-- R168, 11.3: part code 0C98 hex, revision 01, own node. -/
def identifyData (s : State) : List Byte := [0x0C, 0x98, 0x01, s.port.ownNode.zeroExtend 8]

/-- R168. -/
def bodyIdentify (rq : Requester) (_data : List Byte) (s : State) : State := answer rq .ok (identifyData s) s

/-- IDENTIFY (R168). -/
def execIdentify (s : State) : Host.Outcome State Fault Refusal := takeRequest .identify bodyIdentify s

/-- Four markers as the low bits of a byte, the first in bit 0 (11.3). -/
def mapByte (a b c d : Bool) : Byte :=
  byteOf ((if a then 1 else 0) + (if b then 2 else 0) + (if c then 4 else 0) + (if d then 8 else 0))

/-- The unit enable map as one byte: bits 0 to 3 EQ, SDV, CUE, TABLE (11.3). -/
def UnitEnables.mapByte (e : UnitEnables) : Byte := Machine.mapByte e.eq e.sdv e.cue e.table

/-- The notice enable map as one byte: bits 0 to 3 in code order (11.3). -/
def NoticeEnables.mapByte (e : NoticeEnables) : Byte :=
  Machine.mapByte e.setApplied e.cueStopped e.sdvState e.ringRelocked

/-- R168, 11.3: flag word, clip map, mode, lock state, enable maps, last good tag (0 = none). -/
def statusData (s : State) : List Byte :=
  bytes16 s.ctl.flags.toNat ++ bytes24 s.ctl.clip.toNat ++
    [s.core.mode.code, s.port.lock.code, s.ctl.enabled.mapByte, s.ctl.noticeOn.mapByte, s.ctl.lastGood.getD 0]

/-- R168: clear-after-read clears after the copy. -/
def bodyReadStatus (rq : Requester) (data : List Byte) (s : State) : State :=
  match bit01 (data.getD 0 0) with
  | none => answer rq .badValue [] s
  | some clear => answer rq .ok (statusData s) (if clear then clearFlags s else s)

/-- READ_STATUS (R168). -/
def execReadStatus (s : State) : Host.Outcome State Fault Refusal := takeRequest .readStatus bodyReadStatus s

/-! ## UNIT_ENABLE (R169) -/

/-- Four enable states of one byte each (11.3). -/
def parseFour : List Byte → Option (Bool × Bool × Bool × Bool)
  | [a, b, c, d] => do
      let a ← bit01 a
      let b ← bit01 b
      let c ← bit01 c
      let d ← bit01 d
      pure (a, b, c, d)
  | _ => none

/-- R169, 11.3: the four enable states in force, one byte each. -/
def enableData (s : State) : List Byte :=
  [bitByte s.ctl.enabled.eq, bitByte s.ctl.enabled.sdv, bitByte s.ctl.enabled.cue, bitByte s.ctl.enabled.table]

/-- R97, R98: the EQ unit's effect of a new enable state: a disable abandons its pending write. -/
def enableEq (on : Bool) (s : State) : State :=
  let t := { s with ctl := { s.ctl with enabled := { s.ctl.enabled with eq := on } } }
  if s.ctl.enabled.eq && !on then abortSectionWrite t else t

/-- R116: the SDV unit's effect of a new enable state. -/
def enableSdv (on : Bool) (s : State) : State :=
  let t := { s with ctl := { s.ctl with enabled := { s.ctl.enabled with sdv := on } } }
  if s.ctl.enabled.sdv = on then t else if on then sdvEnable t else sdvDisable t

/-- R136: the cue unit's effect of a new enable state. -/
def enableCue (on : Bool) (s : State) : State :=
  let t := { s with ctl := { s.ctl with enabled := { s.ctl.enabled with cue := on } } }
  if s.ctl.enabled.cue && !on then cueDisable t else t

/-- R150: the TABLE unit's effect of a new enable state. -/
def enableTable (on : Bool) (s : State) : State :=
  let t := { s with ctl := { s.ctl with enabled := { s.ctl.enabled with table := on } } }
  if s.ctl.enabled.table && !on then abortTableOp t else t

/-- R169: codes, then the mode where EQ's state changes, then the effects of each changed unit. DESIGN CHOICE (entry 25): the
units' effects come in the order EQ, SDV, CUE, TABLE, so a SECTIONS digest that has covered the section of EQ's abandoned write
ends DISTURBED (R88, R149) where TABLE is disabled with EQ, not ABORTED. -/
def bodyUnitEnable (rq : Requester) (data : List Byte) (s : State) : State :=
  match parseFour data with
  | none => answer rq .badValue [] s
  | some (eq, sdv, cue, table) =>
      if eq ≠ s.ctl.enabled.eq ∧ s.core.mode ≠ .standby then answer rq .wrongMode [] s
      else
        let t := enableTable table (enableCue cue (enableSdv sdv (enableEq eq s)))
        answer rq .ok (enableData t) t

/-- UNIT_ENABLE (R169). -/
def execUnitEnable (s : State) : Host.Outcome State Fault Refusal := takeRequest .unitEnable bodyUnitEnable s

/-! ## UNIT_RESET, PART_RESET, NOTICE_ENABLE -/

/-- R170: the reset of a named unit. -/
def resetUnit (u : UnitId) (s : State) : State :=
  match u with
  | .ctrl => s
  | .stage => stageReset s
  | .eq => eqReset s
  | .sdv => sdvReset s
  | .cue => cueReset s
  | .table => abortTableOp s

/-- R170. -/
def bodyUnitReset (rq : Requester) (data : List Byte) (s : State) : State :=
  match UnitId.ofByte (data.getD 0 255) with
  | none => answer rq .badValue [] s
  | some u =>
      if u = .ctrl then answer rq .badValue [] s
      else if u = .eq ∧ s.core.mode ≠ .standby then answer rq .wrongMode [] s
      else answer rq .ok [u.code] (resetUnit u s)

/-- UNIT_RESET (R170). -/
def execUnitReset (s : State) : Host.Outcome State Fault Refusal := takeRequest .unitReset bodyUnitReset s

/-- R172: taken, and not answered. -/
def bodyPartReset (_rq : Requester) (_data : List Byte) (s : State) : State := partReset s

/-- PART_RESET (R172). -/
def execPartReset (s : State) : Host.Outcome State Fault Refusal := takeRequest .partReset bodyPartReset s

/-- R171, 11.3: the four notice enable states in force, one byte each. -/
def noticeData (s : State) : List Byte :=
  [bitByte s.ctl.noticeOn.setApplied, bitByte s.ctl.noticeOn.cueStopped, bitByte s.ctl.noticeOn.sdvState,
    bitByte s.ctl.noticeOn.ringRelocked]

/-- R171: the map takes the carried states; pending notices of disabled kinds are cleared. -/
def setNoticeMap (e : NoticeEnables) (s : State) : State :=
  { s with ctl := { s.ctl with noticeOn := e, notices := s.ctl.notices.filter e.allows } }

/-- R171. -/
def bodyNoticeEnable (rq : Requester) (data : List Byte) (s : State) : State :=
  match parseFour data with
  | none => answer rq .badValue [] s
  | some (a, b, c, d) =>
      let t := setNoticeMap { setApplied := a, cueStopped := b, sdvState := c, ringRelocked := d } s
      answer rq .ok (noticeData t) t

/-- NOTICE_ENABLE (R171). -/
def execNoticeEnable (s : State) : Host.Outcome State Fault Refusal := takeRequest .noticeEnable bodyNoticeEnable s

/-! ## MODE (R11 to R14) -/

/-- R13: MODE STANDBY in RUN: a reservation, and LEAVING, or STANDBY at once with the gate at 0. -/
def leaveRun (s : State) : State :=
  let t := reserve .ctrl s
  if 0 < s.core.gate then { t with core := { t.core with mode := .leaving } } else enterStandby t

/-- R12, R14: an immediate OK with the mode in force. -/
def answerMode (rq : Requester) (s : State) : State := answer rq .ok [s.core.mode.code] s

/-- R11 to R14. In LEAVING the decode has answered BUSY (R14). -/
def bodyMode (rq : Requester) (data : List Byte) (s : State) : State :=
  match bit01 (data.getD 0 255) with
  | none => answer rq .badValue [] s
  | some true => answerMode rq { s with core := { s.core with mode := .run } }
  | some false => if s.core.mode = .run then leaveRun s else answerMode rq s

/-- MODE (R11). -/
def execMode (s : State) : Host.Outcome State Fault Refusal := takeRequest .mode bodyMode s

/-! ## SLOT_MAP (R155) -/

/-- A list of slot entries; none when one is outside its codes. -/
def parseSlots : List Byte → Option (List (Option Slot))
  | [] => some []
  | b :: bs => do
      let e ← slotOfByte b
      let es ← parseSlots bs
      pure (e :: es)

/-- R155: no slot is named by two outputs. -/
def slotsDistinct (m : List (Option Slot)) : Bool := decide (m.filterMap id).Nodup

/-- R155, 11.3: the selected map as bytes. -/
def mapData (output : Bool) (s : State) : List Byte :=
  bitByte output :: (if output then s.port.outputMap.toList.map slotCode else s.port.sourceMap.toList.map slotCode)

/-- R155: replaces the selected map. The frame of an open boundary keeps the one it was opened with (`openFrame`). -/
def setMap (output : Bool) (m : List (Option Slot)) (s : State) : State :=
  if output then { s with port := { s.port with outputMap := Vector.ofFn fun o => (m[o.val]?).join } }
  else { s with port := { s.port with sourceMap := Vector.ofFn fun o => (m[o.val]?).join } }

/-- R155: the entries a selector requires. -/
def mapSize (output : Bool) : Nat := if output then 24 else 12

/-- R155: the checks in their order. -/
def bodySlotMap (rq : Requester) (data : List Byte) (s : State) : State :=
  match bit01 (data.getD 0 255) with
  | none => answer rq .badValue [] s
  | some output =>
      let entries := data.drop 1
      if entries = [] then answer rq .ok (mapData output s) s
      else if entries.length ≠ mapSize output then answer rq .badLength [] s
      else if s.core.mode ≠ .standby then answer rq .wrongMode [] s
      else
        match parseSlots entries with
        | none => answer rq .badValue [] s
        | some m =>
            if output && !slotsDistinct m then answer rq .badValue [] s
            else answer rq .ok (mapData output (setMap output m s)) (setMap output m s)

/-- SLOT_MAP (R155). -/
def execSlotMap (s : State) : Host.Outcome State Fault Refusal := takeRequest .slotMap bodySlotMap s

end Sys2Proof.Machine
end

