-- ==== Sys2Proof/Machine/CueRequests.lean ====
section
/-! DEFINITION. The requests of the CUE unit (07). -/

namespace Sys2Proof.Machine

/-- R132: the entries become the pending cue write. -/
def startCueWrite (a : CueAddr) (es : List CueEntry) (s : State) : State :=
  reserve .cue
    { s with cue := { s.cue with
        pendingWrite := some { addr := a, entries := es }
        cueFirst := s.eq.pendingWrite.isNone } }

/-- R132, R174: the data length is an address and whole entries of eight bytes. -/
def bodyCueWrite (rq : Requester) (data : List Byte) (s : State) : State :=
  let bytes := data.drop 1
  if bytes.length % 8 ≠ 0 then answer rq .badLength [] s
  else startCueWrite (byteFin (data.getD 0 0)) (parseEntries 4 bytes) s

/-- CUE_WRITE (R132). -/
def execCueWrite (s : State) : Host.Outcome State Fault Refusal := takeRequest .cueWrite bodyCueWrite s

/-- R129: the runner starts a cue at an address; its requests are kept. -/
def startRunner (r : RunnerNo) (a : CueAddr) (s : State) : State :=
  onRunner r (fun x =>
    { x with state := .fetching, window := [], nextFetch := a, latch := false, timedOut := false, elapsed := 0, due := false }) s

/-- The runner and its state (11.3). -/
def runnerData (r : RunnerNo) (s : State) : List Byte := [byteOf r.val, (s.cue.runners[r]).state.code]

/-- R129. -/
def bodyCueStart (rq : Requester) (data : List Byte) (s : State) : State :=
  match below 2 (data.getD 0 255) with
  | none => answer rq .badValue [] s
  | some r =>
      if s.core.mode = .run then
        let t := startRunner r (byteFin (data.getD 1 0)) s
        answer rq .ok (runnerData r t) t
      else answer rq .wrongMode [] s

/-- CUE_START (R129). -/
def execCueStart (s : State) : Host.Outcome State Fault Refusal := takeRequest .cueStart bodyCueStart s

/-- R131: the reply's outcome (0 RELEASED, 1 LATCHED) and the runner's state. -/
def releaseData (outcome : Byte) (r : RunnerNo) (s : State) : List Byte := [outcome, (s.cue.runners[r]).state.code]

/-- R131: a runner that has not reached a WAIT keeps one release. -/
def latchRelease (rq : Requester) (r : RunnerNo) (s : State) : State :=
  if (s.cue.runners[r]).latch then answer rq .already [] s
  else
    let t := onRunner r (fun x => { x with latch := true }) s
    answer rq .ok (releaseData 1 r t) t

/-- R131: by the runner's state. -/
def releaseRunner (rq : Requester) (r : RunnerNo) (s : State) : State :=
  match (s.cue.runners[r]).state with
  | .waiting =>
      let t := completeWait r false s
      answer rq .ok (releaseData 0 r t) t
  | .stepping => latchRelease rq r s
  | .fetching => latchRelease rq r s
  | .idle => answer rq .wrongState [] s
  | .stopped => answer rq .wrongState [] s

/-- R131. -/
def bodyCueRelease (rq : Requester) (data : List Byte) (s : State) : State :=
  match below 2 (data.getD 0 255) with
  | none => answer rq .badValue [] s
  | some r => releaseRunner rq r s

/-- CUE_RELEASE (R131). -/
def execCueRelease (s : State) : Host.Outcome State Fault Refusal := takeRequest .cueRelease bodyCueRelease s

/-- R130. -/
def bodyCueHalt (rq : Requester) (data : List Byte) (s : State) : State :=
  match below 2 (data.getD 0 255) with
  | none => answer rq .badValue [] s
  | some r => answer rq .ok (runnerData r (haltRunner r s)) (haltRunner r s)

/-- CUE_HALT (R130). -/
def execCueHalt (s : State) : Host.Outcome State Fault Refusal := takeRequest .cueHalt bodyCueHalt s

/-- 11.3: the twelve requests as 9-bit attenuations, S0 first, most significant bit first, and four zero bits. -/
def requestBits (x : Runner) : BitVec 112 :=
  (x.requests.toList.foldl (fun (w : BitVec 112) (v : Int) => (w <<< 9) ||| BitVec.ofInt 112 (-v)) (0 : BitVec 112)) <<< 4

/-- 11.3: the 14 bytes of the packed requests. -/
def requestBytes (x : Runner) : List Byte := (List.range 14).map fun i => (requestBits x).extractLsb' (8 * (13 - i)) 8

/-- R134, 11.3: one runner's 20 bytes: state in bits 0 to 2, latch in bit 4, timed-out flag in bit 5; position-0 address; valid
positions; elapsed frames; requests. -/
def runnerRecord (x : Runner) : List Byte :=
  [x.state.code ||| (if x.latch then 0x10 else 0) ||| (if x.timedOut then 0x20 else 0), byteOf x.address.val,
    byteOf x.window.length] ++ bytes24 x.elapsed ++ requestBytes x

/-- R134. -/
def bodyCueStatus (rq : Requester) (_data : List Byte) (s : State) : State :=
  answer rq .ok (runnerRecord s.cue.runners[0] ++ runnerRecord s.cue.runners[1]) s

/-- CUE_STATUS (R134). -/
def execCueStatus (s : State) : Host.Outcome State Fault Refusal := takeRequest .cueStatus bodyCueStatus s

end Sys2Proof.Machine
end

