-- ==== Sys2Proof/Machine/Equaliser.lean ====
section
/-! DEFINITION. The requests of the EQ unit (05). -/

namespace Sys2Proof.Machine

/-- R82: a section becomes LOADING and the pending write. A cue write already waiting was accepted first (R141). -/
def startSectionWrite (sec : SectionNo) (kind : WriteKind) (c : Coeffs) (s : State) : State :=
  reserve .eq (reportSections [sec]
    { s with
        eq := { s.eq.putState sec .loading with pendingWrite := some { sec := sec, kind := kind, coeffs := c } }
        cue := { s.cue with cueFirst := s.cue.pendingWrite.isSome } })

/-- R83: allocation by the free map, or NO_SPACE. -/
def bodySectionLoad (rq : Requester) (data : List Byte) (s : State) : State :=
  match parseCoeffs data with
  | none => answer rq .badLength [] s
  | some c =>
      match s.eq.lowestFree with
      | none => answer rq .noSpace [] s
      | some sec => startSectionWrite sec .load c { s with eq := s.eq.markUsed sec }

/-- SECTION_LOAD (R83). -/
def execSectionLoad (s : State) : Host.Outcome State Fault Refusal := takeRequest .sectionLoad bodySectionLoad s

/-- R84, R85: the refusal of a section in a state other than LOADED: FREE is NOT_LOADED, the others IN_USE; the data is the
state. -/
def refuseSection (rq : Requester) (st : SectionState) (s : State) : State :=
  answer rq (if st = .free then .notLoaded else .inUse) [st.code] s

/-- R84. -/
def bodySectionWrite (rq : Requester) (data : List Byte) (s : State) : State :=
  match parseCoeffs (data.drop 1) with
  | none => answer rq .badLength [] s
  | some c =>
      let sec := byteFin (data.getD 0 0)
      if (s.eq.sections[sec]).state = .loaded then startSectionWrite sec .rewrite c s
      else refuseSection rq (s.eq.sections[sec]).state s

/-- SECTION_WRITE (R84). -/
def execSectionWrite (s : State) : Host.Outcome State Fault Refusal := takeRequest .sectionWrite bodySectionWrite s

/-- R85: a LOADED section goes to FREE with its markers set. -/
def releaseSection (sec : SectionNo) (s : State) : State :=
  reportSections [sec] { s with eq := (s.eq.putState sec .free).markFree sec }

/-- R85. -/
def bodySectionRelease (rq : Requester) (data : List Byte) (s : State) : State :=
  let sec := byteFin (data.getD 0 0)
  if (s.eq.sections[sec]).state = .loaded then
    answer rq .ok (byteOf sec.val :: bytes16 (releaseSection sec s).eq.freeCount) (releaseSection sec s)
  else refuseSection rq (s.eq.sections[sec]).state s

/-- SECTION_RELEASE (R85). -/
def execSectionRelease (s : State) : Host.Outcome State Fault Refusal := takeRequest .sectionRelease bodySectionRelease s

/-- R86, 11.3: a crossfade slot: its output and k; a free slot is FF hex and two bytes the spec does not give (entry 11). -/
def slotData (free : Nat) (e : EqUnit) (i : Fin 4) : List Byte :=
  match e.slots[i] with
  | some x => byteOf x.output.val :: bytes16 x.k
  | none => 0xFF :: bytes16 (Config.freeSlotK free i.val).toNat

/-- R86, 11.3: the level-0 map as a byte: bits 0 to 3 the four markers; bits 4 to 7 the spec does not give (entry 27). -/
def level0Byte (free : Nat) (e : EqUnit) : Byte := (Config.freeLevel0 free) ++ e.free0

/-- R86, 11.3: free count, level-0 map, five state counts, four slots. -/
def poolData (free : Nat) (e : EqUnit) : List Byte :=
  bytes16 e.freeCount ++ [level0Byte free e] ++ bytes16 (e.stateCount .loading) ++ bytes16 (e.stateCount .loaded)
    ++ bytes16 (e.stateCount .claimed) ++ bytes16 (e.stateCount .live) ++ bytes16 (e.stateCount .retiring)
    ++ ((List.finRange 4).map (slotData free e)).flatten

/-- R86. -/
def bodyPoolStatus (rq : Requester) (_data : List Byte) (s : State) : State :=
  answer rq .ok (poolData s.free s.eq) { s with free := s.free + 1 }

/-- POOL_STATUS (R86). -/
def execPoolStatus (s : State) : Host.Outcome State Fault Refusal := takeRequest .poolStatus bodyPoolStatus s

end Sys2Proof.Machine
end

