-- ==== Sys2Proof/Machine/Port.lean ====
section
/-! DEFINITION. The table memory port and its arbiter (08, sections 8.1 and 8.2), the grants, and the ends of reads and
digests. -/

namespace Sys2Proof.Machine

/-- Who can be granted the port (R141). -/
inductive Grantee
  | runner (r : RunnerNo)
  | sectionWrite
  | cueWrite
  | table
  deriving DecidableEq, Repr

/-- R140: the TABLE unit asks while it holds an operation on a table of table memory with entries to read. -/
def tableAsks (s : State) : Bool :=
  match s.table with
  | some op => op.table.inMemory && decide (op.owed ≠ 0)
  | none => false

/-- R141: the write served first: the one accepted first when both wait. -/
def firstWrite (s : State) : Option Grantee :=
  match s.eq.pendingWrite, s.cue.pendingWrite with
  | some _, some _ => some (if s.cue.cueFirst then .cueWrite else .sectionWrite)
  | some _, none => some .sectionWrite
  | none, some _ => some .cueWrite
  | none, none => none

/-- R141: the requester of highest priority among those asking. -/
def arbiter (s : State) : Option Grantee :=
  if (s.cue.runners[0]).state = .fetching then some (.runner 0)
  else if (s.cue.runners[1]).state = .fetching then some (.runner 1)
  else
    match firstWrite s with
    | some g => some g
    | none => if tableAsks s then some .table else none

/-- R140: whether the port can be granted to a requester now: in a LOCKED frame whose one grant is still to be made, and by
the arbiter's choice. A frame runs from one FRAME_BOUNDARY to the next (DESIGN CHOICE, entry 30). -/
def mayGrant (g : Grantee) (s : State) : Bool :=
  decide (s.port.lock = .locked) && s.frame.grantFree && decide (arbiter s = some g)

/-- R140: the frame's one grant is made. -/
def spendGrant (s : State) : State := { s with frame := { s.frame with grantFree := false } }

/-- CUE_FETCH_GRANT (R122). When the arbiter does not grant the runner the port nothing changes. -/
def execCueFetchGrant (r : RunnerNo) (s : State) : Host.Outcome State Fault Refusal :=
  .next (if mayGrant (.runner r) s then fetchWindow r (spendGrant s) else s)

/-- SECTION_WRITE_GRANT (R82). Without the grant nothing changes. -/
def execSectionWriteGrant (s : State) : Host.Outcome State Fault Refusal :=
  .next
    (if mayGrant .sectionWrite s then
      match s.eq.pendingWrite with
      | some w => completeSectionWrite w (spendGrant s)
      | none => s
    else s)

/-- R132: the granted cue write: entries stored and reported, the write none, the reservation filled with OK. -/
def completeCueWrite (w : CueWrite) (s : State) : State :=
  fillReservation .cue .ok [byteOf w.addr.val, byteOf w.entries.length]
    (reportWrites .cueMemory ((List.range w.entries.length).map fun i => (w.addr.val + i) % 256)
      { s with cue := { s.cue with mem := writeEntries s.cue.mem w.addr w.entries, pendingWrite := none } })

/-- CUE_WRITE_GRANT (R132). Without the grant nothing changes. -/
def execCueWriteGrant (s : State) : Host.Outcome State Fault Refusal :=
  .next
    (if mayGrant .cueWrite s then
      match s.cue.pendingWrite with
      | some w => completeCueWrite w (spendGrant s)
      | none => s
    else s)

/-- The granted table access: the operation takes its next entries and ends at the last (R146, R148). -/
def tableAccess (s : State) : State :=
  match s.table with
  | some op => stepTableOp op (spendGrant s)
  | none => s

/-- TABLE_ACCESS_GRANT (R146, R148). Without the grant nothing changes. -/
def execTableAccessGrant (s : State) : Host.Outcome State Fault Refusal :=
  .next (if mayGrant .table s then tableAccess s else s)

/-- Whether the operation is of a kind and its next step takes the last entries it owes. -/
def endsNext (k : TableOpKind) (s : State) : Bool :=
  match s.table with
  | some op => decide (op.kind = k) && op.lastStep
  | none => false

/-- The step that ends an operation of a kind: the owed live batch at the open boundary (R145, R148), or the granted access
(R146, R148), when it takes the last entries owed. -/
def endTableStep (k : TableOpKind) (s : State) : State :=
  if endsNext k s then
    if batchOwed s then closeIfSettled (takeBatch s)
    else if mayGrant .table s then tableAccess s
    else s
  else s

/-- TABLE_READ_COMPLETE (R145, R146): the step that takes the N-th entry of a delayed TABLE_READ and fills its reservation.
When no such step can be taken nothing changes. -/
def execTableReadComplete (s : State) : Host.Outcome State Fault Refusal := .next (endTableStep .read s)

/-- DIGEST_END (R148): the step that brings a digest's covered count to its count or 128 and fills its reservation. When no
such step can be taken nothing changes. -/
def execDigestEnd (s : State) : Host.Outcome State Fault Refusal := .next (endTableStep .digest s)

end Sys2Proof.Machine
end

