-- ==== Sys2Proof/Machine/SpeedRequests.lean ====
section
/-! DEFINITION. The requests of the SDV unit (06). -/

namespace Sys2Proof.Machine

/-- The speed and validity of a report: validity 1 is valid, any other value invalid (11.3). -/
def parseReport : List Byte → Nat × Bool
  | [h, l, v] => (u16 h l, decide (v = 1))
  | _ => (0, false)

/-- R104: an addressed report: taken as R103 says and answered with the outcome. -/
def bodySpeedReport (rq : Requester) (data : List Byte) (s : State) : State :=
  answer rq .ok [(reportOutcome s.sdv.state (parseReport data).1 (parseReport data).2).code]
    (speedReport (parseReport data).1 (parseReport data).2 s)

/-- R103, R162: a broadcast report is taken and not answered; its place is released. -/
def takeReport (c : Context) (s : State) : State :=
  if c.broadcast then releasePlace (speedReport (parseReport c.data).1 (parseReport c.data).2 s)
  else decodeThen .speedReport bodySpeedReport c s

/-- SPEED_REPORT (R103, R104). -/
def execSpeedReport (s : State) : Host.Outcome State Fault Refusal := .next (takePacket (some .speedReport) takeReport s)

/-- R114, 11.3: the four values in force. -/
def configData (u : Sdv) : List Byte := bytes16 u.hold ++ bytes16 u.fallback ++ [byteOf u.hyst] ++ bytes16 u.rampMs

/-- R102, R114: the four values of SDV_CONFIG, checked as a whole. -/
def parseConfig : List Byte → Option (Nat × Nat × Nat × Nat)
  | [hh, hl, fh, fl, y, rh, rl] =>
      if 1 ≤ u16 hh hl ∧ u16 hh hl < u16 fh fl ∧ y.toNat ≤ 16 then
        some (u16 hh hl, u16 fh fl, y.toNat, u16 rh rl)
      else none
  | _ => none

/-- R114: the values are replaced and the thresholds compared with the age. -/
def setConfig (hold fallback hyst rampMs : Nat) (s : State) : State :=
  compareAge { s with sdv := { s.sdv with hold := hold, fallback := fallback, hyst := hyst, rampMs := rampMs } }

/-- R114. -/
def bodySdvConfig (rq : Requester) (data : List Byte) (s : State) : State :=
  match parseConfig data with
  | none => answer rq .badValue [] s
  | some (hold, fallback, hyst, rampMs) =>
      let t := setConfig hold fallback hyst rampMs s
      answer rq .ok (configData t.sdv) t

/-- SDV_CONFIG (R114). -/
def execSdvConfig (s : State) : Host.Outcome State Fault Refusal := takeRequest .sdvConfig bodySdvConfig s

/-- R112, R113: the state and the adopted boost. -/
def boostData (s : State) : List Byte := [s.sdv.state.code, byteOf s.sdv.boost]

/-- R112: the manual speed is set and its boost adopted without hysteresis. -/
def enterManual (speed : Nat) (s : State) : State :=
  let t := setSdvState .manual s
  adoptBoost (boostAt s.core.live.boostCurve speed) { t with sdv := { t.sdv with manual := some speed } }

/-- R112. -/
def bodySdvManual (rq : Requester) (data : List Byte) (s : State) : State :=
  let speed := u16 (data.getD 0 0) (data.getD 1 0)
  if 320 < speed then answer rq .badValue [] s
  else if s.sdv.state = .off then answer rq .wrongState [] s
  else answer rq .ok (boostData (enterManual speed s)) (enterManual speed s)

/-- SDV_MANUAL (R112). -/
def execSdvManual (s : State) : Host.Outcome State Fault Refusal := takeRequest .sdvManual bodySdvManual s

/-- R113: the manual speed is cleared and the state by age taken. -/
def leaveManual (s : State) : State := takeStateByAge { s with sdv := { s.sdv with manual := none } }

/-- R113. -/
def bodySdvAuto (rq : Requester) (_data : List Byte) (s : State) : State :=
  if s.sdv.state = .manual then answer rq .ok (boostData (leaveManual s)) (leaveManual s)
  else answer rq .wrongState [] s

/-- SDV_AUTO (R113). -/
def execSdvAuto (s : State) : Host.Outcome State Fault Refusal := takeRequest .sdvAuto bodySdvAuto s

/-- 11.3: a speed, FFFF hex for none. -/
def speedData : Option Nat → List Byte
  | some v => bytes16 v
  | none => [0xFF, 0xFF]

/-- 11.3: age valid and age; while the age is never its two bytes are not given (entry 10). -/
def ageData (free : Nat) : Option Nat → List Byte
  | some a => 1 :: bytes16 a
  | none => 0 :: bytes16 (Config.freeAge free).toNat

/-- R115, 11.3. -/
def sdvData (free : Nat) (u : Sdv) : List Byte :=
  [u.state.code] ++ speedData u.lastSpeed ++ speedData u.manual ++ ageData free u.age ++ [byteOf u.boost]
    ++ u.targets.toList.map byteOf ++ configData u

/-- R115. -/
def bodySdvStatus (rq : Requester) (_data : List Byte) (s : State) : State :=
  answer rq .ok (sdvData s.free s.sdv) { s with free := s.free + 1 }

/-- SDV_STATUS (R115). -/
def execSdvStatus (s : State) : Host.Outcome State Fault Refusal := takeRequest .sdvStatus bodySdvStatus s

end Sys2Proof.Machine
end

