-- ==== Sys2Proof/Machine/Stage.lean ====
section
/-! DEFINITION. The requests of the STAGE unit (04). -/

namespace Sys2Proof.Machine

/-- The records a set holds at most (R52). -/
def stagingLimit : Nat := 32

/-- The sets the commit queue holds at most (R64). -/
def queueLimit : Nat := 4

/-- R58: a record with its close flag clear. -/
def stageOpen (rq : Requester) (r : ChangeRecord) (s : State) : State :=
  if s.commit.staging.length < stagingLimit then
    answer rq .ok [byteOf (s.commit.staging.length + 1 : Nat)]
      { s with commit := { s.commit with staging := s.commit.staging ++ [r] } }
  else answer rq .stagingFull [] s

/-- R59, R61: a record with its close flag set. -/
def stageClose (rq : Requester) (r : ChangeRecord) (notify : Bool) (s : State) : State :=
  if stagingLimit ≤ s.commit.staging.length then answer rq .stagingFull [] s
  else if queueLimit ≤ s.commit.queue.length then answer rq .queueFull [] s
  else
    match firstFailure s.eq [] (s.commit.staging ++ [r]) with
    | some (i, reason) => answer rq .rejected [byteOf i, reason.code] (abortOpen s)
    | none => answer rq .ok [byteOf s.commit.counter.val] (acceptSet (s.commit.staging ++ [r]) notify s)

/-- R57 to R59: the record's checks, then its staging or the close. Bits 0 and 1 of the control byte are close and notify
(11.3). -/
def bodyStageRecord (rq : Requester) (data : List Byte) (s : State) : State :=
  match checkRecord (data.getD 1 0) (data.drop 2) with
  | .badValue => answer rq .badValue [] s
  | .badLength => answer rq .badLength [] s
  | .good r =>
      if (data.getD 0 0).getLsbD 0 then stageClose rq r ((data.getD 0 0).getLsbD 1) s else stageOpen rq r s

/-- STAGE_RECORD (R57). -/
def execStageRecord (s : State) : Host.Outcome State Fault Refusal := takeRequest .stageRecord bodyStageRecord s

/-- R74. -/
def bodyAbortOpen (rq : Requester) (_data : List Byte) (s : State) : State :=
  answer rq .ok [byteOf s.commit.staging.length] (abortOpen s)

/-- ABORT_OPEN (R74). -/
def execAbortOpen (s : State) : Host.Outcome State Fault Refusal := takeRequest .abortOpen bodyAbortOpen s

/-- R75. -/
def bodyFlushQueue (rq : Requester) (_data : List Byte) (s : State) : State :=
  answer rq .ok [byteOf s.commit.queue.length] (flushQueue s)

/-- FLUSH_QUEUE (R75). -/
def execFlushQueue (s : State) : Host.Outcome State Fault Refusal := takeRequest .flushQueue bodyFlushQueue s

/-- R76, 11.3: head valid, head set number and wait reason. -/
def headData : List QueuedSet → List Byte
  | [] => [0, 0, WaitReason.none.code]
  | q :: _ => [1, byteOf q.number.val, q.wait.code]

/-- R76, 11.3: last-applied valid and number. -/
def lastAppliedData : Option SetNo → List Byte
  | none => [0, 0]
  | some n => [1, byteOf n.val]

/-- R76. -/
def setStatusData (c : Commit) : List Byte :=
  [byteOf c.staging.length, byteOf c.queue.length] ++ headData c.queue ++ lastAppliedData c.lastApplied

/-- R76. -/
def bodySetStatus (rq : Requester) (_data : List Byte) (s : State) : State := answer rq .ok (setStatusData s.commit) s

/-- SET_STATUS (R76). -/
def execSetStatus (s : State) : Host.Outcome State Fault Refusal := takeRequest .setStatus bodySetStatus s

end Sys2Proof.Machine
end

