-- ==== Sys2Proof/Machine/TableRequests.lean ====
section
/-! DEFINITION. The requests of the TABLE unit (08). -/

namespace Sys2Proof.Machine

/-- R144, R147: the table, first index and count of a request's data, where its checks hold: the id among those allowed, the
first index below the table's entry count, the count at least 1 and not past the table's end. -/
def parseRange (digest : Bool) : List Byte → Option (TableId × Nat × Nat)
  | t :: fh :: fl :: ch :: cl :: _ => do
      let t ← TableId.ofByte t
      if digest && decide (t = .ramps) then none
      else if u16 fh fl < t.size ∧ 1 ≤ u16 ch cl ∧ u16 fh fl + u16 ch cl ≤ t.size then pure (t, u16 fh fl, u16 ch cl)
      else none
  | _ => none

/-- R143: a fresh operation. -/
def freshOp (kind : TableOpKind) (t : TableId) (first count : Nat) (crc : BitVec 16) : TableOp :=
  { kind := kind, table := t, first := first, count := count, next := first, covered := 0, crc := crc, taken := [],
    batchDue := false }

/-- R144: the READ operation a request's data asks for, where its checks hold. -/
def readOp (data : List Byte) : Option TableOp :=
  match parseRange false data with
  | none => none
  | some (t, first, count) => some (freshOp .read t first (min count t.replyLimit) 0)

/-- R144 to R146: a read of a live table takes its first entries at once, and is answered at once when they are all; any
other read converts its place into a reservation. -/
def startRead (rq : Requester) (op : TableOp) (s : State) : State :=
  if op.table.inMemory then reserve .table { s with table := some op }
  else
    let t := countLive op.table op.step s
    if (op.take s).owed = 0 then answer rq .ok (readData (op.take s)) t
    else reserve .table { t with table := some (op.take s) }

/-- R144. -/
def bodyTableRead (rq : Requester) (data : List Byte) (s : State) : State :=
  match readOp data with
  | none => answer rq .badValue [] s
  | some op => startRead rq op s

/-- Whether the packet offered next is a TABLE_READ that passes its checks and whose first entries the frame does not admit
any more. DESIGN CHOICE (entry 28): it is not taken in that frame, and waits in its context, since R142 lets the TABLE unit take
at most 8 live entries in a frame and R145 has it take these with the request. -/
def readWaits (s : State) : Bool :=
  match nextOffer (queueNotices s) with
  | none => false
  | some o =>
      decide (o.packet.row s.ctl.enabled = some .tableRead) &&
        decide (decodeRefusal .tableRead o.packet.dataLength s = none) &&
        (readOp o.packet.data).any fun op => !liveRoom op.table op.step s

/-- TABLE_READ (R144). While it waits for the next frame nothing changes. -/
def execTableRead (s : State) : Host.Outcome State Fault Refusal :=
  .next (if readWaits s then s else takePacket (some .tableRead) (decodeThen .tableRead bodyTableRead) s)

/-- R147: the CRC register starts as the seed, or FFFF hex without one. -/
def digestSeed (data : List Byte) : BitVec 16 :=
  match data.drop 5 with
  | [h, l] => BitVec.ofNat 16 (u16 h l)
  | _ => 0xFFFF

/-- R147 check 1: whether a table id is one of 0 to 8. -/
def digestible (b : Byte) : Bool := b.toNat ≤ 8

/-- R147, R174: the table id first; then the length, five bytes, or seven with a seed (entry 13); then the range. -/
def bodyDigest (rq : Requester) (data : List Byte) (s : State) : State :=
  if !digestible (data.getD 0 255) then answer rq .badValue [] s
  else if data.length ≠ 5 ∧ data.length ≠ 7 then answer rq .badLength [] s
  else
    match parseRange true data with
    | none => answer rq .badValue [] s
    | some (t, first, count) => reserve .table { s with table := some (freshOp .digest t first count (digestSeed data)) }

/-- DIGEST (R147). -/
def execDigest (s : State) : Host.Outcome State Fault Refusal := takeRequest .digest bodyDigest s

end Sys2Proof.Machine
end

