-- ==== Sys2Proof/Machine/Dispatch.lean ====
section
/-! DEFINITION. One arm for each command: the call of its meaning. -/

namespace Sys2Proof.Machine

def exec (i : Instr) (s : State) : Host.Outcome State Fault Refusal :=
  match i with
  | .powerOn strap => Sys2Proof.Machine.execPowerOn strap s
  | .syncReceived spacing => Sys2Proof.Machine.execSyncReceived spacing s
  | .syncMissing => Sys2Proof.Machine.execSyncMissing s
  | .frameBoundary upstream examine batch => Sys2Proof.Machine.execFrameBoundary upstream examine batch s
  | .rampComplete entry => Sys2Proof.Machine.execRampComplete entry s
  | .crossfadeEnd slot => Sys2Proof.Machine.execCrossfadeEnd slot s
  | .leavingEnd => Sys2Proof.Machine.execLeavingEnd s
  | .setApplication => Sys2Proof.Machine.execSetApplication s
  | .sdvTick => Sys2Proof.Machine.execSdvTick s
  | .cueFetchGrant runner => Sys2Proof.Machine.execCueFetchGrant runner s
  | .stepComplete runner => Sys2Proof.Machine.execStepComplete runner s
  | .waitTimeout runner => Sys2Proof.Machine.execWaitTimeout runner s
  | .sectionWriteGrant => Sys2Proof.Machine.execSectionWriteGrant s
  | .cueWriteGrant => Sys2Proof.Machine.execCueWriteGrant s
  | .tableAccessGrant => Sys2Proof.Machine.execTableAccessGrant s
  | .tableReadComplete => Sys2Proof.Machine.execTableReadComplete s
  | .digestEnd => Sys2Proof.Machine.execDigestEnd s
  | .controlCell cell => Sys2Proof.Machine.execControlCell cell s
  | .outgoingPacketTake => Sys2Proof.Machine.execOutgoingPacketTake s
  | .noticeQueue => Sys2Proof.Machine.execNoticeQueue s
  | .unknownRequest => Sys2Proof.Machine.execUnknownRequest s
  | .identify => Sys2Proof.Machine.execIdentify s
  | .readStatus => Sys2Proof.Machine.execReadStatus s
  | .unitEnable => Sys2Proof.Machine.execUnitEnable s
  | .unitReset => Sys2Proof.Machine.execUnitReset s
  | .partReset => Sys2Proof.Machine.execPartReset s
  | .noticeEnable => Sys2Proof.Machine.execNoticeEnable s
  | .mode => Sys2Proof.Machine.execMode s
  | .slotMap => Sys2Proof.Machine.execSlotMap s
  | .stageRecord => Sys2Proof.Machine.execStageRecord s
  | .abortOpen => Sys2Proof.Machine.execAbortOpen s
  | .flushQueue => Sys2Proof.Machine.execFlushQueue s
  | .setStatus => Sys2Proof.Machine.execSetStatus s
  | .sectionLoad => Sys2Proof.Machine.execSectionLoad s
  | .sectionWrite => Sys2Proof.Machine.execSectionWrite s
  | .sectionRelease => Sys2Proof.Machine.execSectionRelease s
  | .poolStatus => Sys2Proof.Machine.execPoolStatus s
  | .speedReport => Sys2Proof.Machine.execSpeedReport s
  | .sdvConfig => Sys2Proof.Machine.execSdvConfig s
  | .sdvManual => Sys2Proof.Machine.execSdvManual s
  | .sdvAuto => Sys2Proof.Machine.execSdvAuto s
  | .sdvStatus => Sys2Proof.Machine.execSdvStatus s
  | .cueWrite => Sys2Proof.Machine.execCueWrite s
  | .cueStart => Sys2Proof.Machine.execCueStart s
  | .cueRelease => Sys2Proof.Machine.execCueRelease s
  | .cueHalt => Sys2Proof.Machine.execCueHalt s
  | .cueStatus => Sys2Proof.Machine.execCueStatus s
  | .tableRead => Sys2Proof.Machine.execTableRead s
  | .digest => Sys2Proof.Machine.execDigest s

end Sys2Proof.Machine
end

