-- ==== Sys2Proof/Safety.lean ====
section
/-! DEFINITION. What the statements speak of: which parts of the state a step leaves alone, the taking of a request and its
reply, and the invariants the manual promises. -/

namespace Sys2Proof.Machine

/-! ## Frames -/

/-- The parts of the state. -/
inductive Part
  | port | frame | lane | ctl | core | ramp | commit | eq | sdv | cue | table | free | pending
  deriving DecidableEq, Repr

/-- Two states agree in a part. -/
def Part.same : Part → State → State → Prop
  | .port, s, t => t.port = s.port
  | .frame, s, t => t.frame = s.frame
  | .lane, s, t => t.lane = s.lane
  | .ctl, s, t => t.ctl = s.ctl
  | .core, s, t => t.core = s.core
  | .ramp, s, t => t.ramp = s.ramp
  | .commit, s, t => t.commit = s.commit
  | .eq, s, t => t.eq = s.eq
  | .sdv, s, t => t.sdv = s.sdv
  | .cue, s, t => t.cue = s.cue
  | .table, s, t => t.table = s.table
  | .free, s, t => t.free = s.free
  | .pending, s, t => t.pending = s.pending

/-- Every part but the named ones is unchanged. -/
def SameBut (ps : List Part) (s t : State) : Prop := ∀ p : Part, p ∉ ps → p.same s t

/-- The sticky flags, the clip map and the two enable maps are unchanged. -/
def SettingsKept (s t : State) : Prop :=
  t.ctl.flags = s.ctl.flags ∧ t.ctl.clip = s.ctl.clip ∧ t.ctl.enabled = s.ctl.enabled ∧ t.ctl.noticeOn = s.ctl.noticeOn

/-! ## Requests and replies (R161, R163, R164) -/

/-- No place of the reply queue stands between a packet's taking and its answer (R165: "a moment within the taking of the
request"). -/
def NoHeld (s : State) : Prop := ∀ p ∈ s.ctl.queue, p.isHeld = false

/-- The control unit is offered the complete packet `c` of context `i`, with a free place for its answer, pending notices having
been queued first (R158, R161, R166); the packet is a request of row `q`. -/
structure Offered (q : Request) (c : Context) (i : Fin 2) (s : State) : Prop where
  offered : nextOffer (queueNotices s) = some { ctx := i, packet := c, placed := true }
  row : c.row s.ctl.enabled = some q
  request : c.broadcast = false

/-- The offered request passes the decode: its unit is enabled, its length admitted, its unit not in execution (R163). -/
structure Takes (q : Request) (c : Context) (i : Fin 2) (s : State) : Prop where
  offered : Offered q c i s
  decodes : decodeRefusal q c.dataLength s = none

/-- The state once the packet of context `i` is taken: pending notices queued, the context free (R161, R166). -/
def afterTake (i : Fin 2) (s : State) : State := freeContextAt i (queueNotices s)

/-- The frame of a taken request: the parts but `ps`, the reply queue, the notices and the packet's context are unchanged. -/
def TakenBut (ps : List Part) (i : Fin 2) (s t : State) : Prop :=
  SameBut (.port :: .ctl :: ps) s t ∧ t.port = (afterTake i s).port ∧ SettingsKept s t

/-- The same state while the request is judged: its place is the last of the queue (R161). -/
def heldTake (c : Context) (i : Fin 2) (s : State) : State := takeOffer { ctx := i, packet := c, placed := true } (queueNotices s)

/-- A reply to a packet stands in the last place of the queue; an OK reply's tag is the last good tag (R164). -/
def replied (c : Context) (res : Result) (data : List Byte) (s : State) : State :=
  { s with ctl := { s.ctl with
      queue := s.ctl.queue ++ [.packet (replyPacket c.requester res data)]
      lastGood := if res = .ok then some (c.byteAt 0) else s.ctl.lastGood } }

/-- A reservation for a packet's unit stands in the last place of the queue and the unit is in execution (R164). -/
def reserved (u : UnitId) (c : Context) (s : State) : State :=
  { s with ctl := { s.ctl with
      queue := s.ctl.queue ++ [.reservation c.requester]
      executing := s.ctl.executing.set u.marker true } }

/-- The command of a request's row. -/
def Request.instr : Request → Instr
  | .identify => .identify
  | .readStatus => .readStatus
  | .unitEnable => .unitEnable
  | .unitReset => .unitReset
  | .partReset => .partReset
  | .noticeEnable => .noticeEnable
  | .mode => .mode
  | .slotMap => .slotMap
  | .stageRecord => .stageRecord
  | .abortOpen => .abortOpen
  | .flushQueue => .flushQueue
  | .setStatus => .setStatus
  | .sectionLoad => .sectionLoad
  | .sectionWrite => .sectionWrite
  | .sectionRelease => .sectionRelease
  | .poolStatus => .poolStatus
  | .speedReport => .speedReport
  | .sdvConfig => .sdvConfig
  | .sdvManual => .sdvManual
  | .sdvAuto => .sdvAuto
  | .sdvStatus => .sdvStatus
  | .cueWrite => .cueWrite
  | .cueStart => .cueStart
  | .cueRelease => .cueRelease
  | .cueHalt => .cueHalt
  | .cueStatus => .cueStatus
  | .tableRead => .tableRead
  | .digest => .digest

/-! ## Invariants -/

/-- Cue memory is in its canonical form and lists addresses of the 256 entries only (R119). -/
def memoryGood (m : Memory) : Prop := Memory.wf m = true ∧ ∀ x ∈ m, x.1 < 2048

/-- What the manual promises of the signal path, the control unit, the staging list and commit queue, the DUCK targets and the
SDV unit. -/
structure Inv (s : State) : Prop where
  /-- R165: no place is held between two steps. -/
  noHeld : NoHeld s
  /-- R165. -/
  places : s.ctl.queue.length ≤ 4
  /-- R8. -/
  gateRange : s.core.gate ≤ 2400
  /-- R8: in STANDBY the gate stays at 0. -/
  gateStandby : s.core.mode = .standby → s.core.gate = 0
  /-- R9, R152: in HUNT the gate is 0 and no frame is open. -/
  huntIdle : s.port.lock = .hunt → s.core.gate = 0 ∧ s.frame = Frame.idle
  /-- R119. -/
  memory : memoryGood s.cue.mem
  /-- R45, R128. -/
  duck : ∀ src : Source, s.ramp.duckTargets[src] = duckMin s.cue src
  /-- R52. -/
  staging : s.commit.staging.length ≤ 32
  /-- R64. -/
  commitQueue : s.commit.queue.length ≤ 4
  /-- R102: the adopted boost is 0 in OFF and FALLBACK. -/
  boostZero : s.sdv.state = .off ∨ s.sdv.state = .fallback → s.sdv.boost = 0
  /-- R102: the last accepted speed is none exactly when the age is never. -/
  ageSpeed : s.sdv.lastSpeed = none ↔ s.sdv.age = none
  /-- R102: the manual speed is not none exactly when the state is MANUAL. -/
  manualSpeed : s.sdv.manual ≠ none ↔ s.sdv.state = .manual
  /-- R116: a disabled SDV unit is OFF. -/
  sdvDisabled : s.ctl.enabled.sdv = false → s.sdv.state = .off

/-- R163, R164: a unit is in execution exactly while the reply queue holds its reservation: CTRL in LEAVING, EQ and CUE while
their write is pending, TABLE while it holds an operation, STAGE and SDV never. -/
structure BusyInv (s : State) : Prop where
  reservation : ∀ u : UnitId, inExecution u s = (reservationOf u s.ctl.queue).isSome
  ctrl : inExecution .ctrl s = decide (s.core.mode = .leaving)
  stage : inExecution .stage s = false
  eq : inExecution .eq s = s.eq.pendingWrite.isSome
  sdv : inExecution .sdv s = false
  cue : inExecution .cue s = s.cue.pendingWrite.isSome
  table : inExecution .table s = s.table.isSome

/-- R142: at most 8 entries of live tables are taken in one LOCKED frame, and none while the frame's batch is still owed. -/
structure LiveInv (s : State) : Prop where
  taken : s.frame.liveTaken ≤ 8
  batch : ∀ op : TableOp, s.table = some op → op.batchDue = true → s.frame.liveTaken = 0

/-- R26, R27: every LEVEL target is the one the live tables give. -/
def LevelInv (s : State) : Prop := ∀ o : Output, s.core.levelTargets[o] = s.core.live.levelTarget o

/-- R34: the pool of an entry: 0 to 47 general, 48 + s for DUCK(s), 60 + g for BOOST(g). -/
def poolHolds (i : Fin 64) : Key → Prop
  | .level _ => i.val < 48
  | .cell _ _ => i.val < 48
  | .duck s => i.val = 48 + s.val
  | .boost g => i.val = 60 + g.val

/-- R34, R36: every active entry holds a key of its pool with 0 ≤ k < n, and no two hold the same key. -/
structure RampInv (s : State) : Prop where
  pools : ∀ (i : Fin 64) (r : Ramp), s.ramp.entries[i] = some r → poolHolds i r.key ∧ r.k < r.n
  keysOnce : ∀ (i j : Fin 64) (r q : Ramp), s.ramp.entries[i] = some r → s.ramp.entries[j] = some q → r.key = q.key → i = j

/-- R22, R56: a boost curve's speeds rise strictly and its boosts lie in 0 to +48; a weight is at most 100; a ceiling lies in −240 to
+48. -/
def ChangeRecord.liveGood : ChangeRecord → Prop
  | .boostCurve ps => curveValid ps = true
  | .group _ w => w ≤ 100
  | .output _ _ _ _ _ _ ceiling => -240 ≤ ceiling ∧ ceiling ≤ 48
  | _ => True

/-- R22, R109: the boost curve, the weights, the ceilings, the adopted boost and the group targets stay in their ranges, and every
group target is trunc(b × w / 100). -/
structure BoostInv (s : State) : Prop where
  staged : ∀ r ∈ s.commit.staging, r.liveGood
  queued : ∀ q ∈ s.commit.queue, ∀ r ∈ q.records, r.liveGood
  curve : curveValid s.core.live.boostCurve = true
  weights : ∀ g : Group, s.core.live.weights[g] ≤ 100
  ceilings : ∀ o : Output, -240 ≤ (s.core.live.outputs[o]).ceiling ∧ (s.core.live.outputs[o]).ceiling ≤ 48
  boost : 0 ≤ s.sdv.boost ∧ s.sdv.boost ≤ 48
  targets : ∀ g : Group, s.sdv.targets[g] = groupTarget s.sdv.boost s.core.live.weights[g]

/-- The sections named in the chains of all outputs. -/
def chainSections (e : EqUnit) : List SectionNo := e.chains.toList.flatten

/-- The sections named in the old chains of the crossfade slots in use. -/
def oldSections (e : EqUnit) : List SectionNo :=
  (e.slots.toList.map fun x => match x with | some f => f.old | none => []).flatten

/-- The sections named in the CHAIN records of the queued sets. -/
def queuedSections (c : Commit) : List SectionNo := (c.queue.map fun q => namedSections q.records).flatten

/-- The section of the pending write. -/
def pendingSections (e : EqUnit) : List SectionNo := e.pendingWrite.toList.map SectionWrite.sec

/-- The outputs of a set's CHAIN records. -/
def chainOutputs (rs : List ChangeRecord) : List Output := (rs.filterMap ChangeRecord.chain?).map Prod.fst

/-- R78, R80, R89, R92: the free map marks exactly the FREE sections; a section is LIVE, RETIRING, CLAIMED or LOADING exactly
when a chain, an old chain, a queued set or the pending write names it; no section is named twice; EQ is in execution exactly
while a write is pending; at most one slot carries an
output; slots are in use only outside STANDBY and with EQ enabled. -/
structure PoolInv (s : State) : Prop where
  freeMarked : ∀ i : SectionNo, s.eq.marked i = true ↔ (s.eq.sections[i]).state = .free
  groupMarked : ∀ g : Fin 4, s.eq.free0.getLsbD g.val = true ↔ ∃ i : SectionNo, sectionGroup i = g ∧ s.eq.marked i = true
  live : ∀ i : SectionNo, i ∈ chainSections s.eq ↔ (s.eq.sections[i]).state = .live
  retiring : ∀ i : SectionNo, i ∈ oldSections s.eq ↔ (s.eq.sections[i]).state = .retiring
  claimed : ∀ i : SectionNo, i ∈ queuedSections s.commit ↔ (s.eq.sections[i]).state = .claimed
  loading : ∀ i : SectionNo, i ∈ pendingSections s.eq ↔ (s.eq.sections[i]).state = .loading
  once : (chainSections s.eq ++ oldSections s.eq ++ queuedSections s.commit).Nodup
  busy : s.eq.pendingWrite.isSome = inExecution .eq s
  outputsOnce : ∀ (i j : Fin 4) (f g : Crossfade), s.eq.slots[i] = some f → s.eq.slots[j] = some g → f.output = g.output → i = j
  setOutputs : ∀ q ∈ s.commit.queue, (chainOutputs q.records).Nodup
  slotsInUse : s.core.mode = .standby ∨ s.ctl.enabled.eq = false → ∀ i : Fin 4, s.eq.slots[i] = none

/-! ## Counts, and what the ramp table serves -/

/-- R35: an active entry moves its key to the target the key's owner holds. R40, R49: in STANDBY no entry is active. -/
structure RampLink (s : State) : Prop where
  targets : ∀ (i : Fin 64) (r : Ramp), s.ramp.entries[i] = some r → r.target = keyTarget s r.key
  standby : s.core.mode = .standby → ∀ i : Fin 64, s.ramp.entries[i] = none

/-- The decoded entry at position 0 of a runner's window. -/
def Runner.first (x : Runner) : Option Entry := x.window.head?.map decodeEntry

/-- R121 to R128: what a runner's state says of its window, latch, count and requests. -/
structure Runner.Good (x : Runner) : Prop where
  window : x.window.length ≤ 4
  empty : x.state = .idle ∨ x.state = .fetching → x.window = []
  step : x.state = .stepping → ∃ mask offset rampMs holdMs, x.first = some (.step mask offset rampMs holdMs) ∧
    x.elapsed < 48 * (rampMs + holdMs)
  wait : x.state = .waiting → ∃ ms, x.first = some (.wait ms) ∧ (ms ≠ 0 → x.elapsed < 48 * ms)
  stopped : x.state = .stopped → (∃ notify, x.first = some (.stop notify)) ∨ x.first = some .invalid
  due : x.due = true → x.state = .stepping ∨ x.state = .waiting
  latch : x.latch = true → x.state = .stepping ∨ x.state = .fetching
  still : x.state ≠ .stepping → x.state ≠ .waiting → x.elapsed = 0
  elapsed : x.elapsed ≤ 6291360
  requests : ∀ src : Source, -480 ≤ x.requests[src] ∧ x.requests[src] ≤ 0

/-- R92, R102, R121: the counts of runners, crossfades and the SDV unit stay in their ranges, and the SDV values with them. -/
structure CountInv (s : State) : Prop where
  runners : ∀ r : RunnerNo, (s.cue.runners[r]).Good
  fades : ∀ (i : Fin 4) (f : Crossfade), s.eq.slots[i] = some f → f.k < 480
  phase : s.sdv.phase < 480
  age : ∀ a, s.sdv.age = some a → a ≤ 65535
  speeds : (∀ v, s.sdv.lastSpeed = some v → v ≤ 320) ∧ ∀ v, s.sdv.manual = some v → v ≤ 320
  config : 1 ≤ s.sdv.hold ∧ s.sdv.hold < s.sdv.fallback ∧ s.sdv.fallback ≤ 65535 ∧ s.sdv.hyst ≤ 16 ∧ s.sdv.rampMs ≤ 65535

/-! ## What several statements share -/

/-- The answer a unit gives to the request it has in execution (R164). -/
structure Answer where
  unit : UnitId
  res : Result
  data : List Byte
  deriving DecidableEq, Repr

/-- R164, R165: between two states the units of `as` were answered, in their order, and no other was. Each reservation held for one
of them has become its reply, in its own place; every other place stands in its own; a place that was appended holds a notice
(R166). The execution markers of these units are cleared and the others stand. The last good tag is that of the last OK reply. -/
structure Answered (as : List Answer) (s t : State) : Prop where
  filled : ∀ (i : Nat) (rq : Requester) (a : Answer), s.ctl.queue[i]? = some (.reservation rq) → a ∈ as →
    rq.unitByte = a.unit.code → t.ctl.queue[i]? = some (.packet (replyPacket rq a.res a.data))
  kept : ∀ (i : Nat) (p : Place), s.ctl.queue[i]? = some p →
    (∀ rq : Requester, p = .reservation rq → ∀ a ∈ as, rq.unitByte ≠ a.unit.code) → t.ctl.queue[i]? = some p
  appended : ∀ p ∈ t.ctl.queue.drop s.ctl.queue.length, ∃ n : Notice, p = .packet (noticePacket n)
  markers : ∀ u : UnitId, inExecution u t = (inExecution u s && decide (∀ a ∈ as, a.unit ≠ u))
  tag : t.ctl.lastGood = (as.filter fun a => decide (a.res = .ok)).foldl
    (fun tag a => ((reservationOf a.unit s.ctl.queue).map Requester.tag).or tag) s.ctl.lastGood

/-- No notice was raised, and none was queued (R166). -/
def NoNotice (s t : State) : Prop := t.ctl.notices = s.ctl.notices ∧ t.ctl.queue.length = s.ctl.queue.length

/-- R166: a notice is raised. Where its kind is enabled, pending notices owed a free place are queued first; then it is pending,
and of the others only such as were pending already. -/
def NoticeRaised (n : Notice) (s t : State) : Prop :=
  if s.ctl.noticeOn.allows n then
    let u := queueNotices s
    t.ctl = { u.ctl with notices := t.ctl.notices } ∧ n ∈ t.ctl.notices ∧
      (∀ m ∈ t.ctl.notices, m = n ∨ m ∈ u.ctl.notices) ∧
      (∀ m ∈ u.ctl.notices, m.sameInstance n = false → m ∈ t.ctl.notices)
  else t.ctl = s.ctl

/-- R106: a change of the SDV unit's state, and only a change, raises SDV_STATE with the state taken. -/
def SdvStateTold (s t : State) : Prop :=
  if t.sdv.state = s.sdv.state then t.ctl = s.ctl else NoticeRaised (.sdvState t.sdv.state) s t

/-! ## Bytes, checks and codes (11) -/

/-- Bytes that spell a number, most significant first; a negative number in two's complement. -/
def Spells (bs : List Byte) (v : Int) : Prop :=
  ((bs.foldl (fun n b => n * 256 + b.toNat) 0 : Nat) : Int) = v % 256 ^ bs.length

/-- The fields of one, two and three bytes, and an unsigned field of two bytes read. -/
def FieldsSpelt : Prop :=
  (∀ v : Int, Spells [byteOf v] v ∧ ((bytes16 v).length = 2 ∧ Spells (bytes16 v) v) ∧
    (bytes24 v).length = 3 ∧ Spells (bytes24 v) v) ∧
  ∀ h l : Byte, u16 h l = h.toNat * 256 + l.toNat

/-- The bits of bytes, most significant first. -/
def bitsOf (bs : List Byte) : List Bool := (bs.map fun b => (List.range 8).map fun i => b.getLsbD (7 - i)).flatten

/-- A bit shifted into a register of polynomial `p`. -/
def shiftIn {w : Nat} (p x : BitVec w) (bit : Bool) : BitVec w := (x <<< 1) ^^^ (if x.msb = bit then 0 else p)

/-- The ASCII bytes of the digits 1 to 9, over which 11.2 gives both check values. -/
def digitBytes : List Byte := [0x31, 0x32, 0x33, 0x34, 0x35, 0x36, 0x37, 0x38, 0x39]

/-- R161, 11.2: the CRC-8 of polynomial 07 hex, initial value 0. -/
def ChecksComputed : Prop :=
  (∀ bs : List Byte, crc8 bs = (bitsOf bs).foldl (shiftIn 0x07) 0) ∧ crc8 digitBytes = 0xF4

/-- R147, 11.2: the CRC-16 of polynomial 1021 hex, from the seed. -/
def DigestComputed : Prop :=
  (∀ (c : BitVec 16) (bs : List Byte), crc16 c bs = (bitsOf bs).foldl (shiftIn 0x1021) c) ∧ crc16 0xFFFF digitBytes = 0x29B1

/-- 11.5: fifteen bytes are the five coefficients, signed numbers of 24 bits in the order b0, b1, b2, a1, a2. -/
def CoeffsDecoded : Prop :=
  ∀ bs : List Byte,
    (bs.length ≠ 15 → parseCoeffs bs = none) ∧
    (bs.length = 15 → ∃ k : Coeffs, parseCoeffs bs = some k ∧
      ∀ (j : Nat) (v : Int), [k.b0, k.b1, k.b2, k.a1, k.a2][j]? = some v →
        -8388608 ≤ v ∧ v ≤ 8388607 ∧ Spells ((bs.drop (3 * j)).take 3) v)

/-- R120, 11.5: the kind is the upper four bits of byte 0. A STEP has its mask in the low four bits of byte 0 and byte 1, and an
offset outside −480 to 0 makes it INVALID; the bytes no field names say nothing. -/
def EntriesDecoded : Prop :=
  ∀ e : CueEntry,
    let kind := e[0].toNat / 16
    let field := fun h l : Byte => h.toNat * 256 + l.toNat
    (kind = 1 → ∀ offset : Int, -32768 ≤ offset → offset ≤ 32767 → Spells [e[2], e[3]] offset →
      (offset < -480 ∨ 0 < offset → decodeEntry e = .invalid) ∧
      (-480 ≤ offset → offset ≤ 0 → ∃ mask : BitVec 12, mask.toNat = e[0].toNat % 16 * 256 + e[1].toNat ∧
        decodeEntry e = .step mask offset (field e[4] e[5]) (field e[6] e[7]))) ∧
    (kind = 2 → decodeEntry e = .wait (field e[1] e[2])) ∧
    (kind = 3 → ∃ a : CueAddr, a.val = e[1].toNat ∧ decodeEntry e = .jump a) ∧
    (kind = 4 → decodeEntry e = .stop (decide (e[1].toNat % 2 = 1))) ∧
    (kind = 0 ∨ 4 < kind → decodeEntry e = .invalid)

/-- R142, R144, 11.6: the tables by id: size, most entries of one reply, and whether they lie in table memory. -/
def TablesListed : Prop :=
  (∀ (b : Byte) (d : TableId), TableId.ofByte b = some d ↔ b = d.code) ∧
  ∀ d : TableId, (d.code, d.size, d.replyLimit, d.inMemory) = match d with
    | .zones => (0, 4, 4, false)
    | .cells => (1, 288, 19, false)
    | .outputs => (2, 24, 4, false)
    | .curves => (3, 186, 19, false)
    | .boostCurve => (4, 16, 12, false)
    | .groups => (5, 4, 4, false)
    | .chains => (6, 24, 3, false)
    | .sections => (7, 256, 2, true)
    | .cueMemory => (8, 256, 4, true)
    | .ramps => (9, 64, 3, false)

/-- 11.4, 11.6: a gain in two bytes. -/
def gainSpelt : Gain → List Byte
  | .off => [0x80, 0x00]
  | .level l => bytes16 l

/-- 11.6: a key's kind in the upper three bits and its index in the lower nine. -/
def keySpelt (k : Key) : List Byte :=
  match k with
  | .level o => bytes16 (1 * 8192 + o.val : Nat)
  | .cell o src => bytes16 (2 * 8192 + (o.val * 12 + src.val) : Nat)
  | .duck src => bytes16 (3 * 8192 + src.val : Nat)
  | .boost g => bytes16 (4 * 8192 + g.val : Nat)

/-- R142, 11.6: `bs` are the bytes of entry `i` of table `d`. -/
def EntryEncoded (s : State) (d : TableId) (i : Nat) (bs : List Byte) : Prop :=
  match d with
  | .zones => ∀ z : Zone, z.val = i →
      let x := s.core.live.zones[z]
      bs = bytes16 x.volume ++ [byteOf x.balance, byteOf x.fade, if x.mute then 1 else 0]
  | .cells => ∀ j : Fin 288, j.val = i → bs = gainSpelt s.core.live.cells[j]
  | .outputs => ∀ o : Output, o.val = i →
      let x := s.core.live.outputs[o]
      bs = [byteOf x.zone.val, (match x.side with | .left => 0 | .centre => 1 | .right => 2),
          (match x.row with | .front => 0 | .middle => 1 | .rear => 2 | .noRow => 3),
          (match x.group with | some g => byteOf g.val | none => 0xFF)] ++ bytes16 x.trim ++ bytes16 x.ceiling ++
        [(if x.mute then 1 else 0) + (if x.invert then 2 else 0)]
  | .curves => ∀ j : Fin 186, j.val = i → bs = bytes16 s.core.live.curves[j]
  | .boostCurve => bs = match s.core.live.boostCurve[i]? with
      | some p => bytes16 p.1 ++ [byteOf p.2]
      | none => [0xFF, 0xFF, 0]
  | .groups => ∀ g : Group, g.val = i → bs = [byteOf (s.core.live.weights[g] : Nat)]
  | .chains => ∀ o : Output, o.val = i →
      let list := s.eq.chains[o]
      list.length ≤ 10 →
        bs = byteOf list.length :: (list.map fun n => byteOf n.val) ++ List.replicate (10 - list.length) 0
  | .sections => ∀ n : SectionNo, n.val = i →
      let x := s.eq.sections[n]
      bs = bytes24 x.coeffs.b0 ++ bytes24 x.coeffs.b1 ++ bytes24 x.coeffs.b2 ++ bytes24 x.coeffs.a1 ++ bytes24 x.coeffs.a2 ++
        [match x.state with | .free => 0 | .loading => 1 | .loaded => 2 | .claimed => 3 | .live => 4 | .retiring => 5]
  | .cueMemory => ∀ a : CueAddr, a.val = i → bs = (readEntry s.cue.mem a).toList
  | .ramps => ∀ j : Fin 64, j.val = i →
      bs = match s.ramp.entries[j] with
        | some r => keySpelt r.key ++ bytes16 r.start ++ gainSpelt r.target ++ bytes24 r.n ++ bytes24 r.k
        | none => List.replicate 12 0

/-- R142, 11.6: every entry a table has is read in its encoding, and entries in index order. -/
def TablesEncoded : Prop :=
  FieldsSpelt ∧ (∀ (s : State) (d : TableId) (i : Nat), i < d.size → EntryEncoded s d i (entryBytes s d i)) ∧
  (∀ (s : State) (d : TableId) (first : Nat), entriesBytes s d first 0 = [] ∧
    ∀ n : Nat, entriesBytes s d first (n + 1) = entriesBytes s d first n ++ entryBytes s d (first + n))

/-- R143, R146, R148: what an operation still owes, and whether its next step takes the last of it. -/
def OwedCounted : Prop :=
  ∀ op : TableOp,
    op.owed = (match op.kind with | .read => op.count | .digest => min op.count 128) - op.covered ∧
    op.lastStep = decide (op.owed ≤ match op.table with | .sections => 1 | .cueMemory => 4 | _ => 8)

/-! ## The TABLE unit's operation and the writes it hears of -/

/-- R148: a digest's CRC register, next index and covered count. -/
def TableOp.fields (op : TableOp) : List Byte := bytes16 op.crc.toNat ++ bytes16 op.next ++ bytes16 op.covered

/-- R149: what the writes of a step make of the TABLE unit's operation, `written d n` saying that entry `n` of table `d` was written,
and `as` being the other answers of the step, which come after the digest's (entry 21). A digest that has covered a written entry ends, with
OK and DISTURBED; a read, and a digest that has covered none, stands. -/
def WritesHeard (written : TableId → Nat → Prop) (as : List Answer) (s t : State) : Prop :=
  (∀ op : TableOp, s.table = some op → op.kind = .digest → (∃ n, written op.table n ∧ op.first ≤ n ∧ n < op.next) →
    t.table = none ∧ Answered ({ unit := .table, res := .ok, data := 2 :: op.fields } :: as) s t) ∧
  ((∀ op : TableOp, s.table = some op → op.kind = .digest → ∀ n, written op.table n → n < op.first ∨ op.next ≤ n) →
    t.table = s.table ∧ Answered as s t)

/-- R88: the entries of SECTIONS that the named sections are. -/
def sectionEntries (is : List SectionNo) (d : TableId) (n : Nat) : Prop := d = .sections ∧ ∃ i ∈ is, i.val = n

/-- R73: the entries of the live tables and of CHAINS that a record of an applied set carries. -/
def ChangeRecord.carries (r : ChangeRecord) (d : TableId) (n : Nat) : Prop :=
  match r with
  | .zone z _ _ => d = .zones ∧ n = z.val
  | .cell o src _ _ => d = .cells ∧ n = o.val * 12 + src.val
  | .output o _ _ _ _ _ _ => d = .outputs ∧ n = o.val
  | .flags _ _ mask => d = .outputs ∧ ∃ o : Output, mask.getLsbD o.val = true ∧ n = o.val
  | .chain o _ => d = .chains ∧ n = o.val
  | .curve c first vs => d = .curves ∧ c.idx.val * 31 + first.val ≤ n ∧ n < c.idx.val * 31 + first.val + vs.length
  | .boostCurve _ => d = .boostCurve ∧ n < 16
  | .group g _ => d = .groups ∧ n = g.val

/-- R87: the answer to an abandoned section write. -/
def EqUnit.abandoned (e : EqUnit) : List Answer :=
  e.pendingWrite.toList.map fun w => { unit := .eq, res := .aborted, data := [byteOf w.sec.val] }

/-- R133: the answer to an abandoned cue write. -/
def CueUnit.abandoned (c : CueUnit) : List Answer :=
  c.pendingWrite.toList.map fun w => { unit := .cue, res := .aborted, data := [byteOf w.addr.val, byteOf w.entries.length] }

/-- R150: the answer to an abandoned operation. -/
def TableOp.abandoned (op : TableOp) : Answer :=
  { unit := .table, res := .aborted, data := match op.kind with | .digest => 3 :: op.fields | .read => [] }

/-! ## The machine after a reset -/

/-- R19, R32, R50, R77, R100, R118, R138, R143, R172: what every block holds after power-on and after PART_RESET, the ring port
apart. -/
structure ResetValues (t : State) : Prop where
  mode : t.core.mode = .standby
  gate : t.core.gate = 0
  held : ∀ src : Source, t.core.held[src] = 0
  zones : ∀ z : Zone, t.core.live.zones[z] = { volume := 0, balance := 0, fade := 0, mute := true }
  outputs : ∀ o : Output, t.core.live.outputs[o] =
    { zone := 0, side := .centre, row := .noRow, group := none, trim := 0, ceiling := 0, mute := false, invert := false }
  curves : ∀ i : Fin 186, t.core.live.curves[i] = 0
  cells : ∀ i : Fin 288, t.core.live.cells[i] = .off
  boostCurve : t.core.live.boostCurve = []
  weights : ∀ g : Group, t.core.live.weights[g] = 100
  levelTargets : ∀ o : Output, t.core.levelTargets[o] = -480
  ramps : ∀ i : Fin 64, t.ramp.entries[i] = none
  duckTargets : ∀ src : Source, t.ramp.duckTargets[src] = 0
  commit : t.commit = { staging := [], queue := [], counter := 0, lastApplied := none }
  sections : ∀ i : SectionNo, t.eq.sections[i] =
    { coeffs := { b0 := 0, b1 := 0, b2 := 0, a1 := 0, a2 := 0 }, hist := { x1 := 0, x2 := 0, y1 := 0, y2 := 0 }, state := .free }
  marked : ∀ i : SectionNo, t.eq.marked i = true
  groups : ∀ g : Fin 4, t.eq.free0.getLsbD g.val = true
  chains : ∀ o : Output, t.eq.chains[o] = []
  slots : ∀ i : Fin 4, t.eq.slots[i] = none
  sectionWrite : t.eq.pendingWrite = none
  sdvState : t.sdv.state = .off
  sdvSpeeds : t.sdv.lastSpeed = none ∧ t.sdv.manual = none ∧ t.sdv.age = none ∧ t.sdv.phase = 0
  sdvBoost : t.sdv.boost = 0 ∧ ∀ g : Group, t.sdv.targets[g] = 0
  sdvConfig : t.sdv.hold = 30 ∧ t.sdv.fallback = 500 ∧ t.sdv.hyst = 2 ∧ t.sdv.rampMs = 2000
  cueMemory : ∀ a : CueAddr, readEntry t.cue.mem a = Vector.replicate 8 0
  runners : ∀ r : RunnerNo, (t.cue.runners[r]).state = .idle ∧ (t.cue.runners[r]).window = [] ∧ (t.cue.runners[r]).nextFetch = 0
    ∧ (t.cue.runners[r]).latch = false ∧ (t.cue.runners[r]).timedOut = false ∧ (t.cue.runners[r]).elapsed = 0
  requests : ∀ (r : RunnerNo) (src : Source), (t.cue.runners[r]).requests[src] = 0
  cueWrite : t.cue.pendingWrite = none
  table : t.table = none
  queue : t.ctl.queue = []
  executing : ∀ u : UnitId, inExecution u t = false
  enabled : t.ctl.enabled = { eq := true, sdv := true, cue := true, table := true }
  noticeOn : t.ctl.noticeOn = { setApplied := true, cueStopped := true, sdvState := true, ringRelocked := true }
  notices : t.ctl.notices = []
  flags : t.ctl.flags = 0
  clip : t.ctl.clip = 0
  lastGood : t.ctl.lastGood = none

/-- R105, R107: the age `n` compared with the thresholds of `u` moves the unit to `v`, only forward. -/
def MovedForward (u v : Sdv) (n : Nat) : Prop :=
  if (u.state = .tracking ∨ u.state = .holding) ∧ u.fallback ≤ n then
    v.state = .fallback ∧ v.boost = 0 ∧ ∀ g : Group, v.targets[g] = 0
  else if u.state = .tracking ∧ u.hold ≤ n then v.state = .holding ∧ v.boost = u.boost ∧ v.targets = u.targets
  else v.state = u.state ∧ v.boost = u.boost ∧ v.targets = u.targets

/-! ## Retargets and notices -/

/-- R38 to R40: the entry of a key after one retarget, from the entry `e` it had: unchanged where the target is the one held, none
after a jump, else a ramp from the present value. -/
def retargetedEntry (u : RampUnit) (m : Mode) (k : Key) (e : Option Ramp) (old new : Gain) (ms : Nat) : Option Ramp :=
  if new = old then e
  else if m = .standby ∨ ms = 0 ∨ u.present k old = new.qdb then none
  else some { key := k, start := u.present k old, target := new, n := 48 * ms, k := 0, due := false }

/-- The ramp of a key, if it has one. -/
def RampUnit.rampOf (u : RampUnit) (k : Key) : Option Ramp := (u.find k).bind fun i => u.entries[i]

/-- R38 to R41: a key was retargeted once between two states of the ramp table: its ramp is the one `retargetedEntry` gives, and
where it had an entry and ramps on, it keeps that entry. -/
def Retargeted (m : Mode) (u v : RampUnit) (k : Key) (old new : Gain) (ms : Nat) : Prop :=
  v.rampOf k = retargetedEntry u m k (u.rampOf k) old new ms ∧ (∀ i : Fin 64, u.find k = some i → v.find k ≠ none → v.find k = some i)

/-- The DUCK keys' retargets between two states, each from its old target to its new one, with `ms`. -/
def DucksRetargeted (ms : Nat) (s t : State) : Prop :=
  ∀ src : Source, t.ramp.entries[48 + src.val] = retargetedEntry s.ramp s.core.mode (.duck src) s.ramp.entries[48 + src.val]
    (.level s.ramp.duckTargets[src]) (.level t.ramp.duckTargets[src]) ms

/-- The same of the BOOST keys (R46, R109). -/
def BoostsRetargeted (ms : Nat) (s t : State) : Prop :=
  ∀ g : Group, t.ramp.entries[60 + g.val] = retargetedEntry s.ramp s.core.mode (.boost g) s.ramp.entries[60 + g.val]
    (.level s.sdv.targets[g]) (.level t.sdv.targets[g]) ms

/-- DUCK keys were retargeted; the other entries stand. -/
def OnlyDucksRetargeted (ms : Nat) (s t : State) : Prop :=
  DucksRetargeted ms s t ∧ ∀ i : Fin 64, i.val < 48 ∨ 60 ≤ i.val → t.ramp.entries[i] = s.ramp.entries[i]

/-- BOOST keys were retargeted; the other entries and the DUCK targets stand. -/
def OnlyBoostsRetargeted (ms : Nat) (s t : State) : Prop :=
  BoostsRetargeted ms s t ∧ t.ramp.duckTargets = s.ramp.duckTargets ∧
    ∀ i : Fin 64, i.val < 60 → t.ramp.entries[i] = s.ramp.entries[i]

/-- R166: a notice is pending, or already stands in the reply queue as a packet. -/
def Raised (n : Notice) (t : State) : Prop :=
  n ∈ t.ctl.notices ∨ .packet { dest := 0, bytes := packetBytes [0, 0, n.code ||| 0x80, 0] n.data } ∈ t.ctl.queue

/-! ## The speed-dependent volume unit -/

/-- R103, R108, R109: what a report of `speed` makes of the state: invalid, ignored, or accepted. -/
def ReportTaken (speed : Nat) (valid : Bool) (s t : State) : Prop :=
  (valid = false ∨ 320 < speed → t = setFlag .speedRejected s) ∧
  (valid = true → speed ≤ 320 → s.sdv.state = .off ∨ s.sdv.state = .manual → t = s) ∧
  (valid = true → speed ≤ 320 → s.sdv.state ≠ .off → s.sdv.state ≠ .manual →
    t.sdv = { s.sdv with
      state := .tracking, lastSpeed := some speed, age := some 0, phase := 0
      boost := t.sdv.boost, targets := t.sdv.targets } ∧
    t.sdv.boost = (if s.sdv.state = .tracking ∧ (boostAt s.core.live.boostCurve speed - s.sdv.boost).natAbs < s.sdv.hyst
      then s.sdv.boost else boostAt s.core.live.boostCurve speed) ∧
    (t.sdv.boost ≠ s.sdv.boost → ∀ g : Group, t.sdv.targets[g] = groupTarget t.sdv.boost s.core.live.weights[g]) ∧
    (BoostInv s → ∀ g : Group, t.sdv.targets[g] = groupTarget t.sdv.boost s.core.live.weights[g]) ∧
    (RampInv s → OnlyBoostsRetargeted s.sdv.rampMs s t) ∧ SdvStateTold s t ∧ SameBut [.ctl, .ramp, .sdv] s t)

/-- R106: the unit `u` has taken its state by age, with the boost the state requires from a curve. -/
def TookStateByAge (u : Sdv) (curve : List (Nat × Int)) (v : Sdv) : Prop :=
  v.state = (match u.age with
    | none => .fallback
    | some a => if a < u.hold then .tracking else if a < u.fallback then .holding else .fallback) ∧
  (v.state = .fallback → v.boost = 0) ∧
  (∀ x, v.state ≠ .fallback → u.lastSpeed = some x → v.boost = boostAt curve x)

/-- R110: what a boost curve change makes of the unit, the applied set having left `curve`. -/
def CurveTaken (enabled : Bool) (u : Sdv) (curve : List (Nat × Int)) (v : Sdv) : Prop :=
  if curve = [] then v.state = .off ∧ v.boost = (if u.state = .off then u.boost else 0) ∧
    v.manual = (if u.state = .off then u.manual else none)
  else v.manual = u.manual ∧ match u.state with
    | .off => if enabled then TookStateByAge u curve v else v.state = .off ∧ v.boost = u.boost
    | .fallback => v.state = .fallback ∧ v.boost = u.boost
    | .manual => v.state = .manual ∧ ∀ x, u.manual = some x → v.boost = boostAt curve x
    | st => v.state = st ∧ ∀ x, u.lastSpeed = some x → v.boost = boostAt curve x

/-! ## Cue runners -/

/-- Runner `r` holds `x`. -/
def withRunner (r : RunnerNo) (x : Runner) (s : State) : State :=
  { s with cue := { s.cue with runners := s.cue.runners.set r x } }

/-- R124, R45, R128: the start of a STEP sets the runner's requests for the sources of its mask; each DUCK key whose request changed
goes to the lower of the two runners' requests, with the STEP's ramp. -/
def StepRequested (r : RunnerNo) (mask : BitVec 12) (offset : Int) (rampMs : Nat) (s t : State) : Prop :=
  let x := s.cue.runners[r]
  t = { withRunner r { x with requests := Vector.ofFn fun src : Source => if mask.getLsbD src.val then offset else x.requests[src] } s
    with ramp := t.ramp } ∧
  (∀ src : Source, t.ramp.duckTargets[src] =
    if mask.getLsbD src.val = true ∧ x.requests[src] ≠ offset then duckMin t.cue src else s.ramp.duckTargets[src]) ∧
  (RampInv s → OnlyDucksRetargeted rampMs s t ∧ RampInv t)

/-- R123 to R127: the start of the first entry of runner `r`'s window, and of those after it that complete as they start: a STEP of
length 0 (R124) and a WAIT with the latch set (R125). The next-fetch address less the window's length is the entry's address. -/
def EntryStarted (r : RunnerNo) : List CueEntry → State → State → Prop
  | [], s, t => t = withRunner r { s.cue.runners[r] with state := .fetching, window := [], elapsed := 0, due := false } s
  | first :: rest, s, t =>
      let x := s.cue.runners[r]
      let stopped := withRunner r { x with state := .stopped, latch := false, elapsed := 0, due := false } s
      let address : CueAddr := x.nextFetch - Fin.ofNat 256 (rest.length + 1)
      match decodeEntry first with
      | .step mask offset rampMs holdMs => ∃ u : State, StepRequested r mask offset rampMs s u ∧
          if rampMs + holdMs = 0 then EntryStarted r rest (withRunner r { u.cue.runners[r] with window := rest } u) t
          else t = withRunner r { u.cue.runners[r] with state := .stepping, elapsed := 0, due := false } u
      | .wait _ =>
          if x.latch then EntryStarted r rest (withRunner r { x with window := rest, latch := false, timedOut := false } s) t
          else t = withRunner r { x with state := .waiting, elapsed := 0, due := false } s
      | .jump a => t = withRunner r { x with state := .fetching, window := [], nextFetch := a, elapsed := 0, due := false } s
      | .stop notify => t = { stopped with ctl := t.ctl } ∧
          if notify then NoticeRaised (.cueStopped r .stop address) s t else t.ctl = s.ctl
      | .invalid => t = { stopped with ctl := t.ctl } ∧ NoticeRaised (.cueStopped r .fault address) s t

/-! ## Causes and durations (R29, R30, R44) -/

/-- R29, R30: record `r`, written to `l`, is a cause for output `o` with a duration of `ms`; `after` are the tables the set leaves. -/
def LevelCause (l after : Live) (o : Output) (ms : Nat) (r : ChangeRecord) : Prop :=
  match r with
  | .zone z c d => z = (after.outputs[o]).zone ∧ (l.write r).zones[z] ≠ l.zones[z] ∧
      ms = d.getD (match c with | .mute _ => 10 | _ => 200)
  | .output p z side row _ trim _ => p = o ∧ ms = 200 ∧
      ((l.outputs[o]).zone ≠ z ∨ (l.outputs[o]).side ≠ side ∨ (l.outputs[o]).row ≠ row ∨ (l.outputs[o]).trim ≠ trim)
  | .flags _ f _ => f = .mute ∧ ms = 10 ∧ ((l.write r).outputs[o]).mute ≠ (l.outputs[o]).mute
  | .curve _ _ _ => ms = 200 ∧ ((l.write r).curves[after.lateralEntry o] ≠ l.curves[after.lateralEntry o] ∨
      ∃ i, after.longEntry o = some i ∧ (l.write r).curves[i] ≠ l.curves[i])
  | _ => False

/-- R44: record `r`, written to `l`, changes the cell of a pair, with a duration of `ms`. -/
def CellCause (l : Live) (o : Output) (src : Source) (ms : Nat) (r : ChangeRecord) : Prop :=
  match r with
  | .cell p q g d => p = o ∧ q = src ∧ l.cells[cellIndex o src] ≠ g ∧ ms = d.getD 50
  | _ => False

/-- `ms` is the least duration among the causes of a set, each record taken at its point in record order; `default` where there is
none, which R30 shows does not occur. -/
def LeastCause (cause : Live → Nat → ChangeRecord → Prop) (default : Nat) (l : Live) (rs : List ChangeRecord) (ms : Nat) : Prop :=
  (∀ a r b d, rs = a ++ r :: b → cause (l.writeAll a) d r → ms ≤ d) ∧
  ((∃ a r b, rs = a ++ r :: b ∧ cause (l.writeAll a) ms r) ∨
    (ms = default ∧ ∀ a r b d, rs = a ++ r :: b → ¬ cause (l.writeAll a) d r))

/-! ## Change records on the wire (R53 to R57, 11.4) -/

/-- The kind code of a record. -/
def ChangeRecord.kindByte : ChangeRecord → Byte
  | .zone _ _ _ => 1
  | .cell _ _ _ _ => 2
  | .output _ _ _ _ _ _ _ => 3
  | .flags _ _ _ => 4
  | .chain _ _ => 5
  | .curve _ _ _ => 6
  | .boostCurve _ => 7
  | .group _ _ => 8

/-- The length a kind requires, given the count the body declares. -/
def recordLength (kind : Byte) (body : List Byte) : Nat :=
  match kind.toNat with
  | 1 => 7
  | 2 => 7
  | 3 => 9
  | 4 => 5
  | 5 => 2 + (body.getD 1 0).toNat
  | 6 => 3 + 2 * (body.getD 2 0).toNat
  | 7 => 1 + 2 * (body.getD 0 0).toNat
  | _ => 2

/-- The presence byte and the ramp bytes; without a ramp these are disregarded, and hold `h` and `l`. -/
def rampOnWire (ms : Option Nat) (h l : Byte) : List Byte :=
  match ms with
  | some n => 1 :: bytes16 n
  | none => [0, h, l]

/-- The body of a record, with `h` and `l` as the ramp bytes of a record without a ramp. -/
def ChangeRecord.body (h l : Byte) : ChangeRecord → List Byte
  | .zone z (.volume v) ms => byteOf z.val :: 0 :: bytes16 v ++ rampOnWire ms h l
  | .zone z (.balance v) ms => byteOf z.val :: 1 :: bytes16 v ++ rampOnWire ms h l
  | .zone z (.fade v) ms => byteOf z.val :: 2 :: bytes16 v ++ rampOnWire ms h l
  | .zone z (.mute b) ms => byteOf z.val :: 3 :: 0 :: bitByte b :: rampOnWire ms h l
  | .cell o s g ms => byteOf o.val :: byteOf s.val :: gainBytes g ++ rampOnWire ms h l
  | .output o z side row g trim ceiling =>
      [byteOf o.val, byteOf z.val, side.code, row.code, groupCode g] ++ bytes16 trim ++ bytes16 ceiling
  | .flags op f mask =>
      (match op with | .set => 0 | .clear => 1 | .toggle => 2) :: (match f with | .mute => 0 | .invert => 1) :: bytes24 mask.toNat
  | .chain o list => byteOf o.val :: byteOf list.length :: list.map fun n => byteOf n.val
  | .curve c first vs => byteOf c.idx.val :: byteOf first.val :: byteOf vs.length :: (vs.map bytes16).flatten
  | .boostCurve ps => byteOf ps.length :: (ps.map fun p => bytes16 (p.1 * 128 + p.2)).flatten
  | .group g w => [byteOf g.val, byteOf w]

/-- R53 to R56: the ranges of a record's fields and lists. -/
def ChangeRecord.inRange : ChangeRecord → Prop
  | .zone _ c ms => (∀ n, ms = some n → n ≤ 65535) ∧ (match c with
      | .volume v => -480 ≤ v ∧ v ≤ 0
      | .balance v => -15 ≤ v ∧ v ≤ 15
      | .fade v => -15 ≤ v ∧ v ≤ 15
      | .mute _ => True)
  | .cell _ _ g ms => (∀ n, ms = some n → n ≤ 65535) ∧ ∀ v, g = .level v → -480 ≤ v ∧ v ≤ 24
  | .output _ _ _ _ _ trim ceiling => -96 ≤ trim ∧ trim ≤ 24 ∧ -240 ≤ ceiling ∧ ceiling ≤ 48
  | .flags _ _ _ => True
  | .chain _ list => list.length ≤ 10
  | .curve _ first vs => 1 ≤ vs.length ∧ vs.length ≤ 16 ∧ first.val + vs.length ≤ 31 ∧ ∀ v ∈ vs, -480 ≤ v ∧ v ≤ 0
  | .boostCurve ps => ps.length ≠ 1 ∧ ps.length ≤ 16 ∧ ps.Pairwise (fun p q => p.1 < q.1) ∧
      ∀ p ∈ ps, p.1 ≤ 320 ∧ 0 ≤ p.2 ∧ p.2 ≤ 48
  | .group _ w => w ≤ 100

/-- R60: the worst-case count of a group of records: the distinct pairs of its CELL records, and 24 where it holds a ZONE, OUTPUT,
FLAGS or CURVE record. -/
noncomputable def worstCount (rs : List ChangeRecord) : Nat :=
  Set.ncard {p : Output × Source | ∃ g ms, .cell p.1 p.2 g ms ∈ rs} +
    if ∃ r ∈ rs, r.kindByte ∈ [1, 3, 4, 6] then 24 else 0

/-- R59 checks 1 to 4: `reason` is that of the first condition that fails at the CHAIN record of an output and a list, after the
records `before`; none when they hold. -/
def ChainJudged (e : EqUnit) (before : List ChangeRecord) (o : Output) (list : List SectionNo) (reason : Option RejectReason) : Prop :=
  let repeated := ¬ list.Nodup ∨ ∃ n ∈ list, n ∈ namedSections before
  let unavailable := ∃ n ∈ list, (e.sections[n]).state ≠ .loaded
  (4 ≤ (chainOutputs before).length → reason = some .tooManyChains) ∧
  ((chainOutputs before).length < 4 → o ∈ chainOutputs before → reason = some .duplicateOutput) ∧
  ((chainOutputs before).length < 4 → o ∉ chainOutputs before → repeated → reason = some .sectionRepeated) ∧
  ((chainOutputs before).length < 4 → o ∉ chainOutputs before → ¬ repeated → unavailable → reason = some .sectionUnavailable) ∧
  ((chainOutputs before).length < 4 → o ∉ chainOutputs before → ¬ repeated → ¬ unavailable → reason = none)

/-- R59: what the checks say at a record: those of a CHAIN record first, then the worst-case count. -/
def RecordJudged (e : EqUnit) (before : List ChangeRecord) (r : ChangeRecord) (reason : Option RejectReason) : Prop :=
  ∃ first : Option RejectReason,
    (match r with | .chain o list => ChainJudged e before o list first | _ => first = none) ∧
    reason = (if first.isSome then first else if 48 < worstCount (before ++ [r]) then some .tooManyRamps else none)

/-- The request code of a request (11.3). -/
def Request.code : Request → Byte
  | .identify => 1
  | .readStatus => 2
  | .unitEnable => 3
  | .unitReset => 4
  | .partReset => 5
  | .noticeEnable => 6
  | .mode => 7
  | .slotMap => 8
  | .stageRecord => 1
  | .abortOpen => 2
  | .flushQueue => 3
  | .setStatus => 4
  | .sectionLoad => 1
  | .sectionWrite => 2
  | .sectionRelease => 3
  | .poolStatus => 4
  | .speedReport => 1
  | .sdvConfig => 2
  | .sdvManual => 3
  | .sdvAuto => 4
  | .sdvStatus => 5
  | .cueWrite => 1
  | .cueStart => 2
  | .cueRelease => 3
  | .cueHalt => 4
  | .cueStatus => 5
  | .tableRead => 1
  | .digest => 2

/-- R145, R146, R148: between two states the operation `op` took up to `pace` entries, read in `v`: it goes on with them, or has
ended, its reservation filled. -/
def EntriesTaken (op : TableOp) (pace : Nat) (v s t : State) : Prop :=
  let n := min pace op.owed
  let bs := entriesBytes v op.table op.next n
  let after : TableOp :=
    { op with
        next := op.next + n, covered := op.covered + n, crc := crc16 op.crc bs, batchDue := false
        taken := op.taken ++ (if op.kind = .read then bs else []) }
  let data := match op.kind with
    | .read => op.table.code :: bytes16 op.first ++ byteOf op.count :: after.taken
    | .digest => (if op.covered + n = op.count then 0 else 1) :: after.fields
  (n < op.owed → t.table = some after ∧ t.ctl = s.ctl) ∧
  (n = op.owed → t.table = none ∧ Answered [{ unit := .table, res := .ok, data := data }] s t ∧ NoNotice s t)

/-! ## The signal path over the reals (R2 to R6) -/

/-- R2: the linear gain of a level. -/
noncomputable def lin (l : Int) : ℝ := (10 : ℝ) ^ ((l : ℝ) / 80)

/-- R2, R5: the gain of a level, exactly zero at or below the floor. -/
noncomputable def floored (l : Int) : ℝ := if l ≤ -480 then 0 else lin l

/-- R2: the composed gain of a source in an output, cell and duck. -/
def composedGain (s : State) (o : Output) (src : Source) : Int :=
  (keyCurrent s (.cell o src)).qdb + (keyCurrent s (.duck src)).qdb

/-- R2, R3: the exact mix of an output. -/
noncomputable def exactMix (s : State) (o : Output) : ℝ :=
  ∑ src : Source, ((s.core.held[src]).toInt : ℝ) * floored (composedGain s o src)

/-- R5: the final gain min(LEVEL + B, C). -/
def levelGain (s : State) (o : Output) : Int :=
  min ((keyCurrent s (.level o)).qdb + (match (s.core.live.outputs[o]).group with
    | some g => (keyCurrent s (.boost g)).qdb
    | none => 0)) (s.core.live.outputs[o]).ceiling

/-- R5, R6 steps 1 and 2: what level stage, gate and polarity make of an equalised value. -/
noncomputable def exactStages (s : State) (o : Output) (x : ℝ) : ℝ :=
  (if (s.core.live.outputs[o]).invert then -1 else 1) * (x * floored (levelGain s o) * ((s.core.gate : ℝ) / 2400))

/-- R90, R91: a chain computes its sections in order. Each moves its history on; the next section's input is its output. -/
inductive ChainComputes : Vector EqSection 256 → List SectionNo → Int → Int → Vector EqSection 256 → Prop
  | done (pool : Vector EqSection 256) (x : Int) : ChainComputes pool [] x x pool
  | step (pool after : Vector EqSection 256) (n : SectionNo) (ns : List SectionNo) (x y z : Int) :
      y = max (-134217728) (min 134217727
        (((pool[n]).coeffs.b0 * x + (pool[n]).coeffs.b1 * (pool[n]).hist.x1 + (pool[n]).coeffs.b2 * (pool[n]).hist.x2
          - (pool[n]).coeffs.a1 * (pool[n]).hist.y1 - (pool[n]).coeffs.a2 * (pool[n]).hist.y2).tdiv 2097152)) →
      ChainComputes
        (pool.set n { pool[n] with hist := { x1 := x, x2 := (pool[n]).hist.x1, y1 := y, y2 := (pool[n]).hist.y1 } }) ns y z after →
      ChainComputes pool (n :: ns) x z after

/-- R4, R91: one side `e` of the equalisation: an empty chain passes the mix, another gives the output of its last section. -/
def SideComputes (pool : Vector EqSection 256) (list : List SectionNo) (mix : ℝ) (x : Int) (e : ℝ)
    (after : Vector EqSection 256) : Prop :=
  if list = [] then e = mix ∧ after = pool
  else ∃ y : Int, e = y ∧ ChainComputes pool list x y after

/-- R4, R94: the equalised value `e` of an output's mix, whose whole value is `x`, with EQ enabled or not, and the sections after it.
The blend is formed exactly. -/
def Equalised (eqOn : Bool) (s : State) (o : Output) (mix : ℝ) (x : Int) (e : ℝ) (after : Vector EqSection 256) : Prop :=
  if eqOn = false then e = mix ∧ after = s.eq.sections
  else match s.eq.slotOf o with
    | none => SideComputes s.eq.sections s.eq.chains[o] mix x e after
    | some f => ∃ (old new : ℝ) (pool : Vector EqSection 256), SideComputes s.eq.sections f.old mix x old pool ∧
        SideComputes pool s.eq.chains[o] mix x new after ∧ e = ((480 - f.k) * old + f.k * new) / 480

/-- Truncation toward zero. -/
noncomputable def truncated (x : ℝ) : Int := if 0 ≤ x then ⌊x⌋ else ⌈x⌉

/-- R3: the whole value a value truncates to. Where the value lies within the relative error of 2^−24 of a whole value other than 0,
the nearest one, that bound does not decide the truncation, and it is either of the two at that whole value's sides (entry
7). That the bound is taken once, and that beyond the 24-bit range, where it may reach two whole values, only the nearest counts, is
the model's choice (entry 24). -/
def TakenWhole (x : ℝ) (w : Int) : Prop :=
  w = truncated x ∨ ∃ b : Int, b ≠ 0 ∧ |x - b| ≤ 1 / 2 ∧ |x - b| < |x| / 2 ^ 24 ∧ (w = b ∨ w = b - b.sign)

/-- R2 to R6: what composing output `o` makes of a state. A whole value `m` of the exact mix, limited to the section range, enters the
chains; a whole value `w` of what the stages make of the equalised value is the sample, limited to 24 bits, with the clip marker
when it was out of range. -/
def Composed (eqOn : Bool) (s : State) (o : Output) (t : State) : Prop :=
  ∃ (m w : Int) (e : ℝ),
    TakenWhole (exactMix s o) m ∧
    Equalised eqOn s o (exactMix s o) (max (-134217728) (min 134217727 m)) e t.eq.sections ∧
    TakenWhole (exactStages s o e) w ∧
    t = { s with
      lane := { s.lane with samples := s.lane.samples.set o (BitVec.ofInt 24 (max (-8388608) (min 8388607 w))) }
      ctl := { s.ctl with clip := if -8388608 ≤ w ∧ w ≤ 8388607 then s.ctl.clip else s.ctl.clip ||| BitVec.twoPow 24 o.val }
      eq := { s.eq with sections := t.eq.sections }
      free := t.free }

end Sys2Proof.Machine
end

