-- ==== Sys2Proof/Certificates/Slice0/Obligations.lean ====
section
/-! DEFINITION. The statements for the provers, in the order of OBLIGATIONS.json. A request's statement speaks of `afterTake i s`,
the state once the request's packet is taken, and of `replied` and `reserved`, the reply or the reservation in the last place of
the queue: what a record update of these does not name is unchanged. -/

open Sys2Proof Sys2Proof.Machine

/-! ## The machine -/

/-- A step takes the command at the front of the queue; on an empty queue the block idles (the model's choice, entry 4). -/
def Obligations.StepTakesFront : Prop :=
  (∀ (c : Instr) (rest : List Instr) (s : State), s.pending = c :: rest → step s = exec c { s with pending := rest }) ∧
  (∀ s : State, s.pending = [] → step s = .next s)

/-- No command stops the block, and none touches the queue of commands (entry 1). A command whose event is not due, a grant the
arbiter does not give, a second boundary or cell of one frame, and a request of another row than the packet offered leave the
state as it is (entries 1 and 3); of OUTGOING_PACKET_TAKE, which queues notices all the same, ReplyQueueMoves speaks. -/
def Obligations.EveryCommandAnswersNext : Prop :=
  (∀ (c : Instr) (s : State), ∃ t : State, exec c s = .next t ∧ t.pending = s.pending) ∧
  (∀ s : State,
    (∀ i : Fin 64, (∀ r : Ramp, s.ramp.entries[i] = some r → r.due = false) → exec (.rampComplete i) s = .next s) ∧
    (∀ i : Fin 4, (∀ f : Crossfade, s.eq.slots[i] = some f → f.due = false) → exec (.crossfadeEnd i) s = .next s) ∧
    (s.core.mode ≠ .leaving ∨ s.core.gate ≠ 0 → exec .leavingEnd s = .next s) ∧
    (s.frame.examDue = false → exec .setApplication s = .next s) ∧
    (s.sdv.tickDue = false → exec .sdvTick s = .next s) ∧
    (∀ r : RunnerNo, (s.cue.runners[r]).state ≠ .stepping ∨ (s.cue.runners[r]).due = false →
      exec (.stepComplete r) s = .next s) ∧
    (∀ r : RunnerNo, (s.cue.runners[r]).state ≠ .waiting ∨ (s.cue.runners[r]).due = false →
      exec (.waitTimeout r) s = .next s) ∧
    (∀ r : RunnerNo, mayGrant (.runner r) s = false → exec (.cueFetchGrant r) s = .next s) ∧
    (mayGrant .sectionWrite s = false → exec .sectionWriteGrant s = .next s) ∧
    (mayGrant .cueWrite s = false → exec .cueWriteGrant s = .next s) ∧
    (mayGrant .table s = false → exec .tableAccessGrant s = .next s) ∧
    ((∀ op : TableOp, s.table = some op → op.kind = .read → op.lastStep = true →
      op.batchDue = false ∧ mayGrant .table s = false) → exec .tableReadComplete s = .next s) ∧
    ((∀ op : TableOp, s.table = some op → op.kind = .digest → op.lastStep = true →
      op.batchDue = false ∧ mayGrant .table s = false) → exec .digestEnd s = .next s) ∧
    (∀ up examine batch, s.port.lock = .locked → s.frame.boundaryDue = false →
      exec (.frameBoundary up examine batch) s = .next s) ∧
    (∀ c : Cell, s.port.lock = .locked → s.frame.cellDue = false → exec (.controlCell c) s = .next s) ∧
    (∀ q : Request, (∀ o : Offer, nextOffer (queueNotices s) = some o → o.packet.row s.ctl.enabled ≠ some q) →
      exec q.instr s = .next s) ∧
    ((∀ o : Offer, nextOffer (queueNotices s) = some o → o.packet.row s.ctl.enabled ≠ none) →
      exec .unknownRequest s = .next s))

/-- R19, R32, R50, R77, R100, R118, R138, R143, R151, R160, R172: power-on with straps 0 to 31. -/
def Obligations.PowerOnState : Prop :=
  ∀ (strap : Nat) (s : State), strap ≤ 31 → ∃ t : State, exec (.powerOn strap) s = .next t ∧ ResetValues t ∧
    t.port.ownNode.toNat = (if 1 ≤ strap ∧ strap ≤ 30 then strap else 30) ∧
    t.port.lock = .hunt ∧ t.port.goodSyncs = 0 ∧ t.port.outgoing = none ∧
    (∀ src : Source, t.port.sourceMap[src] = none) ∧ (∀ o : Output, t.port.outputMap[o] = none) ∧
    (∀ i : Fin 2, t.port.contexts[i] = none)

/-- Every invariant holds after power-on with any own node. -/
def Obligations.InvariantsAtReset : Prop :=
  ∀ node : Node, Inv (State.powerOn node) ∧ BusyInv (State.powerOn node) ∧ LevelInv (State.powerOn node) ∧
    RampInv (State.powerOn node) ∧ BoostInv (State.powerOn node) ∧ PoolInv (State.powerOn node) ∧
    RampLink (State.powerOn node) ∧ CountInv (State.powerOn node) ∧ LiveInv (State.powerOn node)

/-- The main invariant, and the ranges of every count (R92, R102, R121 to R128). -/
def Obligations.StepKeepsInv : Prop :=
  (∀ s t : State, Inv s → step s = .next t → Inv t) ∧ (∀ s t : State, CountInv s → step s = .next t → CountInv t)

/-- R163, R164: a unit is in execution exactly while its reservation waits. R142: at most 8 entries of live tables are taken in one
LOCKED frame; a read that would exceed them waits in its context (the model's choice, entry 28), and the frame runs from one
FRAME_BOUNDARY to the next (the model's choice, entry 30). -/
def Obligations.StepKeepsReservations : Prop :=
  (∀ s t : State, Inv s → BusyInv s → step s = .next t → BusyInv t) ∧
  (∀ s t : State, BusyInv s → LiveInv s → step s = .next t → LiveInv t)

/-- Every LEVEL target follows the live tables (R26, R27), and the boost, the weights, the ceilings and the group targets keep their
ranges (R22, R109). -/
def Obligations.StepKeepsTargets : Prop :=
  (∀ s t : State, LevelInv s → step s = .next t → LevelInv t) ∧ (∀ s t : State, BoostInv s → step s = .next t → BoostInv t)

/-- The ramp table's own form (R34, R36), and what it serves: every entry's target is its key's, and in STANDBY none is active
(R35, R40, R49). -/
def Obligations.StepKeepsRampTable : Prop :=
  (∀ s t : State, RampInv s → step s = .next t → RampInv t) ∧
  (∀ s t : State, RampInv s → RampLink s → step s = .next t → RampLink t)

def Obligations.StepKeepsSectionPool : Prop := ∀ s t : State, PoolInv s → step s = .next t → PoolInv t

/-! ## Ring port -/

/-- R152: syncs while hunting, and while LOCKED, where what is still owed at the last boundary is taken first (entry 3): of what is
owed, nothing is left when its samples are composed, and with nothing owed they are composed at once. The model's choices beside
entry 3: that the count of good syncs starts over at 0 once LOCKED (entry 19), what the LOCKED clauses say of a sync that comes
before the frame's FRAME_BOUNDARY (entry 22), and that the last frame's grant and count of live entries stand until then (entry
30). -/
def Obligations.SyncsTaken : Prop :=
  (∀ s : State, s.port.lock = .hunt →
    exec (.syncReceived .other) s = .next { s with port := { s.port with goodSyncs := 1 } } ∧
    exec .syncMissing s = .next { s with port := { s.port with goodSyncs := 0 } } ∧
    (s.port.goodSyncs < 2 →
      exec (.syncReceived .oneFrame) s = .next { s with port := { s.port with goodSyncs := s.port.goodSyncs + 1 } }) ∧
    (2 ≤ s.port.goodSyncs → ∃ t : State, exec (.syncReceived .oneFrame) s = .next t ∧
      t.port = { s.port with lock := .locked, goodSyncs := 0, missingSyncs := 0 } ∧
      t.frame = { s.frame with boundaryDue := true } ∧
      SameBut [.port, .frame, .ctl] s t ∧ SettingsKept s t ∧ (s.core.mode ≠ .run → t.ctl = s.ctl) ∧
      (s.core.mode = .run → s.ctl.noticeOn.ringRelocked = true → .ringRelocked ∈ t.ctl.notices))) ∧
  (∀ s : State, s.port.lock = .locked →
    exec (.syncReceived .other) s = .next s ∧
    exec (.syncReceived .oneFrame) s =
      .next { finishBoundary s with
        port := { (finishBoundary s).port with missingSyncs := 0 }
        frame := { (finishBoundary s).frame with boundaryDue := true } } ∧
    (s.port.missingSyncs = 0 → exec .syncMissing s =
      .next { finishBoundary s with
        port := { (finishBoundary s).port with missingSyncs := 1 }
        frame := { (finishBoundary s).frame with boundaryDue := true } }) ∧
    (finishBoundary s).frame.opened = none ∧ (finishBoundary s).port = s.port ∧
    (s.frame.opened = none → finishBoundary s = s)) ∧
  (∀ s : State, s.frame.opened ≠ none →
    finishBoundary s = closeBoundary (takeOwed s) ∧ (takeOwed s).frame.opened = s.frame.opened ∧
    (owing s = false → finishBoundary s = closeBoundary s) ∧ (CountInv s → owing (takeOwed s) = false))

/-- R1, R9, R16, R150, R152, R153: the second missed sync loses lock; `u` is the state with the last boundary's steps taken, in the
model's own order (entry 3). Of the sticky flags LOCK_LOST alone is set. In LEAVING the runners are halted, the DUCK targets are 0 and the
sections keep coefficients and history (R15, R130); the entry into STANDBY comes before the digest's abandonment (entry 25), and a
disturbed digest's reply before the MODE request's (the model's reading, entry 21). -/
def Obligations.SecondMissLosesLock : Prop :=
  ∀ s : State, s.port.lock = .locked → s.port.missingSyncs ≠ 0 → ∃ t : State, exec .syncMissing s = .next t ∧
    let u := finishBoundary s
    t.port.lock = .hunt ∧ t.port.goodSyncs = 0 ∧ t.port.outgoing = none ∧ t.port.ownNode = u.port.ownNode ∧
    t.port.sourceMap = u.port.sourceMap ∧ t.port.outputMap = u.port.outputMap ∧
    (∀ i : Fin 2, t.port.contexts[i] = match u.port.contexts[i] with
      | some c => if c.complete then some c else none
      | none => none) ∧
    t.core.gate = 0 ∧ (∀ src : Source, t.core.held[src] = 0) ∧ t.ctl.flags = (setFlag .lockLost u).ctl.flags ∧
    (∀ f : Flag, flagSet f t = (decide (f = .lockLost) || flagSet f u)) ∧
    (u.core.mode = .leaving → t.core.mode = .standby ∧ ∀ i : Fin 64, t.ramp.entries[i] = none) ∧
    (u.core.mode ≠ .leaving → t.core.mode = u.core.mode ∧ t.ramp = u.ramp ∧ t.eq = u.eq ∧ t.cue = u.cue) ∧
    (∀ op, u.table = some op → op.kind = .digest → t.table = none) ∧
    (∀ op, u.table = some op → op.kind = .read → t.table = some op) ∧ (u.table = none → t.table = none) ∧
    SameBut [.port, .frame, .ctl, .core, .ramp, .eq, .cue, .table] u t ∧
    t.frame = Frame.idle ∧ t.core.live = u.core.live ∧ t.core.levelTargets = u.core.levelTargets ∧
    t.ctl.clip = u.ctl.clip ∧ t.ctl.enabled = u.ctl.enabled ∧ t.ctl.noticeOn = u.ctl.noticeOn ∧ NoNotice u t ∧
    (u.core.mode = .leaving → inExecution .ctrl t = false ∧
      (∀ j : Fin 4, t.eq.slots[j] = none) ∧ t.eq = { u.eq with sections := t.eq.sections, slots := t.eq.slots } ∧
      (∀ n : SectionNo, t.eq.sections[n] =
        { u.eq.sections[n] with state := if n ∈ oldSections u.eq then .loaded else (u.eq.sections[n]).state }) ∧
      (∀ r : RunnerNo, t.cue.runners[r] =
        { u.cue.runners[r] with
            state := .idle, window := [], latch := false, timedOut := false, elapsed := 0, due := false
            requests := Vector.replicate 12 0 }) ∧ t.cue = { u.cue with runners := t.cue.runners } ∧
      (∀ src : Source, t.ramp.duckTargets[src] =
        if ∀ r : RunnerNo, (u.cue.runners[r]).requests[src] = 0 then u.ramp.duckTargets[src] else 0) ∧
      (Inv u → ∀ src : Source, t.ramp.duckTargets[src] = 0)) ∧
    let mode : List Answer := if u.core.mode = .leaving then [{ unit := .ctrl, res := .ok, data := [0] }] else []
    ((∀ op, u.table = some op → op.kind = .read) → Answered mode u t) ∧
    (∀ op, u.table = some op → op.kind = .digest →
      let disturbed := u.core.mode = .leaving ∧ op.table = .sections ∧
        ∃ n ∈ oldSections u.eq, op.first ≤ n.val ∧ n.val < op.next
      (disturbed → Answered ({ unit := .table, res := .ok, data := 2 :: op.fields } :: mode) u t) ∧
      (¬ disturbed → Answered (mode ++ [op.abandoned]) u t))

/-- R156, R159: which cell goes downstream in a LOCKED frame, what of the outgoing packet is left, and what the control unit hears:
nothing of an idle or passed cell, UNDELIVERED alone of a stripped one (of a taken or copied one PacketAssembly speaks); in HUNT
the cell is repeated (R152). -/
def Obligations.ControlCellDownstream : Prop :=
  ∀ (c : Cell) (s : State),
    (s.port.lock = .hunt → exec (.controlCell c) s = .next { s with lane := { s.lane with cell := c } }) ∧
    (s.port.lock = .locked → s.frame.cellDue = true → ∃ t : State, exec (.controlCell c) s = .next t ∧
      t.frame = { s.frame with cellDue := false } ∧ SameBut [.port, .frame, .lane, .ctl] s t ∧
      (c.kind = 0 ∨ nodeOf c.dest = s.port.ownNode ∨ (nodeOf c.dest ≠ 31 ∧ nodeOf c.origin = s.port.ownNode) →
        match s.port.outgoing with
        | some (x :: xs) => t.lane.cell = x ∧ t.port.outgoing = (if xs = [] then none else some xs)
        | _ => t.lane.cell = Cell.idle ∧ t.port.outgoing = none) ∧
      (c.kind ≠ 0 → nodeOf c.dest ≠ s.port.ownNode → nodeOf c.dest = 31 ∨ nodeOf c.origin ≠ s.port.ownNode →
        t.lane.cell = c ∧ t.port.outgoing = s.port.outgoing) ∧
      (c.kind ≠ 0 → nodeOf c.dest ≠ s.port.ownNode → nodeOf c.dest ≠ 31 → nodeOf c.origin = s.port.ownNode →
        t.ctl = (setFlag .undelivered s).ctl ∧ ∀ f : Flag, flagSet f t = (decide (f = .undelivered) || flagSet f s)) ∧
      (c.kind = 0 ∨ (nodeOf c.dest ≠ s.port.ownNode ∧ nodeOf c.dest ≠ 31 ∧ nodeOf c.origin ≠ s.port.ownNode) →
        t.ctl = s.ctl) ∧
      (c.kind = 0 ∨ (nodeOf c.dest ≠ s.port.ownNode ∧ nodeOf c.dest ≠ 31) →
        t.port = { s.port with outgoing := t.port.outgoing }))

/-- R157, R158, R173: what a taken or copied cell does to the assembly contexts, a FIRST or ONLY taking the lower-numbered of two
free ones (the model's choice, entry 31), with the one flag it may set; and which packet the control unit is offered
(R158, R161): with a free place of the reply queue the one that completed first; with none, and CTRL not in execution, one whose
bytes are those of PART_RESET, the first to complete first (entry 17). -/
def Obligations.PacketAssembly : Prop :=
  (∀ (c : Cell) (s : State), s.port.lock = .locked → s.frame.cellDue = true → c.kind ≠ 0 →
    nodeOf c.dest = s.port.ownNode ∨ nodeOf c.dest = 31 → ∃ t : State, exec (.controlCell c) s = .next t ∧
    let fresh : Context :=
      { origin := nodeOf c.origin, broadcast := decide (nodeOf c.dest ≠ s.port.ownNode), complete := decide (c.kind = 1),
        bytes := c.payload.toList, cells := 1 }
    let firstNow := fun i : Fin 2 => if s.port.isComplete (i + 1) then i + 1 else i
    (c.kind = 1 ∨ c.kind = 2 →
      match s.port.partialContext (nodeOf c.origin), s.port.freeContext with
      | some i, _ => t.port.contexts = s.port.contexts.set i (some fresh) ∧ t.ctl = (setFlag .badSequence s).ctl ∧
          t.port.firstComplete = (if c.kind = 1 then firstNow i else s.port.firstComplete)
      | none, some i => t.port.contexts = s.port.contexts.set i (some fresh) ∧ t.ctl = s.ctl ∧
          t.port.firstComplete = (if c.kind = 1 then firstNow i else s.port.firstComplete)
      | none, none => t.port.contexts = s.port.contexts ∧ t.port.firstComplete = s.port.firstComplete ∧
          t.ctl = (setFlag .rxOverrun s).ctl) ∧
    (c.kind = 3 ∨ c.kind = 4 →
      match s.port.partialContext (nodeOf c.origin) with
      | none => t.port.contexts = s.port.contexts ∧ t.port.firstComplete = s.port.firstComplete ∧
          t.ctl = (setFlag .badSequence s).ctl
      | some i => ∀ x : Context, s.port.contexts[i] = some x →
          (x.cells < 8 → t.ctl = s.ctl ∧ t.port.contexts = s.port.contexts.set i
            (some { x with bytes := x.bytes ++ c.payload.toList, cells := x.cells + 1, complete := decide (c.kind = 4) }) ∧
            t.port.firstComplete = (if c.kind = 4 then firstNow i else s.port.firstComplete)) ∧
          (8 ≤ x.cells → t.port.contexts = s.port.contexts.set i none ∧ t.port.firstComplete = s.port.firstComplete ∧
            t.ctl = (setFlag .badLength s).ctl)) ∧
    (4 < c.kind.toNat → t.port.contexts = s.port.contexts ∧ t.port.firstComplete = s.port.firstComplete ∧
      t.ctl = (setFlag .badSequence s).ctl)) ∧
  (∀ p : RingPort,
    (p.contexts[0] = none → p.freeContext = some 0) ∧
    (p.contexts[0] ≠ none → p.contexts[1] = none → p.freeContext = some 1) ∧
    (p.contexts[0] ≠ none → p.contexts[1] ≠ none → p.freeContext = none) ∧
    (∀ (o : Node) (i : Fin 2), p.partialContext o = some i →
      ∃ x : Context, p.contexts[i] = some x ∧ x.complete = false ∧ x.origin = o) ∧
    (∀ o : Node, p.partialContext o = none →
      ∀ (i : Fin 2) (x : Context), p.contexts[i] = some x → x.complete = true ∨ x.origin ≠ o)) ∧
  (∀ s : State,
    let holds := fun (i : Fin 2) (x : Context) => s.port.contexts[i] = some x ∧ x.complete = true
    let reset := fun (i : Fin 2) (x : Context) =>
      holds i x ∧ x.broadcast = false ∧ x.byteAt 1 = 0 ∧ x.byteAt 2 = 5 ∧ x.byteAt 3 = 0
    (s.ctl.queue.length < 4 →
      (∀ (i : Fin 2) (x : Context), holds i x → i = s.port.firstComplete ∨ (∀ y, ¬ holds (i + 1) y) →
        nextOffer s = some { ctx := i, packet := x, placed := true }) ∧
      ((∀ i x, ¬ holds i x) → nextOffer s = none)) ∧
    (4 ≤ s.ctl.queue.length → inExecution .ctrl s = true → nextOffer s = none) ∧
    (4 ≤ s.ctl.queue.length → inExecution .ctrl s = false →
      (∀ (i : Fin 2) (x : Context), reset i x → i = s.port.firstComplete ∨ (∀ y, ¬ reset (i + 1) y) →
        nextOffer s = some { ctx := i, packet := x, placed := false }) ∧
      ((∀ i x, ¬ reset i x) → nextOffer s = none)))

/-- R166, R159: NOTICE_QUEUE gives the oldest pending notice a free place; OUTGOING_PACKET_TAKE makes the packet at the head of the
queue, notices owed a free place queued first (entry 15), the outgoing packet, cut into cells of six bytes; an outgoing packet in
hand, or a reservation at the head, holds every packet back (R165). What a reply and a notice hold (R164, 11.2): tag, unit, code
with the reply marker, result code, length, data, CRC-8; bit 7 set is the marker, also where it was set (entry 14). -/
def Obligations.ReplyQueueMoves : Prop :=
  (∀ (n : Notice) (ns : List Notice) (s : State), s.ctl.notices = n :: ns →
    (s.ctl.queue.length < 4 → exec .noticeQueue s = .next { s with ctl := { s.ctl with
      queue := s.ctl.queue ++ [.packet { dest := 0, bytes := packetBytes [0, 0, n.code ||| 0x80, 0] n.data }]
      notices := ns } }) ∧
    (4 ≤ s.ctl.queue.length → exec .noticeQueue s = .next s)) ∧
  (∀ (p : OutPacket) (q : List Place) (s : State), s.port.outgoing = none → (queueNotices s).ctl.queue = .packet p :: q →
    exec .outgoingPacketTake s = .next { queueNotices s with
      port := { s.port with outgoing := some (packetCells s.port.ownNode p) }
      ctl := { (queueNotices s).ctl with queue := q } }) ∧
  (∀ s : State,
    (s.ctl.notices = [] → exec .noticeQueue s = .next s) ∧
    (s.port.outgoing ≠ none ∨ (∀ p q, (queueNotices s).ctl.queue ≠ .packet p :: q) →
      exec .outgoingPacketTake s = .next (queueNotices s)) ∧
    queueNotices s = { s with ctl := { s.ctl with
      queue := s.ctl.queue ++ (s.ctl.notices.take (4 - s.ctl.queue.length)).map fun n =>
        .packet { dest := 0, bytes := packetBytes [0, 0, n.code ||| 0x80, 0] n.data }
      notices := s.ctl.notices.drop (4 - s.ctl.queue.length) } }) ∧
  (∀ (own : Node) (p : OutPacket), 1 ≤ p.bytes.length → p.bytes.length ≤ 48 →
    (packetCells own p).length = (p.bytes.length + 5) / 6 ∧
    ((packetCells own p).map fun x => x.payload.toList).flatten =
      p.bytes ++ List.replicate (6 * ((p.bytes.length + 5) / 6) - p.bytes.length) 0 ∧
    (∀ x ∈ packetCells own p, x.dest = p.dest.zeroExtend 8 ∧ x.origin = own.zeroExtend 8) ∧
    (packetCells own p).map Cell.kind = (if p.bytes.length ≤ 6 then [1]
      else 2 :: (List.replicate ((p.bytes.length + 5) / 6 - 2) 3 ++ [4]))) ∧
  (∀ (rq : Requester) (res : Result) (data : List Byte),
    let head : List Byte := [rq.tag, rq.unitByte, rq.code ||| 0x80, res.code, byteOf data.length] ++ data
    replyPacket rq res data = { dest := rq.origin, bytes := head ++ [crc8 head] } ∧
    (rq.code.toNat < 128 → (rq.code ||| 0x80).toNat = rq.code.toNat + 128) ∧
    (data.length < 256 → (byteOf data.length).toNat = data.length)) ∧
  (∀ n : Notice,
    let head : List Byte := [0, 0, n.code ||| 0x80, 0, byteOf n.data.length] ++ n.data
    packetBytes [0, 0, n.code ||| 0x80, 0] n.data = head ++ [crc8 head] ∧
    (n.code, n.data) = match n with
      | .setApplied x => (0x41, [byteOf x.val])
      | .cueStopped r reason a => (0x42, [byteOf r.val, (match reason with | .stop => 0 | .fault => 1), byteOf a.val])
      | .sdvState st => (0x43, [match st with | .off => 0 | .tracking => 1 | .holding => 2 | .fallback => 3 | .manual => 4])
      | .ringRelocked => (0x44, [])) ∧
  ([Result.ok, .busy, .unitOff, .unknownUnit, .unknownRequest, .badLength, .badValue, .wrongMode, .wrongState, .queueFull,
      .stagingFull, .rejected, .noSpace, .inUse, .notLoaded, .already, .aborted].map Result.code =
    [0, 1, 2, 3, 4, 5, 6, 7, 8, 9, 10, 11, 12, 13, 14, 15, 16]) ∧ ChecksComputed

/-! ## The frame boundary and the signal path -/

/-- R8, R37, R94, R105, R123, R140, R145, R148, R155: the boundary of an opened frame, which holds the slot maps and EQ's enable state
it is opened with (R155, R97, R98); it closes at once when nothing is owed at it (entry
3). Where the head set is not examined in this step, every ramp, crossfade and tick phase that does not end at this boundary has
moved by one, and every one that ends at it is owed, as are a runner's last count and a live batch not taken here. Past the range
R121 gives, a WAIT without a timeout holds some count of it (entry 9). A boundary that examines is the boundary that does not,
followed by SET_APPLICATION. The frame's grant and its count of live entries (R142) are renewed here (the model's choice, entry 30).
In HUNT every slot is repeated as it arrives (R152; entry 29). -/
def Obligations.BoundaryAdvances : Prop :=
  (∀ (up : Vector Sample 32) (examine batch : Bool) (s : State), s.frame.boundaryDue = true →
    ∃ u : State, exec (.frameBoundary up examine batch) s = .next (closeIfSettled u) ∧
    u.frame =
      { boundaryDue := false
        opened := some { slots := up, sourceMap := s.port.sourceMap, outputMap := s.port.outputMap, eqOn := s.ctl.enabled.eq }
        examDue := !examine
        cellDue := true
        grantFree := true
        liveTaken := match s.table with
          | some op => if batch = true ∧ op.table.inMemory = false ∧ s.port.lock = .locked then min 8 op.owed else 0
          | none => 0 } ∧
    u.core.mode = s.core.mode ∧ u.core.held = s.core.held ∧ u.port = s.port ∧ u.lane = s.lane ∧ u.cue.mem = s.cue.mem ∧
    SettingsKept s u ∧
    u.core.gate = (match s.core.mode with
      | .run => min (s.core.gate + 1) 2400
      | .leaving => s.core.gate - 5
      | .standby => 0) ∧
    (∀ r : RunnerNo, (s.cue.runners[r]).state ≠ .stepping → (s.cue.runners[r]).state ≠ .waiting →
      u.cue.runners[r] = s.cue.runners[r]) ∧
    (∀ (r : RunnerNo) (n : Nat), (s.cue.runners[r]).state = .stepping ∨ (s.cue.runners[r]).state = .waiting →
      (s.cue.runners[r]).entryFrames = some n → (s.cue.runners[r]).elapsed + 1 < n →
      u.cue.runners[r] = { s.cue.runners[r] with elapsed := (s.cue.runners[r]).elapsed + 1 }) ∧
    (∀ (r : RunnerNo) (n : Nat), (s.cue.runners[r]).state = .stepping ∨ (s.cue.runners[r]).state = .waiting →
      (s.cue.runners[r]).entryFrames = some n → n ≤ (s.cue.runners[r]).elapsed + 1 →
      u.cue.runners[r] = { s.cue.runners[r] with due := true }) ∧
    (∀ r : RunnerNo, (s.cue.runners[r]).state = .waiting → (s.cue.runners[r]).entryFrames = none →
      ((s.cue.runners[r]).elapsed < 6291360 →
        u.cue.runners[r] = { s.cue.runners[r] with elapsed := (s.cue.runners[r]).elapsed + 1 }) ∧
      (6291360 ≤ (s.cue.runners[r]).elapsed →
        ∃ e : Nat, e ≤ 6291360 ∧ u.cue.runners[r] = { s.cue.runners[r] with elapsed := e })) ∧
    u.cue = { s.cue with runners := u.cue.runners } ∧ (s.table = none → u.table = none) ∧
    (examine = false →
      (∀ (i : Fin 64) (r : Ramp), s.ramp.entries[i] = some r → r.k + 1 < r.n →
        u.ramp.entries[i] = some { r with k := r.k + 1 }) ∧
      (∀ (i : Fin 64) (r : Ramp), s.ramp.entries[i] = some r → r.n ≤ r.k + 1 →
        u.ramp.entries[i] = some { r with due := true }) ∧
      (∀ (i : Fin 64), s.ramp.entries[i] = none → u.ramp.entries[i] = none) ∧ u.ramp.duckTargets = s.ramp.duckTargets ∧
      (∀ (i : Fin 4) (f : Crossfade), s.eq.slots[i] = some f → f.k + 1 < 480 →
        u.eq.slots[i] = some { f with k := f.k + 1 }) ∧
      (∀ (i : Fin 4) (f : Crossfade), s.eq.slots[i] = some f → 480 ≤ f.k + 1 →
        u.eq.slots[i] = some { f with due := true }) ∧
      (∀ i : Fin 4, s.eq.slots[i] = none → u.eq.slots[i] = none) ∧ u.eq = { s.eq with slots := u.eq.slots } ∧
      (∀ a : Nat, s.sdv.age = some a → s.sdv.phase + 1 < 480 → u.sdv = { s.sdv with phase := s.sdv.phase + 1 }) ∧
      (∀ a : Nat, s.sdv.age = some a → 480 ≤ s.sdv.phase + 1 → u.sdv = { s.sdv with tickDue := true }) ∧
      (s.sdv.age = none → u.sdv = s.sdv) ∧ u.core.live = s.core.live ∧ u.core.levelTargets = s.core.levelTargets ∧
      u.commit = s.commit ∧
      (∀ op : TableOp, s.table = some op →
        (op.table.inMemory = true → op.batchDue = false → u.table = some op) ∧
        (op.table.inMemory = false → batch = false → u.table = some { op with batchDue := true }) ∧
        (op.table.inMemory = false → batch = true → EntriesTaken op 8 u s u)) ∧
      (batch = false → u.ctl = s.ctl) ∧ u.ctl.notices = s.ctl.notices)) ∧
  (∀ (up : Vector Sample 32) (batch : Bool) (s v : State), s.frame.boundaryDue = true →
    exec (.frameBoundary up false batch) s = .next v → exec (.frameBoundary up true batch) s = exec .setApplication v) ∧
  (∀ (up : Vector Sample 32) (examine batch : Bool) (s : State), s.frame.boundaryDue = false → s.port.lock = .hunt →
    exec (.frameBoundary up examine batch) s = .next { s with lane := { s.lane with slots := up } })

/-- R1 to R8, R90, R91, R94, R154, R155: the close of a boundary, which comes when nothing is owed at it (the model's choice, entry
3). The outputs are composed in their order, each as `Composed` says: the exact sum of R2's contributions, zero at or below the floor,
with lin(L) = 10^(L/80); the chains and the blend; the final gain min(LEVEL + B, C), the gate's fraction, the polarity. A value is
truncated to the whole value the bound of R3 decides, or to either of the two it allows (entry 7; that the bound is taken once for
the value truncated, and that beyond the 24-bit range only the nearest whole value counts, also for saturation, is the model's choice,
entry 24). EQ is computed as it stood enabled when the boundary was opened (R97, R98), and the slots move by
the maps that stood then (R155): mapped outputs replace their slots, the rest passes, mapped sources are read for the next boundary.
With the gate at 0 every sample is 0 and no clip marker is set. Only clip markers, and the histories of sections in chains, change
beside these. -/
def Obligations.ClosingComposes : Prop :=
  (∀ s : State, (owing s = true → closeIfSettled s = s) ∧ (owing s = false → closeIfSettled s = closeBoundary s) ∧
    (s.frame.opened = none → closeIfSettled s = s)) ∧
  ∀ (f : Opened) (s : State), s.frame.opened = some f →
    let t := closeBoundary s
    (∀ (o : Output) (i : Slot), f.outputMap[o] = some i → (∀ p : Output, f.outputMap[p] = some i → p = o) →
      t.lane.slots[i] = t.lane.samples[o]) ∧
    (∀ i : Slot, (∀ o : Output, f.outputMap[o] ≠ some i) → t.lane.slots[i] = f.slots[i]) ∧
    (∀ src : Source, t.core.held[src] = match f.sourceMap[src] with
      | some i => f.slots[i]
      | none => 0) ∧
    (s.core.gate = 0 → (∀ o : Output, t.lane.samples[o] = 0) ∧ t.ctl = s.ctl) ∧
    t.lane.cell = s.lane.cell ∧ t.frame = { s.frame with opened := none } ∧ t.core = { s.core with held := t.core.held } ∧
    t.ctl = { s.ctl with clip := t.ctl.clip } ∧
    (∀ o : Output, s.ctl.clip.getLsbD o.val = true → t.ctl.clip.getLsbD o.val = true) ∧
    t.eq = { s.eq with sections := t.eq.sections } ∧
    (∀ n : SectionNo, t.eq.sections[n] = { s.eq.sections[n] with hist := (t.eq.sections[n]).hist }) ∧
    (∀ n : SectionNo, n ∉ chainSections s.eq → n ∉ oldSections s.eq → t.eq.sections[n] = s.eq.sections[n]) ∧
    (f.eqOn = false → t.eq = s.eq) ∧
    SameBut [.frame, .lane, .ctl, .core, .eq, .free] s t ∧
    (CountInv s → BoostInv s → s.core.gate ≤ 2400 →
      ∃ p : Nat → State, p 0 = { s with frame := { s.frame with opened := none } } ∧
        (∀ o : Output, Composed f.eqOn (p o.val) o (p (o.val + 1))) ∧
        t.lane.samples = (p 24).lane.samples ∧ t.ctl = (p 24).ctl ∧ t.eq = (p 24).eq)

/-- R26: the LEVEL target of an output. -/
def Obligations.LevelTargetFormula : Prop :=
  ∀ (l : Live) (o : Output),
    ((l.zoneOf o).mute = true ∨ (l.outputs[o]).mute = true → l.levelTarget o = -480) ∧
    ((l.zoneOf o).mute = false → (l.outputs[o]).mute = false → -15 ≤ (l.zoneOf o).balance → (l.zoneOf o).balance ≤ 15 →
      -15 ≤ (l.zoneOf o).fade → (l.zoneOf o).fade ≤ 15 →
      ∃ lat long : Fin 186, (lat.val : Int) = 31 * ((l.outputs[o]).side.curve.idx.val : Int) + (l.zoneOf o).balance + 15 ∧
        (∀ c : CurveId, (l.outputs[o]).row.curve = some c → (long.val : Int) = 31 * (c.idx.val : Int) + (l.zoneOf o).fade + 15) ∧
        l.levelTarget o = max (-480) ((l.zoneOf o).volume + (l.outputs[o]).trim + l.curves[lat] +
          (if (l.outputs[o]).row = .noRow then 0 else l.curves[long])))

/-! ## Gain ramps -/

/-- R36: the value of a ramp lies between its start and its target, is the start at k = 0 and the target at k = n. -/
def Obligations.RampLaw : Prop :=
  ∀ r : Ramp, 0 < r.n → r.k ≤ r.n →
    min r.start r.target.qdb ≤ r.value ∧ r.value ≤ max r.start r.target.qdb ∧
    (r.k = 0 → r.value = r.start) ∧ (r.k = r.n → r.value = r.target.qdb) ∧
    r.value = r.start + ((r.target.qdb - r.start) * r.k).tdiv r.n

/-- R38 to R40, R42: what a retarget makes of the ramp table, by the key's condition. A settled key's ramp takes the key's dedicated
entry (DUCK and BOOST), or the lowest-numbered free general one (LEVEL and CELL). -/
def Obligations.RetargetCases : Prop :=
  ∀ (s : State) (m : Mode) (k : Key) (old new : Gain) (ms : Nat), RampInv s →
    let u := s.ramp
    let v := u.retarget m k old new ms
    let jump := m = .standby ∨ ms = 0 ∨ u.present k old = new.qdb
    (new = old → v = u) ∧
    (new ≠ old → jump → v.find k = none ∧
      ∀ i : Fin 64, (∀ r, u.entries[i] = some r → r.key ≠ k) → v.entries[i] = u.entries[i]) ∧
    (new ≠ old → ¬ jump → ∀ i : Fin 64, (u.find k = some i ∨ (u.find k = none ∧ u.entryFor k = some i)) →
      v.entries[i] = some { key := k, start := u.present k old, target := new, n := 48 * ms, k := 0, due := false } ∧
      (∀ j : Fin 64, j ≠ i → v.entries[j] = u.entries[j]) ∧ poolHolds i k) ∧
    (∀ i : Fin 64, u.entryFor k = some i ↔
      match k with
      | .level _ | .cell _ _ => i.val < 48 ∧ u.entries[i] = none ∧ ∀ j : Fin 64, j < i → u.entries[j] ≠ none
      | .duck src => i.val = 48 + src.val
      | .boost g => i.val = 60 + g.val)

/-- R37, R35: the owed completion of a ramp frees its entry and the key stands at its target; the boundary closes when nothing
more is owed at it (entry 3). -/
def Obligations.RampCompleteSettles : Prop :=
  ∀ (i : Fin 64) (r : Ramp) (s : State), RampInv s → s.ramp.entries[i] = some r → r.due = true →
    let u := { s with ramp := { s.ramp with entries := s.ramp.entries.set i none } }
    exec (.rampComplete i) s = .next (closeIfSettled u) ∧ keyTarget (closeIfSettled u) r.key = keyTarget s r.key ∧
      keyCurrent (closeIfSettled u) r.key = keyTarget s r.key

/-! ## Modes -/

/-- R11 to R15: the MODE request. With the gate at 0, STANDBY is entered at once, a disturbed digest's reply being written before the
request's own (the model's reading, entry 21). -/
def Obligations.ModeRequest : Prop :=
  ∀ (c : Context) (i : Fin 2) (b : Byte) (s : State), NoHeld s → BusyInv s → Takes .mode c i s → c.data = [b] →
    (b ≠ 0 → b ≠ 1 → exec .mode s = .next (replied c .badValue [] (afterTake i s))) ∧
    (b = 1 → exec .mode s = .next (replied c .ok [1]
      { afterTake i s with core := { s.core with mode := .run } })) ∧
    (b = 0 → s.core.mode = .standby → exec .mode s = .next (replied c .ok [0] (afterTake i s))) ∧
    (b = 0 → s.core.mode = .run → 0 < s.core.gate → exec .mode s = .next (reserved .ctrl c
      { afterTake i s with core := { s.core with mode := .leaving } })) ∧
    (b = 0 → s.core.mode = .run → s.core.gate = 0 → ∃ t : State, exec .mode s = .next (replied c .ok [0] t) ∧
      t.core = { s.core with mode := .standby } ∧
      (∀ j : Fin 64, t.ramp.entries[j] = none) ∧ (∀ j : Fin 4, t.eq.slots[j] = none) ∧ t.eq.chains = s.eq.chains ∧
      (∀ n : SectionNo, t.eq.sections[n] =
        { s.eq.sections[n] with state := if n ∈ oldSections s.eq then .loaded else (s.eq.sections[n]).state }) ∧
      (∀ r : RunnerNo, t.cue.runners[r] =
        { s.cue.runners[r] with
            state := .idle, window := [], latch := false, timedOut := false, elapsed := 0, due := false
            requests := Vector.replicate 12 0 }) ∧ t.cue = { s.cue with runners := t.cue.runners } ∧
      (Inv s → ∀ src : Source, t.ramp.duckTargets[src] = 0) ∧
      WritesHeard (sectionEntries (oldSections s.eq)) [] (afterTake i s) t ∧ NoNotice (afterTake i s) t ∧
      TakenBut [.core, .ramp, .eq, .cue, .table] i s t)

/-- R15: the gate at 0 in LEAVING ends in STANDBY: ramps land, crossfades end, runners halt, the MODE request is answered; the
boundary closes when nothing more is owed at it (entry 3). The TABLE unit hears of the sections (R88, R149), a disturbed digest's
reply being written before the MODE request's (the model's reading, entry 21). -/
def Obligations.LeavingEndEntersStandby : Prop :=
  ∀ s : State, Inv s → s.core.mode = .leaving → s.core.gate = 0 →
    ∃ u : State, exec .leavingEnd s = .next (closeIfSettled u) ∧
    u.core = { s.core with mode := .standby } ∧
    (∀ i : Fin 64, u.ramp.entries[i] = none) ∧ (∀ src : Source, u.ramp.duckTargets[src] = 0) ∧
    (∀ i : Fin 4, u.eq.slots[i] = none) ∧ u.eq.chains = s.eq.chains ∧
    (∀ n : SectionNo, (u.eq.sections[n]).state = if n ∈ oldSections s.eq then .loaded else (s.eq.sections[n]).state) ∧
    (∀ n : SectionNo, (u.eq.sections[n]).coeffs = (s.eq.sections[n]).coeffs) ∧
    (∀ r : RunnerNo, u.cue.runners[r] =
      { s.cue.runners[r] with
          state := .idle, window := [], latch := false, timedOut := false, elapsed := 0, due := false
          requests := Vector.replicate 12 0 }) ∧ u.cue.mem = s.cue.mem ∧
    WritesHeard (sectionEntries (oldSections s.eq)) [{ unit := .ctrl, res := .ok, data := [0] }] s u ∧ NoNotice s u ∧
    SettingsKept s u ∧ SameBut [.ctl, .core, .ramp, .eq, .cue, .table] s u

/-! ## Change sets -/

/-- R57, R58: a record with its close flag clear, and the refusals of R57: a kind outside the eight, a length the kind and its
declared count do not require, a field, list or rule of R53 to R56 that does not hold. A record that passes is the one whose body
the data spells, in the fields and codes of 11.4; without a ramp the ramp bytes are disregarded. -/
def Obligations.RecordStaged : Prop :=
  (∀ (c : Context) (i : Fin 2) (control kind : Byte) (body : List Byte) (s : State), NoHeld s → Takes .stageRecord c i s →
    c.data = control :: kind :: body →
    (checkRecord kind body = .badValue → exec .stageRecord s = .next (replied c .badValue [] (afterTake i s))) ∧
    (checkRecord kind body = .badLength → exec .stageRecord s = .next (replied c .badLength [] (afterTake i s))) ∧
    (∀ r : ChangeRecord, checkRecord kind body = .good r → control.getLsbD 0 = false →
      (s.commit.staging.length < 32 → exec .stageRecord s = .next (replied c .ok [byteOf (s.commit.staging.length + 1 : Nat)]
        { afterTake i s with commit := { s.commit with staging := s.commit.staging ++ [r] } })) ∧
      (32 ≤ s.commit.staging.length → exec .stageRecord s = .next (replied c .stagingFull [] (afterTake i s))))) ∧
  (∀ (kind : Byte) (body : List Byte),
    (kind.toNat < 1 ∨ 8 < kind.toNat → checkRecord kind body = .badValue) ∧
    (1 ≤ kind.toNat → kind.toNat ≤ 8 → body.length ≠ recordLength kind body → checkRecord kind body = .badLength) ∧
    (1 ≤ kind.toNat → kind.toNat ≤ 8 → body.length = recordLength kind body →
      (∀ r : ChangeRecord, checkRecord kind body = .good r ↔
        r.inRange ∧ kind = r.kindByte ∧ ∃ h l : Byte, body = r.body h l) ∧
      ((∀ (r : ChangeRecord) (h l : Byte), r.inRange → kind = r.kindByte → body ≠ r.body h l) →
        checkRecord kind body = .badValue))) ∧
  FieldsSpelt ∧ (∀ g : Gain, gainBytes g = gainSpelt g) ∧ [false, true].map bitByte = [0, 1] ∧
  [Side.left, .centre, .right].map Side.code = [0, 1, 2] ∧ [Row.front, .middle, .rear, .noRow].map Row.code = [0, 1, 2, 3] ∧
  groupCode none = 0xFF ∧ (∀ g : Group, (groupCode (some g)).toNat = g.val) ∧
  [CurveId.latLeft, .latCentre, .latRight, .longFront, .longMiddle, .longRear].map CurveId.idx = [0, 1, 2, 3, 4, 5]

/-- R59, R60, R61, R63, R88, R149: a record with its close flag set; the failing record is the first at which a check fails, and the
first check that fails there gives the reason. The claims of an accepted set are heard by the TABLE unit, a disturbed digest's reply
being written before the request's own (the model's reading, entry 21). -/
def Obligations.SetClosed : Prop :=
  (∀ (c : Context) (i : Fin 2) (control kind : Byte) (body : List Byte) (r : ChangeRecord) (s : State), NoHeld s →
    Takes .stageRecord c i s → c.data = control :: kind :: body → checkRecord kind body = .good r → control.getLsbD 0 = true →
    let rs := s.commit.staging ++ [r]
    (32 ≤ s.commit.staging.length → exec .stageRecord s = .next (replied c .stagingFull [] (afterTake i s))) ∧
    (s.commit.staging.length < 32 → 4 ≤ s.commit.queue.length →
      exec .stageRecord s = .next (replied c .queueFull [] (afterTake i s))) ∧
    (s.commit.staging.length < 32 → s.commit.queue.length < 4 →
      (∀ (k : Nat) (reason : RejectReason), firstFailure s.eq [] rs = some (k, reason) →
        exec .stageRecord s = .next (replied c .rejected [byteOf k, reason.code]
          { afterTake i s with commit := { s.commit with staging := [] } })) ∧
      (firstFailure s.eq [] rs = none → ∃ t : State,
        exec .stageRecord s = .next (replied c .ok [byteOf s.commit.counter.val] t) ∧
        t.commit = { s.commit with
          staging := []
          queue := s.commit.queue ++
            [{ number := s.commit.counter, records := rs, notify := control.getLsbD 1, wait := .none }]
          counter := s.commit.counter + 1 } ∧
        t.eq = { s.eq with sections := t.eq.sections } ∧
        (∀ n : SectionNo, t.eq.sections[n] =
          { s.eq.sections[n] with state := if n ∈ namedSections rs then .claimed else (s.eq.sections[n]).state }) ∧
        WritesHeard (sectionEntries (namedSections rs)) [] (afterTake i s) t ∧ NoNotice (afterTake i s) t ∧
        TakenBut [.commit, .eq, .table] i s t))) ∧
  (∀ (e : EqUnit) (rs : List ChangeRecord),
    (∀ (k : Nat) (reason : RejectReason), firstFailure e [] rs = some (k, reason) ↔
      (∃ r : ChangeRecord, rs[k]? = some r ∧ RecordJudged e (rs.take k) r (some reason)) ∧
      ∀ (j : Nat) (r : ChangeRecord), j < k → rs[j]? = some r → RecordJudged e (rs.take j) r none) ∧
    (firstFailure e [] rs = none ↔
      ∀ (j : Nat) (r : ChangeRecord), rs[j]? = some r → RecordJudged e (rs.take j) r none)) ∧
  [RejectReason.sectionUnavailable, .sectionRepeated, .duplicateOutput, .tooManyChains, .tooManyRamps].map RejectReason.code =
    [1, 2, 3, 4, 5]

/-- R74: ABORT_OPEN. -/
def Obligations.AbortOpenEmptiesStaging : Prop :=
  ∀ (c : Context) (i : Fin 2) (s : State), NoHeld s → Takes .abortOpen c i s →
    exec .abortOpen s = .next (replied c .ok [byteOf s.commit.staging.length]
      { afterTake i s with commit := { s.commit with staging := [] } })

/-- R75, R88, R149: FLUSH_QUEUE, and what the TABLE unit hears of it, a disturbed digest's reply being written before the request's own
(the model's reading, entry 21). -/
def Obligations.FlushQueueDiscards : Prop :=
  ∀ (c : Context) (i : Fin 2) (s : State), NoHeld s → Takes .flushQueue c i s → ∃ t : State,
    exec .flushQueue s = .next (replied c .ok [byteOf s.commit.queue.length] t) ∧ t.commit = { s.commit with queue := [] } ∧
    t.eq = { s.eq with sections := t.eq.sections } ∧
    (∀ n : SectionNo, t.eq.sections[n] =
      { s.eq.sections[n] with state := if n ∈ queuedSections s.commit then .loaded else (s.eq.sections[n]).state }) ∧
    WritesHeard (sectionEntries (queuedSections s.commit)) [] (afterTake i s) t ∧ NoNotice (afterTake i s) t ∧
    TakenBut [.commit, .eq, .table] i s t

/-- R76: SET_STATUS. -/
def Obligations.SetStatusReports : Prop :=
  [WaitReason.none, .mode, .outputBusy, .crossfade, .ramps].map WaitReason.code = [0, 1, 2, 3, 4] ∧
  ∀ (c : Context) (i : Fin 2) (s : State), NoHeld s → Takes .setStatus c i s →
    exec .setStatus s = .next (replied c .ok
      ([byteOf s.commit.staging.length, byteOf s.commit.queue.length] ++
        (match s.commit.queue with
          | [] => [0, 0, WaitReason.none.code]
          | q :: _ => [1, byteOf q.number.val, q.wait.code]) ++
        (match s.commit.lastApplied with
          | none => [0, 0]
          | some n => [1, byteOf n.val])) (afterTake i s))

/-- R65, R66: the first condition of the examination that fails gives the head set's wait reason. The general keys counted are those
the set would move, LEVEL keys by the tables as the set would leave them and CELL keys by the matrix, that have no active entry. -/
def Obligations.ExaminationOrder : Prop :=
  ∀ (s : State) (q : QueuedSet),
    let chains := chainOutputs q.records
    let busy := ∃ o ∈ chains, (s.eq.slotOf o).isSome = true
    let crossfade := s.core.mode = .run ∧ s.ctl.enabled.eq = true ∧ s.eq.freeSlots < chains.length
    let ramps := s.ramp.freeGeneral < entriesNeeded s q.records
    let after := s.core.live.writeAll q.records
    (s.core.mode = .leaving → examine s q = .mode) ∧
    (s.core.mode ≠ .leaving → busy → examine s q = .outputBusy) ∧
    (s.core.mode ≠ .leaving → ¬ busy → crossfade → examine s q = .crossfade) ∧
    (s.core.mode ≠ .leaving → ¬ busy → ¬ crossfade → ramps → examine s q = .ramps) ∧
    (s.core.mode ≠ .leaving → ¬ busy → ¬ crossfade → ¬ ramps → examine s q = .none) ∧
    entriesNeeded s q.records =
      ((List.finRange 24).countP fun o => decide (after.levelTarget o ≠ s.core.levelTargets[o]) && (s.ramp.rampOf (.level o)).isNone) +
      ((List.finRange 288).countP fun i => decide (after.cells[i] ≠ s.core.live.cells[i]) &&
        (s.ramp.rampOf (.cell (cellPair i).1 (cellPair i).2)).isNone) ∧
    s.ramp.freeGeneral + ((List.finRange 48).countP fun i => (s.ramp.entries[i.val]).isSome) = 48

/-- R65, R69 to R73: the examination of the head set at the open boundary: it waits with its reason, or is applied whole; the
boundary closes when nothing more is owed at it (the model's choice, entry 3). Applied, it writes its records; retargets each LEVEL
and CELL key it moves, in the two passes of R42, with the least duration of R29's and R44's causes; takes the j-th free crossfade
slot for its j-th CHAIN record in RUN with EQ enabled, old sections RETIRING and new ones LIVE with zero history, and swaps at once
elsewhere; tells the SDV unit of its boost curve, then of the weights it changed (entry 26); and leaves DUCK keys alone. SET_APPLIED
is raised by a marked set, where its kind is enabled, SDV_STATE by a change of the SDV unit's state (R106), where its kind is, and no
other notice. The TABLE unit hears of the entries its records carry (R73) and of the sections its swaps change (R88, R149). -/
def Obligations.HeadSetTaken : Prop :=
  (∀ s : State, s.frame.examDue = true → s.commit.queue = [] →
    exec .setApplication s = .next (closeIfSettled { s with frame := { s.frame with examDue := false } })) ∧
  (∀ (q : QueuedSet) (rest : List QueuedSet) (s : State), s.frame.examDue = true → s.commit.queue = q :: rest →
    (examine s q ≠ .none → exec .setApplication s = .next (closeIfSettled
      { s with
          frame := { s.frame with examDue := false }
          commit := { s.commit with queue := { q with wait := examine s q } :: rest } })) ∧
    (examine s q = .none → ∃ u : State, exec .setApplication s = .next (closeIfSettled u) ∧
      u.core = { s.core with live := s.core.live.writeAll q.records, levelTargets := u.core.levelTargets } ∧
      (∀ o : Output, u.core.levelTargets[o] = (s.core.live.writeAll q.records).levelTarget o) ∧
      u.ramp.duckTargets = s.ramp.duckTargets ∧
      u.commit = { s.commit with queue := rest, lastApplied := some q.number } ∧
      (∀ o : Output, o ∉ chainOutputs q.records → u.eq.chains[o] = s.eq.chains[o]) ∧
      ((chainOutputs q.records).Nodup → ∀ (o : Output) (l : List SectionNo), .chain o l ∈ q.records → u.eq.chains[o] = l) ∧
      let applied := q.notify = true ∧ s.ctl.noticeOn.setApplied = true
      let told := u.sdv.state ≠ s.sdv.state ∧ s.ctl.noticeOn.sdvState = true
      let raised := fun n : Notice => (applied ∧ n = .setApplied q.number) ∨ (told ∧ n = .sdvState u.sdv.state)
      (applied → .setApplied q.number ∈ u.ctl.notices) ∧
      (¬ applied → ¬ told → NoNotice s u) ∧
      (∀ n ∈ u.ctl.notices, raised n ∨ n ∈ s.ctl.notices) ∧
      (∀ p ∈ u.ctl.queue.drop s.ctl.queue.length, ∃ n : Notice, p = .packet (noticePacket n) ∧ (raised n ∨ n ∈ s.ctl.notices)) ∧
      (∀ n ∈ s.ctl.notices, (∀ m : Notice, raised m → n.sameInstance m = false) → Raised n u) ∧
      SettingsKept s u ∧ u.frame = { s.frame with examDue := false } ∧
      SameBut [.ctl, .core, .ramp, .commit, .eq, .sdv, .table, .frame] s u ∧
      let after := s.core.live.writeAll q.records
      let fade := s.core.mode = .run ∧ s.ctl.enabled.eq = true
      let free := (List.finRange 4).filter fun i => (s.eq.slots[i]).isNone
      let old := ((chainOutputs q.records).map fun o => s.eq.chains[o]).flatten
      WritesHeard (fun d n => (∃ r ∈ q.records, r.carries d n) ∨ sectionEntries (old ++ namedSections q.records) d n) [] s u ∧
      (RampInv s →
        (∀ i : Fin 64, i.val < 48 → u.ramp.entries[i] = (s.ramp.applyMoves s.core.mode (setMoves s q.records)).entries[i]) ∧
        (∀ src : Source, u.ramp.entries[48 + src.val] = s.ramp.entries[48 + src.val]) ∧
        (∀ o : Output, ∃ ms : Nat,
          LeastCause (fun l => LevelCause l after o) 200 s.core.live q.records ms ∧
          Retargeted s.core.mode s.ramp u.ramp (.level o) (.level s.core.levelTargets[o]) (.level (after.levelTarget o)) ms ∧
          (after.levelTarget o ≠ s.core.levelTargets[o] → Move.mk (.level o) (.level s.core.levelTargets[o])
            (.level (after.levelTarget o)) ms ∈ setMoves s q.records)) ∧
        (∀ (o : Output) (src : Source), ∃ ms : Nat,
          LeastCause (fun l => CellCause l o src) 50 s.core.live q.records ms ∧
          Retargeted s.core.mode s.ramp u.ramp (.cell o src) s.core.live.cells[cellIndex o src] after.cells[cellIndex o src] ms ∧
          (after.cells[cellIndex o src] ≠ s.core.live.cells[cellIndex o src] → Move.mk (.cell o src)
            s.core.live.cells[cellIndex o src] after.cells[cellIndex o src] ms ∈ setMoves s q.records)) ∧
        (BoostInv s → BoostsRetargeted s.sdv.rampMs s u)) ∧
      (PoolInv s →
        u.eq = { s.eq with sections := u.eq.sections, chains := u.eq.chains, slots := u.eq.slots } ∧
        (∀ n : SectionNo, u.eq.sections[n] =
          if n ∈ namedSections q.records then
            { s.eq.sections[n] with state := .live, hist := { x1 := 0, x2 := 0, y1 := 0, y2 := 0 } }
          else if n ∈ old then { s.eq.sections[n] with state := if fade then .retiring else .loaded }
          else s.eq.sections[n]) ∧
        (¬ fade → u.eq.slots = s.eq.slots) ∧
        (fade → ∀ i : Fin 4,
          (s.eq.slots[i] ≠ none → u.eq.slots[i] = s.eq.slots[i]) ∧
          (∀ j : Nat, free[j]? = some i → u.eq.slots[i] = (chainOutputs q.records)[j]?.map fun o =>
            { output := o, old := s.eq.chains[o], k := 0, due := false }))) ∧
      (BoostInv s →
        u.sdv = { s.sdv with state := u.sdv.state, boost := u.sdv.boost, manual := u.sdv.manual, targets := u.sdv.targets } ∧
        (∀ g : Group, u.sdv.targets[g] = groupTarget u.sdv.boost after.weights[g]) ∧
        ((∀ ps, .boostCurve ps ∉ q.records) →
          u.sdv.state = s.sdv.state ∧ u.sdv.boost = s.sdv.boost ∧ u.sdv.manual = s.sdv.manual) ∧
        (∀ ps, .boostCurve ps ∈ q.records → CurveTaken s.ctl.enabled.sdv s.sdv after.boostCurve u.sdv) ∧
        (u.sdv.state ≠ s.sdv.state → s.ctl.noticeOn.sdvState = true → Raised (.sdvState u.sdv.state) u))))

/-- R22, R25, R69: what each record writes into the live tables. Each kind leaves the other tables alone; a CHAIN record writes the EQ
unit's chains (R71) and none of these. -/
def Obligations.RecordWrites : Prop :=
  ∀ l : Live,
    (∀ z v ms, (l.write (.zone z (.volume v) ms)).zones[z] = { l.zones[z] with volume := v }) ∧
    (∀ z v ms, (l.write (.zone z (.balance v) ms)).zones[z] = { l.zones[z] with balance := v }) ∧
    (∀ z v ms, (l.write (.zone z (.fade v) ms)).zones[z] = { l.zones[z] with fade := v }) ∧
    (∀ z v ms, (l.write (.zone z (.mute v) ms)).zones[z] = { l.zones[z] with mute := v }) ∧
    (∀ (z z' : Zone) v ms, z' ≠ z → (l.write (.zone z v ms)).zones[z'] = l.zones[z']) ∧
    (∀ z v ms, l.write (.zone z v ms) = { l with zones := (l.write (.zone z v ms)).zones }) ∧
    (∀ o src g ms (i : Fin 288), (l.write (.cell o src g ms)).cells[i] =
      if i.val = o.val * 12 + src.val then g else l.cells[i]) ∧
    (∀ o src g ms, l.write (.cell o src g ms) = { l with cells := (l.write (.cell o src g ms)).cells }) ∧
    (∀ (o o' : Output) z side row g trim ceiling, (l.write (.output o z side row g trim ceiling)).outputs[o'] =
      if o' = o then { zone := z, side := side, row := row, group := g, trim := trim, ceiling := ceiling,
                       mute := (l.outputs[o]).mute, invert := (l.outputs[o]).invert } else l.outputs[o']) ∧
    (∀ o z side row g trim ceiling, l.write (.output o z side row g trim ceiling) =
      { l with outputs := (l.write (.output o z side row g trim ceiling)).outputs }) ∧
    (∀ op mask (o : Output), (l.write (.flags op .mute mask)).outputs[o] =
      if mask.getLsbD o.val then { l.outputs[o] with mute := op.on (l.outputs[o]).mute } else l.outputs[o]) ∧
    (∀ op mask (o : Output), (l.write (.flags op .invert mask)).outputs[o] =
      if mask.getLsbD o.val then { l.outputs[o] with invert := op.on (l.outputs[o]).invert } else l.outputs[o]) ∧
    (∀ op f mask, l.write (.flags op f mask) = { l with outputs := (l.write (.flags op f mask)).outputs }) ∧
    (∀ b : Bool, FlagOp.set.on b = true ∧ FlagOp.clear.on b = false ∧ FlagOp.toggle.on b = !b) ∧
    (∀ (c : CurveId) (first : Fin 31) (vs : List Int) (i : Fin 186), first.val + vs.length ≤ 31 →
      (l.write (.curve c first vs)).curves[i] =
        if c.idx.val * 31 + first.val ≤ i.val then vs.getD (i.val - (c.idx.val * 31 + first.val)) l.curves[i]
        else l.curves[i]) ∧
    (∀ c first vs, l.write (.curve c first vs) = { l with curves := (l.write (.curve c first vs)).curves }) ∧
    (∀ ps, (l.write (.boostCurve ps)).boostCurve = ps) ∧
    (∀ ps, l.write (.boostCurve ps) = { l with boostCurve := ps }) ∧
    (∀ (g g' : Group) w, (l.write (.group g w)).weights[g'] = if g' = g then w else l.weights[g']) ∧
    (∀ g w, l.write (.group g w) = { l with weights := (l.write (.group g w)).weights }) ∧
    (∀ o list, l.write (.chain o list) = l)

/-! ## Equalisation -/

/-- R94, R92, R88, R149: the owed end of a crossfade, and what the TABLE unit hears of it; the boundary closes when nothing more is
owed at it (entry 3). -/
def Obligations.CrossfadeEndReturnsSections : Prop :=
  ∀ (i : Fin 4) (f : Crossfade) (s : State), s.eq.slots[i] = some f → f.due = true →
    ∃ u : State, exec (.crossfadeEnd i) s = .next (closeIfSettled u) ∧
      u.eq = { s.eq with sections := u.eq.sections, slots := s.eq.slots.set i none } ∧
      (∀ n : SectionNo, u.eq.sections[n] =
        { s.eq.sections[n] with state := if n ∈ f.old then .loaded else (s.eq.sections[n]).state }) ∧
      WritesHeard (sectionEntries f.old) [] s u ∧ NoNotice s u ∧ SettingsKept s u ∧ SameBut [.eq, .ctl, .table] s u

/-- R81 to R83, R88, R149: SECTION_LOAD allocates the lowest-numbered FREE section, or is answered NO_SPACE; the TABLE unit hears of
the section. The fifteen bytes are the five coefficients (11.5). A cue write already pending was accepted first, and is granted first
(R141); with none pending the marker says nothing (entry 19). -/
def Obligations.SectionLoadAllocates : Prop :=
  CoeffsDecoded ∧ ∀ (c : Context) (i : Fin 2) (k : Coeffs) (s : State), NoHeld s → PoolInv s → Takes .sectionLoad c i s →
    parseCoeffs c.data = some k →
    ((∀ n : SectionNo, (s.eq.sections[n]).state ≠ .free) → exec .sectionLoad s = .next (replied c .noSpace [] (afterTake i s))) ∧
    (∀ n : SectionNo, (s.eq.sections[n]).state = .free → (∀ m : SectionNo, m < n → (s.eq.sections[m]).state ≠ .free) →
      ∃ t : State, exec .sectionLoad s = .next (reserved .eq c t) ∧ t.eq.sections[n] = { s.eq.sections[n] with state := .loading } ∧
        (∀ m : SectionNo, m ≠ n → t.eq.sections[m] = s.eq.sections[m]) ∧
        (∀ m : SectionNo, t.eq.marked m = (s.eq.marked m && decide (m ≠ n))) ∧ t.eq.freeCount + 1 = s.eq.freeCount ∧
        t.eq.pendingWrite = some { sec := n, kind := .load, coeffs := k } ∧
        t.eq.chains = s.eq.chains ∧ t.eq.slots = s.eq.slots ∧ t.cue = { s.cue with cueFirst := s.cue.pendingWrite.isSome } ∧
        WritesHeard (sectionEntries [n]) [] (afterTake i s) t ∧ NoNotice (afterTake i s) t ∧
        TakenBut [.eq, .cue, .table] i s t)

/-- R84, R85, R88, R149: SECTION_WRITE and SECTION_RELEASE, by the named section's state, and what the TABLE unit hears of them. A cue
write already pending was accepted first, and is granted first (R141); with none pending the marker says nothing (entry 19). The
coefficients and the state codes are those of 11.5 and 11.3. A disturbed digest's reply is written before the request's own (the
model's reading, entry 21). -/
def Obligations.SectionRequestsByState : Prop :=
  CoeffsDecoded ∧
  [SectionState.free, .loading, .loaded, .claimed, .live, .retiring].map SectionState.code = [0, 1, 2, 3, 4, 5] ∧
  (∀ (c : Context) (i : Fin 2) (b : Byte) (bs : List Byte) (k : Coeffs) (s : State), NoHeld s → Takes .sectionWrite c i s →
    c.data = b :: bs → parseCoeffs bs = some k →
    let n := byteFin b
    ((s.eq.sections[n]).state = .free →
      exec .sectionWrite s = .next (replied c .notLoaded [SectionState.free.code] (afterTake i s))) ∧
    ((s.eq.sections[n]).state ≠ .free → (s.eq.sections[n]).state ≠ .loaded →
      exec .sectionWrite s = .next (replied c .inUse [(s.eq.sections[n]).state.code] (afterTake i s))) ∧
    ((s.eq.sections[n]).state = .loaded → ∃ t : State, exec .sectionWrite s = .next (reserved .eq c t) ∧
      t.eq = { s.eq with
        sections := s.eq.sections.set n { s.eq.sections[n] with state := .loading }
        pendingWrite := some { sec := n, kind := .rewrite, coeffs := k } } ∧
      t.cue = { s.cue with cueFirst := s.cue.pendingWrite.isSome } ∧
      WritesHeard (sectionEntries [n]) [] (afterTake i s) t ∧ NoNotice (afterTake i s) t ∧ TakenBut [.eq, .cue, .table] i s t)) ∧
  (∀ (c : Context) (i : Fin 2) (b : Byte) (s : State), NoHeld s → Takes .sectionRelease c i s → c.data = [b] →
    let n := byteFin b
    ((s.eq.sections[n]).state = .free →
      exec .sectionRelease s = .next (replied c .notLoaded [SectionState.free.code] (afterTake i s))) ∧
    ((s.eq.sections[n]).state ≠ .free → (s.eq.sections[n]).state ≠ .loaded →
      exec .sectionRelease s = .next (replied c .inUse [(s.eq.sections[n]).state.code] (afterTake i s))) ∧
    ((s.eq.sections[n]).state = .loaded → ∃ t : State,
      exec .sectionRelease s = .next (replied c .ok (b :: bytes16 t.eq.freeCount) t) ∧
      t.eq.sections = s.eq.sections.set n { s.eq.sections[n] with state := .free } ∧
      (∀ m : SectionNo, t.eq.marked m = (decide (m = n) || s.eq.marked m)) ∧ t.eq.free0.getLsbD (sectionGroup n).val = true ∧
      t.eq.chains = s.eq.chains ∧ t.eq.slots = s.eq.slots ∧ t.eq.pendingWrite = s.eq.pendingWrite ∧
      WritesHeard (sectionEntries [n]) [] (afterTake i s) t ∧ NoNotice (afterTake i s) t ∧
      TakenBut [.eq, .table] i s t))

/-- R82, R132, R140: the granted section write stores its coefficients; the granted cue write stores its entries from its address
on, wrapping from 255 to 0. Each spends the frame's grant and fills its reservation, and the TABLE unit hears of it (R88, R149), a
disturbed digest's reply being written first (the model's reading, entry 21). -/
def Obligations.WritesGranted : Prop :=
  (∀ (w : SectionWrite) (s : State), mayGrant .sectionWrite s = true → s.eq.pendingWrite = some w →
    ∃ t : State, exec .sectionWriteGrant s = .next t ∧
      t.eq = { s.eq with
        sections := s.eq.sections.set w.sec { s.eq.sections[w.sec] with coeffs := w.coeffs, state := .loaded }
        pendingWrite := none } ∧
      WritesHeard (sectionEntries [w.sec]) [{ unit := .eq, res := .ok, data := [byteOf w.sec.val] }] s t ∧ NoNotice s t ∧
      t.frame = { s.frame with grantFree := false } ∧ SettingsKept s t ∧ SameBut [.ctl, .eq, .table, .frame] s t) ∧
  (∀ (w : CueWrite) (s : State), memoryGood s.cue.mem → mayGrant .cueWrite s = true → s.cue.pendingWrite = some w →
    w.entries.length ≤ 4 → ∃ t : State, exec .cueWriteGrant s = .next t ∧
      (∀ (j : Fin 256) (e : CueEntry), w.entries[j.val]? = some e → readEntry t.cue.mem (w.addr + j) = e) ∧
      (∀ a : CueAddr, (∀ j : Fin 256, j.val < w.entries.length → a ≠ w.addr + j) →
        readEntry t.cue.mem a = readEntry s.cue.mem a) ∧
      memoryGood t.cue.mem ∧ t.cue = { s.cue with mem := t.cue.mem, pendingWrite := none } ∧
      WritesHeard (fun d n => d = .cueMemory ∧ ∃ j : Nat, j < w.entries.length ∧ n = (w.addr.val + j) % 256)
        [{ unit := .cue, res := .ok, data := [byteOf w.addr.val, byteOf w.entries.length] }] s t ∧ NoNotice s t ∧
      t.frame = { s.frame with grantFree := false } ∧ SettingsKept s t ∧ SameBut [.ctl, .cue, .table, .frame] s t)

/-! ## Speed-dependent volume -/

/-- R108: the boost at and beyond the ends of a valid curve, at its breakpoints, and its range. -/
def Obligations.BoostForSpeed : Prop :=
  ∀ (curve : List (Nat × Int)) (v : Nat), curveValid curve = true → curve ≠ [] →
    0 ≤ boostAt curve v ∧ boostAt curve v ≤ 48 ∧
    (∀ p rest, curve = p :: rest → v ≤ p.1 → boostAt curve v = p.2) ∧
    (∀ p, curve.getLast? = some p → p.1 ≤ v → boostAt curve v = p.2) ∧
    (∀ p ∈ curve, p.1 = v → boostAt curve v = p.2) ∧
    (∀ a p q b, curve = a ++ p :: q :: b → p.1 ≤ v → v < q.1 →
      boostAt curve v = p.2 + ((q.2 - p.2) * (v - p.1 : Int)).tdiv (q.1 - p.1 : Int))

/-- R103, R104, R106, R108, R109, R162: an addressed SPEED_REPORT, and a broadcast one, which acts alike and is not answered. -/
def Obligations.SpeedReportTaken : Prop :=
  (∀ (c : Context) (i : Fin 2) (h l v : Byte) (s : State), NoHeld s → Takes .speedReport c i s → c.data = [h, l, v] →
    let outcome : Byte := if v ≠ 1 ∨ 320 < u16 h l then 2 else if s.sdv.state = .off ∨ s.sdv.state = .manual then 1 else 0
    ∃ t : State, exec .speedReport s = .next (replied c .ok [outcome] t) ∧
      ReportTaken (u16 h l) (decide (v = 1)) (afterTake i s) t) ∧
  (∀ (c : Context) (i : Fin 2) (s : State), NoHeld s →
    nextOffer (queueNotices s) = some { ctx := i, packet := c, placed := true } → c.broadcast = true →
    c.row s.ctl.enabled = some .speedReport → ∃ t : State, exec .speedReport s = .next t ∧
      ReportTaken (parseReport c.data).1 (parseReport c.data).2 (afterTake i s) t) ∧
  (∀ h l v : Byte, parseReport [h, l, v] = (u16 h l, decide (v = 1)))

/-- R105 to R107, R109: the owed rise of the phase to 480, the tick: the phase starts over, the age rises to at most 65,535 and is
compared. Where a report has come between the boundary's opening and the owed rise, the phase rises from 0 to 1 and there is no tick;
where UNIT_RESET(SDV) has, the age is never and nothing rises. The boundary closes when nothing more is owed at it (entry 3). -/
def Obligations.TickRaisesAge : Prop :=
  (∀ s : State, s.sdv.tickDue = true → s.sdv.age = none →
    exec .sdvTick s = .next (closeIfSettled { s with sdv := { s.sdv with tickDue := false } })) ∧
  (∀ (a : Nat) (s : State), s.sdv.tickDue = true → s.sdv.age = some a → s.sdv.phase < 479 →
    exec .sdvTick s = .next (closeIfSettled { s with sdv := { s.sdv with phase := s.sdv.phase + 1, tickDue := false } })) ∧
  (∀ (a : Nat) (s : State), s.sdv.tickDue = true → s.sdv.age = some a → s.sdv.phase = 479 →
    ∃ u : State, exec .sdvTick s = .next (closeIfSettled u) ∧
      u.sdv = { s.sdv with
        phase := 0, age := some (min (a + 1) 65535), tickDue := false
        state := u.sdv.state, boost := u.sdv.boost, targets := u.sdv.targets } ∧
      MovedForward s.sdv u.sdv (min (a + 1) 65535) ∧
      (RampInv s → OnlyBoostsRetargeted s.sdv.rampMs s u) ∧ SdvStateTold s u ∧ SameBut [.ctl, .ramp, .sdv] s u)

/-- R114, R107, R109: SDV_CONFIG. The boost ramp it brings is in force for the retargets it causes. -/
def Obligations.SdvConfigReplaces : Prop :=
  ∀ (c : Context) (i : Fin 2) (hh hl fh fl y rh rl : Byte) (s : State), NoHeld s → Takes .sdvConfig c i s →
    c.data = [hh, hl, fh, fl, y, rh, rl] →
    (u16 hh hl = 0 ∨ u16 fh fl ≤ u16 hh hl ∨ 16 < y.toNat →
      exec .sdvConfig s = .next (replied c .badValue [] (afterTake i s))) ∧
    (1 ≤ u16 hh hl → u16 hh hl < u16 fh fl → y.toNat ≤ 16 → ∃ t : State,
      exec .sdvConfig s = .next (replied c .ok [hh, hl, fh, fl, y, rh, rl] t) ∧
      t.sdv = { s.sdv with
        hold := u16 hh hl, fallback := u16 fh fl, hyst := y.toNat, rampMs := u16 rh rl
        state := t.sdv.state, boost := t.sdv.boost, targets := t.sdv.targets } ∧
      (∀ a : Nat, s.sdv.age = some a →
        MovedForward { s.sdv with hold := u16 hh hl, fallback := u16 fh fl } t.sdv a) ∧
      (s.sdv.age = none → t.sdv.state = s.sdv.state ∧ t.sdv.boost = s.sdv.boost ∧ t.sdv.targets = s.sdv.targets) ∧
      (RampInv s → OnlyBoostsRetargeted (u16 rh rl) s t) ∧ SdvStateTold (afterTake i s) t ∧
      TakenBut [.ramp, .sdv] i s t)

/-- R112, R106, R109: SDV_MANUAL. -/
def Obligations.SdvManualAdopts : Prop :=
  ∀ (c : Context) (i : Fin 2) (h l : Byte) (s : State), NoHeld s → Takes .sdvManual c i s → c.data = [h, l] →
    (320 < u16 h l → exec .sdvManual s = .next (replied c .badValue [] (afterTake i s))) ∧
    (u16 h l ≤ 320 → s.sdv.state = .off → exec .sdvManual s = .next (replied c .wrongState [] (afterTake i s))) ∧
    (u16 h l ≤ 320 → s.sdv.state ≠ .off → ∃ t : State,
      exec .sdvManual s = .next (replied c .ok [SdvState.manual.code, byteOf t.sdv.boost] t) ∧
      t.sdv = { s.sdv with
        state := .manual, manual := some (u16 h l), boost := boostAt s.core.live.boostCurve (u16 h l)
        targets := t.sdv.targets } ∧
      (∀ g : Group, t.sdv.targets[g] = groupTarget t.sdv.boost s.core.live.weights[g]) ∧
      (RampInv s → OnlyBoostsRetargeted s.sdv.rampMs s t) ∧ SdvStateTold (afterTake i s) t ∧ TakenBut [.ramp, .sdv] i s t)

/-- R113, R106, R109: SDV_AUTO. -/
def Obligations.SdvAutoTakesStateByAge : Prop :=
  ∀ (c : Context) (i : Fin 2) (s : State), NoHeld s → Takes .sdvAuto c i s →
    (s.sdv.state ≠ .manual → exec .sdvAuto s = .next (replied c .wrongState [] (afterTake i s))) ∧
    (s.sdv.state = .manual → ∃ t : State,
      exec .sdvAuto s = .next (replied c .ok [t.sdv.state.code, byteOf t.sdv.boost] t) ∧
      t.sdv = { s.sdv with
        manual := none, state := t.sdv.state, boost := t.sdv.boost, targets := t.sdv.targets } ∧
      t.sdv.state = (match s.sdv.age with
        | none => .fallback
        | some a => if a < s.sdv.hold then .tracking else if a < s.sdv.fallback then .holding else .fallback) ∧
      (t.sdv.state = .fallback → t.sdv.boost = 0) ∧
      (∀ v : Nat, t.sdv.state ≠ .fallback → s.sdv.lastSpeed = some v → t.sdv.boost = boostAt s.core.live.boostCurve v) ∧
      (∀ g : Group, t.sdv.targets[g] = groupTarget t.sdv.boost s.core.live.weights[g]) ∧
      (RampInv s → OnlyBoostsRetargeted s.sdv.rampMs s t) ∧ SdvStateTold (afterTake i s) t ∧ TakenBut [.ramp, .sdv] i s t)

/-! ## Cue runners and table memory -/

/-- R140, R141: the arbiter's priorities, when the TABLE unit asks, and when a grant can be made: in a LOCKED frame whose grant is not
spent, a frame running from one FRAME_BOUNDARY to the next (the model's choice, entry 30). -/
def Obligations.ArbiterPriority : Prop :=
  ∀ s : State,
    ((s.cue.runners[0]).state = .fetching → arbiter s = some (.runner 0)) ∧
    ((s.cue.runners[0]).state ≠ .fetching → (s.cue.runners[1]).state = .fetching → arbiter s = some (.runner 1)) ∧
    ((s.cue.runners[0]).state ≠ .fetching → (s.cue.runners[1]).state ≠ .fetching →
      (s.eq.pendingWrite.isSome = true → s.cue.pendingWrite = none → arbiter s = some .sectionWrite) ∧
      (s.eq.pendingWrite = none → s.cue.pendingWrite.isSome = true → arbiter s = some .cueWrite) ∧
      (s.eq.pendingWrite.isSome = true → s.cue.pendingWrite.isSome = true →
        arbiter s = some (if s.cue.cueFirst then .cueWrite else .sectionWrite)) ∧
      (s.eq.pendingWrite = none → s.cue.pendingWrite = none → arbiter s = if tableAsks s then some .table else none)) ∧
    (tableAsks s = true ↔ ∃ op : TableOp, s.table = some op ∧ op.table.inMemory = true ∧ op.owed ≠ 0) ∧
    ∀ g : Grantee, mayGrant g s = true ↔ s.port.lock = .locked ∧ s.frame.grantFree = true ∧ arbiter s = some g

/-- R120, R122 to R127, R140, R45: a granted fetch copies four entries, wrapping, and starts the first, and those after it that
complete as they start, each read as R120 and 11.5 say; a STEP's requests retarget their DUCK keys, with its ramp
where it moves the lower request (with entry 32 where both runners' requests change at one boundary). -/
def Obligations.FetchGrantStartsEntry : Prop :=
  EntriesDecoded ∧ ∀ (r : RunnerNo) (s : State), mayGrant (.runner r) s = true → ∃ t : State, exec (.cueFetchGrant r) s = .next t ∧
    let x := s.cue.runners[r]
    let window := [readEntry s.cue.mem x.nextFetch, readEntry s.cue.mem (x.nextFetch + 1),
      readEntry s.cue.mem (x.nextFetch + 2), readEntry s.cue.mem (x.nextFetch + 3)]
    EntryStarted r window (withRunner r { x with window := window, nextFetch := x.nextFetch + 4 }
      { s with frame := { s.frame with grantFree := false } }) t ∧
    (∀ p : RunnerNo, p ≠ r → t.cue.runners[p] = s.cue.runners[p]) ∧ t.cue = { s.cue with runners := t.cue.runners } ∧
    t.frame = { s.frame with grantFree := false } ∧ SettingsKept s t ∧ SameBut [.ctl, .ramp, .cue, .frame] s t

/-- R120, R123 to R127, R45: the owed end of a STEP, or of a WAIT by its timeout, which sets the timed-out flag: the window shifts and
the next entry, read as R120 and 11.5 say, starts, a STEP's requests retargeting their DUCK keys (with entry 32 where both runners'
requests change at one boundary); the boundary closes when nothing more is owed at it (entry 3). -/
def Obligations.EntryEndShifts : Prop :=
  EntriesDecoded ∧ ∀ (r : RunnerNo) (s : State), (s.cue.runners[r]).due = true →
    ((s.cue.runners[r]).state = .stepping → ∃ u : State, exec (.stepComplete r) s = .next (closeIfSettled u) ∧
      EntryStarted r (s.cue.runners[r]).window.tail
        (withRunner r { s.cue.runners[r] with window := (s.cue.runners[r]).window.tail } s) u ∧
      (∀ p : RunnerNo, p ≠ r → u.cue.runners[p] = s.cue.runners[p]) ∧ u.cue = { s.cue with runners := u.cue.runners } ∧
      SettingsKept s u ∧ SameBut [.ctl, .ramp, .cue] s u) ∧
    ((s.cue.runners[r]).state = .waiting → ∃ u : State, exec (.waitTimeout r) s = .next (closeIfSettled u) ∧
      EntryStarted r (s.cue.runners[r]).window.tail
        (withRunner r { s.cue.runners[r] with window := (s.cue.runners[r]).window.tail, timedOut := true } s) u ∧
      (∀ p : RunnerNo, p ≠ r → u.cue.runners[p] = s.cue.runners[p]) ∧ u.cue = { s.cue with runners := u.cue.runners } ∧
      SettingsKept s u ∧ SameBut [.ctl, .ramp, .cue] s u)

/-- R45, R46, R109, R128: a STEP's or halt's change of a request hands DUCK(s) the lower of the two requests, a halt with 50 ms; a
change of a group target is handed to BOOST(g) with the boost ramp in force. Where the value differs from the target and the key
does not jump, its ramp starts from the present value with the cause's duration: that of the change that moved the minimum, also where
both runners' requests change at one boundary and R45 expects the other change's (the model's choice there, entry 32). -/
def Obligations.DuckFollowsLowerRequest : Prop :=
  (∀ (r : RunnerNo) (v : Int) (ms : Nat) (src : Source) (s : State), Inv s → RampInv s →
    let t := setRequest r v ms src s
    (t.cue.runners[r]).requests[src] = v ∧ t.ramp.duckTargets[src] = duckMin t.cue src ∧
    (∀ p : Source, p ≠ src → t.ramp.duckTargets[p] = s.ramp.duckTargets[p]) ∧
    (duckMin t.cue src = s.ramp.duckTargets[src] → t.ramp = s.ramp) ∧
    (duckMin t.cue src ≠ s.ramp.duckTargets[src] → s.core.mode ≠ .standby → ms ≠ 0 →
      s.ramp.present (.duck src) (.level s.ramp.duckTargets[src]) ≠ duckMin t.cue src →
      t.ramp.entries[48 + src.val] = some
        { key := .duck src, start := s.ramp.present (.duck src) (.level s.ramp.duckTargets[src]),
          target := .level (duckMin t.cue src), n := 48 * ms, k := 0, due := false }) ∧
    DucksRetargeted ms s t ∧ (∀ i : Fin 64, i.val ≠ 48 + src.val → t.ramp.entries[i] = s.ramp.entries[i]) ∧
    SameBut [.ramp, .cue] s t) ∧
  (∀ (r : RunnerNo) (s : State), Inv s → RampInv s →
    let t := haltRunner r s
    (∀ src : Source, (t.cue.runners[r]).requests[src] = 0 ∧ t.ramp.duckTargets[src] = duckMin t.cue src) ∧
    DucksRetargeted 50 s t ∧ (∀ i : Fin 64, i.val < 48 ∨ 60 ≤ i.val → t.ramp.entries[i] = s.ramp.entries[i]) ∧
    SameBut [.ramp, .cue] s t) ∧
  (∀ (g : Group) (v : Int) (s : State), RampInv s →
    let t := setGroupTarget g v s
    t.sdv = { s.sdv with targets := s.sdv.targets.set g v } ∧ BoostsRetargeted s.sdv.rampMs s t ∧
    t.ramp.duckTargets = s.ramp.duckTargets ∧
    (∀ i : Fin 64, i.val ≠ 60 + g.val → t.ramp.entries[i] = s.ramp.entries[i]) ∧ SameBut [.ramp, .sdv] s t)

/-- R132, R174: CUE_WRITE becomes the pending write; a length that is not an address and whole entries is BAD_LENGTH. A section write
already waiting was accepted first, and is granted first (R141); with none waiting the marker says nothing, and the model sets it
(entry 19). -/
def Obligations.CueWriteAccepted : Prop :=
  ∀ (c : Context) (i : Fin 2) (s : State), NoHeld s → Takes .cueWrite c i s →
    (∀ (a : Byte) (bs : List Byte), c.data = a :: bs → bs.length % 8 ≠ 0 →
      exec .cueWrite s = .next (replied c .badLength [] (afterTake i s))) ∧
    (∀ (a : Byte) (es : List CueEntry), 1 ≤ es.length → es.length ≤ 4 → c.data = a :: (es.map Vector.toList).flatten →
      exec .cueWrite s = .next (reserved .cue c
        { afterTake i s with
            cue := { s.cue with
              pendingWrite := some { addr := byteFin a, entries := es }
              cueFirst := s.eq.pendingWrite.isNone } }))

/-- R129: CUE_START makes its runner FETCHING in RUN and is answered WRONG_MODE elsewhere. -/
def Obligations.CueStartMakesFetching : Prop :=
  ∀ (c : Context) (i : Fin 2) (b a : Byte) (s : State), NoHeld s → Takes .cueStart c i s → c.data = [b, a] →
    (b ≠ 0 → b ≠ 1 → exec .cueStart s = .next (replied c .badValue [] (afterTake i s))) ∧
    (∀ r : RunnerNo, b = byteOf r.val → s.core.mode = .standby ∨ s.core.mode = .leaving →
      exec .cueStart s = .next (replied c .wrongMode [] (afterTake i s))) ∧
    (∀ r : RunnerNo, b = byteOf r.val → s.core.mode = .run →
      exec .cueStart s = .next (replied c .ok [b, RunnerState.fetching.code]
        { afterTake i s with
            cue := { s.cue with
              runners := s.cue.runners.set r
                { s.cue.runners[r] with
                    state := .fetching, window := [], nextFetch := byteFin a, latch := false, timedOut := false
                    elapsed := 0, due := false } } }))

/-- R131, R130, R120, R123 to R128, R45: CUE_RELEASE, by the runner's state and latch, and CUE_HALT, which retargets the DUCK keys its
runner's requests move, over 50 ms (with entry 32 where both runners' requests change at one boundary). -/
def Obligations.CueReleaseAndHalt : Prop :=
  EntriesDecoded ∧
  (∀ (c : Context) (i : Fin 2) (b : Byte) (s : State), NoHeld s → Takes .cueRelease c i s → c.data = [b] →
    (b ≠ 0 → b ≠ 1 → exec .cueRelease s = .next (replied c .badValue [] (afterTake i s))) ∧
    (∀ r : RunnerNo, b = byteOf r.val →
      let x := s.cue.runners[r]
      (x.state = .idle ∨ x.state = .stopped → exec .cueRelease s = .next (replied c .wrongState [] (afterTake i s))) ∧
      (x.state = .stepping ∨ x.state = .fetching → x.latch = true →
        exec .cueRelease s = .next (replied c .already [] (afterTake i s))) ∧
      (x.state = .stepping ∨ x.state = .fetching → x.latch = false →
        exec .cueRelease s = .next (replied c .ok [1, x.state.code]
          { afterTake i s with cue := { s.cue with runners := s.cue.runners.set r { x with latch := true } } })) ∧
      (x.state = .waiting → ∃ t : State,
        exec .cueRelease s = .next (replied c .ok [0, (t.cue.runners[r]).state.code] t) ∧
        EntryStarted r x.window.tail (withRunner r { x with window := x.window.tail, timedOut := false } (afterTake i s)) t ∧
        (∀ p : RunnerNo, p ≠ r → t.cue.runners[p] = s.cue.runners[p]) ∧ t.cue = { s.cue with runners := t.cue.runners } ∧
        TakenBut [.ramp, .cue] i s t))) ∧
  (∀ (c : Context) (i : Fin 2) (b : Byte) (s : State), NoHeld s → Takes .cueHalt c i s → c.data = [b] →
    (b ≠ 0 → b ≠ 1 → exec .cueHalt s = .next (replied c .badValue [] (afterTake i s))) ∧
    (∀ r : RunnerNo, b = byteOf r.val → ∃ t : State,
      exec .cueHalt s = .next (replied c .ok [b, RunnerState.idle.code] t) ∧ t.ctl = (afterTake i s).ctl ∧
      t.cue = { s.cue with
        runners := s.cue.runners.set r
          { s.cue.runners[r] with
              state := .idle, window := [], latch := false, timedOut := false, elapsed := 0, due := false
              requests := Vector.replicate 12 0 } } ∧
      (∀ src : Source, t.ramp.duckTargets[src] =
        if (s.cue.runners[r]).requests[src] = 0 then s.ramp.duckTargets[src] else duckMin t.cue src) ∧
      (RampInv s → OnlyDucksRetargeted 50 s t) ∧ TakenBut [.ramp, .cue] i s t))

/-! ## TABLE unit -/

/-- R144 to R148: TABLE_READ: the range checks, a read answered at once, and a read that waits. DIGEST: the table id first (R147,
R174), then the length, of which six bytes are BAD_LENGTH ahead of the range (the model's choice, entry 13), then the range, and
the operation it starts. A live read whose first entries would bring the live entries taken in this LOCKED frame above 8 (R142) is
not taken in it, and waits in its context (the model's choice, entry 28). The tables, their sizes, limits and encodings are those of
R142, R144 and 11.6, and the CRC-16 is R147's. -/
def Obligations.TableRequestsTaken : Prop :=
  TablesListed ∧ TablesEncoded ∧ DigestComputed ∧
  (∀ (c : Context) (i : Fin 2) (a fh fl ch cl : Byte) (s : State), NoHeld s → Takes .tableRead c i s →
    c.data = [a, fh, fl, ch, cl] →
    (TableId.ofByte a = none → exec .tableRead s = .next (replied c .badValue [] (afterTake i s))) ∧
    (∀ d : TableId, TableId.ofByte a = some d →
      (d.size ≤ u16 fh fl ∨ u16 ch cl = 0 ∨ d.size < u16 fh fl + u16 ch cl →
        exec .tableRead s = .next (replied c .badValue [] (afterTake i s))) ∧
      (u16 fh fl < d.size → 1 ≤ u16 ch cl → u16 fh fl + u16 ch cl ≤ d.size →
        let n := min (u16 ch cl) d.replyLimit
        let room := s.port.lock = .hunt ∨ s.frame.liveTaken + min n 8 ≤ 8
        let counted : Frame :=
          { s.frame with liveTaken := if s.port.lock = .locked then s.frame.liveTaken + min n 8 else s.frame.liveTaken }
        (d.inMemory = false → ¬ room → exec .tableRead s = .next s) ∧
        (d.inMemory = false → room → n ≤ 8 → exec .tableRead s = .next (replied c .ok
          (a :: fh :: fl :: byteOf n :: entriesBytes s d (u16 fh fl) n) { afterTake i s with frame := counted })) ∧
        (d.inMemory = false → room → 8 < n → exec .tableRead s = .next (reserved .table c
          { afterTake i s with
              frame := counted
              table := some
                { kind := .read, table := d, first := u16 fh fl, count := n, next := u16 fh fl + 8, covered := 8,
                  crc := crc16 0 (entriesBytes s d (u16 fh fl) 8), taken := entriesBytes s d (u16 fh fl) 8,
                  batchDue := false } })) ∧
        (d.inMemory = true → exec .tableRead s = .next (reserved .table c
          { afterTake i s with
              table := some
                { kind := .read, table := d, first := u16 fh fl, count := n, next := u16 fh fl, covered := 0, crc := 0,
                  taken := [], batchDue := false } }))))) ∧
  (∀ (c : Context) (i : Fin 2) (a fh fl ch cl : Byte) (seed : List Byte) (s : State), NoHeld s → Takes .digest c i s →
    c.data = a :: fh :: fl :: ch :: cl :: seed →
    (TableId.ofByte a = none ∨ TableId.ofByte a = some .ramps →
      exec .digest s = .next (replied c .badValue [] (afterTake i s))) ∧
    (∀ d : TableId, TableId.ofByte a = some d → d ≠ .ramps →
      (seed.length = 1 → exec .digest s = .next (replied c .badLength [] (afterTake i s))) ∧
      (seed.length = 0 ∨ seed.length = 2 →
        (d.size ≤ u16 fh fl ∨ u16 ch cl = 0 ∨ d.size < u16 fh fl + u16 ch cl →
          exec .digest s = .next (replied c .badValue [] (afterTake i s))) ∧
        (u16 fh fl < d.size → 1 ≤ u16 ch cl → u16 fh fl + u16 ch cl ≤ d.size →
          exec .digest s = .next (reserved .table c
            { afterTake i s with
                table := some
                  { kind := .digest, table := d, first := u16 fh fl, count := u16 ch cl, next := u16 fh fl, covered := 0,
                    crc := (match seed with | [h, l] => BitVec.ofNat 16 (u16 h l) | _ => 0xFFFF), taken := [],
                    batchDue := false } })))))

/-- R146, R148, R140: a granted table access takes one section or up to four cue entries, in the encodings of 11.6, and ends the
operation at the last; a digest's register is R147's CRC-16 of them. -/
def Obligations.TableAccessGranted : Prop :=
  TablesEncoded ∧ DigestComputed ∧ OwedCounted ∧ ∀ (op : TableOp) (s : State), mayGrant .table s = true → s.table = some op →
    ∃ t : State, exec .tableAccessGrant s = .next t ∧ t.frame = { s.frame with grantFree := false } ∧
      SettingsKept s t ∧ NoNotice s t ∧ SameBut [.ctl, .table, .frame] s t ∧
      EntriesTaken op (if op.table = .sections then 1 else 4) s s t

/-- R145, R146, R148: the step that takes the last entries of a delayed read or of a digest, COMPLETE or PARTIAL: its owed batch of
live entries, counted among the frame's (R142), at a boundary that closes when nothing more is owed at it (entry 3), or its grant.
The entries are in the encodings of 11.6, and a digest's register is R147's CRC-16 of them. -/
def Obligations.OperationEnds : Prop :=
  TablesEncoded ∧ DigestComputed ∧ OwedCounted ∧ ∀ (op : TableOp) (s : State), s.table = some op → op.lastStep = true → op.batchDue = true ∨ mayGrant .table s = true →
    let command := match op.kind with | .read => Instr.tableReadComplete | .digest => Instr.digestEnd
    let bs := entriesBytes s op.table op.next op.owed
    let data := match op.kind with
      | .read => op.table.code :: bytes16 op.first ++ byteOf op.count :: (op.taken ++ bs)
      | .digest => (if op.covered + op.owed = op.count then 0 else 1) :: bytes16 (crc16 op.crc bs).toNat
          ++ bytes16 (op.next + op.owed : Nat) ++ bytes16 (op.covered + op.owed : Nat)
    ∃ u : State, (op.batchDue = true → exec command s = .next (closeIfSettled u) ∧
        u.frame = { s.frame with liveTaken := s.frame.liveTaken +
          (if op.table.inMemory = false ∧ s.port.lock = .locked then op.owed else 0) }) ∧
      (op.batchDue = false → exec command s = .next u ∧ u.frame = { s.frame with grantFree := false }) ∧
      u.table = none ∧ Answered [{ unit := .table, res := .ok, data := data }] s u ∧ NoNotice s u ∧ SettingsKept s u ∧ SameBut [.ctl, .table, .frame] s u

/-- R149: the report of written entries ends a digest that has covered one of them, and leaves every other operation alone. Which
entries are reported is said where they are written: an applied set's (R73) in HeadSetTaken, a changed section's (R88) in the
statements of the EQ unit, the commit queue and the modes, a cue write's (R132) in WritesGranted. -/
def Obligations.WriteDisturbsDigest : Prop :=
  (∀ (d : TableId) (ns : List Nat) (s : State),
    let t := reportWrites d ns s
    WritesHeard (fun e n => e = d ∧ n ∈ ns) [] s t ∧ NoNotice s t ∧ SettingsKept s t ∧ SameBut [.ctl, .table] s t) ∧
  (∀ (d : TableId) (ns : List Nat) (op : TableOp) (s : State), s.table = some op →
    op.kind = .read ∨ op.table ≠ d ∨ (∀ n ∈ ns, n < op.first ∨ op.next ≤ n) → reportWrites d ns s = s)

/-! ## Control unit -/

/-- R163: the checks of the decode before a request's own, in their order; a refused request is answered with no data and changes
nothing else. For STAGE_RECORD the shortest length admitted is 3, where 11.3 prints 4: the model's choice, entry 12. -/
def Obligations.DecodeRefuses : Prop :=
  ∀ (q : Request) (c : Context) (i : Fin 2) (s : State), NoHeld s → Offered q c i s →
    let range : Nat × Nat := match q with
      | .identify | .partReset | .abortOpen | .flushQueue | .setStatus | .poolStatus | .sdvAuto | .sdvStatus | .cueStatus => (0, 0)
      | .readStatus | .unitReset | .mode | .sectionRelease | .cueRelease | .cueHalt => (1, 1)
      | .sdvManual | .cueStart => (2, 2)
      | .speedReport => (3, 3)
      | .unitEnable | .noticeEnable => (4, 4)
      | .tableRead => (5, 5)
      | .sdvConfig => (7, 7)
      | .sectionLoad => (15, 15)
      | .sectionWrite => (16, 16)
      | .slotMap => (1, 25)
      | .stageRecord => (3, 37)
      | .cueWrite => (9, 33)
      | .digest => (5, 7)
    let long := c.dataLength < range.1 ∨ range.2 < c.dataLength
    let off := s.ctl.enabled.allows q.unit = false
    let busy := inExecution q.unit s = true ∧ q ≠ .readStatus ∧ q ≠ .poolStatus
    (off → exec q.instr s = .next (replied c .unitOff [] (afterTake i s))) ∧
    (¬ off → long → exec q.instr s = .next (replied c .badLength [] (afterTake i s))) ∧
    (¬ off → ¬ long → busy → exec q.instr s = .next (replied c .busy [] (afterTake i s))) ∧
    (¬ off → ¬ long → ¬ busy → Takes q c i s)

/-- R161 to R163: a packet of no row is discarded with its flag, ignored as a broadcast, or refused; `placed` says whether a place
was appended for it (R161: none for what looks like PART_RESET while the queue is full). The reply's code is the request's with bit
7 set, also where that bit was set (the model's choice, entry 14). What discards a packet, which row it belongs to, and where its
fields stand (11.2): tag, unit, code, length, data, CRC-8. -/
def Obligations.UnknownRequestJudged : Prop :=
  (∀ (c : Context) (i : Fin 2) (placed : Bool) (s : State), NoHeld s →
    nextOffer (queueNotices s) = some { ctx := i, packet := c, placed := placed } → c.row s.ctl.enabled = none →
    (∀ f : Flag, c.discard = some f → exec .unknownRequest s = .next (setFlag f (afterTake i s))) ∧
    (c.discard = none → c.broadcast = true → exec .unknownRequest s = .next (afterTake i s)) ∧
    (c.discard = none → c.broadcast = false → placed = true →
      (UnitId.ofByte (c.byteAt 1) = none → exec .unknownRequest s =
        .next (replied c .unknownUnit [] (setFlag .unknownUnit (afterTake i s)))) ∧
      (∀ u : UnitId, UnitId.ofByte (c.byteAt 1) = some u → s.ctl.enabled.allows u = false →
        exec .unknownRequest s = .next (replied c .unitOff [] (afterTake i s))) ∧
      (∀ u : UnitId, UnitId.ofByte (c.byteAt 1) = some u → s.ctl.enabled.allows u = true →
        exec .unknownRequest s = .next (replied c .unknownRequest [] (setFlag .unknownRequest (afterTake i s)))))) ∧
  (∀ c : Context,
    let long := (c.byteAt 3).toNat
    let framed := c.cells = (5 + long + 5) / 6
    let checked := crc8 (c.bytes.take (4 + long)) = c.byteAt (4 + long)
    let tagged := if c.broadcast then c.byteAt 0 = 255 else c.byteAt 0 ≠ 0 ∧ c.byteAt 0 ≠ 255
    (¬ framed → c.discard = some .badLength) ∧ (framed → ¬ checked → c.discard = some .badCheck) ∧
    (framed → checked → ¬ tagged → c.discard = some .badTag) ∧ (framed → checked → tagged → c.discard = none) ∧
    (∀ i : Nat, i < c.bytes.length → c.bytes[i]? = some (c.byteAt i)) ∧ c.dataLength = long ∧
    c.data = (c.bytes.drop 4).take long ∧
    c.requester = { tag := c.byteAt 0, unitByte := c.byteAt 1, code := c.byteAt 2, origin := c.origin } ∧
    (∀ (e : UnitEnables) (q : Request), c.row e = some q ↔ c.discard = none ∧
      c.byteAt 1 = q.unit.code ∧ c.byteAt 2 = q.code ∧
      (c.broadcast = true → q = .speedReport ∧ long = 3 ∧ e.sdv = true))) ∧
  [UnitId.ctrl, .stage, .eq, .sdv, .cue, .table].map UnitId.code = [0, 1, 2, 3, 4, 5] ∧
  (∀ (b : Byte) (u : UnitId), UnitId.ofByte b = some u ↔ b = u.code) ∧ ChecksComputed

/-- R168: IDENTIFY and READ_STATUS; the bits of the flag word from BAD_CHECK upward, of which the setting of a flag changes its own
alone, and the codes and maps of 11.3. -/
def Obligations.IdentifyAndReadStatus : Prop :=
  (∀ (c : Context) (i : Fin 2) (s : State), NoHeld s → Takes .identify c i s →
    exec .identify s = .next (replied c .ok [0x0C, 0x98, 0x01, s.port.ownNode.zeroExtend 8] (afterTake i s))) ∧
  (∀ (c : Context) (i : Fin 2) (b : Byte) (s : State), NoHeld s → Takes .readStatus c i s → c.data = [b] →
    let data := bytes16 s.ctl.flags.toNat ++ bytes24 s.ctl.clip.toNat ++ [s.core.mode.code, s.port.lock.code,
      s.ctl.enabled.mapByte, s.ctl.noticeOn.mapByte, s.ctl.lastGood.getD 0]
    (b ≠ 0 → b ≠ 1 → exec .readStatus s = .next (replied c .badValue [] (afterTake i s))) ∧
    (b = 0 → exec .readStatus s = .next (replied c .ok data (afterTake i s))) ∧
    (b = 1 → exec .readStatus s = .next (replied c .ok data
      { afterTake i s with ctl := { (afterTake i s).ctl with flags := 0, clip := 0 } }))) ∧
  (∀ (f : Flag) (s : State),
    flagSet f s = s.ctl.flags.getLsbD (match f with
      | .badCheck => 0 | .badLength => 1 | .badSequence => 2 | .badTag => 3 | .rxOverrun => 4 | .undelivered => 5
      | .unknownUnit => 6 | .unknownRequest => 7 | .speedRejected => 8 | .lockLost => 9) ∧
    setFlag f s = { s with ctl := { s.ctl with flags := (setFlag f s).ctl.flags } } ∧
    (∀ g : Flag, flagSet g (setFlag f s) = (decide (g = f) || flagSet g s)) ∧
    (∀ i : Nat, 10 ≤ i → (setFlag f s).ctl.flags.getLsbD i = s.ctl.flags.getLsbD i)) ∧
  [Mode.standby, .run, .leaving].map Mode.code = [0, 1, 2] ∧ [Lock.hunt, .locked].map Lock.code = [0, 1] ∧
  (∀ e : UnitEnables, e.mapByte.toNat =
    (if e.eq then 1 else 0) + (if e.sdv then 2 else 0) + (if e.cue then 4 else 0) + (if e.table then 8 else 0)) ∧
  (∀ e : NoticeEnables, e.mapByte.toNat = (if e.setApplied then 1 else 0) + (if e.cueStopped then 2 else 0) +
    (if e.sdvState then 4 else 0) + (if e.ringRelocked then 8 else 0))

/-- R86, R115, R134: POOL_STATUS, SDV_STATUS and CUE_STATUS change nothing but the model's own index of free values; for every value
of that index the bytes the spec does not give are the free values of entries 10, 11 and 27 (the four bits above the level-0
map). A slot is its output and k, FF hex first where it is free; a speed is FFFF hex where there is none; the age is led by whether
it is valid (11.3). A runner's record is 20 bytes, its requests packed as 9-bit attenuations, S0 first, four zero bits last (11.3). -/
def Obligations.StatusReports : Prop :=
  [SdvState.off, .tracking, .holding, .fallback, .manual].map SdvState.code = [0, 1, 2, 3, 4] ∧
  [RunnerState.idle, .fetching, .stepping, .waiting, .stopped].map RunnerState.code = [0, 1, 2, 3, 4] ∧
  (∀ (c : Context) (i : Fin 2) (s : State), NoHeld s → Takes .poolStatus c i s →
    exec .poolStatus s = .next (replied c .ok
      (bytes16 s.eq.freeCount ++ [Config.freeLevel0 s.free ++ s.eq.free0] ++ bytes16 (s.eq.stateCount .loading) ++
        bytes16 (s.eq.stateCount .loaded) ++ bytes16 (s.eq.stateCount .claimed) ++ bytes16 (s.eq.stateCount .live) ++
        bytes16 (s.eq.stateCount .retiring) ++ slotData s.free s.eq 0 ++ slotData s.free s.eq 1 ++ slotData s.free s.eq 2 ++
        slotData s.free s.eq 3) { afterTake i s with free := s.free + 1 })) ∧
  (∀ (c : Context) (i : Fin 2) (s : State), NoHeld s → Takes .sdvStatus c i s →
    exec .sdvStatus s = .next (replied c .ok
      ([s.sdv.state.code] ++ speedData s.sdv.lastSpeed ++ speedData s.sdv.manual ++ ageData s.free s.sdv.age ++
        [byteOf s.sdv.boost, byteOf s.sdv.targets[0], byteOf s.sdv.targets[1], byteOf s.sdv.targets[2],
          byteOf s.sdv.targets[3]] ++ bytes16 s.sdv.hold ++ bytes16 s.sdv.fallback ++ [byteOf s.sdv.hyst] ++
        bytes16 s.sdv.rampMs) { afterTake i s with free := s.free + 1 })) ∧
  (∀ (c : Context) (i : Fin 2) (s : State), NoHeld s → Takes .cueStatus c i s →
    exec .cueStatus s = .next (replied c .ok (runnerRecord s.cue.runners[0] ++ runnerRecord s.cue.runners[1]) (afterTake i s))) ∧
  (∀ (f : Nat) (e : EqUnit) (i : Fin 4), slotData f e i = match e.slots[i] with
    | some x => byteOf x.output.val :: bytes16 x.k
    | none => 0xFF :: bytes16 (Config.freeSlotK f i.val).toNat) ∧
  (∀ v : Nat, speedData (some v) = bytes16 v ∧ speedData none = [0xFF, 0xFF]) ∧
  (∀ f a : Nat, ageData f (some a) = 1 :: bytes16 a ∧ ageData f none = 0 :: bytes16 (Config.freeAge f).toNat) ∧
  (∀ x : Runner,
    (runnerRecord x).length = 20 ∧
    (runnerRecord x).take 6 =
      [BitVec.ofNat 8 (x.state.code.toNat + (if x.latch then 16 else 0) + (if x.timedOut then 32 else 0)),
        byteOf (x.nextFetch - Fin.ofNat 256 x.window.length).val, byteOf x.window.length] ++ bytes24 x.elapsed ∧
    ((∀ src : Source, -480 ≤ x.requests[src] ∧ x.requests[src] ≤ 0) →
      ((runnerRecord x).drop 6).foldl (fun n b => n * 256 + b.toNat) 0 =
        16 * x.requests.toList.foldl (fun n v => n * 512 + v.natAbs) 0))

/-- R171: NOTICE_ENABLE. -/
def Obligations.NoticeEnableTakesMap : Prop :=
  ∀ (c : Context) (i : Fin 2) (w x y z : Byte) (s : State), NoHeld s → Takes .noticeEnable c i s → c.data = [w, x, y, z] →
    ((∃ b ∈ [w, x, y, z], b ≠ 0 ∧ b ≠ 1) → exec .noticeEnable s = .next (replied c .badValue [] (afterTake i s))) ∧
    (∀ a b d e : Bool, [w, x, y, z] = [bitByte a, bitByte b, bitByte d, bitByte e] →
      let map : NoticeEnables := { setApplied := a, cueStopped := b, sdvState := d, ringRelocked := e }
      exec .noticeEnable s = .next (replied c .ok [w, x, y, z] { afterTake i s with ctl := { (afterTake i s).ctl with
        noticeOn := map, notices := (afterTake i s).ctl.notices.filter map.allows } }))

/-- R155, R18: SLOT_MAP: the checks in their order, the read of a map and its replacement. Nothing else changes, so a boundary that is
open closes by the maps it was opened with (`ClosingComposes`), and the new map is used from the next one on. -/
def Obligations.SlotMapChecks : Prop :=
  slotCode none = 0xFF ∧ (∀ i : Slot, (slotCode (some i)).toNat = i.val) ∧
  ∀ (c : Context) (i : Fin 2) (b : Byte) (es : List Byte) (s : State), NoHeld s → Takes .slotMap c i s → c.data = b :: es →
    (b ≠ 0 → b ≠ 1 → exec .slotMap s = .next (replied c .badValue [] (afterTake i s))) ∧
    (∀ out : Bool, b = bitByte out →
      let size := if out then 24 else 12
      (es = [] → exec .slotMap s = .next (replied c .ok
        (b :: (if out then s.port.outputMap.toList.map slotCode else s.port.sourceMap.toList.map slotCode)) (afterTake i s))) ∧
      (es ≠ [] → es.length ≠ size → exec .slotMap s = .next (replied c .badLength [] (afterTake i s))) ∧
      (es.length = size → s.core.mode ≠ .standby → exec .slotMap s = .next (replied c .wrongMode [] (afterTake i s))) ∧
      (es.length = size → s.core.mode = .standby →
        (∃ e ∈ es, 31 < e.toNat ∧ e ≠ 0xFF) ∨ (out = true ∧ ¬ (es.filter fun e => decide (e ≠ 0xFF)).Nodup) →
        exec .slotMap s = .next (replied c .badValue [] (afterTake i s))) ∧
      (es.length = size → s.core.mode = .standby → (∀ e ∈ es, e.toNat ≤ 31 ∨ e = 0xFF) →
        (out = true → (es.filter fun e => decide (e ≠ 0xFF)).Nodup) →
        (out = true → ∃ m : Vector (Option Slot) 24, m.toList.map slotCode = es ∧
          exec .slotMap s = .next (replied c .ok (b :: es)
            { afterTake i s with port := { (afterTake i s).port with outputMap := m } })) ∧
        (out = false → ∃ m : Vector (Option Slot) 12, m.toList.map slotCode = es ∧
          exec .slotMap s = .next (replied c .ok (b :: es)
            { afterTake i s with port := { (afterTake i s).port with sourceMap := m } }))))

/-- R169, R87, R97, R98, R116, R133, R136, R150: UNIT_ENABLE: each unit whose state changes takes its effects. Where one request
disables EQ, with a pending write of a section a SECTIONS digest has covered, and TABLE, that digest ends DISTURBED: the model
takes EQ first (entry 25). The replies of abandoned or disturbed operations are written before the request's own OK, which gives the last
good tag (the model's reading, entry 21; R169 gives no order). -/
def Obligations.UnitEnableTakesMap : Prop :=
  ∀ (c : Context) (i : Fin 2) (w x y z : Byte) (s : State), Inv s → Takes .unitEnable c i s → c.data = [w, x, y, z] →
    ((∃ b ∈ [w, x, y, z], b ≠ 0 ∧ b ≠ 1) → exec .unitEnable s = .next (replied c .badValue [] (afterTake i s))) ∧
    (∀ eq sdv cue table : Bool, [w, x, y, z] = [bitByte eq, bitByte sdv, bitByte cue, bitByte table] →
      let map : UnitEnables := { eq := eq, sdv := sdv, cue := cue, table := table }
      (eq ≠ s.ctl.enabled.eq → s.core.mode ≠ .standby →
        exec .unitEnable s = .next (replied c .wrongMode [] (afterTake i s))) ∧
      (map = s.ctl.enabled → exec .unitEnable s = .next (replied c .ok [w, x, y, z] (afterTake i s))) ∧
      (eq = s.ctl.enabled.eq ∨ s.core.mode = .standby → ∃ t : State,
        exec .unitEnable s = .next (replied c .ok [w, x, y, z] t) ∧ t.ctl.enabled = map ∧
        (eq = false → s.ctl.enabled.eq = true → t.eq.pendingWrite = none ∧
          ∀ v : SectionWrite, s.eq.pendingWrite = some v →
            t.eq.sections[v.sec] =
              { s.eq.sections[v.sec] with state := match v.kind with | .load => .free | .rewrite => .loaded } ∧
            (v.kind = .load → t.eq.marked v.sec = true)) ∧
        (∀ n : SectionNo, (∀ v : SectionWrite, s.eq.pendingWrite = some v → n ≠ v.sec) → t.eq.sections[n] = s.eq.sections[n]) ∧
        t.eq.chains = s.eq.chains ∧ t.eq.slots = s.eq.slots ∧
        (eq = s.ctl.enabled.eq → t.eq = s.eq) ∧ (eq = true → t.eq = s.eq) ∧
        (sdv = false → t.sdv.state = .off ∧ t.sdv.boost = 0 ∧ t.sdv.manual = none ∧ t.sdv.age = s.sdv.age) ∧
        (sdv = s.ctl.enabled.sdv → t.sdv = s.sdv) ∧
        t.sdv = { s.sdv with state := t.sdv.state, boost := t.sdv.boost, manual := t.sdv.manual, targets := t.sdv.targets } ∧
        (sdv = false → s.ctl.enabled.sdv = true → ∀ g : Group, t.sdv.targets[g] = 0) ∧
        (sdv = true → s.ctl.enabled.sdv = false → s.core.live.boostCurve = [] → t.sdv = s.sdv) ∧
        (sdv = true → s.ctl.enabled.sdv = false → s.core.live.boostCurve ≠ [] → t.sdv.manual = s.sdv.manual ∧
          TookStateByAge s.sdv s.core.live.boostCurve t.sdv ∧
          ∀ g : Group, t.sdv.targets[g] = groupTarget t.sdv.boost s.core.live.weights[g]) ∧
        (t.sdv.state ≠ s.sdv.state → s.ctl.noticeOn.sdvState = true → .sdvState t.sdv.state ∈ t.ctl.notices) ∧
        (t.sdv.state = s.sdv.state → NoNotice (afterTake i s) t) ∧
        (cue = false → s.ctl.enabled.cue = true → (∀ src : Source, t.ramp.duckTargets[src] = 0) ∧
          t.cue = { s.cue with pendingWrite := none, runners := t.cue.runners } ∧
          ∀ r : RunnerNo, t.cue.runners[r] =
            { s.cue.runners[r] with
                state := .idle, window := [], latch := false, timedOut := false, elapsed := 0, due := false
                requests := Vector.replicate 12 0 }) ∧
        (cue = s.ctl.enabled.cue → t.cue = s.cue) ∧ (cue = true → t.cue = s.cue) ∧
        (t.cue = s.cue → t.ramp.duckTargets = s.ramp.duckTargets) ∧
        (RampInv s → DucksRetargeted 50 s t ∧ BoostsRetargeted s.sdv.rampMs s t ∧
          ∀ i : Fin 64, i.val < 48 → t.ramp.entries[i] = s.ramp.entries[i]) ∧
        let aborted := (if eq = false ∧ s.ctl.enabled.eq = true then s.eq.abandoned else []) ++
          (if cue = false ∧ s.ctl.enabled.cue = true then s.cue.abandoned else [])
        (s.table = none → t.table = none ∧ Answered aborted (afterTake i s) t) ∧
        (∀ op : TableOp, s.table = some op →
          let disturbed := eq = false ∧ s.ctl.enabled.eq = true ∧ op.kind = .digest ∧ op.table = .sections ∧
            ∃ v : SectionWrite, s.eq.pendingWrite = some v ∧ op.first ≤ v.sec.val ∧ v.sec.val < op.next
          (disturbed → t.table = none ∧
            Answered ({ unit := .table, res := .ok, data := 2 :: op.fields } :: aborted) (afterTake i s) t) ∧
          (¬ disturbed → table = true ∨ s.ctl.enabled.table = false →
            t.table = some op ∧ Answered aborted (afterTake i s) t) ∧
          (¬ disturbed → table = false → s.ctl.enabled.table = true →
            t.table = none ∧ Answered (aborted ++ [op.abandoned]) (afterTake i s) t)) ∧
        t.cue.mem = s.cue.mem ∧ t.ctl.flags = s.ctl.flags ∧ t.ctl.clip = s.ctl.clip ∧ t.ctl.noticeOn = s.ctl.noticeOn ∧
        t.port = (afterTake i s).port ∧ SameBut [.port, .ctl, .ramp, .eq, .sdv, .cue, .table] s t))

/-- R170: UNIT_RESET, by unit. STAGE (R77): the staging list and the queue emptied, the claims returned and heard by the TABLE unit.
EQ (R99): the queue discarded, the pending write answered ABORTED (R87), the pool and the chains as at reset; every section and
chain counts as written, so that a digest that has covered any of them ends DISTURBED (the model's reading, entry 18). SDV (R117):
the unit's registers, SDV_STATE and the BOOST keys, over the 2,000 ms then in force. CUE (R137): the pending write answered
ABORTED (R133), both runners halted and their next-fetch addresses 0, the DUCK keys back over 50 ms (R45). TABLE (R150): the
operation answered ABORTED. Such replies are written before the request's own OK (the model's reading, entry 21). -/
def Obligations.UnitResetByUnit : Prop :=
  ∀ (c : Context) (i : Fin 2) (b : Byte) (s : State), NoHeld s → Takes .unitReset c i s → c.data = [b] →
    (UnitId.ofByte b = none ∨ UnitId.ofByte b = some .ctrl →
      exec .unitReset s = .next (replied c .badValue [] (afterTake i s))) ∧
    (UnitId.ofByte b = some .eq → s.core.mode ≠ .standby →
      exec .unitReset s = .next (replied c .wrongMode [] (afterTake i s))) ∧
    (∀ u : UnitId, UnitId.ofByte b = some u → u ≠ .ctrl → u ≠ .eq ∨ s.core.mode = .standby →
      ∃ t : State, exec .unitReset s = .next (replied c .ok [b] t) ∧
        (u = .stage → t.commit = { s.commit with staging := [], queue := [] } ∧
          t.eq = { s.eq with sections := t.eq.sections } ∧
          (∀ n : SectionNo, t.eq.sections[n] =
            { s.eq.sections[n] with state := if n ∈ queuedSections s.commit then .loaded else (s.eq.sections[n]).state }) ∧
          WritesHeard (sectionEntries (queuedSections s.commit)) [] (afterTake i s) t ∧ NoNotice (afterTake i s) t ∧
          TakenBut [.commit, .eq, .table] i s t) ∧
        (u = .eq → t.commit = { s.commit with queue := [] } ∧
          t.eq = { t.eq with slots := s.eq.slots, pendingWrite := none } ∧
          (∀ n : SectionNo, t.eq.sections[n] =
            { coeffs := { b0 := 0, b1 := 0, b2 := 0, a1 := 0, a2 := 0 }, hist := { x1 := 0, x2 := 0, y1 := 0, y2 := 0 },
              state := .free }) ∧
          (∀ n : SectionNo, t.eq.marked n = true) ∧ (∀ g : Fin 4, t.eq.free0.getLsbD g.val = true) ∧
          (∀ o : Output, t.eq.chains[o] = []) ∧
          WritesHeard (fun d n => d = .sections ∧ n < 256 ∨ d = .chains ∧ n < 24) s.eq.abandoned (afterTake i s) t ∧
          NoNotice (afterTake i s) t ∧ TakenBut [.commit, .eq, .table] i s t) ∧
        (u = .sdv →
          t.sdv = { s.sdv with
            state := if s.ctl.enabled.sdv = true ∧ s.core.live.boostCurve ≠ [] then .fallback else .off
            lastSpeed := none, manual := none, age := none, phase := 0, boost := 0, targets := Vector.replicate 4 0
            hold := 30, fallback := 500, hyst := 2, rampMs := 2000 } ∧
          (RampInv s → OnlyBoostsRetargeted 2000 s t) ∧ SdvStateTold (afterTake i s) t ∧ TakenBut [.ramp, .sdv] i s t) ∧
        (u = .cue →
          t.cue = { s.cue with pendingWrite := none, runners := t.cue.runners } ∧
          (∀ r : RunnerNo, t.cue.runners[r] =
            { s.cue.runners[r] with
                state := .idle, window := [], nextFetch := 0, latch := false, timedOut := false, elapsed := 0, due := false
                requests := Vector.replicate 12 0 }) ∧
          (Inv s → (∀ src : Source, t.ramp.duckTargets[src] = 0) ∧ (RampInv s → OnlyDucksRetargeted 50 s t)) ∧
          Answered s.cue.abandoned (afterTake i s) t ∧ NoNotice (afterTake i s) t ∧ TakenBut [.ramp, .cue] i s t) ∧
        (u = .table → t.table = none ∧ Answered (s.table.toList.map TableOp.abandoned) (afterTake i s) t ∧
          NoNotice (afterTake i s) t ∧ TakenBut [.table] i s t))

/-- R172, R160, R161: PART_RESET, taken with a place or, the queue being full, without one: every block at its reset values, nothing
answered, the lock state and the own node kept. The frame in hand goes on, an open boundary's by the maps it was opened with (R160).
What the ring already carries stands as well (the model's choice, entry 6), and so does the model's own index of free values (entry 8). -/
def Obligations.PartResetState : Prop :=
  ∀ (c : Context) (i : Fin 2) (placed : Bool) (s : State),
    nextOffer (queueNotices s) = some { ctx := i, packet := c, placed := placed } → c.row s.ctl.enabled = some .partReset →
    c.broadcast = false → decodeRefusal .partReset c.dataLength s = none →
    ∃ t : State, exec .partReset s = .next t ∧ ResetValues t ∧ t.port.ownNode = s.port.ownNode ∧
      t.port.lock = s.port.lock ∧ t.port.goodSyncs = s.port.goodSyncs ∧ t.port.missingSyncs = s.port.missingSyncs ∧
      t.port.outgoing = none ∧ (∀ src : Source, t.port.sourceMap[src] = none) ∧
      (∀ o : Output, t.port.outputMap[o] = none) ∧ (∀ j : Fin 2, t.port.contexts[j] = none) ∧
      t.frame = s.frame ∧ t.lane = s.lane ∧ t.free = s.free ∧ t.pending = s.pending
end

