-- ==== Sys2Proof/Laws/State.lean ====
section
/-! SUPPORT. What every plain update leaves alone: one lemma for each update, a conjunct for each part it keeps, true by
definition. No later proof unfolds a record update for a part an update does not touch. -/

namespace Sys2Proof.Machine

@[simp] theorem setFlag_keeps (f : Flag) (s : State) :
    (setFlag f s).port = s.port ∧ (setFlag f s).frame = s.frame ∧ (setFlag f s).lane = s.lane ∧
    (setFlag f s).core = s.core ∧ (setFlag f s).ramp = s.ramp ∧ (setFlag f s).commit = s.commit ∧ (setFlag f s).eq = s.eq ∧
    (setFlag f s).sdv = s.sdv ∧ (setFlag f s).cue = s.cue ∧ (setFlag f s).table = s.table ∧ (setFlag f s).free = s.free ∧
    (setFlag f s).pending = s.pending :=
  ⟨rfl, rfl, rfl, rfl, rfl, rfl, rfl, rfl, rfl, rfl, rfl, rfl⟩

@[simp] theorem markClip_keeps (o : Output) (s : State) :
    (markClip o s).port = s.port ∧ (markClip o s).frame = s.frame ∧ (markClip o s).lane = s.lane ∧
    (markClip o s).core = s.core ∧ (markClip o s).ramp = s.ramp ∧ (markClip o s).commit = s.commit ∧
    (markClip o s).eq = s.eq ∧ (markClip o s).sdv = s.sdv ∧ (markClip o s).cue = s.cue ∧ (markClip o s).table = s.table ∧
    (markClip o s).free = s.free ∧ (markClip o s).pending = s.pending :=
  ⟨rfl, rfl, rfl, rfl, rfl, rfl, rfl, rfl, rfl, rfl, rfl, rfl⟩

@[simp] theorem clearFlags_keeps (s : State) :
    (clearFlags s).port = s.port ∧ (clearFlags s).frame = s.frame ∧ (clearFlags s).lane = s.lane ∧
    (clearFlags s).core = s.core ∧ (clearFlags s).ramp = s.ramp ∧ (clearFlags s).commit = s.commit ∧
    (clearFlags s).eq = s.eq ∧ (clearFlags s).sdv = s.sdv ∧ (clearFlags s).cue = s.cue ∧ (clearFlags s).table = s.table ∧
    (clearFlags s).free = s.free ∧ (clearFlags s).pending = s.pending :=
  ⟨rfl, rfl, rfl, rfl, rfl, rfl, rfl, rfl, rfl, rfl, rfl, rfl⟩

@[simp] theorem answer_keeps (rq : Requester) (res : Result) (data : List Byte) (s : State) :
    (answer rq res data s).port = s.port ∧ (answer rq res data s).frame = s.frame ∧ (answer rq res data s).lane = s.lane ∧
    (answer rq res data s).core = s.core ∧ (answer rq res data s).ramp = s.ramp ∧
    (answer rq res data s).commit = s.commit ∧ (answer rq res data s).eq = s.eq ∧ (answer rq res data s).sdv = s.sdv ∧
    (answer rq res data s).cue = s.cue ∧ (answer rq res data s).table = s.table ∧ (answer rq res data s).free = s.free ∧
    (answer rq res data s).pending = s.pending :=
  ⟨rfl, rfl, rfl, rfl, rfl, rfl, rfl, rfl, rfl, rfl, rfl, rfl⟩

@[simp] theorem reserve_keeps (u : UnitId) (s : State) :
    (reserve u s).port = s.port ∧ (reserve u s).frame = s.frame ∧ (reserve u s).lane = s.lane ∧
    (reserve u s).core = s.core ∧ (reserve u s).ramp = s.ramp ∧ (reserve u s).commit = s.commit ∧ (reserve u s).eq = s.eq ∧
    (reserve u s).sdv = s.sdv ∧ (reserve u s).cue = s.cue ∧ (reserve u s).table = s.table ∧ (reserve u s).free = s.free ∧
    (reserve u s).pending = s.pending :=
  ⟨rfl, rfl, rfl, rfl, rfl, rfl, rfl, rfl, rfl, rfl, rfl, rfl⟩

@[simp] theorem releasePlace_keeps (s : State) :
    (releasePlace s).port = s.port ∧ (releasePlace s).frame = s.frame ∧ (releasePlace s).lane = s.lane ∧
    (releasePlace s).core = s.core ∧ (releasePlace s).ramp = s.ramp ∧ (releasePlace s).commit = s.commit ∧
    (releasePlace s).eq = s.eq ∧ (releasePlace s).sdv = s.sdv ∧ (releasePlace s).cue = s.cue ∧
    (releasePlace s).table = s.table ∧ (releasePlace s).free = s.free ∧ (releasePlace s).pending = s.pending :=
  ⟨rfl, rfl, rfl, rfl, rfl, rfl, rfl, rfl, rfl, rfl, rfl, rfl⟩

@[simp] theorem fillReservation_keeps (u : UnitId) (res : Result) (data : List Byte) (s : State) :
    (fillReservation u res data s).port = s.port ∧ (fillReservation u res data s).frame = s.frame ∧
    (fillReservation u res data s).lane = s.lane ∧ (fillReservation u res data s).core = s.core ∧
    (fillReservation u res data s).ramp = s.ramp ∧ (fillReservation u res data s).commit = s.commit ∧
    (fillReservation u res data s).eq = s.eq ∧ (fillReservation u res data s).sdv = s.sdv ∧
    (fillReservation u res data s).cue = s.cue ∧ (fillReservation u res data s).table = s.table ∧
    (fillReservation u res data s).free = s.free ∧ (fillReservation u res data s).pending = s.pending :=
  ⟨rfl, rfl, rfl, rfl, rfl, rfl, rfl, rfl, rfl, rfl, rfl, rfl⟩

@[simp] theorem queueNotices_keeps (s : State) :
    (queueNotices s).port = s.port ∧ (queueNotices s).frame = s.frame ∧ (queueNotices s).lane = s.lane ∧
    (queueNotices s).core = s.core ∧ (queueNotices s).ramp = s.ramp ∧ (queueNotices s).commit = s.commit ∧
    (queueNotices s).eq = s.eq ∧ (queueNotices s).sdv = s.sdv ∧ (queueNotices s).cue = s.cue ∧
    (queueNotices s).table = s.table ∧ (queueNotices s).free = s.free ∧ (queueNotices s).pending = s.pending :=
  ⟨rfl, rfl, rfl, rfl, rfl, rfl, rfl, rfl, rfl, rfl, rfl, rfl⟩

@[simp] theorem setNoticeMap_keeps (e : NoticeEnables) (s : State) :
    (setNoticeMap e s).port = s.port ∧ (setNoticeMap e s).frame = s.frame ∧ (setNoticeMap e s).lane = s.lane ∧
    (setNoticeMap e s).core = s.core ∧ (setNoticeMap e s).ramp = s.ramp ∧ (setNoticeMap e s).commit = s.commit ∧
    (setNoticeMap e s).eq = s.eq ∧ (setNoticeMap e s).sdv = s.sdv ∧ (setNoticeMap e s).cue = s.cue ∧
    (setNoticeMap e s).table = s.table ∧ (setNoticeMap e s).free = s.free ∧ (setNoticeMap e s).pending = s.pending :=
  ⟨rfl, rfl, rfl, rfl, rfl, rfl, rfl, rfl, rfl, rfl, rfl, rfl⟩

@[simp] theorem endTableOp_keeps (res : Result) (data : List Byte) (s : State) :
    (endTableOp res data s).port = s.port ∧ (endTableOp res data s).frame = s.frame ∧
    (endTableOp res data s).lane = s.lane ∧ (endTableOp res data s).core = s.core ∧ (endTableOp res data s).ramp = s.ramp ∧
    (endTableOp res data s).commit = s.commit ∧ (endTableOp res data s).eq = s.eq ∧ (endTableOp res data s).sdv = s.sdv ∧
    (endTableOp res data s).cue = s.cue ∧ (endTableOp res data s).free = s.free ∧
    (endTableOp res data s).pending = s.pending :=
  ⟨rfl, rfl, rfl, rfl, rfl, rfl, rfl, rfl, rfl, rfl, rfl⟩

@[simp] theorem onRunner_keeps (r : RunnerNo) (f : Runner → Runner) (s : State) :
    (onRunner r f s).port = s.port ∧ (onRunner r f s).frame = s.frame ∧ (onRunner r f s).lane = s.lane ∧
    (onRunner r f s).ctl = s.ctl ∧ (onRunner r f s).core = s.core ∧ (onRunner r f s).ramp = s.ramp ∧
    (onRunner r f s).commit = s.commit ∧ (onRunner r f s).eq = s.eq ∧ (onRunner r f s).sdv = s.sdv ∧
    (onRunner r f s).table = s.table ∧ (onRunner r f s).free = s.free ∧ (onRunner r f s).pending = s.pending :=
  ⟨rfl, rfl, rfl, rfl, rfl, rfl, rfl, rfl, rfl, rfl, rfl, rfl⟩

@[simp] theorem recomputeDuck_keeps (src : Source) (ms : Nat) (s : State) :
    (recomputeDuck src ms s).port = s.port ∧ (recomputeDuck src ms s).frame = s.frame ∧
    (recomputeDuck src ms s).lane = s.lane ∧ (recomputeDuck src ms s).ctl = s.ctl ∧
    (recomputeDuck src ms s).core = s.core ∧ (recomputeDuck src ms s).commit = s.commit ∧
    (recomputeDuck src ms s).eq = s.eq ∧ (recomputeDuck src ms s).sdv = s.sdv ∧ (recomputeDuck src ms s).cue = s.cue ∧
    (recomputeDuck src ms s).table = s.table ∧ (recomputeDuck src ms s).free = s.free ∧
    (recomputeDuck src ms s).pending = s.pending :=
  ⟨rfl, rfl, rfl, rfl, rfl, rfl, rfl, rfl, rfl, rfl, rfl, rfl⟩

@[simp] theorem setGroupTarget_keeps (g : Group) (v : Int) (s : State) :
    (setGroupTarget g v s).port = s.port ∧ (setGroupTarget g v s).frame = s.frame ∧ (setGroupTarget g v s).lane = s.lane ∧
    (setGroupTarget g v s).ctl = s.ctl ∧ (setGroupTarget g v s).core = s.core ∧ (setGroupTarget g v s).commit = s.commit ∧
    (setGroupTarget g v s).eq = s.eq ∧ (setGroupTarget g v s).cue = s.cue ∧ (setGroupTarget g v s).table = s.table ∧
    (setGroupTarget g v s).free = s.free ∧ (setGroupTarget g v s).pending = s.pending :=
  ⟨rfl, rfl, rfl, rfl, rfl, rfl, rfl, rfl, rfl, rfl, rfl⟩

@[simp] theorem retargetSet_keeps (vs : List Move) (s : State) :
    (retargetSet vs s).port = s.port ∧ (retargetSet vs s).frame = s.frame ∧ (retargetSet vs s).lane = s.lane ∧
    (retargetSet vs s).ctl = s.ctl ∧ (retargetSet vs s).commit = s.commit ∧ (retargetSet vs s).eq = s.eq ∧
    (retargetSet vs s).sdv = s.sdv ∧ (retargetSet vs s).cue = s.cue ∧ (retargetSet vs s).table = s.table ∧
    (retargetSet vs s).free = s.free ∧ (retargetSet vs s).pending = s.pending := by
  simp only [retargetSet, and_self]

@[simp] theorem abortOpen_keeps (s : State) :
    (abortOpen s).port = s.port ∧ (abortOpen s).frame = s.frame ∧ (abortOpen s).lane = s.lane ∧ (abortOpen s).ctl = s.ctl ∧
    (abortOpen s).core = s.core ∧ (abortOpen s).ramp = s.ramp ∧ (abortOpen s).eq = s.eq ∧ (abortOpen s).sdv = s.sdv ∧
    (abortOpen s).cue = s.cue ∧ (abortOpen s).table = s.table ∧ (abortOpen s).free = s.free ∧
    (abortOpen s).pending = s.pending :=
  ⟨rfl, rfl, rfl, rfl, rfl, rfl, rfl, rfl, rfl, rfl, rfl, rfl⟩

@[simp] theorem freeContextAt_keeps (i : Fin 2) (s : State) :
    (freeContextAt i s).frame = s.frame ∧ (freeContextAt i s).lane = s.lane ∧ (freeContextAt i s).ctl = s.ctl ∧
    (freeContextAt i s).core = s.core ∧ (freeContextAt i s).ramp = s.ramp ∧ (freeContextAt i s).commit = s.commit ∧
    (freeContextAt i s).eq = s.eq ∧ (freeContextAt i s).sdv = s.sdv ∧ (freeContextAt i s).cue = s.cue ∧
    (freeContextAt i s).table = s.table ∧ (freeContextAt i s).free = s.free ∧ (freeContextAt i s).pending = s.pending :=
  ⟨rfl, rfl, rfl, rfl, rfl, rfl, rfl, rfl, rfl, rfl, rfl, rfl⟩

@[simp] theorem putContext_keeps (i : Fin 2) (c : Context) (s : State) :
    (putContext i c s).frame = s.frame ∧ (putContext i c s).lane = s.lane ∧ (putContext i c s).ctl = s.ctl ∧
    (putContext i c s).core = s.core ∧ (putContext i c s).ramp = s.ramp ∧ (putContext i c s).commit = s.commit ∧
    (putContext i c s).eq = s.eq ∧ (putContext i c s).sdv = s.sdv ∧ (putContext i c s).cue = s.cue ∧
    (putContext i c s).table = s.table ∧ (putContext i c s).free = s.free ∧ (putContext i c s).pending = s.pending :=
  ⟨rfl, rfl, rfl, rfl, rfl, rfl, rfl, rfl, rfl, rfl, rfl, rfl⟩

@[simp] theorem sendCell_keeps (c : Cell) (s : State) :
    (sendCell c s).port = s.port ∧ (sendCell c s).frame = s.frame ∧ (sendCell c s).ctl = s.ctl ∧
    (sendCell c s).core = s.core ∧ (sendCell c s).ramp = s.ramp ∧ (sendCell c s).commit = s.commit ∧
    (sendCell c s).eq = s.eq ∧ (sendCell c s).sdv = s.sdv ∧ (sendCell c s).cue = s.cue ∧ (sendCell c s).table = s.table ∧
    (sendCell c s).free = s.free ∧ (sendCell c s).pending = s.pending :=
  ⟨rfl, rfl, rfl, rfl, rfl, rfl, rfl, rfl, rfl, rfl, rfl, rfl⟩

@[simp] theorem spendGrant_keeps (s : State) :
    (spendGrant s).port = s.port ∧ (spendGrant s).lane = s.lane ∧ (spendGrant s).ctl = s.ctl ∧
    (spendGrant s).core = s.core ∧ (spendGrant s).ramp = s.ramp ∧ (spendGrant s).commit = s.commit ∧
    (spendGrant s).eq = s.eq ∧ (spendGrant s).sdv = s.sdv ∧ (spendGrant s).cue = s.cue ∧ (spendGrant s).table = s.table ∧
    (spendGrant s).free = s.free ∧ (spendGrant s).pending = s.pending :=
  ⟨rfl, rfl, rfl, rfl, rfl, rfl, rfl, rfl, rfl, rfl, rfl, rfl⟩

@[simp] theorem openFrame_keeps (up : Vector Sample 32) (s : State) :
    (openFrame up s).port = s.port ∧ (openFrame up s).lane = s.lane ∧ (openFrame up s).ctl = s.ctl ∧
    (openFrame up s).core = s.core ∧ (openFrame up s).ramp = s.ramp ∧ (openFrame up s).commit = s.commit ∧
    (openFrame up s).eq = s.eq ∧ (openFrame up s).sdv = s.sdv ∧ (openFrame up s).cue = s.cue ∧
    (openFrame up s).table = s.table ∧ (openFrame up s).free = s.free ∧ (openFrame up s).pending = s.pending :=
  ⟨rfl, rfl, rfl, rfl, rfl, rfl, rfl, rfl, rfl, rfl, rfl, rfl⟩

@[simp] theorem countLive_keeps (d : TableId) (n : Nat) (s : State) :
    (countLive d n s).port = s.port ∧ (countLive d n s).lane = s.lane ∧ (countLive d n s).ctl = s.ctl ∧
    (countLive d n s).core = s.core ∧ (countLive d n s).ramp = s.ramp ∧ (countLive d n s).commit = s.commit ∧
    (countLive d n s).eq = s.eq ∧ (countLive d n s).sdv = s.sdv ∧ (countLive d n s).cue = s.cue ∧
    (countLive d n s).table = s.table ∧ (countLive d n s).free = s.free ∧ (countLive d n s).pending = s.pending := by
  unfold countLive
  split <;> exact ⟨rfl, rfl, rfl, rfl, rfl, rfl, rfl, rfl, rfl, rfl, rfl, rfl⟩

@[simp] theorem advanceGains_keeps (s : State) :
    (advanceGains s).port = s.port ∧ (advanceGains s).frame = s.frame ∧ (advanceGains s).lane = s.lane ∧
    (advanceGains s).ctl = s.ctl ∧ (advanceGains s).commit = s.commit ∧ (advanceGains s).sdv = s.sdv ∧
    (advanceGains s).cue = s.cue ∧ (advanceGains s).table = s.table ∧ (advanceGains s).free = s.free ∧
    (advanceGains s).pending = s.pending :=
  ⟨rfl, rfl, rfl, rfl, rfl, rfl, rfl, rfl, rfl, rfl⟩

@[simp] theorem advanceRunners_keeps (s : State) :
    (advanceRunners s).port = s.port ∧ (advanceRunners s).frame = s.frame ∧ (advanceRunners s).lane = s.lane ∧
    (advanceRunners s).ctl = s.ctl ∧ (advanceRunners s).core = s.core ∧ (advanceRunners s).ramp = s.ramp ∧
    (advanceRunners s).commit = s.commit ∧ (advanceRunners s).eq = s.eq ∧ (advanceRunners s).sdv = s.sdv ∧
    (advanceRunners s).table = s.table ∧ (advanceRunners s).pending = s.pending :=
  ⟨rfl, rfl, rfl, rfl, rfl, rfl, rfl, rfl, rfl, rfl, rfl⟩

@[simp] theorem markBatch_keeps (s : State) :
    (markBatch s).port = s.port ∧ (markBatch s).frame = s.frame ∧ (markBatch s).lane = s.lane ∧ (markBatch s).ctl = s.ctl ∧
    (markBatch s).core = s.core ∧ (markBatch s).ramp = s.ramp ∧ (markBatch s).commit = s.commit ∧ (markBatch s).eq = s.eq ∧
    (markBatch s).sdv = s.sdv ∧ (markBatch s).cue = s.cue ∧ (markBatch s).free = s.free ∧
    (markBatch s).pending = s.pending :=
  ⟨rfl, rfl, rfl, rfl, rfl, rfl, rfl, rfl, rfl, rfl, rfl, rfl⟩

@[simp] theorem transferSlots_keeps (f : Opened) (s : State) :
    (transferSlots f s).port = s.port ∧ (transferSlots f s).frame = s.frame ∧ (transferSlots f s).ctl = s.ctl ∧
    (transferSlots f s).ramp = s.ramp ∧ (transferSlots f s).commit = s.commit ∧ (transferSlots f s).eq = s.eq ∧
    (transferSlots f s).sdv = s.sdv ∧ (transferSlots f s).cue = s.cue ∧ (transferSlots f s).table = s.table ∧
    (transferSlots f s).free = s.free ∧ (transferSlots f s).pending = s.pending := by
  simp only [transferSlots, and_self]

@[simp] theorem takeRampEnd_keeps (i : Fin 64) (s : State) :
    (takeRampEnd i s).port = s.port ∧ (takeRampEnd i s).frame = s.frame ∧ (takeRampEnd i s).lane = s.lane ∧
    (takeRampEnd i s).ctl = s.ctl ∧ (takeRampEnd i s).core = s.core ∧ (takeRampEnd i s).commit = s.commit ∧
    (takeRampEnd i s).eq = s.eq ∧ (takeRampEnd i s).sdv = s.sdv ∧ (takeRampEnd i s).cue = s.cue ∧
    (takeRampEnd i s).table = s.table ∧ (takeRampEnd i s).free = s.free ∧ (takeRampEnd i s).pending = s.pending :=
  ⟨rfl, rfl, rfl, rfl, rfl, rfl, rfl, rfl, rfl, rfl, rfl, rfl⟩

@[simp] theorem startCueWrite_keeps (a : CueAddr) (es : List CueEntry) (s : State) :
    (startCueWrite a es s).port = s.port ∧ (startCueWrite a es s).frame = s.frame ∧ (startCueWrite a es s).lane = s.lane ∧
    (startCueWrite a es s).core = s.core ∧ (startCueWrite a es s).ramp = s.ramp ∧
    (startCueWrite a es s).commit = s.commit ∧ (startCueWrite a es s).eq = s.eq ∧ (startCueWrite a es s).sdv = s.sdv ∧
    (startCueWrite a es s).table = s.table ∧ (startCueWrite a es s).free = s.free ∧
    (startCueWrite a es s).pending = s.pending :=
  ⟨rfl, rfl, rfl, rfl, rfl, rfl, rfl, rfl, rfl, rfl, rfl⟩

@[simp] theorem startRunner_keeps (r : RunnerNo) (a : CueAddr) (s : State) :
    (startRunner r a s).port = s.port ∧ (startRunner r a s).frame = s.frame ∧ (startRunner r a s).lane = s.lane ∧
    (startRunner r a s).ctl = s.ctl ∧ (startRunner r a s).core = s.core ∧ (startRunner r a s).ramp = s.ramp ∧
    (startRunner r a s).commit = s.commit ∧ (startRunner r a s).eq = s.eq ∧ (startRunner r a s).sdv = s.sdv ∧
    (startRunner r a s).table = s.table ∧ (startRunner r a s).free = s.free ∧ (startRunner r a s).pending = s.pending :=
  ⟨rfl, rfl, rfl, rfl, rfl, rfl, rfl, rfl, rfl, rfl, rfl, rfl⟩

@[simp] theorem dropLock_keeps (s : State) :
    (dropLock s).lane = s.lane ∧ (dropLock s).ctl = s.ctl ∧ (dropLock s).ramp = s.ramp ∧ (dropLock s).commit = s.commit ∧
    (dropLock s).eq = s.eq ∧ (dropLock s).sdv = s.sdv ∧ (dropLock s).cue = s.cue ∧ (dropLock s).table = s.table ∧
    (dropLock s).free = s.free ∧ (dropLock s).pending = s.pending :=
  ⟨rfl, rfl, rfl, rfl, rfl, rfl, rfl, rfl, rfl, rfl⟩

@[simp] theorem replied_keeps (c : Context) (res : Result) (data : List Byte) (s : State) :
    (replied c res data s).port = s.port ∧ (replied c res data s).frame = s.frame ∧ (replied c res data s).lane = s.lane ∧
    (replied c res data s).core = s.core ∧ (replied c res data s).ramp = s.ramp ∧
    (replied c res data s).commit = s.commit ∧ (replied c res data s).eq = s.eq ∧ (replied c res data s).sdv = s.sdv ∧
    (replied c res data s).cue = s.cue ∧ (replied c res data s).table = s.table ∧ (replied c res data s).free = s.free ∧
    (replied c res data s).pending = s.pending :=
  ⟨rfl, rfl, rfl, rfl, rfl, rfl, rfl, rfl, rfl, rfl, rfl, rfl⟩

@[simp] theorem reserved_keeps (u : UnitId) (c : Context) (s : State) :
    (reserved u c s).port = s.port ∧ (reserved u c s).frame = s.frame ∧ (reserved u c s).lane = s.lane ∧
    (reserved u c s).core = s.core ∧ (reserved u c s).ramp = s.ramp ∧ (reserved u c s).commit = s.commit ∧
    (reserved u c s).eq = s.eq ∧ (reserved u c s).sdv = s.sdv ∧ (reserved u c s).cue = s.cue ∧
    (reserved u c s).table = s.table ∧ (reserved u c s).free = s.free ∧ (reserved u c s).pending = s.pending :=
  ⟨rfl, rfl, rfl, rfl, rfl, rfl, rfl, rfl, rfl, rfl, rfl, rfl⟩

@[simp] theorem afterTake_keeps (i : Fin 2) (s : State) :
    (afterTake i s).frame = s.frame ∧ (afterTake i s).lane = s.lane ∧ (afterTake i s).core = s.core ∧
    (afterTake i s).ramp = s.ramp ∧ (afterTake i s).commit = s.commit ∧ (afterTake i s).eq = s.eq ∧
    (afterTake i s).sdv = s.sdv ∧ (afterTake i s).cue = s.cue ∧ (afterTake i s).table = s.table ∧
    (afterTake i s).free = s.free ∧ (afterTake i s).pending = s.pending :=
  ⟨rfl, rfl, rfl, rfl, rfl, rfl, rfl, rfl, rfl, rfl, rfl⟩

end Sys2Proof.Machine
end

