-- ==== Sys2Proof/Laws/Frames.lean ====
section
/-! SUPPORT. What every shared operation leaves alone, as `SameBut`: one lemma for each operation, built from those it calls.
From `h : SameBut ps s t` a part not in `ps` is read off as `h .core (by decide) : t.core = s.core`. -/

namespace Sys2Proof.Machine

/-! ## The relation -/

theorem SameBut.refl (ps : List Part) (s : State) : SameBut ps s s := fun p _ => by cases p <;> rfl

theorem SameBut.trans {ps : List Part} {s t u : State} (h : SameBut ps s t) (k : SameBut ps t u) : SameBut ps s u :=
  fun p hp => by
    have a := h p hp
    have b := k p hp
    cases p <;> exact Eq.trans b a

theorem SameBut.mono {ps qs : List Part} {s t : State} (h : SameBut ps s t) (sub : ∀ p ∈ ps, p ∈ qs) : SameBut qs s t :=
  fun p hp => h p fun hq => hp (sub p hq)

theorem SameBut.foldl {α : Type} {ps : List Part} {f : State → α → State} (h : ∀ s a, SameBut ps s (f s a)) :
    ∀ (l : List α) (s : State), SameBut ps s (l.foldl f s)
  | [], s => SameBut.refl ps s
  | a :: l, s => (h s a).trans (SameBut.foldl h l (f s a))

/-- An update that keeps every part outside `ps` by definition. -/
theorem SameBut.ofParts {ps : List Part} {s t : State} (h : ∀ p : Part, p ∈ ps ∨ p.same s t) : SameBut ps s t :=
  fun p hp => (h p).resolve_left hp

/-! ## Plain updates -/

theorem setFlag_same (f : Flag) (s : State) : SameBut [.ctl] s (setFlag f s) :=
  SameBut.ofParts fun p => by cases p <;> first | exact Or.inr rfl | exact Or.inl (by decide)

theorem answer_same (rq : Requester) (res : Result) (data : List Byte) (s : State) :
    SameBut [.ctl] s (answer rq res data s) :=
  SameBut.ofParts fun p => by cases p <;> first | exact Or.inr rfl | exact Or.inl (by decide)

theorem reserve_same (u : UnitId) (s : State) : SameBut [.ctl] s (reserve u s) :=
  SameBut.ofParts fun p => by cases p <;> first | exact Or.inr rfl | exact Or.inl (by decide)

theorem releasePlace_same (s : State) : SameBut [.ctl] s (releasePlace s) :=
  SameBut.ofParts fun p => by cases p <;> first | exact Or.inr rfl | exact Or.inl (by decide)

theorem fillReservation_same (u : UnitId) (res : Result) (data : List Byte) (s : State) :
    SameBut [.ctl] s (fillReservation u res data s) :=
  SameBut.ofParts fun p => by cases p <;> first | exact Or.inr rfl | exact Or.inl (by decide)

theorem queueNotices_same (s : State) : SameBut [.ctl] s (queueNotices s) :=
  SameBut.ofParts fun p => by cases p <;> first | exact Or.inr rfl | exact Or.inl (by decide)

theorem raiseNotice_same (n : Notice) (s : State) : SameBut [.ctl] s (raiseNotice n s) := by
  unfold raiseNotice
  split
  · exact SameBut.ofParts fun p => by cases p <;> first | exact Or.inr rfl | exact Or.inl (by decide)
  · exact SameBut.refl _ s

theorem endTableOp_same (res : Result) (data : List Byte) (s : State) : SameBut [.ctl, .table] s (endTableOp res data s) :=
  SameBut.ofParts fun p => by cases p <;> first | exact Or.inr rfl | exact Or.inl (by decide)

theorem reportWrites_same (t : TableId) (is : List Nat) (s : State) : SameBut [.ctl, .table] s (reportWrites t is s) := by
  unfold reportWrites
  split
  · exact SameBut.refl _ s
  · split
    · exact endTableOp_same _ _ s
    · exact SameBut.refl _ s

theorem abortTableOp_same (s : State) : SameBut [.ctl, .table] s (abortTableOp s) := by
  unfold abortTableOp
  split
  · exact SameBut.refl _ s
  · split <;> exact endTableOp_same _ _ s

theorem onRunner_same (r : RunnerNo) (f : Runner → Runner) (s : State) : SameBut [.cue] s (onRunner r f s) :=
  SameBut.ofParts fun p => by cases p <;> first | exact Or.inr rfl | exact Or.inl (by decide)

/-! ## DUCK requests and runners -/

theorem recomputeDuck_same (src : Source) (ms : Nat) (s : State) : SameBut [.ramp] s (recomputeDuck src ms s) :=
  SameBut.ofParts fun p => by cases p <;> first | exact Or.inr rfl | exact Or.inl (by decide)

theorem setRequest_same (r : RunnerNo) (v : Int) (ms : Nat) (src : Source) (s : State) :
    SameBut [.ramp, .cue] s (setRequest r v ms src s) := by
  unfold setRequest
  split
  · exact SameBut.refl _ s
  · exact ((onRunner_same r _ s).mono (by decide)).trans ((recomputeDuck_same src ms _).mono (by decide))

theorem setRequests_same (r : RunnerNo) (v : Int) (ms : Nat) (srcs : List Source) (s : State) :
    SameBut [.ramp, .cue] s (setRequests r v ms srcs s) :=
  SameBut.foldl (fun s src => setRequest_same r v ms src s) srcs s

theorem startEntry_same (r : RunnerNo) : ∀ (fuel : Nat) (s : State), SameBut [.ctl, .ramp, .cue] s (startEntry r fuel s)
  | 0, s => (onRunner_same r _ s).mono (by decide)
  | fuel + 1, s => by
    unfold startEntry
    split
    · exact (onRunner_same r _ s).mono (by decide)
    · split
      · have h := (setRequests_same r ‹Int› ‹Nat› (maskSources ‹BitVec 12›) s).mono
          (qs := [.ctl, .ramp, .cue]) (by decide)
        dsimp only
        split
        · exact SameBut.trans (SameBut.trans ((setRequests_same r _ _ _ s).mono (by decide))
            ((onRunner_same r Runner.shift _).mono (by decide))) (startEntry_same r fuel _)
        · exact SameBut.trans ((setRequests_same r _ _ _ s).mono (by decide)) ((onRunner_same r _ _).mono (by decide))
      · split
        · exact SameBut.trans ((onRunner_same r _ s).mono (by decide)) (startEntry_same r fuel _)
        · exact (onRunner_same r _ s).mono (by decide)
      · exact (onRunner_same r _ s).mono (by decide)
      · dsimp only
        split
        · exact SameBut.trans ((onRunner_same r _ s).mono (by decide)) ((raiseNotice_same _ _).mono (by decide))
        · exact (onRunner_same r _ s).mono (by decide)
      · exact SameBut.trans ((onRunner_same r _ s).mono (by decide)) ((raiseNotice_same _ _).mono (by decide))

theorem startWindow_same (r : RunnerNo) (s : State) : SameBut [.ctl, .ramp, .cue] s (startWindow r s) :=
  startEntry_same r _ s

theorem completeEntry_same (r : RunnerNo) (s : State) : SameBut [.ctl, .ramp, .cue] s (completeEntry r s) :=
  ((onRunner_same r _ s).mono (by decide)).trans (startWindow_same r _)

theorem completeWait_same (r : RunnerNo) (b : Bool) (s : State) : SameBut [.ctl, .ramp, .cue] s (completeWait r b s) :=
  ((onRunner_same r _ s).mono (by decide)).trans (completeEntry_same r _)

theorem fetchWindow_same (r : RunnerNo) (s : State) : SameBut [.ctl, .ramp, .cue] s (fetchWindow r s) :=
  ((onRunner_same r _ s).mono (by decide)).trans (startWindow_same r _)

theorem haltRunner_same (r : RunnerNo) (s : State) : SameBut [.ramp, .cue] s (haltRunner r s) :=
  ((onRunner_same r _ s).mono (by decide)).trans (setRequests_same r _ _ _ _)

theorem haltBoth_same (s : State) : SameBut [.ramp, .cue] s (haltBoth s) := (haltRunner_same 0 s).trans (haltRunner_same 1 _)

theorem abortCueWrite_same (s : State) : SameBut [.ctl, .cue] s (abortCueWrite s) := by
  unfold abortCueWrite
  split
  · exact SameBut.refl _ s
  · exact SameBut.ofParts fun p => by cases p <;> first | exact Or.inr rfl | exact Or.inl (by decide)

theorem cueDisable_same (s : State) : SameBut [.ctl, .ramp, .cue] s (cueDisable s) :=
  ((abortCueWrite_same s).mono (by decide)).trans ((haltBoth_same _).mono (by decide))

theorem cueReset_same (s : State) : SameBut [.ctl, .ramp, .cue] s (cueReset s) :=
  ((cueDisable_same s).trans ((onRunner_same 0 _ _).mono (by decide))).trans ((onRunner_same 1 _ _).mono (by decide))

theorem takeStep_same (r : RunnerNo) (s : State) : SameBut [.ctl, .ramp, .cue] s (takeStep r s) := by
  unfold takeStep
  split
  · exact completeEntry_same r s
  · exact SameBut.refl _ s

theorem takeTimeout_same (r : RunnerNo) (s : State) : SameBut [.ctl, .ramp, .cue] s (takeTimeout r s) := by
  unfold takeTimeout
  split
  · exact completeWait_same r true s
  · exact SameBut.refl _ s

theorem advanceRunners_same (s : State) : SameBut [.cue, .free] s (advanceRunners s) :=
  SameBut.ofParts fun p => by cases p <;> first | exact Or.inr rfl | exact Or.inl (by decide)

/-! ## The SDV unit -/

theorem setGroupTarget_same (g : Group) (v : Int) (s : State) : SameBut [.ramp, .sdv] s (setGroupTarget g v s) :=
  SameBut.ofParts fun p => by cases p <;> first | exact Or.inr rfl | exact Or.inl (by decide)

theorem followBoost_same (s : State) : SameBut [.ramp, .sdv] s (followBoost s) :=
  SameBut.foldl (fun s g => setGroupTarget_same g _ s) _ s

theorem adoptBoost_same (b : Int) (s : State) : SameBut [.ramp, .sdv] s (adoptBoost b s) :=
  SameBut.trans (SameBut.ofParts fun p => by cases p <;> first | exact Or.inr rfl | exact Or.inl (by decide)) (followBoost_same _)

theorem setSdvState_same (st : SdvState) (s : State) : SameBut [.ctl, .sdv] s (setSdvState st s) := by
  unfold setSdvState
  split
  · exact SameBut.refl _ s
  · exact SameBut.trans (SameBut.ofParts fun p => by cases p <;> first | exact Or.inr rfl | exact Or.inl (by decide))
      ((raiseNotice_same _ _).mono (by decide))

theorem adoptAfterState_same (b : Int) (st : SdvState) (s : State) :
    SameBut [.ctl, .ramp, .sdv] s (adoptBoost b (setSdvState st s)) :=
  ((setSdvState_same st s).mono (by decide)).trans ((adoptBoost_same b _).mono (by decide))

theorem takeStateByAge_same (s : State) : SameBut [.ctl, .ramp, .sdv] s (takeStateByAge s) := by
  unfold takeStateByAge
  split
  · exact adoptAfterState_same _ _ s
  · exact adoptAfterState_same _ _ s
  · exact adoptAfterState_same _ _ s
  · exact SameBut.refl _ s
  · exact SameBut.refl _ s

theorem compareAge_same (s : State) : SameBut [.ctl, .ramp, .sdv] s (compareAge s) := by
  unfold compareAge
  split
  · exact SameBut.refl _ s
  · split
    · split
      · exact adoptAfterState_same _ _ s
      · split
        · exact (setSdvState_same _ s).mono (by decide)
        · exact SameBut.refl _ s
    · split
      · exact adoptAfterState_same _ _ s
      · exact SameBut.refl _ s
    all_goals exact SameBut.refl _ s

theorem ageRise_same (s : State) : SameBut [.ctl, .ramp, .sdv] s (ageRise s) := by
  unfold ageRise
  split
  · exact SameBut.refl _ s
  · split
    · exact SameBut.ofParts fun p => by cases p <;> first | exact Or.inr rfl | exact Or.inl (by decide)
    · exact SameBut.trans (SameBut.ofParts fun p => by cases p <;> first | exact Or.inr rfl | exact Or.inl (by decide))
        (compareAge_same _)

theorem ageAdvance_same (s : State) : SameBut [.sdv] s (ageAdvance s) := by
  unfold ageAdvance
  split
  · exact SameBut.refl _ s
  · split <;> exact SameBut.ofParts fun p => by cases p <;> first | exact Or.inr rfl | exact Or.inl (by decide)

theorem takeTick_same (s : State) : SameBut [.ctl, .ramp, .sdv] s (takeTick s) := by
  unfold takeTick
  split
  · exact SameBut.trans (SameBut.ofParts fun p => by cases p <;> first | exact Or.inr rfl | exact Or.inl (by decide))
      (ageRise_same _)
  · exact SameBut.refl _ s

theorem acceptReport_same (v : Nat) (s : State) : SameBut [.ctl, .ramp, .sdv] s (acceptReport v s) := by
  have h : SameBut [.ctl, .ramp, .sdv] s { s with sdv := { s.sdv with lastSpeed := some v, age := some 0, phase := 0 } } :=
    SameBut.ofParts fun p => by cases p <;> first | exact Or.inr rfl | exact Or.inl (by decide)
  unfold acceptReport
  dsimp only
  split
  · split
    · exact h.trans ((adoptBoost_same _ _).mono (by decide))
    · exact h
  · exact h.trans (adoptAfterState_same _ _ _)

theorem speedReport_same (v : Nat) (valid : Bool) (s : State) : SameBut [.ctl, .ramp, .sdv] s (speedReport v valid s) := by
  unfold speedReport
  split
  · exact (setFlag_same _ s).mono (by decide)
  · exact SameBut.refl _ s
  · exact acceptReport_same v s

theorem stateThenManual_same (b : Int) (st : SdvState) (m : Option Nat) (s : State) :
    SameBut [.ctl, .ramp, .sdv] s
      (adoptBoost b { setSdvState st s with sdv := { (setSdvState st s).sdv with manual := m } }) :=
  SameBut.trans ((setSdvState_same st s).mono (by decide))
    (SameBut.trans (SameBut.ofParts fun p => by cases p <;> first | exact Or.inr rfl | exact Or.inl (by decide))
      ((adoptBoost_same b _).mono (by decide)))

theorem curveChange_same (s : State) : SameBut [.ctl, .ramp, .sdv] s (curveChange s) := by
  unfold curveChange
  split
  · split
    · exact SameBut.refl _ s
    · exact stateThenManual_same 0 .off none s
  · split
    · split
      · exact takeStateByAge_same s
      · exact SameBut.refl _ s
    · exact (adoptBoost_same _ s).mono (by decide)
    · exact (adoptBoost_same _ s).mono (by decide)
    · exact SameBut.refl _ s
    · exact (adoptBoost_same _ s).mono (by decide)

theorem sdvDisable_same (s : State) : SameBut [.ctl, .ramp, .sdv] s (sdvDisable s) := stateThenManual_same 0 .off none s

theorem sdvEnable_same (s : State) : SameBut [.ctl, .ramp, .sdv] s (sdvEnable s) := by
  unfold sdvEnable
  split
  · exact SameBut.refl _ s
  · exact takeStateByAge_same s

theorem sdvReset_same (s : State) : SameBut [.ctl, .ramp, .sdv] s (sdvReset s) := by
  unfold sdvReset
  exact SameBut.trans (SameBut.ofParts fun p => by cases p <;> first | exact Or.inr rfl | exact Or.inl (by decide))
    (adoptAfterState_same _ _ _)

theorem setConfig_same (a b c d : Nat) (s : State) : SameBut [.ctl, .ramp, .sdv] s (setConfig a b c d s) :=
  SameBut.trans (SameBut.ofParts fun p => by cases p <;> first | exact Or.inr rfl | exact Or.inl (by decide)) (compareAge_same _)

theorem enterManual_same (v : Nat) (s : State) : SameBut [.ctl, .ramp, .sdv] s (enterManual v s) :=
  stateThenManual_same _ .manual (some v) s

theorem leaveManual_same (s : State) : SameBut [.ctl, .ramp, .sdv] s (leaveManual s) :=
  SameBut.trans (SameBut.ofParts fun p => by cases p <;> first | exact Or.inr rfl | exact Or.inl (by decide))
    (takeStateByAge_same _)

/-! ## The pool, the chains and the crossfade slots -/

theorem reportSections_same (is : List SectionNo) (s : State) : SameBut [.ctl, .table] s (reportSections is s) :=
  reportWrites_same _ _ s

/-- An update of the EQ unit followed by the report of sections. -/
theorem eqThenReport_same (e : EqUnit) (is : List SectionNo) (s : State) :
    SameBut [.ctl, .eq, .table] s (reportSections is { s with eq := e }) :=
  SameBut.trans (SameBut.ofParts fun p => by cases p <;> first | exact Or.inr rfl | exact Or.inl (by decide))
    ((reportSections_same is _).mono (by decide))

theorem claimSections_same (is : List SectionNo) (s : State) : SameBut [.ctl, .eq, .table] s (claimSections is s) :=
  eqThenReport_same _ is s

theorem unclaimSections_same (is : List SectionNo) (s : State) : SameBut [.ctl, .eq, .table] s (unclaimSections is s) :=
  eqThenReport_same _ is s

theorem swapAtOnce_same (o : Output) (l : List SectionNo) (s : State) : SameBut [.ctl, .eq, .table] s (swapAtOnce o l s) :=
  (eqThenReport_same _ _ s).trans ((reportWrites_same _ _ _).mono (by decide))

theorem swapWithFade_same (i : Fin 4) (o : Output) (l : List SectionNo) (s : State) :
    SameBut [.ctl, .eq, .table] s (swapWithFade i o l s) :=
  (eqThenReport_same _ _ s).trans ((reportWrites_same _ _ _).mono (by decide))

theorem swapChain_same (o : Output) (l : List SectionNo) (s : State) : SameBut [.ctl, .eq, .table] s (swapChain o l s) := by
  unfold swapChain
  split
  · split
    · exact swapWithFade_same _ o l s
    · exact swapAtOnce_same o l s
  · exact swapAtOnce_same o l s

theorem endSlot_same (i : Fin 4) (s : State) : SameBut [.ctl, .eq, .table] s (endSlot i s) := by
  unfold endSlot
  split
  · exact eqThenReport_same _ _ s
  · exact SameBut.refl _ s

theorem takeFadeEnd_same (i : Fin 4) (s : State) : SameBut [.ctl, .eq, .table] s (takeFadeEnd i s) := by
  unfold takeFadeEnd
  split
  · exact endSlot_same i s
  · exact SameBut.refl _ s

theorem endAllSlots_same (s : State) : SameBut [.ctl, .eq, .table] s (endAllSlots s) :=
  SameBut.foldl (fun s i => endSlot_same i s) _ s

theorem completeSectionWrite_same (w : SectionWrite) (s : State) :
    SameBut [.ctl, .eq, .table] s (completeSectionWrite w s) :=
  (eqThenReport_same _ _ s).trans ((fillReservation_same _ _ _ _).mono (by decide))

theorem abortSectionWrite_same (s : State) : SameBut [.ctl, .eq, .table] s (abortSectionWrite s) := by
  unfold abortSectionWrite
  split
  · exact SameBut.refl _ s
  · exact (eqThenReport_same _ _ s).trans ((fillReservation_same _ _ _ _).mono (by decide))

theorem resetPool_same (s : State) : SameBut [.ctl, .eq, .table] s (resetPool s) :=
  (eqThenReport_same _ _ s).trans ((reportWrites_same _ _ _).mono (by decide))

theorem releaseSection_same (i : SectionNo) (s : State) : SameBut [.ctl, .eq, .table] s (releaseSection i s) :=
  eqThenReport_same _ _ s

/-! ## Change sets -/

theorem reportRecord_same (r : ChangeRecord) (s : State) : SameBut [.ctl, .table] s (reportRecord r s) := by
  unfold reportRecord
  split <;> first | exact reportWrites_same _ _ s | exact SameBut.refl _ s

theorem writeRecords_same (rs : List ChangeRecord) (s : State) : SameBut [.ctl, .core, .table] s (writeRecords rs s) :=
  SameBut.trans (SameBut.ofParts fun p => by cases p <;> first | exact Or.inr rfl | exact Or.inl (by decide))
    ((SameBut.foldl (fun s r => reportRecord_same r s) rs _).mono (by decide))

theorem retargetSet_same (vs : List Move) (s : State) : SameBut [.core, .ramp] s (retargetSet vs s) := by
  intro p hp
  cases p <;> first | exact absurd (by decide) hp | simp [Part.same]

theorem swapChains_same (rs : List ChangeRecord) (s : State) : SameBut [.ctl, .eq, .table] s (swapChains rs s) := by
  unfold swapChains
  exact SameBut.foldl (f := fun s (c : Output × List SectionNo) => swapChain c.1 c.2 s) (fun s c => swapChain_same c.1 c.2 s) _ s

theorem tellSdv_same (l : Live) (rs : List ChangeRecord) (s : State) : SameBut [.ctl, .ramp, .sdv] s (tellSdv l rs s) := by
  unfold tellSdv
  refine SameBut.trans (t := if rs.any ChangeRecord.isBoostCurve then curveChange s else s) ?_
    (SameBut.foldl (fun s g => ?_) _ _)
  · split
    · exact curveChange_same s
    · exact SameBut.refl _ s
  · split
    · exact SameBut.refl _ s
    · exact (setGroupTarget_same _ _ s).mono (by decide)

theorem finishSet_same (q : QueuedSet) (s : State) : SameBut [.ctl, .commit] s (finishSet q s) := by
  have h : SameBut [.ctl, .commit] s
      { s with commit := { s.commit with queue := s.commit.queue.tail, lastApplied := some q.number } } :=
    SameBut.ofParts fun p => by cases p <;> first | exact Or.inr rfl | exact Or.inl (by decide)
  unfold finishSet
  dsimp only
  split
  · exact h.trans ((raiseNotice_same _ _).mono (by decide))
  · exact h

theorem applySet_same (q : QueuedSet) (s : State) :
    SameBut [.ctl, .core, .ramp, .commit, .eq, .sdv, .table] s (applySet q s) :=
  ((((((writeRecords_same q.records s).mono (by decide)).trans ((retargetSet_same _ _).mono (by decide))).trans
    ((swapChains_same _ _).mono (by decide))).trans ((tellSdv_same _ _ _).mono (by decide))).trans
    ((finishSet_same q _).mono (by decide)))

theorem examineHead_same (s : State) :
    SameBut [.ctl, .core, .ramp, .commit, .eq, .sdv, .table] s (examineHead s) := by
  unfold examineHead
  split
  · exact SameBut.refl _ s
  · split
    · exact applySet_same _ s
    · exact SameBut.ofParts fun p => by cases p <;> first | exact Or.inr rfl | exact Or.inl (by decide)

theorem flushQueue_same (s : State) : SameBut [.ctl, .commit, .eq, .table] s (flushQueue s) :=
  SameBut.trans (SameBut.ofParts fun p => by cases p <;> first | exact Or.inr rfl | exact Or.inl (by decide))
    ((unclaimSections_same _ _).mono (by decide))

theorem abortOpen_same (s : State) : SameBut [.commit] s (abortOpen s) :=
  SameBut.ofParts fun p => by cases p <;> first | exact Or.inr rfl | exact Or.inl (by decide)

theorem acceptSet_same (rs : List ChangeRecord) (notify : Bool) (s : State) :
    SameBut [.ctl, .commit, .eq, .table] s (acceptSet rs notify s) :=
  SameBut.trans (SameBut.ofParts fun p => by cases p <;> first | exact Or.inr rfl | exact Or.inl (by decide))
    ((claimSections_same _ _).mono (by decide))

theorem stageReset_same (s : State) : SameBut [.ctl, .commit, .eq, .table] s (stageReset s) :=
  ((abortOpen_same s).mono (by decide)).trans (flushQueue_same _)

theorem eqReset_same (s : State) : SameBut [.ctl, .commit, .eq, .table] s (eqReset s) :=
  ((flushQueue_same s).trans ((abortSectionWrite_same _).mono (by decide))).trans ((resetPool_same _).mono (by decide))

/-! ## Tables, modes, boundaries -/

theorem countLive_same (d : TableId) (n : Nat) (s : State) : SameBut [.frame] s (countLive d n s) := by
  unfold countLive
  split
  · exact SameBut.ofParts fun p => by cases p <;> first | exact Or.inr rfl | exact Or.inl (by decide)
  · exact SameBut.refl _ s

/-- All that the count of live entries does to the frame. -/
theorem countLive_frame (d : TableId) (n : Nat) (s : State) : (countLive d n s).frame =
    { s.frame with liveTaken :=
        if d.inMemory = false ∧ s.port.lock = .locked then s.frame.liveTaken + n else s.frame.liveTaken } := by
  unfold countLive
  split <;> rfl

theorem stepTableOp_same (op : TableOp) (s : State) : SameBut [.frame, .ctl, .table] s (stepTableOp op s) := by
  unfold stepTableOp
  dsimp only
  split
  · unfold finishTableOp
    split <;> exact SameBut.trans ((countLive_same _ _ s).mono (by decide)) ((endTableOp_same _ _ _).mono (by decide))
  · exact SameBut.trans ((countLive_same _ _ s).mono (by decide))
      (SameBut.ofParts fun p => by cases p <;> first | exact Or.inr rfl | exact Or.inl (by decide))

theorem stepTableOp_frame (op : TableOp) (s : State) :
    (stepTableOp op s).frame = (countLive op.table op.step s).frame := by
  unfold stepTableOp
  dsimp only
  split
  · unfold finishTableOp
    split <;> rfl
  · rfl

theorem takeBatch_same (s : State) : SameBut [.frame, .ctl, .table] s (takeBatch s) := by
  unfold takeBatch
  split
  · split
    · exact stepTableOp_same _ s
    · exact SameBut.refl _ s
  · exact SameBut.refl _ s

theorem enterStandby_same (s : State) : SameBut [.ctl, .core, .ramp, .eq, .cue, .table] s (enterStandby s) :=
  SameBut.trans (SameBut.ofParts fun p => by cases p <;> first | exact Or.inr rfl | exact Or.inl (by decide))
    ((((endAllSlots_same _).mono (by decide)).trans ((haltBoth_same _).mono (by decide))).trans
      ((fillReservation_same _ _ _ _).mono (by decide)))

theorem takeLeavingEnd_same (s : State) : SameBut [.ctl, .core, .ramp, .eq, .cue, .table] s (takeLeavingEnd s) := by
  unfold takeLeavingEnd
  split
  · exact enterStandby_same s
  · exact SameBut.refl _ s

theorem emitSample_same (o : Output) (w : Int) (s : State) : SameBut [.ctl, .lane] s (emitSample o w s) := by
  unfold emitSample
  dsimp only
  split <;> exact SameBut.ofParts fun p => by cases p <;> first | exact Or.inr rfl | exact Or.inl (by decide)

theorem composeOutput_same (eqOn : Bool) (s : State) (o : Output) : SameBut [.ctl, .lane, .eq, .free] s (composeOutput eqOn s o) :=
  SameBut.trans (SameBut.ofParts fun p => by cases p <;> first | exact Or.inr rfl | exact Or.inl (by decide))
    ((emitSample_same o _ _).mono (by decide))

theorem composeAll_same (eqOn : Bool) (s : State) : SameBut [.ctl, .lane, .eq, .free] s (composeAll eqOn s) :=
  SameBut.foldl (fun s o => composeOutput_same eqOn s o) _ s

theorem transferSlots_same (f : Opened) (s : State) : SameBut [.lane, .core] s (transferSlots f s) := by
  intro p hp
  cases p <;> first | exact absurd (by decide) hp | simp [Part.same]

theorem closeBoundary_same (s : State) : SameBut [.frame, .lane, .ctl, .core, .eq, .free] s (closeBoundary s) := by
  unfold closeBoundary
  split
  · have h : SameBut [.frame, .lane, .ctl, .core, .eq, .free] s { s with frame := { s.frame with opened := none } } :=
      SameBut.ofParts fun p => by cases p <;> first | exact Or.inr rfl | exact Or.inl (by decide)
    exact (h.trans ((composeAll_same _ _).mono (by decide))).trans ((transferSlots_same _ _).mono (by decide))
  · exact SameBut.refl _ s

theorem closeIfSettled_same (s : State) : SameBut [.frame, .lane, .ctl, .core, .eq, .free] s (closeIfSettled s) := by
  unfold closeIfSettled
  split
  · exact SameBut.refl _ s
  · exact closeBoundary_same s

theorem repeatSlots_same (up : Vector Sample 32) (s : State) : SameBut [.lane] s (repeatSlots up s) := by
  unfold repeatSlots
  split
  · exact SameBut.ofParts fun p => by cases p <;> first | exact Or.inr rfl | exact Or.inl (by decide)
  · exact SameBut.refl _ s

end Sys2Proof.Machine
end

