-- ==== Sys2Proof/Laws/Requests.lean ====
section
/-! SUPPORT. The taking of a packet, the decode and the reply, once for all requests. -/

namespace Sys2Proof.Machine

/-! ## Places and notices -/

theorem enqueueNotices_noHeld : ∀ (ns : List Notice) (q : List Place), (∀ p ∈ q, p.isHeld = false) →
    ∀ p ∈ (enqueueNotices ns q).1, p.isHeld = false
  | [], q, h => by simpa [enqueueNotices] using h
  | n :: ns, q, h => by
    unfold enqueueNotices
    split
    · refine enqueueNotices_noHeld ns _ fun p hp => ?_
      rcases List.mem_append.mp hp with hp | hp
      · exact h p hp
      · rw [List.mem_singleton.mp hp]; rfl
    · exact h

theorem enqueueNotices_length : ∀ (ns : List Notice) (q : List Place), q.length ≤ queuePlaces →
    (enqueueNotices ns q).1.length ≤ queuePlaces
  | [], _, h => h
  | n :: ns, q, h => by
    unfold enqueueNotices
    split
    · rename_i hq
      exact enqueueNotices_length ns _ (by simp; omega)
    · exact h

/-- A place is free after the queueing of notices only when none is left pending (R166). -/
theorem enqueueNotices_settled : ∀ (ns : List Notice) (q : List Place),
    (enqueueNotices ns q).1.length < queuePlaces → (enqueueNotices ns q).2 = []
  | [], _, _ => rfl
  | n :: ns, q, h => by
    unfold enqueueNotices at h ⊢
    split at h
    · rename_i hq
      rw [if_pos hq]
      exact enqueueNotices_settled ns _ h
    · rename_i hq
      exact absurd h hq

theorem queueNotices_noHeld {s : State} (h : NoHeld s) : NoHeld (queueNotices s) := enqueueNotices_noHeld _ _ h

/-- Notices queued twice stand as queued once. -/
theorem queueNotices_of_none {s : State} (h : s.ctl.notices = []) : queueNotices s = s := by
  unfold queueNotices
  rw [h]
  unfold enqueueNotices
  cases s with
  | mk port frame lane ctl core ramp commit eq sdv cue table free pending =>
    cases ctl
    simp only at h
    subst h
    rfl

theorem afterTake_noHeld {s : State} (i : Fin 2) (h : NoHeld s) : NoHeld (afterTake i s) := queueNotices_noHeld h

theorem heldTake_queue (c : Context) (i : Fin 2) (s : State) :
    (heldTake c i s).ctl.queue = (afterTake i s).ctl.queue ++ [.held c.requester] := rfl

/-- The state while a request is judged differs from the state once it is taken by the held place alone. -/
theorem heldTake_eq (c : Context) (i : Fin 2) (s : State) :
    heldTake c i s =
      { afterTake i s with ctl := { (afterTake i s).ctl with queue := (afterTake i s).ctl.queue ++ [.held c.requester] } } :=
  rfl

theorem map_answered {q : List Place} (p : OutPacket) (h : ∀ x ∈ q, x.isHeld = false) : q.map (Place.answered p) = q := by
  induction q with
  | nil => rfl
  | cons x q ih =>
    have hx := h x (by simp)
    rw [List.map_cons, ih fun y hy => h y (by simp [hy])]
    cases x <;> simp_all [Place.answered, Place.isHeld]

theorem map_reserved {q : List Place} (h : ∀ x ∈ q, x.isHeld = false) : q.map Place.reserved = q := by
  induction q with
  | nil => rfl
  | cons x q ih =>
    have hx := h x (by simp)
    rw [List.map_cons, ih fun y hy => h y (by simp [hy])]
    cases x <;> simp_all [Place.reserved, Place.isHeld]

theorem filter_held {q : List Place} (h : ∀ x ∈ q, x.isHeld = false) : (q.filter fun p => !p.isHeld) = q := by
  rw [List.filter_eq_self]
  intro x hx
  simp [h x hx]

/-- R164: an answer is written into the one held place, where it stands at the queue's end. -/
theorem answer_last {v : State} {q : List Place} {rq : Requester} (res : Result) (data : List Byte)
    (hq : v.ctl.queue = q ++ [.held rq]) (h : ∀ x ∈ q, x.isHeld = false) :
    answer rq res data v =
      { v with ctl := { v.ctl with
          queue := q ++ [.packet (replyPacket rq res data)], lastGood := lastGoodAfter rq res v.ctl.lastGood } } := by
  unfold answer
  rw [hq, List.map_append, map_answered _ h]
  rfl

/-- R164: a reservation takes the one held place, where it stands at the queue's end. -/
theorem reserve_last {v : State} {q : List Place} {rq : Requester} (u : UnitId)
    (hq : v.ctl.queue = q ++ [.held rq]) (h : ∀ x ∈ q, x.isHeld = false) :
    reserve u v =
      { v with ctl := { v.ctl with
          queue := q ++ [.reservation rq], executing := v.ctl.executing.set u.marker true } } := by
  unfold reserve
  rw [hq, List.map_append, map_reserved h]
  rfl

/-- An answer given to the state while the request is judged. -/
theorem answer_heldTake {s : State} (c : Context) (i : Fin 2) (res : Result) (data : List Byte) (h : NoHeld s) :
    answer c.requester res data (heldTake c i s) = replied c res data (afterTake i s) :=
  answer_last res data (heldTake_queue c i s) (afterTake_noHeld i h)

/-- A reservation made in the state while the request is judged. -/
theorem reserve_heldTake {s : State} (c : Context) (i : Fin 2) (u : UnitId) (h : NoHeld s) :
    reserve u (heldTake c i s) = reserved u c (afterTake i s) :=
  reserve_last u (heldTake_queue c i s) (afterTake_noHeld i h)

/-- R161, R162: the place of a packet that is not answered is released. -/
theorem releasePlace_heldTake {s : State} (c : Context) (i : Fin 2) (h : NoHeld s) :
    releasePlace (heldTake c i s) = afterTake i s := by
  unfold releasePlace
  rw [heldTake_queue, List.filter_append, filter_held (afterTake_noHeld i h)]
  simp [Place.isHeld, heldTake_eq]
  rfl

/-! ## The taking of a packet and the decode -/

/-- R161, R163: an offered request is taken and decoded. -/
theorem takeRequest_offered {q : Request} {c : Context} {i : Fin 2} {s : State} (h : Offered q c i s)
    (body : Requester → List Byte → State → State) :
    takeRequest q body s = .next (decodeThen q body c (heldTake c i s)) := by
  unfold takeRequest takePacket
  rw [h.offered]
  simp only [h.row, if_true]
  rfl

/-- The decode reads the enable map and the markers, which the taking of a packet keeps. -/
theorem decodeRefusal_heldTake (q : Request) (n : Nat) (c : Context) (i : Fin 2) (s : State) :
    decodeRefusal q n (heldTake c i s) = decodeRefusal q n s := rfl

/-- R163: a request that passes the decode reaches its own checks. -/
theorem takeRequest_takes {q : Request} {c : Context} {i : Fin 2} {s : State} (h : Takes q c i s)
    (body : Requester → List Byte → State → State) :
    takeRequest q body s = .next (body c.requester c.data (heldTake c i s)) := by
  rw [takeRequest_offered h.offered]
  unfold decodeThen
  rw [decodeRefusal_heldTake, h.decodes]

/-- R163: a request the decode refuses is answered with its refusal and no data. -/
theorem takeRequest_refused {q : Request} {c : Context} {i : Fin 2} {s : State} {res : Result} (h : Offered q c i s)
    (body : Requester → List Byte → State → State) (hr : decodeRefusal q c.dataLength s = some res) (hn : NoHeld s) :
    takeRequest q body s = .next (replied c res [] (afterTake i s)) := by
  rw [takeRequest_offered h]
  unfold decodeThen
  rw [decodeRefusal_heldTake, hr]
  exact congrArg _ (answer_heldTake c i res [] hn)

/-- R161: a packet taken with a place leaves no notice pending. -/
theorem notices_of_offer {s : State} {o : Offer} (h : nextOffer (queueNotices s) = some o) (hp : o.placed = true) :
    (queueNotices s).ctl.notices = [] := by
  unfold nextOffer at h
  split at h
  · rename_i hf
    exact enqueueNotices_settled _ _ (of_decide_eq_true hf)
  · split at h
    · cases h
    · simp only [Option.map_eq_some_iff] at h
      obtain ⟨x, _, hx⟩ := h
      rw [← hx] at hp
      cases hp

/-! ## TABLE_READ (R142, R145) -/

theorem readWaits_of_takes {c : Context} {i : Fin 2} {s : State} (h : Takes .tableRead c i s) :
    readWaits s = (readOp c.data).any fun op => !liveRoom op.table op.step s := by
  unfold readWaits
  rw [h.offered.offered]
  simp [h.offered.row, h.decodes]

/-- A read whose first entries the frame admits, and one that fails its checks, is taken. -/
theorem execTableRead_takes {c : Context} {i : Fin 2} {s : State} (h : Takes .tableRead c i s)
    (room : ∀ op, readOp c.data = some op → liveRoom op.table op.step s = true) :
    execTableRead s = .next (bodyTableRead c.requester c.data (heldTake c i s)) := by
  have w : readWaits s = false := by
    rw [readWaits_of_takes h]
    cases hr : readOp c.data with
    | none => rfl
    | some op => simp [room op hr]
  unfold execTableRead
  rw [w]
  exact takeRequest_takes h bodyTableRead

/-- A read whose first entries the frame does not admit any more is not taken. -/
theorem execTableRead_waits {c : Context} {i : Fin 2} {s : State} {op : TableOp} (h : Takes .tableRead c i s)
    (hr : readOp c.data = some op) (full : liveRoom op.table op.step s = false) : execTableRead s = .next s := by
  have w : readWaits s = true := by
    rw [readWaits_of_takes h, hr]
    simp [full]
  unfold execTableRead
  rw [w]
  rfl

/-- A read the decode refuses waits for no frame. -/
theorem readWaits_of_refused {c : Context} {i : Fin 2} {s : State} {res : Result} (h : Offered .tableRead c i s)
    (hr : decodeRefusal .tableRead c.dataLength s = some res) : readWaits s = false := by
  unfold readWaits
  rw [h.offered]
  simp [hr]

end Sys2Proof.Machine
end

