-- ==== Sys2Proof/Laws/Answers.lean ====
section
/-! SUPPORT. What the filling of reservations, the raising of notices and the report of writes can do, once for all that use them:
`Answered`, `NoticeRaised` and `WritesHeard`. -/

namespace Sys2Proof.Machine

/-! ## Reservations -/

theorem UnitId.code_injective {u v : UnitId} (h : u.code = v.code) : u = v := by
  cases u <;> cases v <;> first | rfl | (exact absurd h (by decide))

theorem UnitId.marker_injective {u v : UnitId} (h : u.marker = v.marker) : u = v := by
  cases u <;> cases v <;> first | rfl | (exact absurd h (by decide))

/-- Whose reservation a place is, for a unit. -/
def Place.heldFor (u : UnitId) : Place → Option Requester
  | .reservation rq => if rq.unitByte = u.code then some rq else none
  | .held _ => none
  | .packet _ => none

theorem reservationOf_eq (u : UnitId) : ∀ q : List Place, reservationOf u q = q.findSome? (Place.heldFor u)
  | [] => rfl
  | .reservation rq :: q => by
      rw [reservationOf, List.findSome?_cons, Place.heldFor, reservationOf_eq u q]
      split <;> rfl
  | .held _ :: q => by rw [reservationOf, List.findSome?_cons, Place.heldFor, reservationOf_eq u q]
  | .packet _ :: q => by rw [reservationOf, List.findSome?_cons, Place.heldFor, reservationOf_eq u q]

/-- Two queues that agree place by place in whom they hold reservations for hold the same reservation first. -/
theorem findSome_congr {α β : Type} (f : α → Option β) : ∀ q r : List α, (∀ i : Nat, q[i]?.bind f = r[i]?.bind f) →
    q.findSome? f = r.findSome? f
  | [], [], _ => rfl
  | [], b :: r, h => by
      have hb : f b = none := by simpa using (h 0).symm
      rw [List.findSome?_cons, hb]
      exact findSome_congr f [] r fun i => by simpa using h (i + 1)
  | a :: q, [], h => by
      have ha : f a = none := by simpa using h 0
      rw [List.findSome?_cons, ha]
      exact findSome_congr f q [] fun i => by simpa using h (i + 1)
  | a :: q, b :: r, h => by
      have hab : f a = f b := by simpa using h 0
      rw [List.findSome?_cons, List.findSome?_cons, hab, findSome_congr f q r fun i => by simpa using h (i + 1)]

/-! ## Answers -/

theorem Answered.refl (s : State) : Answered [] s s where
  filled _ _ _ _ ha := by simp at ha
  kept _ _ h _ := h
  appended p hp := by simp at hp
  markers u := by simp
  tag := rfl

/-- What a state update outside the control unit leaves of the answers. -/
theorem Answered.of_ctl {as : List Answer} {s s' t t' : State} (h : Answered as s t) (hs : s'.ctl = s.ctl) (ht : t'.ctl = t.ctl) :
    Answered as s' t' where
  filled := by rw [hs, ht]; exact h.filled
  kept := by rw [hs, ht]; exact h.kept
  appended := by rw [hs, ht]; exact h.appended
  markers u := by
    have := h.markers u
    rw [inExecution, inExecution] at this ⊢
    rw [hs, ht]; exact this
  tag := by rw [hs, ht]; exact h.tag

theorem inExecution_fillReservation (u v : UnitId) (res : Result) (data : List Byte) (s : State) :
    inExecution v (fillReservation u res data s) = (inExecution v s && decide (u ≠ v)) := by
  by_cases h : u = v
  · subst h; simp [inExecution, fillReservation]
  · have : ¬ u.marker.val = v.marker.val := fun e => h (UnitId.marker_injective (Fin.ext e))
    simp [inExecution, fillReservation, h, this]

/-- All that the filling of a unit's reservation does. -/
theorem fillReservation_answered (u : UnitId) (res : Result) (data : List Byte) (s : State) :
    Answered [{ unit := u, res := res, data := data }] s (fillReservation u res data s) where
  filled i rq a h ha hu := by
    simp only [List.mem_singleton] at ha
    subst ha
    simp [fillReservation, h, Place.filled, hu]
  kept i p h hp := by
    cases p with
    | held rq => simp [fillReservation, h, Place.filled]
    | packet q => simp [fillReservation, h, Place.filled]
    | reservation rq =>
        have := hp rq rfl _ (List.mem_singleton.mpr rfl)
        simp [fillReservation, h, Place.filled, this]
  appended p hp := by rw [List.drop_of_length_le (by simp [fillReservation])] at hp; simp at hp
  markers v := by rw [inExecution_fillReservation]; simp
  tag := by
    by_cases hres : res = .ok
    · subst hres
      cases h : Machine.reservationOf u s.ctl.queue <;> simp [fillReservation, lastGoodAfter, h]
    · cases h : Machine.reservationOf u s.ctl.queue <;> simp [fillReservation, lastGoodAfter, h, hres]

theorem fillReservation_noNotice (u : UnitId) (res : Result) (data : List Byte) (s : State) :
    NoNotice s (fillReservation u res data s) := ⟨rfl, by simp [fillReservation]⟩

theorem endTableOp_answered (res : Result) (data : List Byte) (s : State) :
    Answered [{ unit := .table, res := res, data := data }] s (endTableOp res data s) ∧ (endTableOp res data s).table = none ∧
      NoNotice s (endTableOp res data s) :=
  ⟨(fillReservation_answered .table res data s).of_ctl rfl rfl, rfl, fillReservation_noNotice .table res data s⟩

/-- A reservation of a unit not answered stands, and no other comes. -/
theorem Answered.reservationOf {as : List Answer} {s t : State} (h : Answered as s t) {u : UnitId} (hu : ∀ a ∈ as, a.unit ≠ u) :
    Machine.reservationOf u t.ctl.queue = Machine.reservationOf u s.ctl.queue := by
  rw [reservationOf_eq, reservationOf_eq]
  refine findSome_congr _ _ _ fun i => ?_
  cases hs : s.ctl.queue[i]? with
  | none =>
      cases ht : t.ctl.queue[i]? with
      | none => rfl
      | some p =>
          have hl : s.ctl.queue.length ≤ i := List.getElem?_eq_none_iff.mp hs
          have hm : p ∈ t.ctl.queue.drop s.ctl.queue.length :=
            List.mem_of_getElem? (i := i - s.ctl.queue.length) (by
              rw [List.getElem?_drop, Nat.add_sub_cancel' hl, ht])
          obtain ⟨n, rfl⟩ := h.appended p hm
          rfl
  | some p =>
      by_cases hp : ∀ rq : Requester, p = .reservation rq → ∀ a ∈ as, rq.unitByte ≠ a.unit.code
      · rw [h.kept i p hs hp]
      · simp only [not_forall, not_not] at hp
        obtain ⟨rq, rfl, a, ha, hq⟩ := hp
        rw [h.filled i rq a hs ha hq]
        have : rq.unitByte ≠ u.code := fun e => hu a ha (UnitId.code_injective (hq.symm.trans e))
        simp [Place.heldFor, this]

theorem foldl_tags_congr {q r : List Place} : ∀ (as : List Answer) (tag : Option Byte),
    (∀ a ∈ as, Machine.reservationOf a.unit q = Machine.reservationOf a.unit r) →
    as.foldl (fun tag a => ((Machine.reservationOf a.unit q).map Requester.tag).or tag) tag =
      as.foldl (fun tag a => ((Machine.reservationOf a.unit r).map Requester.tag).or tag) tag
  | [], _, _ => rfl
  | a :: as, tag, h => by
      rw [List.foldl_cons, List.foldl_cons, h a (by simp)]
      exact foldl_tags_congr as _ fun b hb => h b (by simp [hb])

/-- Answers of different units, one after another. -/
theorem Answered.trans {as bs : List Answer} {s t v : State} (h : Answered as s t) (k : Answered bs t v)
    (other : ∀ a ∈ as, ∀ b ∈ bs, a.unit ≠ b.unit) : Answered (as ++ bs) s v where
  filled i rq a hs ha hu := by
    rcases List.mem_append.mp ha with ha | ha
    · exact k.kept i _ (h.filled i rq a hs ha hu) (by simp)
    · refine k.filled i rq a (h.kept i _ hs ?_) ha hu
      rintro rq' ⟨rfl⟩ b hb e
      exact other b hb a ha (UnitId.code_injective (e.symm.trans hu))
  kept i p hs hp :=
    k.kept i p (h.kept i p hs fun rq e a ha => hp rq e a (by simp [ha])) fun rq e a ha => hp rq e a (by simp [ha])
  appended p hp := by
    obtain ⟨j, hj⟩ := List.getElem?_of_mem hp
    rw [List.getElem?_drop] at hj
    cases ht : t.ctl.queue[s.ctl.queue.length + j]? with
    | some q =>
        have hm : q ∈ t.ctl.queue.drop s.ctl.queue.length :=
          List.mem_of_getElem? (i := j) (by rw [List.getElem?_drop, ht])
        obtain ⟨n, rfl⟩ := h.appended q hm
        rw [k.kept _ _ ht (by simp)] at hj
        exact ⟨n, (Option.some.inj hj).symm⟩
    | none =>
        have hl : t.ctl.queue.length ≤ s.ctl.queue.length + j := List.getElem?_eq_none_iff.mp ht
        refine k.appended p (List.mem_of_getElem? (i := s.ctl.queue.length + j - t.ctl.queue.length) ?_)
        rw [List.getElem?_drop, Nat.add_sub_cancel' hl, hj]
  markers u := by
    rw [k.markers, h.markers, Bool.and_assoc, ← Bool.decide_and]
    congr 1
    exact decide_eq_decide.mpr ⟨fun e a ha => (List.mem_append.mp ha).elim (e.1 a) (e.2 a),
      fun e => ⟨fun a ha => e a (List.mem_append.mpr (.inl ha)), fun a ha => e a (List.mem_append.mpr (.inr ha))⟩⟩
  tag := by
    rw [k.tag, h.tag, List.filter_append, List.foldl_append]
    refine foldl_tags_congr _ _ fun b hb => h.reservationOf fun a ha => ?_
    exact other a ha b (List.mem_of_mem_filter hb)

theorem NoNotice.refl (s : State) : NoNotice s s := ⟨rfl, rfl⟩

theorem NoNotice.trans {s t u : State} (h : NoNotice s t) (k : NoNotice t u) : NoNotice s u := ⟨k.1.trans h.1, k.2.trans h.2⟩

/-! ## Notices -/

theorem mem_addNotice (n : Notice) : ∀ ns : List Notice, n ∈ addNotice n ns
  | [] => by simp [addNotice]
  | m :: ns => by
      unfold addNotice
      split
      · simp
      · simp [mem_addNotice n ns]

theorem of_mem_addNotice {n m : Notice} : ∀ {ns : List Notice}, m ∈ addNotice n ns → m = n ∨ m ∈ ns
  | [], h => by simpa [addNotice] using h
  | k :: ns, h => by
      unfold addNotice at h
      split at h
      · rcases List.mem_cons.mp h with h | h
        · exact .inl h
        · exact .inr (by simp [h])
      · rcases List.mem_cons.mp h with h | h
        · exact .inr (by simp [h])
        · exact (of_mem_addNotice h).imp_right fun h => by simp [h]

theorem addNotice_keeps {n m : Notice} (hm : m.sameInstance n = false) : ∀ {ns : List Notice}, m ∈ ns → m ∈ addNotice n ns
  | [], h => by simp at h
  | k :: ns, h => by
      unfold addNotice
      rcases List.mem_cons.mp h with rfl | h
      · simp [hm]
      · split
        · simp [h]
        · simp [addNotice_keeps hm h]

/-- All that the raising of a notice does. -/
theorem raiseNotice_raised (n : Notice) (s : State) : NoticeRaised n s (raiseNotice n s) := by
  unfold NoticeRaised raiseNotice
  split
  · exact ⟨rfl, mem_addNotice n _, fun m hm => of_mem_addNotice hm, fun m hm hi => addNotice_keeps hi hm⟩
  · rfl

/-! ## Runners -/

theorem onRunner_eq (r : RunnerNo) (f : Runner → Runner) (s : State) : onRunner r f s = withRunner r (f s.cue.runners[r]) s := rfl

@[simp] theorem withRunner_at (r : RunnerNo) (x : Runner) (s : State) : (withRunner r x s).cue.runners[r] = x := by
  simp [withRunner]

theorem withRunner_twice (r : RunnerNo) (x y : Runner) (s : State) : withRunner r y (withRunner r x s) = withRunner r y s := by
  simp [withRunner, Vector.set_set]

end Sys2Proof.Machine
end

