-- ==== Sys2Proof/Laws/Audio.lean ====
section
/-! SUPPORT. The signal path (R2 to R6): what each operation's interval holds and how wide it is, the linear gain's bounds, that the
whole value taken of a narrow interval is one R3 allows of the exact value, and that an output is composed as `Composed` says. -/

namespace Sys2Proof.Machine

/-! ## The linear gain -/

theorem linSearch_succ (l : Int) (b q : Nat) :
    linSearch l (b + 1) q = if belowLin l (q + 2 ^ b) = true then linSearch l b (q + 2 ^ b) else linSearch l b q := rfl

/-- A search begun at or below lin(L), with its top above, ends at the greatest whole value at or below. -/
theorem linSearch_spec (l : Int) (b : Nat) : ∀ q : Nat, belowLin l q = true → belowLin l (q + 2 ^ b) = false →
    belowLin l (linSearch l b q) = true ∧ belowLin l (linSearch l b q + 1) = false := by
  induction b with
  | zero => exact fun q h h' => ⟨h, h'⟩
  | succ b ih =>
      intro q h h'
      rw [linSearch_succ]
      split
      case isTrue hb => exact ih _ hb (by rw [Nat.add_assoc, ← Nat.two_mul, ← Nat.pow_succ']; exact h')
      case isFalse hb => exact ih _ h (Bool.eq_false_iff.mpr hb)

theorem two_pow_lt_top (k n : Nat) (h : k < 5200) : 2 ^ k < (2 ^ (65 + n)) ^ 80 := by
  rw [← pow_mul]
  exact Nat.pow_lt_pow_right (by norm_num) (by omega)

/-- 2^(65 + L) lies above lin(L) × 2^64, and so does 2^65 where L is negative. -/
theorem belowLin_top (l : Int) : belowLin l (0 + 2 ^ (65 + l.toNat)) = false := by
  unfold belowLin
  split
  · have h : (10 : Nat) ^ l.toNat ≤ (2 ^ 4) ^ l.toNat := Nat.pow_le_pow_left (by norm_num) _
    have h2 : (10 : Nat) ^ l.toNat * 2 ^ 5120 < (0 + 2 ^ (65 + l.toNat)) ^ 80 := by
      calc (10 : Nat) ^ l.toNat * 2 ^ 5120 ≤ (2 ^ 4) ^ l.toNat * 2 ^ 5120 := Nat.mul_le_mul_right _ h
        _ = 2 ^ (4 * l.toNat + 5120) := by rw [← pow_mul, pow_add]
        _ < 2 ^ ((65 + l.toNat) * 80) := Nat.pow_lt_pow_right (by norm_num) (by omega)
        _ = (0 + 2 ^ (65 + l.toNat)) ^ 80 := by rw [Nat.zero_add, ← pow_mul]
    exact decide_eq_false (not_le.mpr h2)
  · have h := two_pow_lt_top 5120 l.toNat (by norm_num)
    rw [← Nat.zero_add (2 ^ (65 + l.toNat))] at h
    exact decide_eq_false (not_le.mpr (h.trans_le (Nat.le_mul_of_pos_right _ (Nat.pow_pos (by norm_num)))))

theorem lin_pos (l : Int) : 0 < lin l := Real.rpow_pos_of_pos (by norm_num) _

theorem lin_pow (l : Int) : lin l ^ 80 = (10 : ℝ) ^ l := by
  unfold lin
  rw [← Real.rpow_natCast, ← Real.rpow_mul (by norm_num), ← Real.rpow_intCast]
  congr 1
  push_cast
  ring

/-- The search compares with the real gain. -/
theorem belowLin_iff (l : Int) (q : Nat) : belowLin l q = true ↔ (q : ℝ) ≤ lin l * 2 ^ 64 := by
  have e : (lin l * 2 ^ 64) ^ 80 = (10 : ℝ) ^ l * 2 ^ 5120 := by rw [mul_pow, lin_pow, ← pow_mul]
  have key : (q : ℝ) ≤ lin l * 2 ^ 64 ↔ (q : ℝ) ^ 80 ≤ (10 : ℝ) ^ l * 2 ^ 5120 := by
    rw [← e]
    exact (pow_le_pow_iff_left₀ (by positivity) (by have := lin_pos l; positivity) (by norm_num)).symm
  rw [key]
  unfold belowLin
  split
  case isTrue h =>
    obtain ⟨n, rfl⟩ := Int.eq_ofNat_of_zero_le h
    rw [decide_eq_true_iff, ← Nat.cast_le (α := ℝ)]
    simp only [Int.toNat_natCast, zpow_natCast, Nat.cast_pow, Nat.cast_mul, Nat.cast_ofNat]
  case isFalse h =>
    obtain ⟨n, hn⟩ := Int.eq_ofNat_of_zero_le (show 0 ≤ -l by omega)
    have hl : l = -(n : Int) := by omega
    subst hl
    rw [decide_eq_true_iff, ← Nat.cast_le (α := ℝ)]
    simp only [neg_neg, Int.toNat_natCast, zpow_neg, zpow_natCast, Nat.cast_pow, Nat.cast_mul, Nat.cast_ofNat]
    rw [inv_mul_eq_div, le_div_iff₀ (by positivity)]

theorem linFloor_spec (l : Int) : belowLin l (linFloor l) = true ∧ belowLin l (linFloor l + 1) = false :=
  linSearch_spec l _ 0
    ((belowLin_iff l 0).mpr (by rw [Nat.cast_zero]; exact mul_nonneg (lin_pos l).le (by positivity))) (belowLin_top l)

theorem linFloor_bounds (l : Int) : (linFloor l : ℝ) ≤ lin l * 2 ^ 64 ∧ lin l * 2 ^ 64 < (linFloor l : ℝ) + 1 := by
  refine ⟨(belowLin_iff l _).mp (linFloor_spec l).1, ?_⟩
  have h := (linFloor_spec l).2
  by_contra hc
  have : belowLin l (linFloor l + 1) = true := (belowLin_iff l _).mpr (by push_cast; linarith)
  rw [this] at h
  exact absurd h (by decide)

/-! ## What an interval holds -/

theorem one64_real : (one64 : ℝ) = 2 ^ 64 := by norm_num [one64]

/-- The exact value lies between the ends of an interval. -/
def Ivl.Holds (v : Ivl) (x : ℝ) : Prop := (v.lo : ℝ) ≤ x * 2 ^ 64 ∧ x * 2 ^ 64 ≤ (v.hi : ℝ)

theorem Ivl.ordered {v : Ivl} {x : ℝ} (h : v.Holds x) : v.lo ≤ v.hi := by
  exact_mod_cast h.1.trans h.2

theorem Ivl.holds_exact (n : Int) : (Ivl.exact n).Holds n := by
  simp only [Ivl.Holds, Ivl.exact, Int.cast_mul, one64_real, le_refl, and_self]

theorem Ivl.eq_exact_zero {v : Ivl} (h : v.isZero = true) : v = Ivl.exact 0 := by
  obtain ⟨lo, hi⟩ := v
  simp only [Ivl.isZero, Bool.and_eq_true, decide_eq_true_iff] at h
  simp only [Ivl.exact, zero_mul, Ivl.mk.injEq]
  exact h

theorem Ivl.isZero_iff (v : Ivl) : v.isZero = true ↔ v = Ivl.exact 0 :=
  ⟨Ivl.eq_exact_zero, fun h => by rw [h]; decide⟩

theorem Ivl.holds_exact_zero {x : ℝ} : (Ivl.exact 0).Holds x ↔ x = 0 := by
  simp only [Ivl.Holds, Ivl.exact, zero_mul, Int.cast_zero]
  constructor
  · rintro ⟨a, b⟩; linarith
  · rintro rfl; simp

theorem Ivl.holds_add {v w : Ivl} {x y : ℝ} (hv : v.Holds x) (hw : w.Holds y) : (v.add w).Holds (x + y) := by
  obtain ⟨a, b⟩ := hv
  obtain ⟨c, d⟩ := hw
  simp only [Ivl.Holds, Ivl.add, Int.cast_add]
  constructor <;> linarith

theorem Ivl.holds_neg {v : Ivl} {x : ℝ} (h : v.Holds x) : v.neg.Holds (-x) := by
  obtain ⟨a, b⟩ := h
  simp only [Ivl.Holds, Ivl.neg, Int.cast_neg]
  constructor <;> linarith

theorem floorDiv_le (a d : Int) (hd : 0 < d) : ((a / d : Int) : ℝ) ≤ (a : ℝ) / d := by
  rw [le_div_iff₀ (by exact_mod_cast hd)]
  exact_mod_cast Int.ediv_mul_le a (ne_of_gt hd)

theorem le_ceilDiv (a d : Int) (hd : 0 < d) : (a : ℝ) / d ≤ ((ceilDiv a d : Int) : ℝ) := by
  have h := floorDiv_le (-a) d hd
  unfold ceilDiv
  push_cast at h ⊢
  rw [neg_div] at h
  linarith

/-- A value times a gain that is not negative. -/
theorem Ivl.holds_scale {v g : Ivl} {x y : ℝ} (hv : v.Holds x) (hg : g.Holds y) (h0 : 0 ≤ g.lo) : (v.scale g).Holds (x * y) := by
  obtain ⟨a, b⟩ := hv
  obtain ⟨c, d⟩ := hg
  have g0 : (0 : ℝ) ≤ (g.lo : ℝ) := by exact_mod_cast h0
  have e : x * y * 2 ^ 64 = (x * 2 ^ 64) * (y * 2 ^ 64) / 2 ^ 64 := by field_simp
  have o : (one64 : Int) > 0 := by decide
  simp only [Ivl.Holds, Ivl.scale]
  generalize x * 2 ^ 64 = X at *
  generalize y * 2 ^ 64 = Y at *
  rw [e]
  constructor
  · split
    case isTrue h =>
      have h' : (0 : ℝ) ≤ (v.lo : ℝ) := by exact_mod_cast h
      refine (floorDiv_le _ _ o).trans ?_
      rw [one64_real]
      gcongr
      push_cast
      nlinarith
    case isFalse h =>
      have h' : (v.lo : ℝ) < 0 := by exact_mod_cast not_le.mp h
      refine (floorDiv_le _ _ o).trans ?_
      rw [one64_real]
      gcongr
      push_cast
      nlinarith
  · split
    case isTrue h =>
      have h' : (0 : ℝ) ≤ (v.hi : ℝ) := by exact_mod_cast h
      refine le_trans ?_ (le_ceilDiv _ _ o)
      rw [one64_real]
      gcongr
      push_cast
      nlinarith
    case isFalse h =>
      have h' : (v.hi : ℝ) < 0 := by exact_mod_cast not_le.mp h
      refine le_trans ?_ (le_ceilDiv _ _ o)
      rw [one64_real]
      gcongr
      push_cast
      nlinarith

theorem Ivl.holds_fraction {v : Ivl} {x : ℝ} (h : v.Holds x) (u d : Nat) (hd : 0 < d) :
    (v.fraction u d).Holds (x * ((u : ℝ) / d)) := by
  obtain ⟨a, b⟩ := h
  have dz : (0 : Int) < (d : Int) := by exact_mod_cast hd
  have dr : (0 : ℝ) < (d : ℝ) := by exact_mod_cast hd
  have e : x * ((u : ℝ) / d) * 2 ^ 64 = (x * 2 ^ 64) * u / d := by field_simp
  simp only [Ivl.Holds, Ivl.fraction]
  rw [e]
  constructor
  · refine (floorDiv_le _ _ dz).trans ?_
    push_cast
    gcongr
  · refine le_trans ?_ (le_ceilDiv _ _ dz)
    push_cast
    gcongr

/-- R94: the blend, formed exactly, holds the blend of what its sides hold. -/
theorem blend_holds {old new : Ivl} {x y : ℝ} (k : Nat) (hk : k ≤ 480) (hx : old.Holds x) (hy : new.Holds y) :
    (blend k old new).Holds (((480 - k) * x + k * y) / 480) := by
  obtain ⟨a, b⟩ := hx
  obtain ⟨c, d⟩ := hy
  have k0 : (0 : ℝ) ≤ 480 - (k : ℝ) := by have : (k : ℝ) ≤ 480 := by exact_mod_cast hk
                                          linarith
  have e : ((480 - (k : ℝ)) * x + k * y) / 480 * 2 ^ 64 = ((480 - (k : ℝ)) * (x * 2 ^ 64) + k * (y * 2 ^ 64)) / 480 := by ring
  simp only [Ivl.Holds, blend]
  rw [e]
  constructor
  · refine (floorDiv_le _ 480 (by norm_num)).trans ?_
    push_cast
    gcongr
  · refine le_trans ?_ (le_ceilDiv _ 480 (by norm_num))
    push_cast
    gcongr

theorem linGain_holds (l : Int) : (linGain l).Holds (lin l) := by
  obtain ⟨a, b⟩ := linFloor_bounds l
  refine ⟨?_, ?_⟩ <;> simp only [linGain] <;> push_cast <;> linarith

theorem linGain_nonneg (l : Int) : 0 ≤ (linGain l).lo := by
  simp only [linGain]
  omega

/-- R2, R5: a value times a gain that is exactly zero at or below the floor. -/
theorem Ivl.holds_gain {v : Ivl} {x : ℝ} (h : v.Holds x) (l : Int) : (v.gain l).Holds (x * floored l) := by
  unfold Ivl.gain floored floorQdb
  split
  · rw [mul_zero, Ivl.holds_exact_zero]
  · split
    case isTrue hz =>
      rw [Ivl.eq_exact_zero hz, Ivl.holds_exact_zero] at h
      rw [h, zero_mul, Ivl.eq_exact_zero hz, Ivl.holds_exact_zero]
    case isFalse => exact Ivl.holds_scale h (linGain_holds l) (linGain_nonneg l)

/-! ## Contributions and chains -/

/-- R2: a contribution's interval holds the source sample times the composed gain. -/
theorem contribution_holds (s : State) (o : Output) (src : Source) :
    (contribution s o src).Holds (((s.core.held[src]).toInt : ℝ) * floored (composedGain s o src)) := by
  unfold contribution
  split
  case isTrue h => rw [h, Ivl.holds_exact_zero, show (0 : Sample).toInt = 0 from rfl, Int.cast_zero, zero_mul]
  case isFalse => exact Ivl.holds_gain (Ivl.holds_exact _) _

theorem runChain_computes (l : List SectionNo) (pool : Vector EqSection 256) (x : Int) :
    ChainComputes pool l x (runChain pool l x).1 (runChain pool l x).2 := by
  induction l generalizing pool x with
  | nil => exact .done pool x
  | cons i is ih => exact .step pool _ i is x _ _ rfl (ih _ _)

/-! ## Narrow intervals -/

/-- The ends differ by at most 2^−32, or by 2^−40 of the value itself. -/
def Ivl.Narrow (v : Ivl) : Prop := (v.hi - v.lo) * 2 ^ 40 ≤ 2 ^ 72 + min (v.lo.natAbs : Int) v.hi.natAbs

theorem Ivl.narrow_of_le {v : Ivl} (h : v.hi - v.lo ≤ 2 ^ 32) : v.Narrow := by
  simp only [Ivl.Narrow]
  omega

/-- R3: the whole value that the bound, or a free value, gives. -/
theorem Ivl.whole_of_undecided {v : Ivl} (h : v.undecided = true) (free : Nat) :
    v.whole free = nearestWhole v.lo ∨ v.whole free = nearestWhole v.lo - (nearestWhole v.lo).sign := by
  have e : v.whole free = max (min (nearestWhole v.lo) (nearestWhole v.lo - (nearestWhole v.lo).sign))
      (min (max (nearestWhole v.lo) (nearestWhole v.lo - (nearestWhole v.lo).sign)) (Config.freeWhole free)) := if_pos h
  rw [e]
  rcases Int.sign_trichotomy (nearestWhole v.lo) with s | s | s <;> rw [s] <;> omega

theorem Ivl.whole_of_decided {v : Ivl} (h : v.undecided = false) (free : Nat) : v.whole free = v.lo.tdiv one64 := by
  unfold Ivl.whole
  rw [h]
  rfl

theorem truncated_mono {x y : ℝ} (h : x ≤ y) : truncated x ≤ truncated y := by
  unfold truncated
  split <;> split
  · exact Int.floor_le_floor h
  · linarith
  · exact (Int.ceil_le.mpr (by push_cast; linarith)).trans (Int.floor_nonneg.mpr (by assumption))
  · exact Int.ceil_le_ceil h

theorem tdiv_eq_truncated (i : Int) : i.tdiv one64 = truncated ((i : ℝ) / 2 ^ 64) := by
  have o : (0 : Int) < one64 := by decide
  have p : (0 : ℝ) < 2 ^ 64 := by positivity
  unfold truncated
  split
  case isTrue h =>
    have h0 : 0 ≤ i := by
      have := (div_nonneg_iff.mp h).resolve_right fun q => absurd q.2 (not_le.mpr p)
      exact_mod_cast this.1
    rw [Int.tdiv_eq_ediv_of_nonneg h0]
    refine (Int.floor_eq_iff.mpr ⟨?_, ?_⟩).symm
    · rw [le_div_iff₀ p, ← one64_real]
      exact_mod_cast Int.ediv_mul_le i o.ne'
    · rw [div_lt_iff₀ p, ← one64_real]
      exact_mod_cast Int.lt_ediv_add_one_mul_self i o
  case isFalse h =>
    have h0 : i ≤ 0 := by
      by_contra hc
      exact h (div_nonneg (by exact_mod_cast (not_le.mp hc).le) p.le)
    have e : i.tdiv one64 = -(-i / one64) := by
      rw [← Int.tdiv_eq_ediv_of_nonneg (by omega), Int.neg_tdiv, neg_neg]
    rw [e]
    refine (Int.ceil_eq_iff.mpr ⟨?_, ?_⟩).symm
    · rw [lt_div_iff₀ p, ← one64_real]
      have := Int.lt_ediv_add_one_mul_self (-i) o
      have h2 : (-(-i / one64) - 1) * one64 < i := by linarith
      exact_mod_cast h2
    · rw [div_le_iff₀ p, ← one64_real]
      have := Int.ediv_mul_le (-i) o.ne'
      have h2 : i ≤ -(-i / one64) * one64 := by linarith
      exact_mod_cast h2

/-- Between two values that truncate differently lies a whole value other than 0. -/
theorem whole_between {x y : ℝ} (h : x ≤ y) (ht : truncated x ≠ truncated y) : ∃ c : Int, c ≠ 0 ∧ x ≤ c ∧ (c : ℝ) ≤ y := by
  have m := lt_of_le_of_ne (truncated_mono h) ht
  by_cases hy : 1 ≤ truncated y
  · have y0 : 0 ≤ y := by
      by_contra hc
      rw [truncated, if_neg hc] at hy
      have := Int.ceil_le.mpr (show y ≤ ((0 : Int) : ℝ) by push_cast; linarith)
      omega
    refine ⟨truncated y, by omega, ?_, by rw [truncated, if_pos y0]; exact Int.floor_le y⟩
    by_contra hc
    have h2 := truncated_mono (not_le.mp hc).le
    have e : truncated ((truncated y : Int) : ℝ) = truncated y := by
      generalize truncated y = k at hy
      rw [truncated, if_pos (by exact_mod_cast (show (0 : Int) ≤ k by omega)), Int.floor_intCast]
    rw [e] at h2
    omega
  · have x0 : ¬ 0 ≤ x := by
      intro hc
      have : 0 ≤ truncated x := by rw [truncated, if_pos hc]; exact Int.floor_nonneg.mpr hc
      omega
    refine ⟨truncated x, by omega, by rw [truncated, if_neg x0]; exact Int.le_ceil x, ?_⟩
    by_contra hc
    have h2 := truncated_mono (not_le.mp hc).le
    have e : truncated ((truncated x : Int) : ℝ) = truncated x := by
      have : truncated x < 0 := by omega
      generalize truncated x = k at this
      rw [truncated, if_neg (by rw [not_le]; exact_mod_cast this), Int.ceil_intCast]
    rw [e] at h2
    omega

/-- A narrow interval about a whole value other than 0 is undecided. -/
theorem Ivl.undecided_of_whole {v : Ivl} (hn : v.Narrow) (hs : min (v.lo.natAbs : Int) v.hi.natAbs < 2 ^ 92) {c : Int} (hc : c ≠ 0)
    (hl : v.lo ≤ c * one64) (hh : c * one64 ≤ v.hi) : v.undecided = true := by
  obtain ⟨lo, hi⟩ := v
  simp only [Ivl.Narrow, one64] at *
  have e : nearestWhole lo = c ∧ nearestWhole hi = c := by
    simp only [nearestWhole, one64]
    omega
  have near : ∀ q : Int, lo ≤ q → q ≤ hi → (q - c * one64).natAbs * 16777216 < min lo.natAbs hi.natAbs := by
    intro q h1 h2
    simp only [one64]
    generalize hA : q - c * 18446744073709551616 = a
    omega
  simp only [Ivl.undecided, e, decide_true, Bool.and_true, Bool.and_eq_true, decide_eq_true_eq]
  exact ⟨⟨hc, near lo le_rfl (by omega)⟩, near hi (by omega) le_rfl⟩

theorem Ivl.near_of_undecided {v : Ivl} (h : v.undecided = true) :
    nearestWhole v.lo ≠ 0 ∧ nearestWhole v.hi = nearestWhole v.lo ∧
      (v.lo - nearestWhole v.lo * one64).natAbs * 16777216 < min v.lo.natAbs v.hi.natAbs ∧
      (v.hi - nearestWhole v.lo * one64).natAbs * 16777216 < min v.lo.natAbs v.hi.natAbs := by
  simp only [Ivl.undecided, Bool.and_eq_true, decide_eq_true_eq] at h
  exact ⟨h.1.1.1, h.1.1.2, h.1.2, h.2⟩

/-- Within an undecided interval a value takes either of the two results. -/
theorem Ivl.taken_of_undecided {v : Ivl} {x : ℝ} (h : v.Holds x) (hu : v.undecided = true) (free : Nat) :
    TakenWhole x (v.whole free) := by
  obtain ⟨h0, e, nl, nh⟩ := Ivl.near_of_undecided hu
  obtain ⟨a, b⟩ := h
  refine Or.inr ⟨nearestWhole v.lo, h0, ?_, ?_, Ivl.whole_of_undecided hu free⟩
  all_goals
    generalize hc : nearestWhole v.lo = c at *
    obtain ⟨lo, hi⟩ := v
    simp only [nearestWhole, one64] at *
  · have l : c * 18446744073709551616 - 9223372036854775808 ≤ lo := by omega
    have u : hi ≤ c * 18446744073709551616 + 9223372036854775808 := by omega
    have l' : (c : ℝ) * 18446744073709551616 - 9223372036854775808 ≤ (lo : ℝ) := by exact_mod_cast l
    have u' : (hi : ℝ) ≤ (c : ℝ) * 18446744073709551616 + 9223372036854775808 := by exact_mod_cast u
    rw [abs_le]
    constructor <;> linarith
  · have k : 0 < lo ∨ hi < 0 := by omega
    rw [abs_lt, lt_div_iff₀ (by positivity), ← neg_lt_neg_iff, neg_neg]
    rcases k with k | k
    · have q1 : c * 18446744073709551616 * 16777216 - lo * 16777216 < lo := by omega
      have q2 : hi * 16777216 - c * 18446744073709551616 * 16777216 < lo := by omega
      have q1' : (c : ℝ) * 18446744073709551616 * 16777216 - lo * 16777216 < lo := by exact_mod_cast q1
      have q2' : (hi : ℝ) * 16777216 - c * 18446744073709551616 * 16777216 < lo := by exact_mod_cast q2
      have k' : (0 : ℝ) < lo := by exact_mod_cast k
      rw [abs_of_pos (by linarith)]
      constructor
      · rw [lt_div_iff₀ (by positivity)]; linarith
      · linarith
    · have q1 : c * 18446744073709551616 * 16777216 - lo * 16777216 < -hi := by omega
      have q2 : hi * 16777216 - c * 18446744073709551616 * 16777216 < -hi := by omega
      have q1' : (c : ℝ) * 18446744073709551616 * 16777216 - lo * 16777216 < -hi := by exact_mod_cast q1
      have q2' : (hi : ℝ) * 16777216 - c * 18446744073709551616 * 16777216 < -hi := by exact_mod_cast q2
      have k' : (hi : ℝ) < 0 := by exact_mod_cast k
      rw [abs_of_neg (by linarith)]
      constructor
      · rw [lt_div_iff₀ (by positivity)]; linarith
      · linarith

/-- Within 2^28 of 0, the whole value taken of a narrow interval is one that R3 allows. -/
theorem Ivl.taken_of_small {v : Ivl} {x : ℝ} (h : v.Holds x) (hn : v.Narrow) (hs : min (v.lo.natAbs : Int) v.hi.natAbs < 2 ^ 92)
    (free : Nat) : TakenWhole x (v.whole free) := by
  by_cases hu : v.undecided = true
  · exact Ivl.taken_of_undecided h hu free
  have p : (0 : ℝ) < 2 ^ 64 := by positivity
  have le1 : (v.lo : ℝ) / 2 ^ 64 ≤ x := by rw [div_le_iff₀ p]; exact h.1
  refine Or.inl ?_
  rw [Ivl.whole_of_decided (Bool.eq_false_iff.mpr hu), tdiv_eq_truncated]
  by_contra hne
  obtain ⟨c, c0, cl, ch⟩ := whole_between le1 hne
  refine hu (Ivl.undecided_of_whole hn hs c0 ?_ ?_)
  · rw [div_le_iff₀ p, ← one64_real] at cl
    exact_mod_cast cl
  · have : (c : ℝ) * 2 ^ 64 ≤ (v.hi : ℝ) := le_trans (by gcongr) h.2
    rw [← one64_real] at this
    exact_mod_cast this

theorem Ivl.whole_ge {v : Ivl} (h : 2 ^ 92 ≤ v.lo) (free : Nat) : 134217728 ≤ v.whole free := by
  by_cases hu : v.undecided = true
  · rcases Ivl.whole_of_undecided hu free with e | e <;> rw [e]
    · simp only [nearestWhole, one64]; omega
    · rw [Int.sign_eq_one_of_pos (by simp only [nearestWhole, one64]; omega)]
      simp only [nearestWhole, one64]; omega
  · rw [Ivl.whole_of_decided (Bool.eq_false_iff.mpr hu), Int.tdiv_eq_ediv_of_nonneg (by omega), one64]
    omega

theorem Ivl.whole_le {v : Ivl} (h : v.lo ≤ -2 ^ 92) (free : Nat) : v.whole free < -134217728 := by
  by_cases hu : v.undecided = true
  · rcases Ivl.whole_of_undecided hu free with e | e <;> rw [e]
    · simp only [nearestWhole, one64]; omega
    · rw [Int.sign_eq_neg_one_of_neg (by simp only [nearestWhole, one64]; omega)]
      simp only [nearestWhole, one64]; omega
  · have e : v.lo.tdiv one64 = -(-v.lo / one64) := by
      rw [← Int.tdiv_eq_ediv_of_nonneg (by omega), Int.neg_tdiv, neg_neg]
    rw [Ivl.whole_of_decided (Bool.eq_false_iff.mpr hu), e, one64]
    omega

/-- R3: the whole value taken of a narrow interval is one that R3 allows of the exact value, or both lie beyond the section range on
the same side, where all are limited alike. -/
theorem Ivl.whole_taken {v : Ivl} {x : ℝ} (h : v.Holds x) (hn : v.Narrow) (free : Nat) :
    ∃ w : Int, TakenWhole x w ∧ (w = v.whole free ∨ (134217728 ≤ w ∧ 134217728 ≤ v.whole free) ∨
      (w < -134217728 ∧ v.whole free < -134217728)) := by
  by_cases hs : min (v.lo.natAbs : Int) v.hi.natAbs < 2 ^ 92
  · exact ⟨_, Ivl.taken_of_small h hn hs free, Or.inl rfl⟩
  have k : 2 ^ 92 ≤ v.lo ∨ v.hi ≤ -2 ^ 92 := by
    have : v.lo ≤ v.hi := Ivl.ordered h
    simp only [Ivl.Narrow] at hn
    omega
  refine ⟨truncated x, Or.inl rfl, Or.inr ?_⟩
  have p : (0 : ℝ) < 2 ^ 64 := by positivity
  rcases k with k | k
  · have k' : (2 : ℝ) ^ 92 ≤ v.lo := by exact_mod_cast k
    have hx : (2 : ℝ) ^ 28 ≤ x := by linarith [h.1]
    refine Or.inl ⟨?_, Ivl.whole_ge k free⟩
    rw [truncated, if_pos (by linarith)]
    exact Int.le_floor.mpr (by push_cast; linarith)
  · have k' : (v.hi : ℝ) ≤ -2 ^ 92 := by exact_mod_cast k
    have hx : x ≤ -(2 : ℝ) ^ 28 := by linarith [h.2]
    refine Or.inr ⟨?_, Ivl.whole_le ((Ivl.ordered h).trans k) free⟩
    rw [truncated, if_neg (by linarith)]
    have := Int.ceil_lt_add_one x
    have : ((⌈x⌉ : Int) : ℝ) < -134217728 := by linarith
    exact_mod_cast this

/-! ## The width of the path's intervals -/

theorem linFloor_range {l : Int} (h : -480 < l) (h' : l ≤ 48) : 2 ^ 44 ≤ linFloor l ∧ linFloor l < 2 ^ 66 := by
  obtain ⟨a, b⟩ := linFloor_bounds l
  have p := lin_pos l
  have e := lin_pow l
  have up : lin l < 4 := by
    refine lt_of_pow_lt_pow_left₀ 80 (by norm_num) ?_
    rw [e]
    exact lt_of_le_of_lt (zpow_le_zpow_right₀ (by norm_num) h') (by norm_num)
  have low : (1 : ℝ) / 10 ^ 6 ≤ lin l := by
    refine le_of_pow_le_pow_left₀ (n := 80) (by norm_num) p.le ?_
    rw [e]
    refine le_trans (le_of_eq ?_) (zpow_le_zpow_right₀ (show (1 : ℝ) ≤ 10 by norm_num) (show -480 ≤ l by omega))
    rw [div_pow, one_pow, ← pow_mul, one_div, zpow_neg]
    rfl
  constructor
  · have : (2 : ℝ) ^ 44 ≤ linFloor l := by
      have : (2 : ℝ) ^ 44 + 1 ≤ 1 / 10 ^ 6 * 2 ^ 64 := by norm_num
      have : (1 : ℝ) / 10 ^ 6 * 2 ^ 64 ≤ lin l * 2 ^ 64 := by gcongr
      linarith
    exact_mod_cast this
  · have : (linFloor l : ℝ) < 2 ^ 66 := by
      have : lin l * 2 ^ 64 < 4 * 2 ^ 64 := by gcongr
      linarith
    exact_mod_cast this

/-- R2: a contribution's ends differ by at most the sample's own size. -/
theorem contribution_width (s : State) (o : Output) (src : Source) :
    (contribution s o src).hi - (contribution s o src).lo ≤ 2 ^ 23 := by
  unfold contribution
  split
  · simp [Ivl.exact]
  have r : -8388608 ≤ (s.core.held[src]).toInt ∧ (s.core.held[src]).toInt ≤ 8388607 :=
    ⟨BitVec.le_toInt _, Int.le_of_lt_add_one BitVec.toInt_lt⟩
  generalize (s.core.held[src]).toInt = n at r
  generalize (keyCurrent s (.cell o src)).qdb + (keyCurrent s (.duck src)).qdb = l
  unfold Ivl.gain
  split
  · simp [Ivl.exact]
  split
  · simp [Ivl.exact]
  have o0 : one64 ≠ 0 := by decide
  have k : ∀ m : Int, n * one64 * m / one64 = n * m := fun m => by
    rw [mul_right_comm]; exact Int.mul_ediv_cancel _ o0
  have k' : ∀ m : Int, ceilDiv (n * one64 * m) one64 = n * m := fun m => by
    unfold ceilDiv
    rw [mul_right_comm, ← neg_mul, Int.mul_ediv_cancel _ o0, neg_neg]
  simp only [Ivl.scale, Ivl.exact, linGain, k, k']
  split <;> nlinarith

theorem foldl_add_width (f : Source → Ivl) (w : Int) (h : ∀ i, (f i).hi - (f i).lo ≤ w) (l : List Source) :
    ∀ v : Ivl, (l.foldl (fun v i => v.add (f i)) v).hi - (l.foldl (fun v i => v.add (f i)) v).lo ≤ v.hi - v.lo + l.length * w := by
  induction l with
  | nil => simp
  | cons i is ih =>
      intro v
      have := ih (v.add (f i))
      have := h i
      simp only [List.foldl_cons, List.length_cons, Ivl.add] at *
      push_cast
      linarith

theorem foldl_add_holds (f : Source → Ivl) (g : Source → ℝ) (h : ∀ i, (f i).Holds (g i)) (l : List Source) :
    ∀ (v : Ivl) (x : ℝ), v.Holds x → (l.foldl (fun v i => v.add (f i)) v).Holds (x + (l.map g).sum) := by
  induction l with
  | nil => intro v x hv; simpa using hv
  | cons i is ih =>
      intro v x hv
      have := ih _ _ (Ivl.holds_add hv (h i))
      simpa [add_assoc] using this

/-- R3: the mix's interval holds the exact mix, and is narrow. -/
theorem mix_holds (s : State) (o : Output) : (mixOf s o).Holds (exactMix s o) ∧ (mixOf s o).hi - (mixOf s o).lo ≤ 2 ^ 27 := by
  constructor
  · have := foldl_add_holds _ _ (contribution_holds s o) (List.finRange 12) (Ivl.exact 0) 0 (by simpa using Ivl.holds_exact 0)
    rw [zero_add, ← Fin.sum_univ_def] at this
    exact this
  · have := foldl_add_width (contribution s o) _ (contribution_width s o) (List.finRange 12) (Ivl.exact 0)
    simp only [List.length_finRange, Ivl.exact, zero_mul, sub_self, zero_add] at this
    exact this.trans (by norm_num)

theorem Ivl.narrow_exact (n : Int) : (Ivl.exact n).Narrow := Ivl.narrow_of_le (by simp [Ivl.exact])

theorem Ivl.narrow_neg {v : Ivl} (h : v.Narrow) : v.neg.Narrow := by
  simp only [Ivl.Narrow, Ivl.neg] at *
  omega

/-- R5, R6: a level and the gate keep an interval of width up to 2^−36 narrow. -/
theorem Ivl.narrow_stages {v : Ivl} (ho : v.lo ≤ v.hi) (hw : v.hi - v.lo ≤ 2 ^ 28) {l : Int} (hl : l ≤ 48) {u : Nat} (hu : u ≤ 2400) :
    ((v.gain l).fraction u gateFull).Narrow := by
  by_cases hz : l ≤ floorQdb ∨ v.isZero = true
  · have e : v.gain l = Ivl.exact 0 := by
      unfold Ivl.gain
      split
      · rfl
      · rw [if_pos (hz.resolve_left (by assumption))]
        exact Ivl.eq_exact_zero (hz.resolve_left (by assumption))
    rw [e]
    exact Ivl.narrow_of_le (by simp [Ivl.fraction, Ivl.exact, ceilDiv])
  rw [not_or] at hz
  have e : v.gain l = v.scale (linGain l) := by rw [Ivl.gain, if_neg hz.1, if_neg hz.2]
  obtain ⟨q1, q2⟩ := linFloor_range (l := l) (by have := hz.1; simp only [floorQdb] at this; omega) hl
  rw [e]
  obtain ⟨a, b⟩ := v
  simp only [Ivl.scale, linGain, Ivl.fraction, gateFull] at *
  generalize hq : (linFloor l : Int) = q
  have q1' : 2 ^ 44 ≤ q := by omega
  have q2' : q < 2 ^ 66 := by omega
  generalize hP : (if 0 ≤ a then a * q / one64 else a * (q + 1) / one64) = lo
  generalize hQ : (if 0 ≤ b then ceilDiv (b * (q + 1)) one64 else ceilDiv (b * q) one64) = hi
  have d0 : (b - a) * q ≤ 2 ^ 94 := by nlinarith
  have d1 : 0 ≤ (b - a) * q := by nlinarith
  have first : (hi - lo) * 2 ^ 44 ≤ 2 ^ 75 + lo.natAbs ∧ lo ≤ hi := by
    have n1 : (a.natAbs : Int) * 2 ^ 44 ≤ a.natAbs * q := by nlinarith [Int.natCast_nonneg a.natAbs]
    have e1 : b * q = a * q + (b - a) * q := by ring
    rw [mul_add, mul_one] at hP hQ
    simp only [ceilDiv, one64] at hP hQ
    rcases le_or_gt 0 a with ha | ha
    · have n2 : (a.natAbs : Int) * q = a * q := by rw [Int.natAbs_of_nonneg ha]
      rw [if_pos ha] at hP
      rw [if_pos (ha.trans ho)] at hQ
      generalize a * q = A at *
      generalize b * q = B at *
      generalize (b - a) * q = D at *
      omega
    · have n2 : (a.natAbs : Int) * q = -(a * q) := by rw [Int.ofNat_natAbs_of_nonpos ha.le, neg_mul]
      rw [if_neg (not_le.mpr ha)] at hP
      generalize a * q = A at *
      generalize b * q = B at *
      generalize (b - a) * q = D at *
      split at hQ <;> omega
  obtain ⟨f1, f2⟩ := first
  have u0 : (0 : Int) ≤ u := by omega
  have u1 : (u : Int) ≤ 2400 := by omega
  have g1 : (hi * u - lo * u) * 2 ^ 44 ≤ 2 ^ 75 * u + lo.natAbs * u := by nlinarith
  have g2 : lo * u ≤ hi * u := by nlinarith
  have g3 : ((lo.natAbs : Int) * u) = (lo * (u : Int)).natAbs := by
    rw [Int.natAbs_mul, Int.natAbs_natCast]; push_cast; rfl
  rw [g3] at g1
  generalize lo * (u : Int) = L at *
  generalize hi * (u : Int) = H at *
  simp only [Ivl.Narrow, ceilDiv, show ((2400 : Nat) : Int) = 2400 from rfl]
  have g4 : (-(-H / 2400) - L / 2400) * 2 ^ 44 ≤ 2 ^ 75 + 2 ^ 46 + ((L / 2400).natAbs : Int) := by omega
  generalize L / 2400 = X at *
  generalize -H / 2400 = Y at *
  omega

/-! ## The equalisation and an output's sample -/

/-- An interval that holds an equalised value and is narrow enough for the stages. -/
def Ivl.Tight (v : Ivl) (x : ℝ) : Prop := v.Holds x ∧ v.hi - v.lo ≤ 2 ^ 27

theorem blend_width {k : Nat} (hk : k ≤ 480) {v w : Ivl} (hv : v.hi - v.lo ≤ 2 ^ 27) (hw : w.hi - w.lo ≤ 2 ^ 27) :
    (blend k v w).hi - (blend k v w).lo ≤ 2 ^ 28 := by
  have k0 : (0 : Int) ≤ k := by omega
  have k1 : (k : Int) ≤ 480 := by omega
  have b : (480 - (k : Int)) * v.hi + k * w.hi - ((480 - (k : Int)) * v.lo + k * w.lo) ≤ 480 * 2 ^ 27 := by nlinarith
  simp only [blend, ceilDiv]
  generalize (480 - (k : Int)) * v.hi + k * w.hi = H at *
  generalize (480 - (k : Int)) * v.lo + k * w.lo = L at *
  omega

theorem chainSide_computes (pool : Vector EqSection 256) (l : List SectionNo) {mix : Ivl} {a : ℝ} (h : mix.Tight a) (x : Int) :
    ∃ e : ℝ, SideComputes pool l a x e (chainSide pool l mix x).2 ∧ (chainSide pool l mix x).1.Tight e := by
  cases l with
  | nil => exact ⟨a, ⟨rfl, rfl⟩, h⟩
  | cons i is =>
      refine ⟨_, ?_, Ivl.holds_exact _, by simp [chainSide, Ivl.exact]⟩
      rw [SideComputes, if_neg (List.cons_ne_nil i is)]
      exact ⟨_, rfl, runChain_computes (i :: is) pool x⟩

/-- R4: the equalisation computes what `Equalised` says of its mix, in an interval that holds it. -/
theorem equalise_equalised (on : Bool) (s : State) (o : Output) {mix : Ivl} {a : ℝ} (h : mix.Tight a) (free : Nat)
    (hf : ∀ f : Crossfade, s.eq.slotOf o = some f → f.k ≤ 480) :
    ∃ e : ℝ, Equalised on s o a (sectionClamp (mix.whole free)) e (equalise on s o mix free).2 ∧
      (equalise on s o mix free).1.Holds e ∧ (equalise on s o mix free).1.hi - (equalise on s o mix free).1.lo ≤ 2 ^ 28 := by
  cases on with
  | false => exact ⟨a, ⟨rfl, rfl⟩, h.1, h.2.trans (by norm_num)⟩
  | true =>
      simp only [Equalised, equalise, Bool.true_eq_false, if_false, if_true]
      cases hs : s.eq.slotOf o with
      | none =>
          obtain ⟨e, he, ht⟩ := chainSide_computes s.eq.sections s.eq.chains[o] h (sectionClamp (mix.whole free))
          exact ⟨e, he, ht.1, ht.2.trans (by norm_num)⟩
      | some f =>
          obtain ⟨e, he, ht⟩ := chainSide_computes s.eq.sections f.old h (sectionClamp (mix.whole free))
          obtain ⟨g, hg, hu⟩ := chainSide_computes (chainSide s.eq.sections f.old mix (sectionClamp (mix.whole free))).2
            s.eq.chains[o] h (sectionClamp (mix.whole free))
          have hk := hf f hs
          refine ⟨_, ⟨e, g, _, he, hg, rfl⟩, blend_holds f.k hk ht.1 hu.1, blend_width hk ht.2 hu.2⟩

/-- R5, R6: what the stages make of an interval holds what they make of its value, and is narrow. -/
theorem staged_holds (s : State) (o : Output) {v : Ivl} {x : ℝ} (h : v.Holds x) (hw : v.hi - v.lo ≤ 2 ^ 28)
    (hg : s.core.gate ≤ 2400) (hc : (s.core.live.outputs[o]).ceiling ≤ 48) :
    (staged s o v).Holds (exactStages s o x) ∧ (staged s o v).Narrow := by
  have e : finalGain s o = levelGain s o := rfl
  have hh := Ivl.holds_fraction (Ivl.holds_gain h (levelGain s o)) s.core.gate gateFull (by decide)
  have hn := Ivl.narrow_stages (Ivl.ordered h) hw (l := levelGain s o) ((min_le_right _ _).trans hc) hg
  rw [show ((gateFull : Nat) : ℝ) = 2400 by norm_num [gateFull]] at hh
  unfold staged exactStages
  rw [e]
  split
  · exact ⟨by rw [neg_one_mul]; exact Ivl.holds_neg hh, Ivl.narrow_neg hn⟩
  · exact ⟨by rw [one_mul]; exact hh, hn⟩

theorem clamp_alike {w u : Int} (h : w = u ∨ (134217728 ≤ w ∧ 134217728 ≤ u) ∨ (w < -134217728 ∧ u < -134217728)) :
    sectionClamp w = sectionClamp u ∧ sampleClamp w = sampleClamp u ∧ (sampleClamp w = w ↔ sampleClamp u = u) := by
  unfold sectionClamp sampleClamp clampTo
  omega

/-- R2 to R6: composing an output. -/
theorem composeOutput_composed (on : Bool) (s : State) (o : Output) (hf : ∀ f : Crossfade, s.eq.slotOf o = some f → f.k ≤ 480)
    (hg : s.core.gate ≤ 2400) (hc : (s.core.live.outputs[o]).ceiling ≤ 48) : Composed on s o (composeOutput on s o) := by
  have hm := mix_holds s o
  obtain ⟨m, m1, m2⟩ := Ivl.whole_taken hm.1 (Ivl.narrow_of_le (hm.2.trans (by norm_num))) s.free
  obtain ⟨e, e1, e2, e3⟩ := equalise_equalised on s o (mix := mixOf s o) (a := exactMix s o) hm s.free hf
  obtain ⟨t1, t2⟩ := staged_holds s o e2 e3 hg hc
  obtain ⟨w, w1, w2⟩ := Ivl.whole_taken t1 t2 (s.free + 1)
  have c1 := (clamp_alike m2).1
  obtain ⟨_, c2, c3⟩ := clamp_alike w2
  rw [← c1] at e1
  have hr : (-8388608 ≤ w ∧ w ≤ 8388607) ↔ sampleClamp w = w := by
    unfold sampleClamp clampTo
    omega
  unfold composeOutput emitSample
  dsimp only
  split
  case isTrue hw =>
    refine ⟨m, w, e, m1, e1, w1, ?_⟩
    rw [if_pos (hr.mpr (c3.mpr hw)), ← c2]
    rfl
  case isFalse hw =>
    refine ⟨m, w, e, m1, e1, w1, ?_⟩
    rw [if_neg (fun k => hw (c3.mp (hr.mp k))), ← c2]
    rfl
theorem composeOutput_keeps (on : Bool) (s : State) (o : Output) :
    (composeOutput on s o).core = s.core ∧ (composeOutput on s o).eq.slots = s.eq.slots := by
  unfold composeOutput emitSample
  dsimp only
  split <;> exact ⟨rfl, rfl⟩

theorem foldl_composeOutput_keeps (on : Bool) (l : List Output) : ∀ s : State,
    (l.foldl (composeOutput on) s).core = s.core ∧ (l.foldl (composeOutput on) s).eq.slots = s.eq.slots := by
  induction l with
  | nil => exact fun s => ⟨rfl, rfl⟩
  | cons o os ih =>
      intro s
      obtain ⟨a, b⟩ := ih (composeOutput on s o)
      obtain ⟨c, d⟩ := composeOutput_keeps on s o
      exact ⟨a.trans c, b.trans d⟩

theorem slotOf_mem {e : EqUnit} {o : Output} {f : Crossfade} (h : e.slotOf o = some f) : ∃ i : Fin 4, e.slots[i] = some f := by
  unfold EqUnit.slotOf at h
  split at h
  case h_1 i _ => exact ⟨i, h⟩
  case h_2 => cases h

/-- R2 to R7: all outputs are composed in their order, each as `Composed` says. -/
theorem composeAll_composed (on : Bool) (s : State) (hc : CountInv s) (hb : BoostInv s) (hg : s.core.gate ≤ 2400) :
    ∃ p : Nat → State, p 0 = s ∧ (∀ o : Output, Composed on (p o.val) o (p (o.val + 1))) ∧ composeAll on s = p 24 := by
  refine ⟨fun n => ((List.finRange 24).take n).foldl (composeOutput on) s, rfl, fun o => ?_, ?_⟩
  · have e : (List.finRange 24).take (o.val + 1) = (List.finRange 24).take o.val ++ [o] := by
      rw [List.take_add_one, List.getElem?_eq_getElem (by simp), List.getElem_finRange]
      rfl
    obtain ⟨k1, k2⟩ := foldl_composeOutput_keeps on ((List.finRange 24).take o.val) s
    simp only [e, List.foldl_append, List.foldl_cons, List.foldl_nil]
    refine composeOutput_composed on _ o (fun f hf => ?_) (by rw [k1]; exact hg) (by rw [k1]; exact (hb.ceilings o).2)
    obtain ⟨i, hi⟩ := slotOf_mem hf
    rw [k2] at hi
    exact (hc.fades i f hi).le
  · simp only [composeAll]
    rfl
end Sys2Proof.Machine
end

