-- ==== Sys2Proof/Laws/Memory.lean ====
section
/-! SUPPORT. The bytes of cue memory: every operation keeps the canonical form, and a read sees the last write. -/

namespace Sys2Proof.Machine

/-! ## Addresses of a canonical list -/

/-- Every listed address of a canonical list's tail lies above its head. -/
theorem Memory.wf_above : ∀ {m : Memory} {a : Nat} {b : Byte}, Memory.wf ((a, b) :: m) = true → ∀ x ∈ m, a < x.1
  | [], _, _, _, x, hx => by cases hx
  | (a', b') :: m, a, b, h, x, hx => by
    unfold Memory.wf at h
    simp only [Bool.and_eq_true, decide_eq_true_eq] at h
    rcases List.mem_cons.mp hx with hx | hx
    · rw [hx]; exact h.1.1
    · exact Nat.lt_trans h.1.1 (Memory.wf_above h.2 x hx)

theorem Memory.wf_tail {m : Memory} {x : Host.Cell} (h : Memory.wf (x :: m) = true) : Memory.wf m = true := by
  cases m with
  | nil => rfl
  | cons y m =>
    obtain ⟨a, b⟩ := x
    obtain ⟨a', b'⟩ := y
    unfold Memory.wf at h
    simp only [Bool.and_eq_true] at h
    exact h.2

theorem Memory.wf_head {m : Memory} {a : Nat} {b : Byte} (h : Memory.wf ((a, b) :: m) = true) : b ≠ Memory.unlisted := by
  cases m with
  | nil => exact of_decide_eq_true h
  | cons y m =>
    obtain ⟨a', b'⟩ := y
    unfold Memory.wf at h
    simp only [Bool.and_eq_true, decide_eq_true_eq] at h
    exact h.1.2

/-- A byte in front of a canonical list of higher addresses. -/
theorem Memory.wf_cons {m : Memory} {a : Nat} {b : Byte} (hm : Memory.wf m = true) (hb : b ≠ Memory.unlisted)
    (ha : ∀ x ∈ m, a < x.1) : Memory.wf ((a, b) :: m) = true := by
  cases m with
  | nil => exact decide_eq_true hb
  | cons y m =>
    obtain ⟨a', b'⟩ := y
    unfold Memory.wf
    simp only [Bool.and_eq_true, decide_eq_true_eq]
    exact ⟨⟨ha (a', b') (by simp), hb⟩, hm⟩

/-! ## Writes -/

/-- A write lists no address but those listed before and its own. -/
theorem Memory.mem_write : ∀ {m : Memory} {x : Nat} {v : Byte} {c : Host.Cell}, c ∈ Memory.write m x v → c ∈ m ∨ c.1 = x
  | [], x, v, c, h => by
    unfold Memory.write at h
    split at h
    · cases h
    · right; rw [List.mem_singleton.mp h]
  | (a, b) :: m, x, v, c, h => by
    unfold Memory.write at h
    split at h
    · split at h
      · exact Or.inl h
      · rcases List.mem_cons.mp h with h | h
        · right; rw [h]
        · exact Or.inl h
    · split at h
      · rename_i hx
        split at h
        · exact Or.inl (List.mem_cons_of_mem _ h)
        · rcases List.mem_cons.mp h with h | h
          · right; rw [h, hx]
          · exact Or.inl (List.mem_cons_of_mem _ h)
      · rcases List.mem_cons.mp h with h | h
        · left; rw [h]; simp
        · rcases Memory.mem_write h with h | h
          · exact Or.inl (List.mem_cons_of_mem _ h)
          · exact Or.inr h

/-- A write keeps the canonical form. -/
theorem Memory.wf_write : ∀ {m : Memory} (x : Nat) (v : Byte), Memory.wf m = true → Memory.wf (Memory.write m x v) = true
  | [], x, v, _ => by
    unfold Memory.write
    split
    · rfl
    · exact decide_eq_true ‹_›
  | (a, b) :: m, x, v, h => by
    unfold Memory.write
    split
    · rename_i hx
      split
      · exact h
      · refine Memory.wf_cons h ‹_› fun y hy => ?_
        rcases List.mem_cons.mp hy with hy | hy
        · rw [hy]; exact hx
        · exact Nat.lt_trans hx (Memory.wf_above h y hy)
    · split
      · rename_i hx
        split
        · exact Memory.wf_tail h
        · exact Memory.wf_cons (Memory.wf_tail h) ‹_› (Memory.wf_above h)
      · refine Memory.wf_cons (Memory.wf_write x v (Memory.wf_tail h)) (Memory.wf_head h) fun y hy => ?_
        rcases Memory.mem_write hy with hy | hy
        · exact Memory.wf_above h y hy
        · omega

/-! ## Reads -/

theorem Memory.read_of_above : ∀ {m : Memory} {x : Nat}, (∀ c ∈ m, x < c.1) → Memory.read m x = Memory.unlisted
  | [], _, _ => rfl
  | (a, b) :: m, x, h => by
    unfold Memory.read
    rw [if_neg (by have := h (a, b) (by simp); omega)]
    exact Memory.read_of_above fun c hc => h c (List.mem_cons_of_mem _ hc)

/-- A read of the written address sees the written byte. -/
theorem Memory.read_write_same : ∀ {m : Memory} (x : Nat) (v : Byte), Memory.wf m = true →
    Memory.read (Memory.write m x v) x = v
  | [], x, v, _ => by
    unfold Memory.write
    split
    · rename_i hv; rw [hv]; rfl
    · simp [Memory.read]
  | (a, b) :: m, x, v, h => by
    unfold Memory.write
    split
    · rename_i hx
      split
      · rename_i hv
        rw [hv]
        refine Memory.read_of_above fun c hc => ?_
        rcases List.mem_cons.mp hc with hc | hc
        · rw [hc]; exact hx
        · exact Nat.lt_trans hx (Memory.wf_above h c hc)
      · simp [Memory.read]
    · split
      · rename_i hx
        split
        · rename_i hv
          rw [hv, hx]
          exact Memory.read_of_above (Memory.wf_above h)
        · simp [Memory.read, hx]
      · rename_i hx
        unfold Memory.read
        rw [if_neg hx]
        exact Memory.read_write_same x v (Memory.wf_tail h)

/-- A read of another address sees what it saw before. -/
theorem Memory.read_write_other : ∀ {m : Memory} {x y : Nat} (v : Byte), y ≠ x →
    Memory.read (Memory.write m x v) y = Memory.read m y
  | [], x, y, v, hy => by
    unfold Memory.write
    split
    · rfl
    · simp [Memory.read, hy]
  | (a, b) :: m, x, y, v, hy => by
    unfold Memory.write
    split
    · split
      · rfl
      · conv => lhs; unfold Memory.read
        rw [if_neg hy]
    · split
      · rename_i hx
        split
        · conv => rhs; unfold Memory.read
          rw [if_neg (hx ▸ hy)]
        · unfold Memory.read
          rw [if_neg (hx ▸ hy), if_neg (hx ▸ hy)]
      · unfold Memory.read
        split
        · rfl
        · exact Memory.read_write_other v hy

/-! ## Several bytes, several entries -/

theorem wf_writeBytes : ∀ (bs : List Byte) {m : Memory} (x : Nat), Memory.wf m = true → Memory.wf (writeBytes m x bs) = true
  | [], _, _, h => h
  | b :: bs, _, x, h => wf_writeBytes bs (x + 1) (Memory.wf_write x b h)

theorem mem_writeBytes : ∀ (bs : List Byte) {m : Memory} {x : Nat} {c : Host.Cell}, c ∈ writeBytes m x bs →
    c ∈ m ∨ (x ≤ c.1 ∧ c.1 < x + bs.length)
  | [], _, _, _, h => Or.inl h
  | b :: bs, m, x, c, h => by
    rcases mem_writeBytes bs h with h | h
    · rcases Memory.mem_write h with h | h
      · exact Or.inl h
      · right; simp; omega
    · right; simp; omega

theorem memoryGood_writeEntries : ∀ (es : List CueEntry) {m : Memory} (a : CueAddr), memoryGood m →
    memoryGood (writeEntries m a es)
  | [], _, _, h => h
  | e :: es, m, a, h => by
    refine memoryGood_writeEntries es (a + 1) ⟨wf_writeBytes _ _ h.1, fun x hx => ?_⟩
    rcases mem_writeBytes _ hx with hx | hx
    · exact h.2 x hx
    · have ha := a.isLt
      simp only [Vector.length_toList] at hx
      omega

end Sys2Proof.Machine
end

