-- ==== Sys2Proof/Laws/Wire.lean ====
section
/-! SUPPORT. The bytes of the wire: that fields, checks, coefficients, cue entries and table entries are what chapter 11 says, once for
the statements that say so. -/

namespace Sys2Proof.Machine

/-! ## Checks (11.2) -/

/-- One bit of a CRC's register moved out. -/
def crcBit {w : Nat} (p c : BitVec w) : BitVec w := if c.msb then (c <<< 1) ^^^ p else c <<< 1

/-- A register with further bits laid over its top moves one of them in. -/
theorem crcBit_xor {w : Nat} (p x t : BitVec w) : crcBit p (x ^^^ t) = shiftIn p x t.msb ^^^ (t <<< 1) := by
  unfold crcBit shiftIn
  rw [BitVec.msb_xor, BitVec.shiftLeft_xor_distrib]
  cases x.msb <;> cases t.msb <;> simp [BitVec.xor_assoc, BitVec.xor_comm (t <<< 1)]

/-- The eight bits of a byte, moved out of the top of a register, are shifted in one after another. -/
theorem crcBits_xor {w : Nat} (p x t : BitVec w) :
    crcBit p (crcBit p (crcBit p (crcBit p (crcBit p (crcBit p (crcBit p (crcBit p (x ^^^ t)))))))) =
      ((List.range 8).map fun i => (t <<< i).msb).foldl (shiftIn p) x ^^^ (t <<< 8) := by
  simp only [crcBit_xor, ← BitVec.shiftLeft_add]
  simp [List.range, List.range.loop, BitVec.msb]

theorem crc8Byte_bits (c : BitVec 8) (b : Byte) :
    crc8Byte c b = ((List.range 8).map fun i => b.getLsbD (7 - i)).foldl (shiftIn 0x07) c := by
  have h := crcBits_xor 0x07 c b
  rw [BitVec.shiftLeft_eq_zero (by decide), BitVec.xor_zero] at h
  refine (show _ = _ from h).trans ?_
  congr 1
  refine List.map_congr_left fun i hi => ?_
  have : i < 8 := List.mem_range.mp hi
  rw [BitVec.msb_eq_getLsbD_last, BitVec.getLsbD_shiftLeft]
  simp [show ¬ (7 < i) by omega]

theorem crc16Byte_bits (c : BitVec 16) (b : Byte) :
    crc16Byte c b = ((List.range 8).map fun i => b.getLsbD (7 - i)).foldl (shiftIn 0x1021) c := by
  have h := crcBits_xor 0x1021 c (b.zeroExtend 16 <<< 8)
  have z : (b.zeroExtend 16 <<< 8) <<< 8 = 0#16 := by rw [← BitVec.shiftLeft_add, BitVec.shiftLeft_eq_zero (by decide)]
  rw [z, BitVec.xor_zero] at h
  refine (show _ = _ from h).trans ?_
  congr 1
  refine List.map_congr_left fun i hi => ?_
  have : i < 8 := List.mem_range.mp hi
  rw [BitVec.msb_eq_getLsbD_last, ← BitVec.shiftLeft_add, BitVec.getLsbD_shiftLeft]
  simp [show ¬ (15 < 8 + i) by omega]
  rw [show 15 - (8 + i) = 7 - i by omega]
  rw [decide_eq_true (by omega), Bool.true_and]

theorem foldl_bitsOf {α : Type} (f : α → Bool → α) (g : α → Byte → α)
    (h : ∀ a b, g a b = ((List.range 8).map fun i => b.getLsbD (7 - i)).foldl f a) :
    ∀ (bs : List Byte) (a : α), bs.foldl g a = (bitsOf bs).foldl f a
  | [], _ => rfl
  | b :: bs, a => by
      rw [List.foldl_cons, h, foldl_bitsOf f g h bs]
      simp [bitsOf]

theorem checksComputed : ChecksComputed :=
  ⟨fun bs => foldl_bitsOf _ _ crc8Byte_bits bs 0, by decide +kernel⟩

theorem digestComputed : DigestComputed :=
  ⟨fun c bs => foldl_bitsOf _ _ crc16Byte_bits bs c, by decide +kernel⟩

/-! ## Fields (11) -/

theorem byteOf_toNat (v : Int) : ((byteOf v).toNat : Int) = v % 256 := by
  unfold byteOf
  rw [BitVec.toNat_ofInt]
  have : (0 : Int) ≤ v % (2 ^ 8 : Nat) := Int.emod_nonneg _ (by decide)
  rw [Int.toNat_of_nonneg this]
  rfl

theorem fieldsSpelt : FieldsSpelt := by
  refine ⟨fun v => ⟨?_, ⟨rfl, ?_⟩, rfl, ?_⟩, fun h l => rfl⟩
  · simp [Spells, byteOf_toNat]
  · simp only [Spells, bytes16, List.foldl, List.length, Nat.zero_mul, Nat.zero_add]
    push_cast
    rw [byteOf_toNat, byteOf_toNat]
    omega
  · simp only [Spells, bytes24, List.foldl, List.length, Nat.zero_mul, Nat.zero_add]
    push_cast
    rw [byteOf_toNat, byteOf_toNat, byteOf_toNat]
    omega

theorem s24_spells (h m l : Byte) : -8388608 ≤ s24 h m l ∧ s24 h m l ≤ 8388607 ∧ Spells [h, m, l] (s24 h m l) := by
  have := h.isLt
  have := m.isLt
  have := l.isLt
  unfold s24 u16 Spells
  rw [BitVec.toInt_eq_toNat_cond, BitVec.toNat_ofNat]
  simp only [List.foldl, List.length]
  push_cast
  split <;> omega

theorem s16_unique {h l : Byte} {v : Int} (lo : -32768 ≤ v) (hi : v ≤ 32767) (hv : Spells [h, l] v) : s16 h l = v := by
  have := h.isLt
  have := l.isLt
  unfold Spells at hv
  unfold s16 u16
  rw [BitVec.toInt_eq_toNat_cond, BitVec.toNat_ofNat]
  simp only [List.foldl, List.length] at hv ⊢
  push_cast at hv ⊢
  split <;> omega

/-! ## Coefficients and cue entries (11.5) -/

set_option maxRecDepth 4000 in
theorem coeffsDecoded : CoeffsDecoded := by
  intro bs
  refine ⟨fun h => ?_, fun h => ?_⟩
  · unfold parseCoeffs
    split
    · exact absurd rfl h
    · rfl
  · obtain ⟨p2, bs, rfl⟩ := List.exists_cons_of_length_eq_add_one h
    rw [List.length_cons, Nat.add_right_cancel_iff] at h
    obtain ⟨p1, bs, rfl⟩ := List.exists_cons_of_length_eq_add_one h
    rw [List.length_cons, Nat.add_right_cancel_iff] at h
    obtain ⟨p0, bs, rfl⟩ := List.exists_cons_of_length_eq_add_one h
    rw [List.length_cons, Nat.add_right_cancel_iff] at h
    obtain ⟨q2, bs, rfl⟩ := List.exists_cons_of_length_eq_add_one h
    rw [List.length_cons, Nat.add_right_cancel_iff] at h
    obtain ⟨q1, bs, rfl⟩ := List.exists_cons_of_length_eq_add_one h
    rw [List.length_cons, Nat.add_right_cancel_iff] at h
    obtain ⟨q0, bs, rfl⟩ := List.exists_cons_of_length_eq_add_one h
    rw [List.length_cons, Nat.add_right_cancel_iff] at h
    obtain ⟨r2, bs, rfl⟩ := List.exists_cons_of_length_eq_add_one h
    rw [List.length_cons, Nat.add_right_cancel_iff] at h
    obtain ⟨r1, bs, rfl⟩ := List.exists_cons_of_length_eq_add_one h
    rw [List.length_cons, Nat.add_right_cancel_iff] at h
    obtain ⟨r0, bs, rfl⟩ := List.exists_cons_of_length_eq_add_one h
    rw [List.length_cons, Nat.add_right_cancel_iff] at h
    obtain ⟨s2, bs, rfl⟩ := List.exists_cons_of_length_eq_add_one h
    rw [List.length_cons, Nat.add_right_cancel_iff] at h
    obtain ⟨s1, bs, rfl⟩ := List.exists_cons_of_length_eq_add_one h
    rw [List.length_cons, Nat.add_right_cancel_iff] at h
    obtain ⟨s0, bs, rfl⟩ := List.exists_cons_of_length_eq_add_one h
    rw [List.length_cons, Nat.add_right_cancel_iff] at h
    obtain ⟨t2, bs, rfl⟩ := List.exists_cons_of_length_eq_add_one h
    rw [List.length_cons, Nat.add_right_cancel_iff] at h
    obtain ⟨t1, bs, rfl⟩ := List.exists_cons_of_length_eq_add_one h
    rw [List.length_cons, Nat.add_right_cancel_iff] at h
    obtain ⟨t0, bs, rfl⟩ := List.exists_cons_of_length_eq_add_one h
    rw [List.length_cons, Nat.add_right_cancel_iff] at h
    rw [List.length_eq_zero_iff] at h
    subst h
    refine ⟨_, rfl, fun j v hv => ?_⟩
    match j with
    | 0 => cases hv; exact s24_spells _ _ _
    | 1 => cases hv; exact s24_spells _ _ _
    | 2 => cases hv; exact s24_spells _ _ _
    | 3 => cases hv; exact s24_spells _ _ _
    | 4 => cases hv; exact s24_spells _ _ _
    | n + 5 => simp at hv

theorem entriesDecoded : EntriesDecoded := by
  intro e
  have h0 := (e[0]).isLt
  have h1 := (e[1]).isLt
  refine ⟨fun hk offset lo hi hs => ?_, fun hk => ?_, fun hk => ?_, fun hk => ?_, fun hk => ?_⟩
  · have ho : s16 e[2] e[3] = offset := s16_unique lo hi hs
    refine ⟨fun out => ?_, fun a b => ⟨BitVec.ofNat 12 (u16 e[0] e[1]), ?_, ?_⟩⟩
    · simp only [decodeEntry, hk, ho]
      rw [if_neg (by omega)]
    · rw [BitVec.toNat_ofNat]
      unfold u16
      omega
    · simp only [decodeEntry, hk, ho]
      rw [if_pos ⟨a, b⟩]
      rfl
  · simp only [decodeEntry, hk]
    rfl
  · exact ⟨byteFin e[1], rfl, by simp only [decodeEntry, hk]⟩
  · simp only [decodeEntry, hk]
    congr 1
    simp [BitVec.getLsbD, Nat.testBit_zero]
  · unfold decodeEntry
    split <;> first | rfl | omega

/-! ## Table entries (11.6) -/

theorem tablesListed : TablesListed := by
  refine ⟨fun b d => ⟨fun h => ?_, fun h => by rw [h]; cases d <;> rfl⟩, fun d => by cases d <;> rfl⟩
  unfold TableId.ofByte at h
  have e : b = BitVec.ofNat 8 b.toNat := by simp
  split at h <;> cases h <;> rename_i hb <;> rw [e, hb] <;> rfl

theorem keySpelt_eq (k : Key) : bytes16 (keyCode k) = keySpelt k := by cases k <;> rfl

theorem gainSpelt_eq (g : Gain) : gainBytes g = gainSpelt g := by cases g <;> rfl

theorem chainBytes_eq {list : List SectionNo} (h : list.length ≤ 10) :
    chainBytes list = byteOf list.length :: (list.map fun n => byteOf n.val) ++ List.replicate (10 - list.length) 0 := by
  unfold chainBytes
  rw [List.cons_append]
  congr 1
  refine List.ext_getElem (by simp; omega) fun i hi _ => ?_
  have hi : i < 10 := by simpa using hi
  rw [List.getElem_map, List.getElem_range]
  by_cases hl : i < list.length
  · rw [List.getElem?_eq_getElem hl, List.getElem_append_left (by simpa using hl), List.getElem_map]
  · rw [List.getElem?_eq_none (by omega), List.getElem_append_right (by simpa using hl), List.getElem_replicate]

theorem ofNat_val {n : Nat} [NeZero n] (j : Fin n) : Fin.ofNat n j.val = j := Fin.ext (Nat.mod_eq_of_lt j.isLt)

theorem outputFlags_eq (x : OutputRec) :
    outputFlagByte x = (if x.mute then 1 else 0) + (if x.invert then 2 else 0) := by
  unfold outputFlagByte
  cases x.mute <;> cases x.invert <;> rfl

theorem entryEncoded (s : State) (d : TableId) (i : Nat) : EntryEncoded s d i (entryBytes s d i) := by
  cases d
  · intro z hz; subst hz
    simp [entryBytes, bitByte]
  · intro j hj; subst hj
    simp [entryBytes, gainSpelt_eq]
  · intro o ho; subst ho
    simp only [entryBytes, ofNat_val, outputFlags_eq]
    cases s.core.live.outputs[o].side <;> cases s.core.live.outputs[o].row <;> cases s.core.live.outputs[o].group <;> rfl
  · intro j hj; subst hj
    simp [entryBytes]
  · simp only [entryBytes, EntryEncoded, pointBytes] <;> cases s.core.live.boostCurve[i]? <;> rfl
  · intro g hg; subst hg
    simp [entryBytes]
  · intro o ho; subst ho
    intro list hl
    simp [entryBytes]
    exact chainBytes_eq hl
  · intro n hn; subst hn
    simp only [entryBytes, coeffBytes, ofNat_val]
    cases (s.eq.sections[n]).state <;> rfl
  · intro a ha; subst ha
    simp [entryBytes]
  · intro j hj; subst hj
    simp only [entryBytes, ofNat_val, rampBytes]
    cases s.ramp.entries[j] with
    | none => rfl
    | some r => simp only [keySpelt_eq, gainSpelt_eq]


theorem tablesEncoded : TablesEncoded :=
  ⟨fieldsSpelt, fun s d i _ => entryEncoded s d i, fun s d first => ⟨rfl, fun n => by
    simp [entriesBytes, List.range_succ]⟩⟩

theorem owedCounted : OwedCounted := fun op => by
  refine ⟨?_, ?_⟩
  · unfold TableOp.owed digestLimit
    cases op.kind <;> rfl
  · unfold TableOp.lastStep TableOp.pace batchSize
    cases op.table <;> rfl

end Sys2Proof.Machine
end

