-- ==== Sys2Proof/WellFormed.lean ====
section
/-! DEFINITION. Which commands the outside can send. The operands' types carry every bound but one: the strap number is
what five pins can spell (R151). -/

namespace Sys2Proof

/-- R151: five pins spell a number from 0 to 31. -/
def Instr.wellFormed : Instr → Bool
  | .powerOn strap => decide (strap ≤ 31)
  | .syncReceived _ => true
  | .syncMissing => true
  | .frameBoundary _ _ _ => true
  | .rampComplete _ => true
  | .crossfadeEnd _ => true
  | .leavingEnd => true
  | .setApplication => true
  | .sdvTick => true
  | .cueFetchGrant _ => true
  | .stepComplete _ => true
  | .waitTimeout _ => true
  | .sectionWriteGrant => true
  | .cueWriteGrant => true
  | .tableAccessGrant => true
  | .tableReadComplete => true
  | .digestEnd => true
  | .controlCell _ => true
  | .outgoingPacketTake => true
  | .noticeQueue => true
  | .unknownRequest => true
  | .identify => true
  | .readStatus => true
  | .unitEnable => true
  | .unitReset => true
  | .partReset => true
  | .noticeEnable => true
  | .mode => true
  | .slotMap => true
  | .stageRecord => true
  | .abortOpen => true
  | .flushQueue => true
  | .setStatus => true
  | .sectionLoad => true
  | .sectionWrite => true
  | .sectionRelease => true
  | .poolStatus => true
  | .speedReport => true
  | .sdvConfig => true
  | .sdvManual => true
  | .sdvAuto => true
  | .sdvStatus => true
  | .cueWrite => true
  | .cueStart => true
  | .cueRelease => true
  | .cueHalt => true
  | .cueStatus => true
  | .tableRead => true
  | .digest => true

end Sys2Proof
end

