-- ==== Sys2Proof/Tests/Slice0.lean ====
section
/-! SUPPORT. The author's tests: the well-formedness smoke, values the spec works out, and for every statement with hypotheses a
state and operands that meet them, clause by clause. -/

namespace Sys2Proof.Tests

open Sys2Proof Sys2Proof.Machine

set_option Elab.async false

/-! ## Well-formedness and decoding -/

theorem test_wellFormed_strap : (Instr.powerOn 32).wellFormed = false ∧ (Instr.powerOn 31).wellFormed = true := by decide

theorem test_no_word_spells_a_command : decodeTableWord 8 0 = none ∧ State.reset.withFetchWord 8 0 = State.reset := ⟨rfl, rfl⟩

/-! ## Values the spec works out -/

/-- 11.2: the CRC-8 of the ASCII digits 1 to 9 is F4 hex, and the CRC-16 with initial value FFFF hex is 29B1 hex. -/
theorem test_crc_check_values :
    crc8 [0x31, 0x32, 0x33, 0x34, 0x35, 0x36, 0x37, 0x38, 0x39] = 0xF4 ∧
      crc16 0xFFFF [0x31, 0x32, 0x33, 0x34, 0x35, 0x36, 0x37, 0x38, 0x39] = 0x29B1 := by decide +kernel

/-- R90's worked example: y = 3,899. And saturation. -/
theorem test_section_worked_example :
    sectionOutput { b0 := 1048576, b1 := 2097152, b2 := 1048576, a1 := -1048576, a2 := 524288 }
      { x1 := 1000, x2 := -2000, y1 := 3000, y2 := 401 } 5000 = 3899 ∧
    sectionOutput { b0 := 8388607, b1 := 0, b2 := 0, a1 := 0, a2 := 0 } { x1 := 0, x2 := 0, y1 := 0, y2 := 0 } 134217727
      = 134217727 := by decide +kernel

/-- R36: truncation toward zero on the way down and on the way up. -/
theorem test_ramp_law :
    Ramp.value { key := .duck 0, start := 0, target := .level (-40), n := 480, k := 7, due := false } = 0 ∧
      Ramp.value { key := .duck 0, start := 0, target := .level (-40), n := 480, k := 13, due := false } = -1 ∧
      Ramp.value { key := .duck 0, start := -480, target := .level 0, n := 480, k := 479, due := false } = -1 := by
  decide +kernel

/-- 3.7: LEVEL(5) from -200 to -40 in 200 ms: its values at k = 59, 60, 2999 and 3000. -/
theorem test_ramp_worked_example :
    [59, 60, 2999, 3000].map (fun k =>
      Ramp.value { key := .level 5, start := -200, target := .level (-40), n := 9600, k := k, due := false })
      = [-200, -199, -151, -150] := by decide +kernel

/-- 6.8: the boosts computed in the worked example. -/
theorem test_boost_worked_example :
    [60, 64, 70, 140].map (boostAt [(30, 0), (80, 12), (130, 28), (200, 40)]) = [7, 8, 9, 29] := by decide +kernel

/-- R2: lin(0) is one, and lin(-80) is one tenth, to 2^-64. -/
theorem test_linear_gain : linFloor 0 = 18446744073709551616 ∧ linFloor (-80) = 1844674407370955161 := by decide +kernel

/-- 1.4: the working of O4's sample, from the two contributions: 46,266, and 32,753 under the ceiling of -60 qdB. -/
theorem test_sample_worked_example :
    [-48, -60].map (fun e =>
      let mix := ((Ivl.gain (Ivl.exact 1000000) (-120)).add (Ivl.gain (Ivl.exact (-400000)) 0))
      let v := (((mix.gain e).fraction 1200 2400).neg)
      (v.undecided, wholePart v.lo)) = [(false, 46266), (false, 32753)] := by decide +kernel

/-- R3: at unity gain a whole sample is undecided between itself and its neighbour toward zero; a value between two wholes is decided.
Entry 24: just outside the limits of R6 the nearest whole value is beyond them. -/
theorem test_two_results :
    [8388606, -8388606, 1, 0].map (fun n => ((Ivl.gain (Ivl.exact n) 0).undecided, nearestWhole (Ivl.gain (Ivl.exact n) 0).lo)) =
        [(true, 8388606), (true, -8388606), (true, 1), (false, 0)] ∧
      (Ivl.undecided { lo := 5 * one64 + one64 / 2, hi := 5 * one64 + one64 / 2 + 1 } = false) ∧
      wholePart (-5 * one64 - one64 / 2) = -5 ∧
      nearestWhole (8388608 * one64 + one64 / 2) = 8388609 ∧ nearestWhole (-8388609 * one64 - one64 / 2 - 1) = -8388610 := by
  decide +kernel

/-- R120: the five kinds of a cue entry, and a STEP whose offset is out of range. -/
theorem test_cue_entries :
    decodeEntry (entryOfBytes [0x10, 0x03, 0xFF, 0xD8, 0, 5, 0, 10]) = .step 3 (-40) 5 10 ∧
      decodeEntry (entryOfBytes [0x10, 0x03, 0x00, 0x01, 0, 5, 0, 10]) = .invalid ∧
      decodeEntry (entryOfBytes [0x20, 0x01, 0x00]) = .wait 256 ∧ decodeEntry (entryOfBytes [0x30, 0x07]) = .jump 7 ∧
      decodeEntry (entryOfBytes [0x40, 0x01]) = .stop true ∧ decodeEntry (entryOfBytes []) = .invalid := by decide +kernel

/-- R120, 11.5: the ends of a STEP's offset, a mask that reaches byte 0, kinds outside the four, and bytes no field names. -/
theorem test_cue_entry_ends :
    decodeEntry (entryOfBytes [0x1F, 0xFF, 0xFE, 0x20, 0xFF, 0xFF, 0, 0]) = .step 0xFFF (-480) 65535 0 ∧
      decodeEntry (entryOfBytes [0x1F, 0xFF, 0xFE, 0x1F, 0, 0, 0, 0]) = .invalid ∧
      decodeEntry (entryOfBytes [0x10, 0, 0, 0, 0, 0, 0xFF, 0xFF]) = .step 0 0 0 65535 ∧
      decodeEntry (entryOfBytes [0x2F, 0xFF, 0xFF, 7, 7, 7, 7, 7]) = .wait 65535 ∧
      decodeEntry (entryOfBytes [0x3F, 0xFF, 9]) = .jump 255 ∧ decodeEntry (entryOfBytes [0x4F, 0xFE]) = .stop false ∧
      decodeEntry (entryOfBytes [0x50]) = .invalid ∧ decodeEntry (entryOfBytes [0xF0]) = .invalid ∧
      Spells [0xFE, 0x20] (-480) ∧ Spells [0xFE, 0x1F] (-481) ∧ Spells [0, 1] 1 := by
  unfold Spells; decide +kernel

/-- 11.5: the order, the width and the sign of the coefficients; lengths beside 15. -/
theorem test_coefficients :
    parseCoeffs [0x7F, 0xFF, 0xFF, 0x80, 0, 0, 0, 0, 1, 0, 1, 0, 0xFF, 0xFF, 0xFE] =
      some { b0 := 8388607, b1 := -8388608, b2 := 1, a1 := 256, a2 := -2 } ∧
    parseCoeffs (List.replicate 14 0) = none ∧ parseCoeffs (List.replicate 16 0) = none := by decide +kernel

/-- 11.2: a reply and a notice, byte by byte, and their destinations. -/
theorem test_packet_bytes :
    replyPacket { tag := 7, unitByte := 5, code := 2, origin := 3 } .badValue [] =
      { dest := 3, bytes := [7, 5, 0x82, 6, 0, crc8 [7, 5, 0x82, 6, 0]] } ∧
    noticePacket (.cueStopped 1 .fault 255) = { dest := 0, bytes := [0, 0, 0xC2, 0, 3, 1, 1, 255, crc8 [0, 0, 0xC2, 0, 3, 1, 1, 255]] } ∧
    (2 : Byte).toNat < 128 ∧ ([] : List Byte).length < 256 := by decide +kernel

/-- 11.6: an entry of each table. -/
theorem test_entry_encodings :
    let s := { State.reset with
      core := { State.reset.core with live := { State.reset.core.live with
        zones := State.reset.core.live.zones.set 3 { volume := -480, balance := -15, fade := 15, mute := true }
        outputs := State.reset.core.live.outputs.set 23 {
            zone := 2, side := .right, row := .noRow, group := some 3, trim := -96, ceiling := 48, mute := true, invert := true }
        boostCurve := [(30, 0), (320, 48)] } }
      eq := { EqUnit.reset with chains := EqUnit.reset.chains.set 23 [255, 1] }
      ramp := { RampUnit.reset with entries := RampUnit.reset.entries.set 63 (some
          { key := .cell 23 11, start := -1, target := .off, n := 65536, k := 1, due := false }) } }
    entryBytes s .zones 3 = [0xFE, 0x20, 0xF1, 15, 1] ∧ entryBytes s .cells 287 = [0x80, 0] ∧
      entryBytes s .outputs 23 = [2, 2, 3, 3, 0xFF, 0xA0, 0, 48, 3] ∧ entryBytes s .outputs 0 = [0, 1, 3, 0xFF, 0, 0, 0, 0, 0] ∧
      entryBytes s .curves 185 = [0, 0] ∧ entryBytes s .boostCurve 1 = [1, 0x40, 48] ∧
      entryBytes s .boostCurve 2 = [0xFF, 0xFF, 0] ∧ entryBytes s .groups 3 = [100] ∧
      entryBytes s .chains 23 = [2, 255, 1, 0, 0, 0, 0, 0, 0, 0, 0] ∧ entryBytes s .sections 255 = List.replicate 16 0 ∧
      entryBytes s .cueMemory 255 = List.replicate 8 0 ∧ entryBytes s .ramps 0 = List.replicate 12 0 ∧
      entryBytes s .ramps 63 = [0x41, 0x1F, 0xFF, 0xFF, 0x80, 0, 1, 0, 0, 0, 0, 1] ∧
      (s.eq.chains[(23 : Fin 24)]).length ≤ 10 := by decide +kernel

/-! ## Small states -/

/-- A complete request from node 0 with tag 1. -/
def request (unit code : Byte) (data : List Byte) : Context :=
  { origin := 0, broadcast := false, complete := true
    bytes := [1, unit, code, byteOf data.length] ++ data ++ [crc8 ([1, unit, code, byteOf data.length] ++ data)]
    cells := (5 + data.length + 5) / 6 }

/-- The packet stands complete in context 0. -/
def sent (c : Context) (s : State) : State :=
  { s with port := { s.port with contexts := s.port.contexts.set 0 (some c), firstComplete := 0 } }

/-- A mode and a gate position. -/
def inMode (m : Mode) (gate : Nat) (s : State) : State := { s with core := { s.core with mode := m, gate := gate } }

/-- LOCKED, with `n` missed syncs. -/
def locked (n : Nat) : State :=
  { State.reset with port := { State.reset.port with lock := .locked, missingSyncs := n } }

/-- LOCKED, in a frame whose cell and grant are to come. -/
def inFrame : State := { locked 0 with frame := { Frame.idle with cellDue := true, grantFree := true } }

/-- The hypotheses of a request's statement. -/
def Meets (q : Request) (c : Context) (s : State) : Prop := NoHeld s ∧ Takes q c 0 s

/-- The same as a test. -/
def meets (q : Request) (c : Context) (s : State) : Bool :=
  (s.ctl.queue.all fun p => !p.isHeld) && decide (nextOffer (queueNotices s) = some { ctx := 0, packet := c, placed := true })
    && decide (c.row s.ctl.enabled = some q) && !c.broadcast && decide (decodeRefusal q c.dataLength s = none)

theorem meets_of {q : Request} {c : Context} {s : State} (h : meets q c s = true) : Meets q c s := by
  simp only [meets, Bool.and_eq_true, decide_eq_true_eq, Bool.not_eq_true', List.all_eq_true] at h
  obtain ⟨⟨⟨⟨a, b⟩, d⟩, e⟩, f⟩ := h
  exact ⟨fun p hp => by simpa using a p hp, ⟨⟨b, d, e⟩, f⟩⟩

/-- The request is sent to a state that meets its statement's hypotheses, with the data given. -/
def Asked (q : Request) (unit code : Byte) (data : List Byte) (s : State) : Prop :=
  Meets q (request unit code data) (sent (request unit code data) s) ∧ (request unit code data).data = data

theorem asked_of {q : Request} {unit code : Byte} {data : List Byte} {s : State}
    (h : (meets q (request unit code data) (sent (request unit code data) s)
      && decide ((request unit code data).data = data)) = true) : Asked q unit code data s := by
  simp only [Bool.and_eq_true, decide_eq_true_eq] at h
  exact ⟨meets_of h.1, h.2⟩

/-! ## The invariants in the states used below -/

theorem invOf {s : State} (h : ((s.ctl.queue.all fun p => !p.isHeld) && decide (s.ctl.queue.length ≤ 4) && decide (s.core.gate ≤ 2400)
      && decide (s.core.mode = .standby → s.core.gate = 0) && decide (s.port.lock = .hunt → s.core.gate = 0 ∧ s.frame = Frame.idle)
      && Memory.wf s.cue.mem && (s.cue.mem.all fun x => decide (x.1 < 2048))
      && decide (∀ src : Source, s.ramp.duckTargets[src] = duckMin s.cue src) && decide (s.commit.staging.length ≤ 32)
      && decide (s.commit.queue.length ≤ 4) && decide (s.sdv.state = .off ∨ s.sdv.state = .fallback → s.sdv.boost = 0)
      && decide (s.sdv.lastSpeed = none ↔ s.sdv.age = none) && decide (s.sdv.manual ≠ none ↔ s.sdv.state = .manual)
      && decide (s.ctl.enabled.sdv = false → s.sdv.state = .off)) = true) : Inv s := by
  simp only [Bool.and_eq_true, decide_eq_true_eq, List.all_eq_true] at h
  obtain ⟨⟨⟨⟨⟨⟨⟨⟨⟨⟨⟨⟨⟨a, b⟩, c⟩, d⟩, e⟩, f⟩, g⟩, i⟩, j⟩, k⟩, l⟩, m⟩, n⟩, o⟩ := h
  exact ⟨fun p hp => by simpa using a p hp, b, c, d, e, ⟨f, fun x hx => by simpa using g x hx⟩, i, j, k, l, m, n, o⟩

theorem busyOf {s : State} (h : decide (∀ m : Fin 6, s.ctl.executing[m] = false) = true) (hq : s.ctl.queue = [])
    (hm : s.core.mode ≠ .leaving) (he : s.eq.pendingWrite = none) (hc : s.cue.pendingWrite = none) (ht : s.table = none) :
    BusyInv s := by
  have none : ∀ u : UnitId, inExecution u s = false := fun u => of_decide_eq_true h u.marker
  refine ⟨fun u => ?_, ?_, none _, ?_, none _, ?_, ?_⟩
  · rw [none u, hq]; rfl
  · rw [none .ctrl]; simp [hm]
  · rw [none .eq, he]; rfl
  · rw [none .cue, hc]; rfl
  · rw [none .table, ht]; rfl

theorem rampOf {s : State} (h : s.ramp.entries = Vector.replicate 64 none) : RampInv s := by
  constructor
  · intro i r hr
    rw [h] at hr
    simp at hr
  · intro i j r q hr
    rw [h] at hr
    simp at hr

/-- The machine after reset with a command waiting. -/
def waiting : State := { State.reset with pending := [.syncReceived .oneFrame] }

theorem inv_waiting : Inv waiting := invOf (by decide +kernel)

theorem pool_of_unused {s : State} (he : s.eq = EqUnit.reset) (hq : queuedSections s.commit = [])
    (ho : ∀ q ∈ s.commit.queue, (chainOutputs q.records).Nodup) (hb : s.ctl.executing[(2 : Fin 6)] = false) : PoolInv s := by
  refine ⟨?_, ?_, ?_, ?_, ?_, ?_, ?_, ?_, ?_, ho, ?_⟩
  · rw [he]; decide +kernel
  · rw [he]; decide +kernel
  · rw [he]; decide +kernel
  · rw [he]; decide +kernel
  · rw [he, hq]; decide +kernel
  · rw [he]; decide +kernel
  · rw [he, hq]; decide +kernel
  · rw [he]; exact hb.symm
  · rw [he]; intro i j f g hf; simp [EqUnit.reset] at hf
  · rw [he]; intro _ i; simp [EqUnit.reset]

theorem runner_good : Runner.reset.Good where
  window := by decide
  empty := fun _ => rfl
  step := fun h => absurd h (by decide)
  wait := fun h => absurd h (by decide)
  stopped := fun h => absurd h (by decide)
  due := fun h => absurd h (by decide)
  latch := fun h => absurd h (by decide)
  still := fun _ _ => rfl
  elapsed := by decide
  requests := by decide

theorem count_of_idle {s : State} (hr : s.cue.runners = Vector.replicate 2 Runner.reset) (hs : s.eq.slots = Vector.replicate 4 none)
    (hv : s.sdv = Sdv.reset) : CountInv s where
  runners r := by
    have e : s.cue.runners[r] = Runner.reset := by rw [hr]; simp
    rw [e]; exact runner_good
  fades i f hf := by rw [hs] at hf; simp at hf
  phase := by rw [hv]; decide
  age := by rw [hv]; decide
  speeds := by rw [hv]; decide
  config := by rw [hv]; decide

theorem boost_of_idle {s : State} (hc : s.commit = Commit.reset) (hl : s.core.live = Live.reset) (hs : s.sdv = Sdv.reset) :
    BoostInv s where
  staged := by rw [hc]; simp [Commit.reset]
  queued := by rw [hc]; simp [Commit.reset]
  curve := by rw [hl]; rfl
  weights := by rw [hl]; decide
  ceilings := by rw [hl]; decide
  boost := by rw [hs]; decide
  targets := by
    rw [hl, hs]
    exact show ∀ g : Group, Sdv.reset.targets[g] = groupTarget Sdv.reset.boost Live.reset.weights[g] by decide

theorem link_of_none {s : State} (h : s.ramp.entries = Vector.replicate 64 none) : RampLink s where
  targets i r hr := by rw [h] at hr; simp at hr
  standby _ i := by rw [h]; simp

/-! ## The hypotheses of the machine's statements -/

theorem test_witness_StepTakesFront : waiting.pending = [.syncReceived .oneFrame] ∧ State.reset.pending = [] := ⟨rfl, rfl⟩

theorem test_powerOn_nodes : strapNode 0 = 30 ∧ strapNode 1 = 1 ∧ strapNode 30 = 30 ∧ strapNode 31 = 30 := by decide

theorem test_witness_StepKeepsInv : Inv waiting ∧ CountInv waiting ∧ ∃ t, step waiting = .next t :=
  ⟨inv_waiting, count_of_idle rfl rfl rfl, _, rfl⟩

theorem test_witness_StepKeepsReservations : Inv waiting ∧ BusyInv waiting ∧ ∃ t, step waiting = .next t :=
  ⟨inv_waiting, busyOf (by decide +kernel) rfl (by decide) rfl rfl rfl, _, rfl⟩

theorem test_witness_StepKeepsReservations_live : LiveInv waiting := ⟨by decide, fun op h => by cases h⟩

theorem test_witness_StepKeepsTargets : LevelInv waiting ∧ BoostInv waiting ∧ ∃ t, step waiting = .next t :=
  ⟨by unfold LevelInv; decide +kernel, boost_of_idle rfl rfl rfl, _, rfl⟩

theorem test_witness_StepKeepsRampTable : RampInv waiting ∧ RampLink waiting ∧ ∃ t, step waiting = .next t :=
  ⟨rampOf rfl, link_of_none rfl, _, rfl⟩

theorem test_witness_StepKeepsSectionPool : PoolInv waiting ∧ ∃ t, step waiting = .next t :=
  ⟨pool_of_unused rfl rfl (by decide) (by decide +kernel), _, rfl⟩

/-! ## Ring port -/

/-- HUNT with `n` good syncs, in a mode. -/
def hunting (n : Nat) (m : Mode) : State :=
  { inMode m 0 State.reset with port := { State.reset.port with goodSyncs := n } }

theorem test_witness_SyncsTaken :
    (hunting 1 .run).port.lock = .hunt ∧ (hunting 1 .run).port.goodSyncs < 2 ∧ 2 ≤ (hunting 2 .run).port.goodSyncs ∧
      (hunting 2 .run).core.mode = .run ∧ (hunting 2 .run).ctl.noticeOn.ringRelocked = true ∧
      (hunting 2 .standby).core.mode ≠ .run ∧ (locked 0).port.lock = .locked ∧ (locked 0).port.missingSyncs = 0 ∧
      (locked 0).frame.opened = none := by decide

/-- R140, entry 30: a sync opens the next frame, and the last frame's unspent grant stands until FRAME_BOUNDARY. -/
theorem test_grant_stands_at_sync : ∃ t, exec (.syncReceived .oneFrame) inFrame = .next t ∧ t.frame.boundaryDue = true ∧
    t.frame.grantFree = true := ⟨_, rfl, by decide +kernel⟩

/-- A frame of samples 7, opened with slot 3 mapped to O0 and slot 4 to S0. -/
def mappedFrame : Opened :=
  { slots := Vector.replicate 32 7
    sourceMap := (locked 0).port.sourceMap.set 0 (some 4)
    outputMap := (locked 0).port.outputMap.set 0 (some 3)
    eqOn := true }

/-- Its boundary open, the port's maps naming no slot any more. -/
def openBoundary : State := { locked 0 with frame := { Frame.idle with opened := some mappedFrame } }

/-- Its head set's examination is owed. -/
def owingExam : State := { openBoundary with frame := { openBoundary.frame with examDue := true } }

theorem test_witness_SyncsTaken_owed :
    openBoundary.frame.opened ≠ none ∧ owing openBoundary = false ∧ owing owingExam = true ∧ CountInv owingExam ∧
      owing (takeOwed owingExam) = false :=
  ⟨by decide, by decide +kernel, by decide +kernel, count_of_idle rfl rfl rfl, by decide +kernel⟩

theorem test_slots_repeated_in_hunt : ∃ t, exec (.frameBoundary (Vector.replicate 32 7) false false) State.reset = .next t ∧
    t.lane.slots = Vector.replicate 32 7 ∧ t.frame = State.reset.frame := ⟨_, rfl, by decide +kernel⟩

/-- A read of sections in progress. -/
def reading (k : TableOpKind) : TableOp :=
  { kind := k, table := .sections, first := 0, count := 2, next := 1, covered := 1, crc := 0xFFFF, taken := [], batchDue := false }

theorem test_witness_SecondMissLosesLock :
    (locked 1).port.lock = .locked ∧ (locked 1).port.missingSyncs ≠ 0 ∧
      (finishBoundary (inMode .leaving 0 (locked 1))).core.mode = .leaving ∧ (finishBoundary (locked 1)).core.mode ≠ .leaving ∧
      (finishBoundary { locked 1 with table := some (reading .digest) }).table = some (reading .digest) ∧
      (finishBoundary { locked 1 with table := some (reading .read) }).table = some (reading .read) := by decide +kernel

/-- In LEAVING, with a digest that has covered section 0, the only section of a crossfade's old chain. -/
def leavingDigest (n : SectionNo) : State :=
  { inMode .leaving 5 (locked 1) with
      table := some (reading .digest)
      eq := { EqUnit.reset with slots := EqUnit.reset.slots.set 0 (some { output := 0, old := [n], k := 0, due := false }) } }

theorem test_witness_SecondMissLosesLock_digest :
    (finishBoundary (leavingDigest 0)).core.mode = .leaving ∧ (0 : SectionNo) ∈ oldSections (finishBoundary (leavingDigest 0)).eq ∧
      (finishBoundary (leavingDigest 0)).table = some (reading .digest) ∧ (reading .digest).table = .sections ∧
      (reading .digest).first ≤ (0 : SectionNo).val ∧ (0 : SectionNo).val < (reading .digest).next ∧
      (reading .digest).next ≤ (1 : SectionNo).val ∧ oldSections (finishBoundary (leavingDigest 1)).eq = [1] := by decide +kernel

/-- In LEAVING, runner 1 in a WAIT with the latch set and requests of -40, BAD_CHECK set. -/
def leavingRunner : State :=
  { inMode .leaving 5 (locked 1) with
      ctl := { Control.reset with flags := 1 }
      cue := { CueUnit.reset with runners := CueUnit.reset.runners.set 1 { Runner.reset with
        state := .waiting, window := [entryOfBytes [0x20, 1, 0]], nextFetch := 9, latch := true, timedOut := true, elapsed := 5
        requests := Vector.replicate 12 (-40) } }
      ramp := { RampUnit.reset with duckTargets := Vector.replicate 12 (-40) } }

/-- R130, R153: lock loss in LEAVING halts the runner, sets LOCK_LOST beside the flag that was set, and leaves the address. -/
theorem test_lock_loss_halts : ∃ t, exec .syncMissing leavingRunner = .next t ∧ t.ctl.flags = 0x201 ∧
    t.cue.runners[(1 : Fin 2)] = { Runner.reset with nextFetch := 9 } ∧ t.ramp.duckTargets = Vector.replicate 12 0 :=
  ⟨_, rfl, by decide +kernel⟩

theorem test_witness_SecondMissLosesLock_duck : Inv (finishBoundary leavingRunner) := invOf (by decide +kernel)

/-- A cell of a kind to a node from a node. -/
def cell (kind dest origin : Byte) : Cell := { kind := kind, dest := dest, origin := origin, payload := Vector.replicate 6 0 }

theorem test_witness_ControlCellDownstream :
    State.reset.port.lock = .hunt ∧ inFrame.port.lock = .locked ∧ inFrame.frame.cellDue = true ∧
      (cell 0 0 0).kind = 0 ∧ nodeOf (cell 1 30 0).dest = inFrame.port.ownNode ∧
      nodeOf (cell 1 5 30).dest ≠ inFrame.port.ownNode ∧ nodeOf (cell 1 5 30).dest ≠ 31 ∧
      nodeOf (cell 1 5 30).origin = inFrame.port.ownNode ∧ nodeOf (cell 1 31 30).dest = 31 ∧
      nodeOf (cell 1 5 4).origin ≠ inFrame.port.ownNode := by decide

/-- R156: a stripped cell sets UNDELIVERED and no other flag; a passed one and an idle one none. -/
theorem test_cell_flags :
    (∃ t, exec (.controlCell (cell 1 5 30)) inFrame = .next t ∧ t.ctl.flags = 0x20) ∧
      (∃ t, exec (.controlCell (cell 1 5 4)) inFrame = .next t ∧ t.ctl = inFrame.ctl) ∧
      (∃ t, exec (.controlCell (cell 0 5 30)) inFrame = .next t ∧ t.ctl = inFrame.ctl) :=
  ⟨⟨_, rfl, by decide +kernel⟩, ⟨_, rfl, by decide +kernel⟩, ⟨_, rfl, by decide +kernel⟩⟩

/-- An incomplete packet from node 0 in context 0. -/
def partialPacket (cells : Nat) : State :=
  { inFrame with port := { inFrame.port with
      contexts := inFrame.port.contexts.set 0
        (some { origin := 0, broadcast := false, complete := false, bytes := [], cells := cells }) } }

theorem test_witness_PacketAssembly :
    inFrame.port.lock = .locked ∧ inFrame.frame.cellDue = true ∧ (cell 1 30 0).kind ≠ 0 ∧
      nodeOf (cell 1 30 0).dest = inFrame.port.ownNode ∧ nodeOf (cell 2 31 0).dest = 31 ∧
      (partialPacket 7).port.partialContext (nodeOf (cell 4 30 0).origin) = some 0 ∧
      inFrame.port.partialContext (nodeOf (cell 3 30 0).origin) = none ∧ inFrame.port.freeContext = some 0 ∧
      ((partialPacket 7).port.contexts[(0 : Fin 2)]).any (fun x => decide (x.cells < 8)) = true ∧
      ((partialPacket 8).port.contexts[(0 : Fin 2)]).any (fun x => decide (8 ≤ x.cells)) = true ∧
      4 < (cell 5 30 0).kind.toNat := by decide

/-- R157, entry 31: of two free contexts the lower-numbered; with one, that one; with none, none. -/
theorem test_free_contexts :
    inFrame.port.freeContext = some 0 ∧ (partialPacket 1).port.freeContext = some 1 ∧
      ({ (partialPacket 1).port with contexts := Vector.replicate 2 (some (request 0 1 [])) } : RingPort).freeContext = none ∧
      (partialPacket 1).port.partialContext 0 = some 0 ∧ (partialPacket 1).port.partialContext 1 = none := by decide +kernel

theorem test_packet_assembled : ∃ t, exec (.controlCell (cell 1 30 0)) inFrame = .next t ∧ t.port.isComplete 0 = true :=
  ⟨_, rfl, by decide +kernel⟩

/-- A notice pending, and `n` places taken. -/
def noticed (n : Nat) : State :=
  { State.reset with ctl := { Control.reset with
      notices := [.ringRelocked], queue := List.replicate n (.packet { dest := 0, bytes := [] }) } }

theorem test_witness_ReplyQueueMoves :
    (noticed 3).ctl.notices = [.ringRelocked] ∧ (noticed 3).ctl.queue.length < 4 ∧ 4 ≤ (noticed 4).ctl.queue.length ∧
      (noticed 1).port.outgoing = none ∧
      (queueNotices (noticed 0)).ctl.queue = [.packet (noticePacket .ringRelocked)] := by decide +kernel

/-- A reservation of the TABLE unit at the head of the reply queue, with an outgoing packet in hand or none. -/
def held (out : Option (List Cell)) : State :=
  { State.reset with
      port := { State.reset.port with outgoing := out }
      ctl := { Control.reset with queue := [.reservation (request 5 2 []).requester, .packet { dest := 0, bytes := [] }] } }

theorem test_witness_ReplyQueueMoves_held :
    State.reset.ctl.notices = [] ∧ (held (some [Cell.idle])).port.outgoing ≠ none ∧
      (held none).port.outgoing = none ∧ (queueNotices (held none)).ctl.queue.head? = some (.reservation (request 5 2 []).requester) ∧
      (∀ n ∈ [1, 6, 7, 48], 1 ≤ (List.replicate n (0 : Byte)).length ∧ (List.replicate n (0 : Byte)).length ≤ 48) := by decide +kernel

/-! ## Boundaries, ramps, modes -/

/-- A ramp from -40 to 0 of 48 frames. -/
def ramp (k : Nat) (due : Bool) : Ramp := { key := .duck 0, start := -40, target := .level 0, n := 48, k := k, due := due }

/-- A runner in a STEP of one millisecond. -/
def stepper : Runner :=
  { Runner.reset with state := .stepping, window := [entryOfBytes [0x10, 1, 0xFF, 0xD8, 0, 1, 0, 0]], elapsed := 46 }

/-- A frame opened, with one ramp, one crossfade, a stepping runner and a counting age, each one short of its end. -/
def opened : State :=
  { inMode .run 2399 (locked 0) with
      frame := { Frame.idle with boundaryDue := true }
      ramp := { RampUnit.reset with entries := RampUnit.reset.entries.set 48 (some (ramp 46 false)) }
      eq := { EqUnit.reset with slots := EqUnit.reset.slots.set 0 (some { output := 0, old := [], k := 478, due := false }) }
      sdv := { Sdv.reset with age := some 0, lastSpeed := some 0, phase := 478, state := .tracking }
      cue := { CueUnit.reset with runners := CueUnit.reset.runners.set 0 stepper } }

theorem test_witness_BoundaryAdvances :
    opened.frame.boundaryDue = true ∧ (opened.cue.runners[(0 : Fin 2)]).entryFrames = some 48 ∧
      (opened.cue.runners[(0 : Fin 2)]).state = .stepping ∧ (opened.cue.runners[(0 : Fin 2)]).elapsed + 1 < 48 ∧
      (opened.cue.runners[(1 : Fin 2)]).state = .idle ∧
      (opened.ramp.entries[(48 : Fin 64)]).any (fun r => decide (r.k + 1 < r.n)) = true ∧
      (opened.eq.slots[(0 : Fin 4)]).any (fun f => decide (f.k + 1 < 480)) = true ∧
      opened.sdv.age = some 0 ∧ opened.sdv.phase + 1 < 480 ∧ State.reset.sdv.age = none := by decide +kernel

/-- A WAIT without a timeout, in state WAITING. -/
def waiter (elapsed : Nat) : Runner :=
  { Runner.reset with state := .waiting, window := [entryOfBytes [0x20, 0, 0]], elapsed := elapsed }

/-- The same frame with each at its end, a digest whose live batch comes, and a WAIT without a timeout. -/
def ending (elapsed : Nat) : State :=
  { opened with
      ramp := { RampUnit.reset with entries := RampUnit.reset.entries.set 48 (some (ramp 47 false)) }
      eq := { EqUnit.reset with slots := EqUnit.reset.slots.set 0 (some { output := 0, old := [], k := 479, due := false }) }
      sdv := { opened.sdv with phase := 479 }
      table := some { reading .digest with table := .cells }
      cue := { CueUnit.reset with
        runners := #v[{ stepper with elapsed := 47 }, waiter elapsed] } }

theorem test_witness_BoundaryAdvances_ends :
    (ending 0).frame.boundaryDue = true ∧ ((ending 0).cue.runners[(0 : Fin 2)]).entryFrames = some 48 ∧
      48 ≤ ((ending 0).cue.runners[(0 : Fin 2)]).elapsed + 1 ∧
      ((ending 0).ramp.entries[(48 : Fin 64)]).any (fun r => decide (r.n ≤ r.k + 1)) = true ∧
      ((ending 0).eq.slots[(0 : Fin 4)]).any (fun f => decide (480 ≤ f.k + 1)) = true ∧ 480 ≤ (ending 0).sdv.phase + 1 ∧
      ((ending 0).cue.runners[(1 : Fin 2)]).state = .waiting ∧ ((ending 0).cue.runners[(1 : Fin 2)]).entryFrames = none ∧
      ((ending 6291359).cue.runners[(1 : Fin 2)]).elapsed < 6291360 ∧ 6291360 ≤ ((ending 6291360).cue.runners[(1 : Fin 2)]).elapsed ∧
      TableId.inMemory .cells = false ∧ TableId.inMemory .sections = true ∧ (reading .digest).batchDue = false ∧
      State.reset.frame.boundaryDue = false ∧ State.reset.port.lock = .hunt := by decide +kernel

theorem test_ends_owed : ∃ t, exec (.frameBoundary (Vector.replicate 32 0) true false) (ending 0) = .next t ∧
    t.ramp.anyDue = true ∧ t.eq.dueAt 0 = true ∧ t.sdv.tickDue = true ∧ (t.cue.runners[(0 : Fin 2)]).due = true ∧
    (t.cue.runners[(1 : Fin 2)]).elapsed = 1 ∧ batchOwed t = true := ⟨_, rfl, by decide +kernel⟩

/-- R142: the batch taken at a boundary is counted in its frame, which starts without any. -/
theorem test_batch_counted :
    (∃ t, exec (.frameBoundary (Vector.replicate 32 0) false true) (ending 0) = .next t ∧ t.frame.liveTaken = 1) ∧
      (∃ t, exec (.frameBoundary (Vector.replicate 32 0) false false)
        { ending 0 with frame := { (ending 0).frame with liveTaken := 8 } } = .next t ∧ t.frame.liveTaken = 0) :=
  ⟨⟨_, rfl, by decide +kernel⟩, ⟨_, rfl, by decide +kernel⟩⟩

theorem test_gate_reaches_full : ∃ t, exec (.frameBoundary (Vector.replicate 32 0) false false) opened = .next t ∧
    t.core.gate = 2400 ∧ t.frame.examDue = true := ⟨_, rfl, by decide +kernel⟩

theorem test_witness_ClosingComposes :
    owing openBoundary = false ∧ owing { openBoundary with frame := { openBoundary.frame with examDue := true } } = true ∧
      openBoundary.frame.opened = some mappedFrame ∧ State.reset.frame.opened = none ∧
      mappedFrame.outputMap[(0 : Fin 24)] = some 3 ∧
      (∀ p : Output, mappedFrame.outputMap[p] = some 3 → p = 0) ∧
      (∀ o : Output, mappedFrame.outputMap[o] ≠ some 5) ∧ openBoundary.core.gate = 0 ∧
      ({ mappedFrame with eqOn := false } : Opened).eqOn = false := by decide +kernel

/-- R155, R160: a boundary closes by the maps it was opened with, whatever the port's maps are by then. -/
theorem test_opened_maps_used :
    openBoundary.port.outputMap[(0 : Fin 24)] = none ∧ (closeBoundary openBoundary).lane.slots[(3 : Fin 32)] = 0 ∧
      (closeBoundary openBoundary).lane.slots[(4 : Fin 32)] = 7 ∧
      (closeBoundary openBoundary).core.held[(0 : Fin 12)] = 7 := by decide +kernel

theorem test_witness_ClosingComposes_counts : CountInv openBoundary ∧ BoostInv openBoundary ∧ openBoundary.core.gate ≤ 2400 :=
  ⟨count_of_idle rfl rfl rfl, boost_of_idle rfl rfl rfl, by decide⟩

/-- O0 unmuted at 0 qdB with S0 at full scale, the gate full: the sample is S0's or its neighbour by R3, and none is clipped. -/
def sounding : State :=
  { inMode .run 2400 openBoundary with core := { (inMode .run 2400 openBoundary).core with
      held := openBoundary.core.held.set 0 1000000
      live := { openBoundary.core.live with cells := openBoundary.core.live.cells.set 0 (.level 0) }
      levelTargets := openBoundary.core.levelTargets.set 0 0 } }

theorem test_composed_above_zero :
    nearestWhole (contribution sounding 0 0).lo = 1000000 ∧ contribution sounding 0 1 = Ivl.exact 0 ∧
      contribution sounding 1 0 = Ivl.exact 0 ∧ (Machine.staged sounding 0 (mixOf sounding 0)).undecided = true ∧
      nearestWhole (Machine.staged sounding 0 (mixOf sounding 0)).lo = 1000000 ∧ Machine.staged sounding 1 (mixOf sounding 1) = Ivl.exact 0 := by
  decide +kernel

/-- Live tables with O0 unmuted in zone 0 at full fade and balance. -/
def level : Live :=
  { Live.reset with
      zones := Live.reset.zones.set 0 { volume := -40, balance := 15, fade := -15, mute := false }
      outputs := Live.reset.outputs.set 0 { OutputRec.reset with row := .rear } }

theorem test_witness_LevelTargetFormula :
    (Live.reset.zoneOf 0).mute = true ∧ (level.zoneOf 0).mute = false ∧ (level.outputs[(0 : Fin 24)]).mute = false ∧
      (level.zoneOf 0).balance ≤ 15 ∧ -15 ≤ (level.zoneOf 0).fade ∧ level.levelTarget 0 = -40 := by decide +kernel

/-- R38, R42: the lowest-numbered free general entry, past one in use; dedicated entries. -/
theorem test_entries_taken :
    let s := { State.reset with ramp := { RampUnit.reset with entries := RampUnit.reset.entries.set 0 (some (ramp 0 false)) } }
    s.ramp.entryFor (.level 0) = some 1 ∧ s.ramp.entryFor (.cell 23 11) = some 1 ∧ s.ramp.entryFor (.duck 11) = some 59 ∧
      s.ramp.entryFor (.boost 3) = some 63 := by decide +kernel

theorem test_witness_RampLaw : 0 < (ramp 0 false).n ∧ (ramp 0 false).k = 0 ∧ (ramp 48 false).k = (ramp 48 false).n := by decide

theorem test_witness_RetargetCases :
    RampInv State.reset ∧ (Gain.level 0 ≠ .level (-40)) ∧
      State.reset.ramp.present (.duck 0) (.level 0) ≠ (Gain.level (-40)).qdb ∧
      State.reset.ramp.find (.level 0) = none ∧ State.reset.ramp.entryFor (.level 0) = some 0 ∧
      State.reset.ramp.present (.cell 0 0) .off = (Gain.level (-480)).qdb := ⟨rampOf rfl, by decide +kernel⟩

/-- One ramp whose last advance is owed. -/
def ramping : State :=
  { inMode .run 1 (locked 0) with
      ramp := { RampUnit.reset with entries := RampUnit.reset.entries.set 48 (some (ramp 47 true)) } }

theorem ramping_only : ∀ i : Fin 64, i ≠ 48 → ramping.ramp.entries[i] = none := by decide +kernel

theorem test_witness_RampCompleteSettles :
    RampInv ramping ∧ ramping.ramp.entries[(48 : Fin 64)] = some (ramp 47 true) ∧ (ramp 47 true).due = true := by
  have at48 : ramping.ramp.entries[(48 : Fin 64)] = some (ramp 47 true) := by decide +kernel
  have only : ∀ (i : Fin 64) (r : Ramp), ramping.ramp.entries[i] = some r → i = 48 := fun i r hr =>
    Decidable.byContradiction fun hi => by rw [ramping_only i hi] at hr; cases hr
  refine ⟨⟨fun i r hr => ?_, fun i j r q hr hq _ => (only i r hr).trans (only j q hq).symm⟩, at48, rfl⟩
  have hi := only i r hr
  subst hi
  rw [at48] at hr
  cases hr
  exact ⟨rfl, by decide⟩

theorem test_witness_ModeRequest :
    (∀ s ∈ [State.reset, inMode .run 1 (locked 0), inMode .run 0 (locked 0)], BusyInv (sent (request 0 7 [0]) s)) ∧
      Asked .mode 0 7 [2] State.reset ∧ Asked .mode 0 7 [1] State.reset ∧ Asked .mode 0 7 [0] State.reset ∧
      Asked .mode 0 7 [0] (inMode .run 1 (locked 0)) ∧ Asked .mode 0 7 [0] (inMode .run 0 (locked 0)) := by
  refine ⟨fun s hs => ?_, asked_of (by decide +kernel), asked_of (by decide +kernel), asked_of (by decide +kernel),
    asked_of (by decide +kernel), asked_of (by decide +kernel)⟩
  simp only [List.mem_cons, List.not_mem_nil, or_false] at hs
  rcases hs with rfl | rfl | rfl <;> exact busyOf (by decide +kernel) rfl (by decide) rfl rfl rfl

theorem test_witness_LeavingEndEntersStandby :
    Inv (inMode .leaving 0 (locked 0)) ∧ (inMode .leaving 0 (locked 0)).core.mode = .leaving ∧
      (inMode .leaving 0 (locked 0)).core.gate = 0 := ⟨invOf (by decide +kernel), rfl, rfl⟩

/-! ## Change sets -/

/-- `n` records staged and `m` sets queued. -/
def staged (n m : Nat) : State :=
  { State.reset with commit := { Commit.reset with
      staging := List.replicate n (.group 0 100)
      queue := List.replicate m { number := 0, records := [], notify := true, wait := .none } } }

theorem test_witness_RecordStaged :
    Asked .stageRecord 1 1 [0, 9, 0] State.reset ∧ checkRecord 9 [0] = .badValue ∧
      Asked .stageRecord 1 1 [0, 8, 0] State.reset ∧ checkRecord 8 [0] = .badLength ∧
      Asked .stageRecord 1 1 [0, 8, 0, 100] (staged 31 0) ∧ Asked .stageRecord 1 1 [0, 8, 0, 100] (staged 32 0) ∧
      checkRecord 8 [0, 100] = .good (.group 0 100) ∧ (0 : Byte).getLsbD 0 = false :=
  ⟨asked_of (by decide +kernel), by decide +kernel, asked_of (by decide +kernel), by decide +kernel,
    asked_of (by decide +kernel), asked_of (by decide +kernel), by decide +kernel, by decide⟩

/-- R53 to R57: the ends of kinds, lengths and ranges. -/
theorem test_record_checks :
    checkRecord 0 [] = .badValue ∧ checkRecord 9 [0] = .badValue ∧ checkRecord 8 [0] = .badLength ∧
      checkRecord 8 [3, 100] = .good (.group 3 100) ∧ checkRecord 8 [3, 101] = .badValue ∧ checkRecord 8 [4, 0] = .badValue ∧
      checkRecord 5 [23, 11] = .badLength ∧ checkRecord 5 (23 :: 11 :: List.replicate 11 0) = .badValue ∧
      checkRecord 1 [0, 0, 0, 1, 0, 0, 0] = .badValue ∧ checkRecord 1 [3, 1, 0, 15, 0, 7, 7] = .good (.zone 3 (.balance 15) none) ∧
      checkRecord 2 [23, 11, 0x80, 0, 1, 0xFF, 0xFF] = .good (.cell 23 11 .off (some 65535)) ∧
      checkRecord 6 [5, 30, 1, 0, 0] = .good (.curve .longRear 30 [0]) ∧ checkRecord 6 [5, 30, 2, 0, 0, 0, 0] = .badValue ∧
      checkRecord 7 [1, 0, 0] = .badValue ∧ checkRecord 7 [0] = .good (.boostCurve []) := by decide +kernel

theorem test_witness_SetClosed :
    Asked .stageRecord 1 1 [3, 8, 0, 100] (staged 32 0) ∧ Asked .stageRecord 1 1 [3, 8, 0, 100] (staged 31 4) ∧
      Asked .stageRecord 1 1 [3, 8, 0, 100] (staged 31 3) ∧ checkRecord 8 [0, 100] = .good (.group 0 100) ∧
      firstFailure State.reset.eq [] ((staged 31 3).commit.staging ++ [.group 0 100]) = none ∧
      Asked .stageRecord 1 1 [1, 5, 0, 1, 7] State.reset ∧ checkRecord 5 [0, 1, 7] = .good (.chain 0 [7]) ∧
      firstFailure State.reset.eq [] [.chain 0 [7]] = some (0, .sectionUnavailable) :=
  ⟨asked_of (by decide +kernel), asked_of (by decide +kernel), asked_of (by decide +kernel), by decide +kernel,
    by decide +kernel, asked_of (by decide +kernel), by decide +kernel, by decide +kernel⟩

/-- R59, R60: each check in its order, and the count's limit of 48: 24 pairs, then 24 for the LEVEL keys, then a 25th pair. -/
theorem test_set_checks :
    let chains := (List.finRange 5).map fun i : Fin 5 => ChangeRecord.chain ⟨i.val, by omega⟩ []
    let cells := fun n : Nat => (List.range n).map fun i => ChangeRecord.cell (Fin.ofNat 24 i) 0 (.level 0) none
    firstFailure EqUnit.reset [] chains = some (4, .tooManyChains) ∧
      firstFailure EqUnit.reset [] [.chain 0 [], .chain 0 [1, 1]] = some (1, .duplicateOutput) ∧
      firstFailure EqUnit.reset [] [.chain 0 [1, 1]] = some (0, .sectionRepeated) ∧
      firstFailure EqUnit.reset [] [.chain 0 [1]] = some (0, .sectionUnavailable) ∧
      firstFailure EqUnit.reset [] (cells 24 ++ [.curve .latLeft 0 [0]]) = none ∧
      firstFailure EqUnit.reset [] (cells 24 ++ [.curve .latLeft 0 [0], .cell 0 0 .off none]) = none ∧
      firstFailure EqUnit.reset [] (cells 24 ++ [.curve .latLeft 0 [0], .cell 0 1 .off none]) = some (25, .tooManyRamps) := by
  decide +kernel

theorem test_witness_StageRequests :
    Asked .abortOpen 1 2 [] (staged 32 4) ∧ Asked .flushQueue 1 3 [] (staged 32 4) ∧ Asked .setStatus 1 4 [] (staged 32 4) :=
  ⟨asked_of (by decide +kernel), asked_of (by decide +kernel), asked_of (by decide +kernel)⟩

/-- A set of one CHAIN record. -/
def chainSet : QueuedSet := { number := 0, records := [.chain 0 []], notify := true, wait := .none }

/-- Output 0 in a crossfade, or four other outputs. -/
def fading (o : Output) : State :=
  { inMode .run 2400 (locked 0) with
      eq := { EqUnit.reset with slots := Vector.replicate 4 (some { output := o, old := [], k := 0, due := false }) } }

/-- The general ramp entries all in use, and a set that moves a cell. -/
def crowded : State :=
  { inMode .run 2400 (locked 0) with
      ramp := { RampUnit.reset with entries := Vector.ofFn fun i : Fin 64 => if i.val < 48 then some (ramp 0 false) else none } }

/-- A set of one CELL record. -/
def cellSet : QueuedSet := { number := 0, records := [.cell 0 0 (.level 0) none], notify := true, wait := .none }

theorem test_witness_ExaminationOrder :
    examine (inMode .leaving 1 (locked 0)) chainSet = .mode ∧ examine (fading 0) chainSet = .outputBusy ∧
      examine (fading 1) chainSet = .crossfade ∧ examine crowded cellSet = .ramps ∧
      examine (inMode .run 1 (locked 0)) chainSet = .none := by decide +kernel

/-- The head set's examination owed. -/
def examining (q : List QueuedSet) (s : State) : State :=
  { s with frame := { Frame.idle with opened := some { mappedFrame with slots := Vector.replicate 32 0 }, examDue := true },
           commit := { Commit.reset with queue := q } }

theorem test_witness_HeadSetTaken :
    (examining [] State.reset).commit.queue = [] ∧ (examining [chainSet] (fading 0)).frame.examDue = true ∧
      (examining [chainSet] (fading 0)).commit.queue = chainSet :: [] ∧ examine (examining [chainSet] (fading 0)) chainSet ≠ .none ∧
      examine (examining [chainSet] (locked 0)) chainSet = .none ∧ (chainOutputs chainSet.records).Nodup ∧
      .chain 0 [] ∈ chainSet.records ∧ chainSet.notify = true ∧
      (examining [chainSet] (locked 0)).ctl.noticeOn.setApplied = true := by decide +kernel

/-- A boost curve of two breakpoints. -/
def twoPoints : List (Nat × Int) := [(30, 0), (320, 48)]

/-- A set of one record of five kinds. -/
def fullSet : QueuedSet :=
  { number := 255, notify := true, wait := .none
    records := [.chain 0 [], .boostCurve twoPoints, .group 0 50, .cell 0 0 (.level 0) none,
      .zone 0 (.mute false) none] }

/-- The set's examination is owed in a mode. -/
def applying (m : Mode) (gate : Nat) : State := examining [fullSet] (inMode m gate (locked 0))

theorem applying_boostInv (m : Mode) : BoostInv (applying m 0) where
  staged := by simp [applying, examining, Commit.reset]
  queued := by
    intro q hq r hr
    simp only [applying, examining, List.mem_singleton] at hq
    subst hq
    simp only [fullSet, List.mem_cons, List.not_mem_nil, or_false] at hr
    rcases hr with rfl | rfl | rfl | rfl | rfl <;> simp [ChangeRecord.liveGood]
    decide +kernel
  curve := rfl
  weights := by change ∀ g : Group, State.reset.core.live.weights[g] ≤ 100; decide
  ceilings := (boost_of_idle (s := State.reset) rfl rfl rfl).ceilings
  boost := by change 0 ≤ State.reset.sdv.boost ∧ State.reset.sdv.boost ≤ 48; decide
  targets := by
    change ∀ g : Group, State.reset.sdv.targets[g] = groupTarget State.reset.sdv.boost State.reset.core.live.weights[g]
    decide

theorem test_witness_HeadSetTaken_applied :
    (applying .run 0).frame.examDue = true ∧ (applying .run 0).commit.queue = [fullSet] ∧ examine (applying .run 0) fullSet = .none ∧
      (∀ m : Mode, RampInv (applying m 0) ∧ PoolInv (applying m 0) ∧ BoostInv (applying m 0)) ∧
      ((List.finRange 4).filter fun i => ((applying .run 0).eq.slots[i]).isNone)[0]? = some 0 ∧
      .boostCurve twoPoints ∈ fullSet.records ∧ (∀ ps, .boostCurve ps ∉ chainSet.records) :=
  ⟨rfl, rfl, by decide +kernel,
    fun m => ⟨rampOf rfl, pool_of_unused rfl rfl (by change ∀ q ∈ [fullSet], (chainOutputs q.records).Nodup; decide) rfl,
      applying_boostInv m⟩,
    by decide +kernel, by decide +kernel, by simp [chainSet]⟩

/-- In RUN the set starts the ramps of 24 LEVEL keys and a cell, takes the first crossfade slot, and gives the SDV unit its state by age. -/
theorem test_set_applied : ∃ t, exec .setApplication (applying .run 0) = .next t ∧
    (t.ramp.entries[(23 : Fin 64)]).map Ramp.n = some 480 ∧ (t.ramp.entries[(24 : Fin 64)]).map Ramp.n = some 2400 ∧
    (t.ramp.entries[(25 : Fin 64)]).isNone = true ∧
    (t.eq.slots[(0 : Fin 4)]).map Crossfade.output = some 0 ∧ t.sdv.state = .fallback ∧
    t.ctl.notices = [.setApplied 255] := ⟨_, rfl, by decide +kernel⟩

/-- R73, R106: an unmarked set raises no SET_APPLIED; a disabled kind is not raised beside a change of the SDV unit's state. -/
theorem test_set_notices :
    (∃ t, exec .setApplication (examining [{ chainSet with notify := false }] (locked 0)) = .next t ∧ t.ctl.notices = []) ∧
      (∃ t, exec .setApplication { examining [{ fullSet with records := [.boostCurve twoPoints] }] (locked 0) with
        ctl := { Control.reset with noticeOn := { Control.reset.noticeOn with setApplied := false } } } = .next t ∧
        t.ctl.notices = [.sdvState .fallback]) :=
  ⟨⟨_, rfl, by decide +kernel⟩, ⟨_, rfl, by decide +kernel⟩⟩

theorem test_witness_RecordWrites :
    (1 : Zone) ≠ 0 ∧ (15 : Fin 31).val + (List.replicate 16 (0 : Int)).length ≤ 31 := by decide

/-! ## Equalisation -/

theorem test_witness_CrossfadeEndReturnsSections :
    let s := { fading 0 with eq := { EqUnit.reset with
      slots := EqUnit.reset.slots.set 3 (some { output := 0, old := [], k := 479, due := true }) } }
    s.eq.slots[(3 : Fin 4)] = some { output := 0, old := [], k := 479, due := true } := by decide

/-- Every section in one state, with the free map that goes with it. -/
def poolIn (st : SectionState) (free : Bool) : State :=
  { State.reset with eq := { EqUnit.reset with
      sections := Vector.replicate 256 { EqSection.reset with state := st }
      free1 := Vector.replicate 4 (if free then BitVec.allOnes 64 else 0)
      free0 := if free then BitVec.allOnes 4 else 0 } }

theorem pool_of_loaded {s : State} (he : s.eq = (poolIn .loaded false).eq) (hq : s.commit.queue = [])
    (hb : s.ctl.executing[(2 : Fin 6)] = false) : PoolInv s := by
  refine ⟨?_, ?_, ?_, ?_, ?_, ?_, ?_, ?_, ?_, ?_, ?_⟩
  · rw [he]; decide +kernel
  · rw [he]; decide +kernel
  · rw [he]; decide +kernel
  · rw [he]; decide +kernel
  · rw [he]; unfold queuedSections; rw [hq]; decide +kernel
  · rw [he]; decide +kernel
  · rw [he]; unfold queuedSections; rw [hq]; decide +kernel
  · rw [he]; exact hb.symm
  · rw [he]; intro i j f g hf; simp [poolIn, EqUnit.reset] at hf
  · rw [hq]; intro q hq'; simp at hq'
  · rw [he]; intro _ i; simp [poolIn, EqUnit.reset]

theorem test_witness_SectionLoadAllocates :
    PoolInv (sent (request 2 1 (List.replicate 15 0xFF)) State.reset) ∧ Asked .sectionLoad 2 1 (List.replicate 15 0xFF) State.reset ∧
      (State.reset.eq.sections[(0 : Fin 256)]).state = .free ∧ (parseCoeffs (List.replicate 15 0xFF)).isSome = true ∧
      PoolInv (sent (request 2 1 (List.replicate 15 0)) (poolIn .loaded false)) ∧
      Asked .sectionLoad 2 1 (List.replicate 15 0) (poolIn .loaded false) ∧
      (∀ n : SectionNo, ((poolIn .loaded false).eq.sections[n]).state ≠ .free) :=
  ⟨pool_of_unused rfl rfl (by decide) (by decide +kernel), asked_of (by decide +kernel), by decide +kernel, by decide +kernel, pool_of_loaded rfl rfl (by decide +kernel),
    asked_of (by decide +kernel), by decide +kernel⟩

theorem test_witness_SectionRequestsByState :
    (∀ st ∈ [SectionState.free, .loaded, .live], Asked .sectionWrite 2 2 (255 :: List.replicate 15 0) (poolIn st false)) ∧
      (∀ st ∈ [SectionState.free, .loaded, .live], Asked .sectionRelease 2 3 [255] (poolIn st false)) ∧
      (∀ st ∈ [SectionState.free, .loaded, .live], ((poolIn st false).eq.sections[byteFin 255]).state = st) := by
  refine ⟨fun st hs => ?_, fun st hs => ?_, fun st hs => ?_⟩ <;> simp only [List.mem_cons, List.not_mem_nil, or_false] at hs
  · rcases hs with rfl | rfl | rfl <;> exact asked_of (by decide +kernel)
  · rcases hs with rfl | rfl | rfl <;> exact asked_of (by decide +kernel)
  · rcases hs with rfl | rfl | rfl <;> decide +kernel

/-- A section write, and four cue entries from address 255 on, waiting for the port. -/
def writing : State :=
  { inFrame with eq := { EqUnit.reset with
      pendingWrite := some { sec := 255, kind := .load, coeffs := Coeffs.zero } } }

/-- Four cue entries from address 255 on. -/
def cueWriting : State :=
  { inFrame with cue := { CueUnit.reset with
      pendingWrite := some { addr := 255, entries := List.replicate 4 (entryOfBytes [0x40]) } } }

theorem test_witness_WritesGranted :
    mayGrant .sectionWrite writing = true ∧ writing.eq.pendingWrite.isSome = true ∧
      memoryGood cueWriting.cue.mem ∧ mayGrant .cueWrite cueWriting = true ∧
      cueWriting.cue.pendingWrite = some { addr := 255, entries := List.replicate 4 (entryOfBytes [0x40]) } :=
  ⟨by decide, by decide, ⟨by decide, by decide⟩, by decide, by decide⟩

theorem test_cue_write_wraps : ∃ t, exec .cueWriteGrant cueWriting = .next t ∧
    readEntry t.cue.mem 255 = entryOfBytes [0x40] ∧ readEntry t.cue.mem 2 = entryOfBytes [0x40] ∧
    readEntry t.cue.mem 3 = entryOfBytes [] ∧ t.cue.mem = [(0, 0x40), (8, 0x40), (16, 0x40), (2040, 0x40)] :=
  ⟨_, rfl, by decide +kernel⟩

/-! ## What the TABLE unit hears -/

/-- A digest of a table that has covered its entries 0 to `next` − 1, its reservation the second place of the queue. -/
def digesting (d : TableId) (next : Nat) (s : State) : State :=
  { s with
      table := some { reading .digest with table := d, next := next, covered := next }
      ctl := { s.ctl with
        queue := [.packet { dest := 0, bytes := [] }, .reservation { tag := 9, unitByte := 5, code := 2, origin := 3 }]
        executing := s.ctl.executing.set 5 true } }

/-- R149: the reply to the digest once disturbed, and its seven data bytes. -/
def disturbed (next : Nat) : Place :=
  .packet (replyPacket { tag := 9, unitByte := 5, code := 2, origin := 3 } .ok
    (2 :: { reading .digest with next := next, covered := next }.fields))

/-- The entries a set's records carry, at the ends of their tables, and one beyond. -/
theorem test_records_carry :
    (ChangeRecord.zone 3 (.mute true) none).carries .zones 3 ∧ (ChangeRecord.cell 23 11 .off none).carries .cells 287 ∧
      (ChangeRecord.output 23 0 .centre .noRow none 0 0).carries .outputs 23 ∧
      (ChangeRecord.flags .set .mute 0x800000).carries .outputs 23 ∧ ¬ (ChangeRecord.flags .set .mute 0x800000).carries .outputs 22 ∧
      (ChangeRecord.chain 23 []).carries .chains 23 ∧ (ChangeRecord.curve .longRear 30 [0]).carries .curves 185 ∧
      ¬ (ChangeRecord.curve .longRear 29 [0]).carries .curves 185 ∧ (ChangeRecord.boostCurve []).carries .boostCurve 15 ∧
      ¬ (ChangeRecord.boostCurve []).carries .boostCurve 16 ∧ (ChangeRecord.group 3 0).carries .groups 3 := by
  refine ⟨⟨rfl, rfl⟩, ⟨rfl, rfl⟩, ⟨rfl, rfl⟩, ⟨rfl, 23, by decide, rfl⟩, ?_, ⟨rfl, rfl⟩, ⟨rfl, by decide, by decide⟩, ?_,
    ⟨rfl, by decide⟩, ?_, ⟨rfl, rfl⟩⟩
  · rintro ⟨-, o, ho, hn⟩
    have : o = 22 := Fin.ext hn.symm
    subst this
    revert ho
    decide
  · rintro ⟨-, -, h⟩
    revert h
    decide
  · rintro ⟨-, h⟩
    revert h
    decide

/-- Both branches of what is heard: entry 0 covered or not, by a digest of the table or of another; a read. -/
theorem test_witness_WritesHeard :
    sectionEntries [0, 255] .sections 0 ∧ sectionEntries [0, 255] .sections 255 ∧ ¬ sectionEntries [0, 255] .sections 1 ∧
      (digesting .sections 1 State.reset).table = some { reading .digest with next := 1, covered := 1 } ∧
      (reading .digest).first ≤ 0 ∧ 0 < (reading .digest).next ∧ (reading .digest).next ≤ 255 ∧ ¬ sectionEntries [0] .chains 0 ∧
      (reading .read).kind ≠ .digest := by
  refine ⟨⟨rfl, 0, by simp, rfl⟩, ⟨rfl, 255, by simp, rfl⟩, ?_, rfl, by decide, by decide, by decide, ?_, by decide⟩
  · rintro ⟨-, i, hi, h⟩
    simp only [List.mem_cons, List.not_mem_nil, or_false] at hi
    rcases hi with rfl | rfl <;> simp at h
  · rintro ⟨h, -⟩
    cases h

/-- R85, R149: the release of section 0 disturbs a digest that has covered it: its reply stands in the reservation's place, before the
release's own; of section 1 it leaves the digest alone. -/
theorem test_release_disturbs :
    (∃ t, exec .sectionRelease (sent (request 2 3 [0]) (digesting .sections 1 (poolIn .loaded false))) = .next t ∧
      t.ctl.queue = [.packet { dest := 0, bytes := [] }, disturbed 1, .packet (replyPacket (request 2 3 [0]).requester .ok [0, 0, 1])] ∧
      t.table = none ∧ inExecution .table t = false ∧ t.ctl.lastGood = some 1) ∧
    (∃ t, exec .sectionRelease (sent (request 2 3 [1]) (digesting .sections 1 (poolIn .loaded false))) = .next t ∧
      t.table = (digesting .sections 1 State.reset).table ∧ inExecution .table t = true) :=
  ⟨⟨_, rfl, by decide +kernel⟩, ⟨_, rfl, by decide +kernel⟩⟩

/-- R73, R149: an applied set disturbs a digest of the cells by its CELL record, and of the sections by none. -/
theorem test_set_disturbs :
    (∃ t, exec .setApplication (examining [cellSet] (digesting .cells 1 (locked 0))) = .next t ∧ t.table = none ∧
      t.ctl.queue[1]? = some (disturbed 1) ∧ t.ctl.lastGood = some 9) ∧
    (∃ t, exec .setApplication (examining [cellSet] (digesting .sections 1 (locked 0))) = .next t ∧
      t.table = (digesting .sections 1 State.reset).table ∧ t.ctl.lastGood = none) :=
  ⟨⟨_, rfl, by decide +kernel⟩, ⟨_, rfl, by decide +kernel⟩⟩

/-- R132, R149: a cue write that wraps to address 2 disturbs a digest that has covered it. -/
theorem test_cue_write_disturbs : ∃ t, exec .cueWriteGrant (digesting .cueMemory 3 cueWriting) = .next t ∧ t.table = none ∧
    t.ctl.queue = [.packet { dest := 0, bytes := [] }, disturbed 3] := ⟨_, rfl, by decide +kernel⟩

/-! ## Speed-dependent volume -/

theorem test_witness_BoostForSpeed :
    curveValid twoPoints = true ∧ twoPoints ≠ [] ∧ twoPoints.getLast? = some (320, 48) ∧ (30, 0) ∈ twoPoints ∧
      twoPoints = [] ++ (30, 0) :: (320, 48) :: [] ∧ boostAt twoPoints 0 = 0 ∧ boostAt twoPoints 319 = 47 ∧
      boostAt twoPoints 320 = 48 := by decide +kernel

/-- SDV in a state with an age. -/
def sdvIn (st : SdvState) (age : Option Nat) : State :=
  { State.reset with sdv := { Sdv.reset with state := st, age := age, lastSpeed := age, phase := 479, tickDue := true } }

/-- A broadcast SPEED_REPORT. -/
def broadcastReport : Context :=
  { origin := 0, broadcast := true, complete := true
    bytes := [255, 3, 1, 3, 1, 0x40, 1, crc8 [255, 3, 1, 3, 1, 0x40, 1]], cells := 2 }

theorem test_witness_SpeedReportTaken :
    Asked .speedReport 3 1 [1, 0x41, 1] (sdvIn .tracking (some 0)) ∧ Asked .speedReport 3 1 [1, 0x40, 0] (sdvIn .tracking (some 0)) ∧
      Asked .speedReport 3 1 [1, 0x40, 1] (sdvIn .off none) ∧ Asked .speedReport 3 1 [1, 0x40, 1] (sdvIn .holding (some 30)) ∧
      u16 1 0x40 = 320 ∧ u16 1 0x41 = 321 ∧ NoHeld (sent broadcastReport State.reset) ∧
      nextOffer (queueNotices (sent broadcastReport State.reset)) = some { ctx := 0, packet := broadcastReport, placed := true } ∧
      broadcastReport.row State.reset.ctl.enabled = some .speedReport :=
  ⟨asked_of (by decide +kernel), asked_of (by decide +kernel), asked_of (by decide +kernel), asked_of (by decide +kernel),
    by decide, by decide, by unfold NoHeld; decide, by decide +kernel, by decide +kernel⟩

theorem test_witness_TickRaisesAge :
    (∀ a ∈ [29, 30, 499, 65535], (sdvIn .tracking (some a)).sdv.tickDue = true ∧ (sdvIn .tracking (some a)).sdv.age = some a ∧
      (sdvIn .tracking (some a)).sdv.phase = 479) := by decide

/-- An owed rise of the tick phase, which stands at `n`. -/
def phaseAt (n : Nat) : State := { sdvIn .tracking (some 0) with sdv := { (sdvIn .tracking (some 0)).sdv with phase := n } }

theorem test_witness_TickRaisesAge_reset :
    (sdvIn .fallback none).sdv.tickDue = true ∧ (sdvIn .fallback none).sdv.age = none ∧
      (∀ n ∈ [0, 478], (phaseAt n).sdv.tickDue = true ∧ (phaseAt n).sdv.age = some 0 ∧ (phaseAt n).sdv.phase < 479) := by decide

/-- R105: after a report the phase rises from 0 to 1, and the age does not rise. -/
theorem test_tick_after_report : ∃ t, exec .sdvTick (phaseAt 0) = .next t ∧ t.sdv.phase = 1 ∧ t.sdv.age = some 0 ∧
    t.sdv.tickDue = false := ⟨_, rfl, by decide +kernel⟩

theorem test_witness_SdvRamps :
    (∀ st age, RampInv (sdvIn st age)) ∧ RampInv (sent broadcastReport State.reset) ∧
      (sdvIn .tracking (some 30)).ctl.noticeOn.allows (.sdvState .holding) = true ∧ BoostInv (sent broadcastReport waiting) :=
  ⟨fun _ _ => rampOf rfl, rampOf rfl, rfl, boost_of_idle rfl rfl rfl⟩

/-- SDV tracking with a boost of 40 qdB followed by all groups, a curve in force, and a boost ramp of `ms`. -/
def boosted (ms : Nat) : State :=
  let s := inMode .run 1 (locked 0)
  { s with
      core := { s.core with live := { s.core.live with boostCurve := twoPoints } }
      sdv := { Sdv.reset with
        state := .tracking, age := some 499, lastSpeed := some 320, phase := 479, tickDue := true, boost := 40
        targets := Vector.replicate 4 40, rampMs := ms } }

/-- R107, R109: the tick into FALLBACK takes every group target to 0 with the boost ramp in force; SDV_CONFIG with its own. -/
theorem test_boost_ramps :
    RampInv (boosted 3) ∧
    (∃ t, exec .sdvTick (boosted 3) = .next t ∧ (t.ramp.entries[(63 : Fin 64)]).map Ramp.n = some 144 ∧
      t.sdv.state = .fallback ∧ t.ctl.notices = [.sdvState .fallback]) ∧
    (∃ t, exec .sdvConfig (sent (request 3 2 [0, 1, 0, 2, 0, 0, 5]) (boosted 3)) = .next t ∧
      (t.ramp.entries[(60 : Fin 64)]).map Ramp.n = some 240 ∧ t.sdv.state = .fallback) ∧
    (∃ t, exec .unitReset (sent (request 0 4 [3]) (boosted 3)) = .next t ∧
      (t.ramp.entries[(60 : Fin 64)]).map Ramp.n = some 96000 ∧ t.ctl.notices = [.sdvState .fallback]) :=
  ⟨rampOf rfl, ⟨_, rfl, by decide +kernel⟩, ⟨_, rfl, by decide +kernel⟩, ⟨_, rfl, by decide +kernel⟩⟩

theorem test_tick_moves_to_holding : ∃ t, exec .sdvTick (sdvIn .tracking (some 29)) = .next t ∧ t.sdv.state = .holding ∧
    t.sdv.age = some 30 ∧ t.ctl.notices = [.sdvState .holding] := ⟨_, rfl, by decide +kernel⟩

theorem test_witness_SdvRequests :
    Asked .sdvConfig 3 2 [0, 0, 0, 1, 0, 0, 0] State.reset ∧ Asked .sdvConfig 3 2 [0, 1, 0, 2, 16, 0, 0] (sdvIn .tracking (some 1)) ∧
      Asked .sdvConfig 3 2 [0, 1, 0, 2, 17, 0, 0] State.reset ∧ Asked .sdvManual 3 3 [1, 0x41] State.reset ∧
      Asked .sdvManual 3 3 [1, 0x40] State.reset ∧ Asked .sdvManual 3 3 [1, 0x40] (sdvIn .manual (some 0)) ∧
      Asked .sdvAuto 3 4 [] State.reset ∧ Asked .sdvAuto 3 4 [] (sdvIn .manual (some 30)) ∧ Asked .sdvAuto 3 4 [] (sdvIn .manual none) :=
  ⟨asked_of (by decide +kernel), asked_of (by decide +kernel), asked_of (by decide +kernel), asked_of (by decide +kernel),
    asked_of (by decide +kernel), asked_of (by decide +kernel), asked_of (by decide +kernel), asked_of (by decide +kernel),
    asked_of (by decide +kernel)⟩

/-! ## Cue runners and table memory -/

/-- Runner 0 as given, in a frame whose grant is to come. -/
def runner (x : Runner) : State := { inMode .run 1 inFrame with cue := { CueUnit.reset with runners := CueUnit.reset.runners.set 0 x } }

/-- Runner 1 fetching. -/
def fetching1 : State := { inFrame with cue := { CueUnit.reset with
  runners := CueUnit.reset.runners.set 1 { Runner.reset with state := .fetching } } }

theorem test_witness_ArbiterPriority :
    arbiter (runner { Runner.reset with state := .fetching }) = some (.runner 0) ∧ arbiter fetching1 = some (.runner 1) ∧
      arbiter writing = some .sectionWrite ∧ arbiter cueWriting = some .cueWrite ∧
      arbiter { writing with cue := cueWriting.cue } = some .sectionWrite ∧
      arbiter { inFrame with table := some (reading .digest) } = some .table ∧ arbiter inFrame = none := by decide +kernel

theorem test_witness_FetchGrantStartsEntry :
    mayGrant (.runner 0) (runner { Runner.reset with state := .fetching, nextFetch := 254 }) = true ∧
      mayGrant (.runner 1) fetching1 = true := by decide +kernel

/-- A STEP, a WAIT and a WAIT behind a STEP. -/
def window : List CueEntry := [entryOfBytes [0x10, 1, 0xFF, 0xD8, 0, 1, 0, 0], entryOfBytes [0x20, 0, 1], entryOfBytes [0x40, 1]]

theorem test_witness_EntryEndShifts :
    (∀ st ∈ [RunnerState.stepping, .waiting],
      ((runner { Runner.reset with state := st, window := window, due := true }).cue.runners[(0 : Fin 2)]).due = true ∧
      ((runner { Runner.reset with state := st, window := window, due := true }).cue.runners[(0 : Fin 2)]).state = st) := by
  decide

theorem test_step_then_wait :
    ∃ t, exec (.stepComplete 0) (runner { Runner.reset with state := .stepping, window := window, due := true }) = .next t ∧
      (t.cue.runners[(0 : Fin 2)]).state = .waiting ∧ (t.cue.runners[(0 : Fin 2)]).window.length = 2 := ⟨_, rfl, by decide +kernel⟩

/-- A STEP of length 0 on S0, a WAIT, a STEP of one ms on S1, a STOP with notice. -/
def quickWindow : List CueEntry :=
  [entryOfBytes [0x10, 1, 0xFF, 0xD8, 0, 0, 0, 0], entryOfBytes [0x20, 0, 0], entryOfBytes [0x10, 2, 0xFF, 0xD8, 0, 1, 0, 0],
    entryOfBytes [0x40, 1]]

/-- Runner 0 after a WAIT, with the entries of `w` to come. -/
def before (latch : Bool) (w : List CueEntry) : State :=
  runner { Runner.reset with state := .stepping, window := entryOfBytes [0x10, 0, 0, 0, 0, 0, 0, 1] :: w, nextFetch := 9, latch := latch, due := true }

theorem test_witness_EntryStarted :
    quickWindow.map decodeEntry = [.step 1 (-40) 0 0, .wait 0, .step 2 (-40) 1 0, .stop true] ∧
      (∀ b : Bool, ((before b quickWindow).cue.runners[(0 : Fin 2)]).due = true ∧ RampInv (before b quickWindow)) ∧
      decodeEntry (entryOfBytes []) = .invalid ∧ (before true []).ctl.noticeOn.allows (.cueStopped 0 .fault 4) = true :=
  ⟨by decide +kernel, fun b => ⟨by cases b <;> rfl, rampOf rfl⟩, by decide +kernel, rfl⟩

/-- R123 to R125: the STEP of length 0 jumps S0 and completes as it starts, and so does the WAIT under the latch, which it takes; the
next STEP ramps S1. Without the latch the runner waits. -/
theorem test_entries_complete_as_they_start :
    (∃ t, exec (.stepComplete 0) (before true quickWindow) = .next t ∧ (t.cue.runners[(0 : Fin 2)]).state = .stepping ∧
      (t.cue.runners[(0 : Fin 2)]).latch = false ∧ (t.cue.runners[(0 : Fin 2)]).window.length = 2 ∧
      t.ramp.duckTargets[(0 : Fin 12)] = -40 ∧ (t.ramp.entries[(48 : Fin 64)]).isNone = true ∧
      (t.ramp.entries[(49 : Fin 64)]).map Ramp.n = some 48) ∧
    (∃ t, exec (.stepComplete 0) (before false quickWindow) = .next t ∧ (t.cue.runners[(0 : Fin 2)]).state = .waiting) :=
  ⟨⟨_, rfl, by decide +kernel⟩, ⟨_, rfl, by decide +kernel⟩⟩

/-- R126, R127: the address of a STOP at position 0 of a window of one, and of an invalid entry. -/
theorem test_stop_addresses :
    (∃ t, exec (.stepComplete 0) (before false [entryOfBytes [0x40, 1]]) = .next t ∧ t.ctl.notices = [.cueStopped 0 .stop 8]) ∧
      (∃ t, exec (.stepComplete 0) (before false [entryOfBytes [], entryOfBytes []]) = .next t ∧
        t.ctl.notices = [.cueStopped 0 .fault 7]) := ⟨⟨_, rfl, by decide +kernel⟩, ⟨_, rfl, by decide +kernel⟩⟩

theorem test_witness_DuckFollowsLowerRequest :
    Inv (inMode .run 1 (locked 0)) ∧ RampInv (inMode .run 1 (locked 0)) ∧
      duckMin (setRequest 0 (-40) 10 0 (inMode .run 1 (locked 0))).cue 0 ≠ (inMode .run 1 (locked 0)).ramp.duckTargets[(0 : Fin 12)] ∧
      duckMin (setRequest 0 0 10 0 (inMode .run 1 (locked 0))).cue 0 = (inMode .run 1 (locked 0)).ramp.duckTargets[(0 : Fin 12)] ∧
      (inMode .run 1 (locked 0)).ramp.present (.duck 0) (.level (inMode .run 1 (locked 0)).ramp.duckTargets[(0 : Fin 12)]) = 0 :=
  ⟨invOf (by decide +kernel), rampOf rfl, by decide +kernel⟩

theorem test_halt_ramps_over_50 :
    let s := { inMode .run 1 (locked 0) with
      cue := { CueUnit.reset with runners := CueUnit.reset.runners.set 0 { Runner.reset with requests := Vector.replicate 12 (-40) } }
      ramp := { RampUnit.reset with duckTargets := Vector.replicate 12 (-40) } }
    Inv s ∧ RampInv s ∧ ((haltRunner 0 s).ramp.entries[(48 : Fin 64)]).map Ramp.n = some 2400 :=
  ⟨invOf (by decide +kernel), rampOf rfl, by decide +kernel⟩

/-- R45, entry 32: requests of `a` and `b`; runner 1's becomes `d` with 5 ms, then runner 0's `c` with 7 ms: DUCK(0)'s target and its
ramp's duration. -/
def duckTwice (a b c d : Int) : Int × Option Nat :=
  let t := setRequest 0 c 7 0 (setRequest 1 d 5 0 { inMode .run 1 (locked 0) with
    cue := { CueUnit.reset with runners := #v[{ Runner.reset with requests := Vector.replicate 12 a },
      { Runner.reset with requests := Vector.replicate 12 b }] }
    ramp := { RampUnit.reset with duckTargets := Vector.replicate 12 (min a b) } })
  (t.ramp.duckTargets[(0 : Fin 12)], (t.ramp.entries[(48 : Fin 64)]).map Ramp.n)

/-- The deeper new request taken second, then first with both rising, with one rising past the other, and with equal new requests. -/
theorem test_duck_both_change :
    [duckTwice (-50) (-50) (-30) (-20), duckTwice (-50) (-50) (-20) (-30), duckTwice (-50) 0 (-10) (-30), duckTwice (-50) (-50) 0 0] =
      [(-30, some (48 * 7)), (-30, some (48 * 7)), (-30, some (48 * 7)), (0, some (48 * 7))] := by decide +kernel

theorem test_witness_CueWriteAndStart :
    Asked .cueWrite 4 1 (255 :: List.replicate 9 0) State.reset ∧ Asked .cueWrite 4 1 (255 :: List.replicate 32 0) State.reset ∧
      (255 :: List.replicate 32 0 : List Byte) = 255 :: ((List.replicate 4 (entryOfBytes [])).map Vector.toList).flatten ∧
      Asked .cueStart 4 2 [2, 255] (inMode .run 1 (locked 0)) ∧ Asked .cueStart 4 2 [1, 255] (inMode .run 1 (locked 0)) ∧
      Asked .cueStart 4 2 [1, 255] State.reset ∧ Asked .cueStart 4 2 [1, 255] (inMode .leaving 1 (locked 0)) ∧
      (1 : Byte) = byteOf (1 : RunnerNo).val :=
  ⟨asked_of (by decide +kernel), asked_of (by decide +kernel), by decide +kernel, asked_of (by decide +kernel),
    asked_of (by decide +kernel), asked_of (by decide +kernel), asked_of (by decide +kernel), by decide⟩

theorem test_witness_CueReleaseAndHalt :
    Asked .cueRelease 4 3 [2] State.reset ∧ Asked .cueHalt 4 4 [2] State.reset ∧ (0 : Byte) = byteOf (0 : RunnerNo).val ∧
      (∀ x ∈ [Runner.reset, { Runner.reset with state := .stopped }, { Runner.reset with state := .stepping, latch := true },
          { Runner.reset with state := .fetching }, { Runner.reset with state := .waiting, window := window }],
        Asked .cueRelease 4 3 [0] (runner x) ∧ Asked .cueHalt 4 4 [0] (runner x)) := by
  refine ⟨asked_of (by decide +kernel), asked_of (by decide +kernel), by decide, fun x hx => ?_⟩
  simp only [List.mem_cons, List.not_mem_nil, or_false] at hx
  rcases hx with rfl | rfl | rfl | rfl | rfl <;> exact ⟨asked_of (by decide +kernel), asked_of (by decide +kernel)⟩

/-! ## TABLE unit -/

theorem test_witness_TableRequestsTaken :
    Asked .tableRead 5 1 [10, 0, 0, 0, 1] State.reset ∧ TableId.ofByte 10 = none ∧
      Asked .tableRead 5 1 [0, 0, 4, 0, 1] State.reset ∧ TableId.size .zones = u16 0 4 ∧
      Asked .tableRead 5 1 [0, 0, 0, 0, 5] State.reset ∧ Asked .tableRead 5 1 [3, 0, 178, 0, 8] State.reset ∧
      Asked .tableRead 5 1 [3, 0, 177, 0, 9] State.reset ∧ u16 0 177 + u16 0 9 = TableId.size .curves ∧
      Asked .tableRead 5 1 [7, 0, 255, 0, 1] State.reset ∧ Asked .digest 5 2 [9, 0, 0, 0, 1] State.reset ∧
      Asked .digest 5 2 [7, 0, 0, 1, 1] State.reset ∧ Asked .digest 5 2 [7, 0, 0, 1, 0] State.reset ∧
      Asked .digest 5 2 [7, 0, 0, 1, 0, 0] State.reset ∧ Asked .digest 5 2 [7, 0, 0, 1, 0, 0, 0] State.reset ∧
      Asked .digest 5 2 [10, 0, 0, 1, 0, 0] State.reset ∧ TableId.ofByte 9 = some .ramps :=
  ⟨asked_of (by decide +kernel), by decide, asked_of (by decide +kernel), by decide, asked_of (by decide +kernel),
    asked_of (by decide +kernel), asked_of (by decide +kernel), by decide, asked_of (by decide +kernel), asked_of (by decide +kernel),
    asked_of (by decide +kernel), asked_of (by decide +kernel), asked_of (by decide +kernel), asked_of (by decide +kernel),
    asked_of (by decide +kernel), by decide⟩

/-- A LOCKED frame in which `n` entries of live tables were taken. -/
def taken (n : Nat) : State := { inFrame with frame := { inFrame.frame with liveTaken := n } }

/-- Reads of 8, of 3 and of 9 entries where the frame admits them exactly, or not by one. -/
theorem test_witness_TableRequestsTaken_room :
    Asked .tableRead 5 1 [1, 1, 24, 0, 8] (taken 0) ∧ Asked .tableRead 5 1 [1, 1, 24, 0, 8] (taken 1) ∧
      Asked .tableRead 5 1 [1, 0, 0, 0, 3] (taken 5) ∧ Asked .tableRead 5 1 [1, 0, 0, 0, 3] (taken 6) ∧
      Asked .tableRead 5 1 [1, 0, 0, 0, 9] (taken 0) ∧ Asked .tableRead 5 1 [1, 0, 0, 0, 9] (taken 1) ∧
      Asked .tableRead 5 1 [7, 0, 0, 0, 1] (taken 8) ∧ u16 1 24 + 8 = TableId.size .cells :=
  ⟨asked_of (by decide +kernel), asked_of (by decide +kernel), asked_of (by decide +kernel), asked_of (by decide +kernel),
    asked_of (by decide +kernel), asked_of (by decide +kernel), asked_of (by decide +kernel), by decide⟩

/-- R142, entry 28: the ninth live entry of a frame is not taken: its read waits in its context. -/
theorem test_live_cap :
    (∃ t, exec .tableRead (sent (request 5 1 [1, 0, 0, 0, 3]) (taken 5)) = .next t ∧ t.frame.liveTaken = 8 ∧
      t.ctl.queue = [.packet (replyPacket (request 5 1 [1, 0, 0, 0, 3]).requester .ok [1, 0, 0, 3, 0x80, 0, 0x80, 0, 0x80, 0])]) ∧
    (∃ t, exec .tableRead (sent (request 5 1 [1, 0, 0, 0, 3]) (taken 6)) = .next t ∧
      t = sent (request 5 1 [1, 0, 0, 0, 3]) (taken 6)) :=
  ⟨⟨_, rfl, by decide +kernel⟩, ⟨_, rfl, by decide +kernel⟩⟩

/-- In HUNT no frame counts them; a read of table memory is not counted; a read past the table's end is answered at once. -/
theorem test_live_cap_elsewhere :
    (∃ t, exec .tableRead (sent (request 5 1 [1, 0, 0, 0, 8]) State.reset) = .next t ∧ t.frame = Frame.idle ∧ t.ctl.lastGood = some 1) ∧
    (∃ t, exec .tableRead (sent (request 5 1 [7, 0, 0, 0, 1]) (taken 8)) = .next t ∧ t.table.isSome = true ∧ t.frame.liveTaken = 8) ∧
    (∃ t, exec .tableRead (sent (request 5 1 [1, 2, 0, 0, 1]) (taken 8)) = .next t ∧ t.ctl.queue.length = 1) :=
  ⟨⟨_, rfl, by decide +kernel⟩, ⟨_, rfl, by decide +kernel⟩, ⟨_, rfl, by decide +kernel⟩⟩

/-- R147, R174: of six data bytes an unknown table id is BAD_VALUE; a known one leaves the length to judge. -/
theorem test_digest_of_six_bytes :
    (∃ t, exec .digest (sent (request 5 2 [10, 0, 0, 1, 0, 0]) State.reset) = .next t ∧
      t.ctl.queue = [.packet (replyPacket (request 5 2 [10, 0, 0, 1, 0, 0]).requester .badValue [])]) ∧
    (∃ t, exec .digest (sent (request 5 2 [7, 0, 0, 1, 0, 0]) State.reset) = .next t ∧
      t.ctl.queue = [.packet (replyPacket (request 5 2 [7, 0, 0, 1, 0, 0]).requester .badLength [])]) :=
  ⟨⟨_, rfl, by decide +kernel⟩, ⟨_, rfl, by decide +kernel⟩⟩

/-- An operation in a frame whose grant is to come. -/
def operating (op : TableOp) : State := { inFrame with table := some op }

theorem test_witness_TableAccessGranted :
    (∀ k ∈ [TableOpKind.read, .digest], mayGrant .table (operating (reading k)) = true ∧ (reading k).owed = 1 ∧
      mayGrant .table (operating { reading k with count := 3 }) = true ∧ 1 < ({ reading k with count := 3 } : TableOp).owed) := by
  decide +kernel

theorem test_witness_OperationEnds :
    (∀ k ∈ [TableOpKind.read, .digest], mayGrant .table (operating (reading k)) = true ∧ (reading k).lastStep = true ∧
      (operating { reading k with table := .cells, batchDue := true }).table = some { reading k with table := .cells, batchDue := true } ∧
      ({ reading k with table := .cells, batchDue := true } : TableOp).lastStep = true) := by decide +kernel

theorem test_witness_WriteDisturbsDigest :
    (operating (reading .digest)).table = some (reading .digest) ∧ (reading .digest).first ≤ 0 ∧ 0 < (reading .digest).next ∧
      (reading .digest).next ≤ 1 ∧ (reading .read).kind = .read ∧ (reading .digest).table ≠ .chains := by decide +kernel

/-! ## Control unit -/

theorem offered_of {q : Request} {c : Context} {s : State}
    (h : (decide (nextOffer (queueNotices s) = some { ctx := 0, packet := c, placed := true })
      && decide (c.row s.ctl.enabled = some q) && !c.broadcast) = true) : Offered q c 0 s := by
  simp only [Bool.and_eq_true, decide_eq_true_eq, Bool.not_eq_true'] at h
  exact ⟨h.1.1, h.1.2, h.2⟩

/-- A unit disabled, or in execution. -/
def refusing (on busy : Bool) : State :=
  { State.reset with ctl := { Control.reset with
      enabled := { Control.reset.enabled with eq := on }, executing := Control.reset.executing.set 2 busy } }

theorem test_witness_DecodeRefuses :
    Offered .sectionRelease (request 2 3 [0]) 0 (sent (request 2 3 [0]) (refusing false false)) ∧
      Offered .sectionRelease (request 2 3 []) 0 (sent (request 2 3 []) (refusing true false)) ∧
      Offered .sectionRelease (request 2 3 [0]) 0 (sent (request 2 3 [0]) (refusing true true)) ∧
      Offered .poolStatus (request 2 4 []) 0 (sent (request 2 4 []) (refusing true true)) ∧
      NoHeld (sent (request 2 3 [0]) (refusing true true)) ∧ inExecution .eq (refusing true true) = true ∧
      (refusing false false).ctl.enabled.allows .eq = false :=
  ⟨offered_of (by decide +kernel), offered_of (by decide +kernel), offered_of (by decide +kernel), offered_of (by decide +kernel),
    by unfold NoHeld; decide, by decide, by decide⟩

/-- 11.3, entry 12: data one byte shorter and longer than the range, and the ends of the range. -/
theorem test_length_ranges :
    (∀ n ∈ [2, 3, 37, 38], Offered .stageRecord (request 1 1 (List.replicate n 0)) 0
      (sent (request 1 1 (List.replicate n 0)) State.reset)) ∧
    decodeRefusal .stageRecord 2 State.reset = some .badLength ∧ decodeRefusal .stageRecord 3 State.reset = none ∧
    decodeRefusal .stageRecord 37 State.reset = none ∧ decodeRefusal .stageRecord 38 State.reset = some .badLength ∧
    decodeRefusal .digest 4 State.reset = some .badLength ∧ decodeRefusal .digest 7 State.reset = none ∧
    decodeRefusal .cueWrite 8 State.reset = some .badLength ∧ decodeRefusal .cueWrite 33 State.reset = none ∧
    decodeRefusal .slotMap 26 State.reset = some .badLength ∧ decodeRefusal .slotMap 25 State.reset = none := by
  refine ⟨fun n hn => ?_, by decide +kernel⟩
  simp only [List.mem_cons, List.not_mem_nil, or_false] at hn
  rcases hn with rfl | rfl | rfl | rfl <;> exact offered_of (by decide +kernel)

theorem test_witness_EveryCommandAnswersNext :
    (∀ i : Fin 64, (opened.ramp.entries[i]).all (fun r => !r.due) = true) ∧
      (∀ i : Fin 4, (opened.eq.slots[i]).all (fun f => !f.due) = true) ∧
      State.reset.core.mode ≠ .leaving ∧ (inMode .leaving 5 (locked 0)).core.gate ≠ 0 ∧ inFrame.frame.examDue = false ∧
      opened.sdv.tickDue = false ∧ (opened.cue.runners[(0 : Fin 2)]).due = false ∧ (opened.cue.runners[(0 : Fin 2)]).state ≠ .waiting ∧
      (∀ g ∈ [Grantee.runner 0, .runner 1, .sectionWrite, .cueWrite, .table], mayGrant g State.reset = false) ∧
      (∀ k ∈ [TableOpKind.read, .digest], (reading k).lastStep = true ∧ (reading k).batchDue = false ∧
        mayGrant .table { locked 0 with table := some (reading k) } = false) ∧
      (locked 0).port.lock = .locked ∧ (locked 0).frame.boundaryDue = false ∧ (locked 0).frame.cellDue = false ∧
      nextOffer (queueNotices State.reset) = none ∧
      (request 0 1 []).row State.reset.ctl.enabled ≠ some .readStatus ∧
      nextOffer (queueNotices (sent (request 0 1 []) State.reset)) = some { ctx := 0, packet := request 0 1 [], placed := true } ∧
      (request 0 1 []).row State.reset.ctl.enabled ≠ none := by decide +kernel

/-- Complete packets in both contexts, the first to complete in context 1, with `n` places taken. -/
def twoPackets (n : Nat) : State :=
  { noticed n with port := { State.reset.port with
      contexts := #v[some (request 0 5 []), some (request 0 5 [])], firstComplete := 1 } }

theorem test_witness_PacketAssembly_offers :
    ((twoPackets 3).port.contexts[(1 : Fin 2)]) = some (request 0 5 []) ∧ (request 0 5 []).complete = true ∧
      (1 : Fin 2) = (twoPackets 3).port.firstComplete ∧ (twoPackets 3).ctl.queue.length < 4 ∧ 4 ≤ (twoPackets 4).ctl.queue.length ∧
      inExecution .ctrl (twoPackets 4) = false ∧ (request 0 5 []).byteAt 1 = 0 ∧ (request 0 5 []).byteAt 2 = 5 ∧
      (request 0 5 []).byteAt 3 = 0 ∧ nextOffer (twoPackets 3) = some { ctx := 1, packet := request 0 5 [], placed := true } ∧
      nextOffer (twoPackets 4) = some { ctx := 1, packet := request 0 5 [], placed := false } ∧
      nextOffer (sent (request 0 1 []) (noticed 4)) = none := by decide +kernel

/-- Whether a packet in context 0 is offered as a packet of no row. -/
def unknown (c : Context) (s : State) : Bool :=
  decide (nextOffer (queueNotices (sent c s)) = some { ctx := 0, packet := c, placed := placeFree (queueNotices (sent c s)) })
    && decide (c.row s.ctl.enabled = none)

theorem test_witness_UnknownRequestJudged :
    unknown { request 0 1 [] with cells := 2 } State.reset = true ∧ ({ request 0 1 [] with cells := 2 } : Context).discard = some .badLength ∧
      unknown { request 0 5 [] with bytes := [1, 0, 5, 0, 0] } (noticed 4) = true ∧
      unknown { broadcastReport with bytes := [255, 0, 1, 0, crc8 [255, 0, 1, 0]], cells := 1 } State.reset = true ∧
      unknown (request 6 1 []) State.reset = true ∧ unknown (request 2 9 []) (refusing false false) = true ∧
      unknown (request 2 9 []) State.reset = true ∧ (request 2 9 []).discard = none ∧ UnitId.ofByte 6 = none := by decide +kernel

/-- R161: the framing, then the check, then the tag; the broadcast that has a row. -/
theorem test_packet_discards :
    ({ request 0 1 [] with cells := 2, bytes := [0, 0, 1, 0, 0] } : Context).discard = some .badLength ∧
      ({ request 0 1 [] with bytes := [0, 0, 1, 0, 0] } : Context).discard = some .badCheck ∧
      ({ request 0 1 [] with bytes := [0, 0, 1, 0, crc8 [0, 0, 1, 0]] } : Context).discard = some .badTag ∧
      (request 0 1 []).row State.reset.ctl.enabled = some .identify ∧
      broadcastReport.row State.reset.ctl.enabled = some .speedReport ∧
      broadcastReport.row { State.reset.ctl.enabled with sdv := false } = none := by decide +kernel

theorem test_witness_StatusReports :
    (∀ src : Source, -480 ≤ Runner.reset.requests[src] ∧ Runner.reset.requests[src] ≤ 0) ∧
      (∀ src : Source, -480 ≤ ({ Runner.reset with requests := Vector.replicate 12 (-480) } : Runner).requests[src] ∧
        ({ Runner.reset with requests := Vector.replicate 12 (-480) } : Runner).requests[src] ≤ 0) := by decide

theorem test_witness_StatusRequests :
    Asked .identify 0 1 [] State.reset ∧ Asked .readStatus 0 2 [2] State.reset ∧ Asked .readStatus 0 2 [1] State.reset ∧
      Asked .readStatus 0 2 [0] State.reset ∧ Asked .poolStatus 2 4 [] State.reset ∧ Asked .sdvStatus 3 5 [] State.reset ∧
      Asked .cueStatus 4 5 [] State.reset :=
  ⟨asked_of (by decide +kernel), asked_of (by decide +kernel), asked_of (by decide +kernel), asked_of (by decide +kernel),
    asked_of (by decide +kernel), asked_of (by decide +kernel), asked_of (by decide +kernel)⟩

theorem test_identify_answer : ∃ t, exec .identify (sent (request 0 1 []) State.reset) = .next t ∧
    t.ctl.queue = [.packet { dest := 0, bytes := packetBytes [1, 0, 0x81, 0] [0x0C, 0x98, 0x01, 30] }] ∧
    t.ctl.lastGood = some 1 ∧ t.port.contexts[(0 : Fin 2)] = none := ⟨_, rfl, by decide +kernel⟩

theorem test_witness_NoticeEnableTakesMap :
    Asked .noticeEnable 0 6 [1, 1, 1, 2] State.reset ∧ Asked .noticeEnable 0 6 [0, 1, 0, 1] State.reset ∧
      [0, 1, 0, 1] = [bitByte false, bitByte true, bitByte false, bitByte true] :=
  ⟨asked_of (by decide +kernel), asked_of (by decide +kernel), by decide⟩

/-- R155: SLOT_MAP leaves the frame of an open boundary as it is, with the maps it was opened with. -/
theorem test_slot_map_in_open_boundary : ∃ t,
    exec .slotMap (sent (request 0 8 (1 :: List.replicate 24 0xFF)) openBoundary) = .next t ∧ t.frame = openBoundary.frame ∧
      t.ctl.queue ≠ [] := ⟨_, rfl, by decide +kernel⟩

/-- R97, R98, R155: a boundary is opened with the maps and EQ's enable state of that moment. -/
theorem test_opened_with : (openFrame (Vector.replicate 32 7) openBoundary).frame.opened =
    some { slots := Vector.replicate 32 7, sourceMap := Vector.replicate 12 none, outputMap := Vector.replicate 24 none,
           eqOn := openBoundary.ctl.enabled.eq } := by decide +kernel

theorem test_witness_SlotMapChecks :
    Asked .slotMap 0 8 [2] State.reset ∧ Asked .slotMap 0 8 [1] State.reset ∧ Asked .slotMap 0 8 (0 :: List.replicate 11 31) State.reset ∧
      Asked .slotMap 0 8 (0 :: List.replicate 12 31) (inMode .run 1 (locked 0)) ∧ Asked .slotMap 0 8 (0 :: List.replicate 12 31) State.reset ∧
      Asked .slotMap 0 8 (0 :: List.replicate 12 32) State.reset ∧ Asked .slotMap 0 8 (1 :: List.replicate 24 31) State.reset ∧
      Asked .slotMap 0 8 (1 :: List.replicate 24 0xFF) State.reset ∧ bitByte true = 1 ∧ bitByte false = 0 :=
  ⟨asked_of (by decide +kernel), asked_of (by decide +kernel), asked_of (by decide +kernel), asked_of (by decide +kernel),
    asked_of (by decide +kernel), asked_of (by decide +kernel), asked_of (by decide +kernel), asked_of (by decide +kernel), rfl, rfl⟩

theorem test_witness_UnitEnableTakesMap :
    Inv (sent (request 0 3 [0, 0, 0, 0]) State.reset) ∧ Asked .unitEnable 0 3 [0, 0, 0, 2] State.reset ∧
      Asked .unitEnable 0 3 [0, 0, 0, 0] State.reset ∧ Asked .unitEnable 0 3 [1, 1, 1, 1] State.reset ∧
      Asked .unitEnable 0 3 [0, 1, 1, 1] (inMode .run 1 (locked 0)) ∧ Asked .unitEnable 0 3 [1, 0, 0, 0] (inMode .run 1 (locked 0)) :=
  ⟨invOf (by decide +kernel), asked_of (by decide +kernel), asked_of (by decide +kernel), asked_of (by decide +kernel),
    asked_of (by decide +kernel), asked_of (by decide +kernel)⟩

/-- The same request with a unit disabled, a curve in force, or work pending. -/
theorem test_witness_UnitEnableTakesMap_effects :
    let off := { State.reset with ctl := { Control.reset with enabled := { Control.reset.enabled with sdv := false } } }
    let curved := { off with core := { off.core with live := { off.core.live with boostCurve := twoPoints } } }
    let both := { State.reset with table := some (reading .digest), cue := cueWriting.cue, eq := { EqUnit.reset with
      pendingWrite := some { sec := 0, kind := .rewrite, coeffs := Coeffs.zero } } }
    Inv (sent (request 0 3 [1, 1, 1, 1]) off) ∧ Asked .unitEnable 0 3 [1, 1, 1, 1] off ∧ off.core.live.boostCurve = [] ∧
      Inv (sent (request 0 3 [1, 1, 1, 1]) curved) ∧ Asked .unitEnable 0 3 [1, 1, 1, 1] curved ∧
      RampInv (sent (request 0 3 [1, 1, 1, 1]) curved) ∧ Inv (sent (request 0 3 [0, 0, 0, 0]) both) ∧
      Asked .unitEnable 0 3 [0, 0, 0, 0] both ∧ Asked .unitEnable 0 3 [1, 0, 0, 0] both ∧ both.eq.pendingWrite.isSome = true ∧
      both.cue.pendingWrite.isSome = true ∧ (reading .digest).first ≤ 0 ∧ 0 < (reading .digest).next :=
  ⟨invOf (by decide +kernel), asked_of (by decide +kernel), rfl, invOf (by decide +kernel), asked_of (by decide +kernel), rampOf rfl,
    invOf (by decide +kernel), asked_of (by decide +kernel), asked_of (by decide +kernel), rfl, rfl, by decide, by decide⟩

theorem test_witness_UnitResetByUnit :
    (∀ b ∈ [0, 1, 2, 3, 4, 5, 6], Asked .unitReset 0 4 [b] State.reset) ∧ Asked .unitReset 0 4 [2] (inMode .run 1 (locked 0)) ∧
      UnitId.ofByte 0 = some .ctrl ∧ UnitId.ofByte 5 = some .table ∧ UnitId.ofByte 6 = none := by
  refine ⟨fun b hb => ?_, asked_of (by decide +kernel), by decide, by decide, by decide⟩
  simp only [List.mem_cons, List.not_mem_nil, or_false] at hb
  rcases hb with rfl | rfl | rfl | rfl | rfl | rfl | rfl <;> exact asked_of (by decide +kernel)

/-- The same with work pending in every unit: a section write, a cue write, and a digest or a read of two entries of CHAINS. -/
def working (k : TableOpKind) (next : Nat) : State :=
  { State.reset with
      eq := { EqUnit.reset with pendingWrite := some { sec := 7, kind := .load, coeffs := Coeffs.zero } }
      cue := { cueWriting.cue with runners := #v[Runner.reset,
        { Runner.reset with state := .stopped, timedOut := true, nextFetch := 9, requests := Vector.replicate 12 (-40) }] }
      ramp := { RampUnit.reset with duckTargets := Vector.replicate 12 (-40) }
      table := some { reading k with table := .chains, next := next, covered := next }
      commit := { Commit.reset with queue := [{ number := 0, records := [.chain 0 [3]], notify := false, wait := .none }] }
      ctl := { Control.reset with
        queue := [.reservation { tag := 9, unitByte := 5, code := 2, origin := 3 },
          .reservation { tag := 8, unitByte := 4, code := 1, origin := 3 }, .reservation { tag := 7, unitByte := 2, code := 1, origin := 3 }]
        executing := #v[false, false, true, false, true, true] } }

theorem test_witness_UnitResetByUnit_pending :
    (∀ b ∈ [1, 2, 3, 4, 5], Asked .unitReset 0 4 [b] (working .digest 1)) ∧ Inv (sent (request 0 4 [4]) (working .read 0)) ∧
      RampInv (sent (request 0 4 [4]) (working .read 0)) ∧ (working .digest 1).eq.abandoned.length = 1 ∧
      (working .digest 1).cue.abandoned.length = 1 := by
  refine ⟨fun b hb => ?_, invOf (by decide +kernel), rampOf rfl, rfl, rfl⟩
  simp only [List.mem_cons, List.not_mem_nil, or_false] at hb
  rcases hb with rfl | rfl | rfl | rfl | rfl <;> exact asked_of (by decide +kernel)

/-- R87, R99, R149, entry 18: UNIT_RESET(EQ) answers the pending write ABORTED and a digest that has covered entry 0 of CHAINS
DISTURBED, each in its place; a digest that has covered none goes on. -/
theorem test_eq_reset_answers :
    (∃ t, exec .unitReset (sent (request 0 4 [2]) (working .digest 1)) = .next t ∧
      t.ctl.queue = [disturbed 1, .reservation { tag := 8, unitByte := 4, code := 1, origin := 3 },
        .packet (replyPacket { tag := 7, unitByte := 2, code := 1, origin := 3 } .aborted [7]),
        .packet (replyPacket (request 0 4 [2]).requester .ok [2])] ∧
      t.ctl.executing = #v[false, false, false, false, true, false]) ∧
    (∃ t, exec .unitReset (sent (request 0 4 [2]) (working .digest 0)) = .next t ∧ t.table = (working .digest 0).table) :=
  ⟨⟨_, rfl, by decide +kernel⟩, ⟨_, rfl, by decide +kernel⟩⟩

/-- R133, R137, R150: UNIT_RESET(CUE) and UNIT_RESET(TABLE) answer what they abandon. -/
theorem test_cue_and_table_reset_answers :
    (∃ t, exec .unitReset (sent (request 0 4 [4]) (working .digest 1)) = .next t ∧
      t.ctl.queue[1]? = some (.packet (replyPacket { tag := 8, unitByte := 4, code := 1, origin := 3 } .aborted [255, 4])) ∧
      t.cue.runners = CueUnit.reset.runners ∧ t.ramp.duckTargets = Vector.replicate 12 0) ∧
    (∃ t, exec .unitReset (sent (request 0 4 [5]) (working .digest 1)) = .next t ∧
      t.ctl.queue[0]? = some (.packet (replyPacket { tag := 9, unitByte := 5, code := 2, origin := 3 } .aborted
        (3 :: { reading .digest with next := 1, covered := 1 }.fields)))) ∧
    (∃ t, exec .unitReset (sent (request 0 4 [5]) (working .read 0)) = .next t ∧
      t.ctl.queue[0]? = some (.packet (replyPacket { tag := 9, unitByte := 5, code := 2, origin := 3 } .aborted []))) :=
  ⟨⟨_, rfl, by decide +kernel⟩, ⟨_, rfl, by decide +kernel⟩, ⟨_, rfl, by decide +kernel⟩⟩

/-- R87: a disabled EQ unit's abandoned load leaves its section FREE, with the coefficients and the history it had. -/
theorem test_abandoned_section_kept :
    let x : EqSection := { coeffs := { Coeffs.zero with b0 := 5 }, hist := { History.zero with y2 := 6 }, state := .loading }
    let s := { working .read 0 with eq := { (working .read 0).eq with sections := EqUnit.reset.sections.set 7 x } }
    ∃ t, exec .unitEnable (sent (request 0 3 [0, 1, 1, 1]) s) = .next t ∧
      t.eq.sections[(7 : Fin 256)] = { x with state := .free } := ⟨_, rfl, by decide +kernel⟩

theorem test_witness_PartResetState :
    nextOffer (queueNotices (sent (request 0 5 []) State.reset)) = some { ctx := 0, packet := request 0 5 [], placed := true } ∧
      nextOffer (queueNotices (sent (request 0 5 []) (noticed 4))) = some { ctx := 0, packet := request 0 5 [], placed := false } ∧
      (request 0 5 []).row State.reset.ctl.enabled = some .partReset ∧
      decodeRefusal .partReset (request 0 5 []).dataLength State.reset = none := by decide +kernel

end Sys2Proof.Tests
end

namespace Sys2Proof.Machine
-- One proof at a time: side by side the proofs start more threads than the memory limit allows.
set_option Elab.async false

/-! ## What a step that only fills reservations and raises notices leaves of the control unit -/

/-- Between two states the control unit only filled reservations, raised notices and queued them (R164, R166), and the TABLE unit
began no operation: the settings stand, no place comes to be held, the queue keeps to its four places, no operation begins. -/
structure Calm (s t : State) : Prop where
  settings : SettingsKept s t
  noHeld : NoHeld s → NoHeld t
  places : s.ctl.queue.length ≤ 4 → t.ctl.queue.length ≤ 4
  idle : s.table = none → t.table = none

theorem SettingsKept.trans {s t u : State} (h : SettingsKept s t) (k : SettingsKept t u) : SettingsKept s u := by
  obtain ⟨hf, hc, he, hn⟩ := h
  obtain ⟨kf, kc, ke, kn⟩ := k
  exact ⟨kf.trans hf, kc.trans hc, ke.trans he, kn.trans hn⟩

theorem SettingsKept.ofCtl {s t : State} (h : t.ctl = s.ctl) : SettingsKept s t := by
  unfold SettingsKept
  rw [h]
  exact ⟨rfl, rfl, rfl, rfl⟩

theorem Calm.trans {s t u : State} (h : Calm s t) (k : Calm t u) : Calm s u where
  settings := h.settings.trans k.settings
  noHeld := k.noHeld ∘ h.noHeld
  places := k.places ∘ h.places
  idle := k.idle ∘ h.idle

/-- An update of other parts. -/
theorem Calm.ofParts {s t : State} (hc : t.ctl = s.ctl) (ht : t.table = s.table) : Calm s t where
  settings := .ofCtl hc
  noHeld h := by unfold NoHeld; rwa [hc]
  places h := by rwa [hc]
  idle h := by rwa [ht]

theorem Calm.ofSame {ps : List Part} {s t : State} (h : SameBut ps s t) (hc : Part.ctl ∉ ps := by decide)
    (ht : Part.table ∉ ps := by decide) : Calm s t := .ofParts (h .ctl hc) (h .table ht)

/-- An update of other parts, and then a calm step. -/
theorem Calm.after {s t u : State} (k : Calm t u) (hc : t.ctl = s.ctl := by rfl) (ht : t.table = s.table := by rfl) : Calm s u :=
  Calm.trans (Calm.ofParts hc ht) k

theorem Calm.refl (s : State) : Calm s s := .ofParts rfl rfl

theorem Calm.foldl {α : Type} {f : State → α → State} (h : ∀ s a, Calm s (f s a)) : ∀ (l : List α) (s : State), Calm s (l.foldl f s)
  | [], s => Calm.refl s
  | a :: l, s => (h s a).trans (Calm.foldl h l (f s a))

@[simp] theorem Place.isHeld_filled (u : UnitId) (res : Result) (data : List Byte) (p : Place) :
    (p.filled u res data).isHeld = p.isHeld := by
  cases p with
  | held rq => rfl
  | packet q => rfl
  | reservation rq => unfold Place.filled; dsimp only; split <;> rfl

theorem fillReservation_calm (u : UnitId) (res : Result) (data : List Byte) (s : State) : Calm s (fillReservation u res data s) where
  settings := ⟨rfl, rfl, rfl, rfl⟩
  noHeld h p hp := by
    obtain ⟨q, hq, rfl⟩ := List.mem_map.mp hp
    rw [Place.isHeld_filled]
    exact h q hq
  places h := by simpa [fillReservation] using h
  idle h := h

theorem queueNotices_calm (s : State) : Calm s (queueNotices s) where
  settings := ⟨rfl, rfl, rfl, rfl⟩
  noHeld := queueNotices_noHeld
  places := enqueueNotices_length _ _
  idle h := h

theorem raiseNotice_calm (n : Notice) (s : State) : Calm s (raiseNotice n s) := by
  unfold raiseNotice
  split
  · exact (queueNotices_calm s).trans { settings := ⟨rfl, rfl, rfl, rfl⟩, noHeld := id, places := id, idle := id }
  · exact .refl s

theorem endTableOp_calm (res : Result) (data : List Byte) (s : State) : Calm s (endTableOp res data s) :=
  (fillReservation_calm .table res data s).trans { settings := ⟨rfl, rfl, rfl, rfl⟩, noHeld := id, places := id, idle := fun _ => rfl }

theorem reportWrites_calm (d : TableId) (is : List Nat) (s : State) : Calm s (reportWrites d is s) := by
  unfold reportWrites
  split
  · exact .refl s
  · split
    · exact endTableOp_calm _ _ s
    · exact .refl s

theorem abortTableOp_calm (s : State) : Calm s (abortTableOp s) := by
  unfold abortTableOp
  split
  · exact .refl s
  · split <;> exact endTableOp_calm _ _ s

/-! ### Runners -/

/-- The start of entries is made of requests, of changes of the runner that keep its requests, and of notices (R123 to R127): a
relation that these keep and that can be chained, it keeps. -/
theorem startEntry_rel {R : State → State → Prop} (r : RunnerNo) (trans : ∀ {a b c : State}, R a b → R b c → R a c)
    (change : ∀ (f : Runner → Runner) (s : State), (∀ x, (f x).requests = x.requests) → R s (onRunner r f s))
    (request : ∀ (v : Int) (ms : Nat) (srcs : List Source) (s : State), R s (setRequests r v ms srcs s))
    (raise : ∀ (n : Notice) (s : State), R s (raiseNotice n s)) : ∀ (fuel : Nat) (s : State), R s (startEntry r fuel s)
  | 0, s => change _ s fun _ => rfl
  | fuel + 1, s => by
    unfold startEntry
    split
    · exact change _ s fun _ => rfl
    · split
      next mask offset rampMs holdMs _ =>
        have requested := request offset rampMs (maskSources mask) s
        dsimp only
        split
        · refine trans (trans requested ?_) (startEntry_rel (R := R) r trans change request raise fuel _)
          exact change _ _ fun _ => rfl
        · refine trans requested ?_
          exact change _ _ fun _ => rfl
      · split
        · refine trans ?_ (startEntry_rel (R := R) r trans change request raise fuel _)
          exact change _ s fun _ => rfl
        · exact change _ s fun _ => rfl
      · exact change _ s fun _ => rfl
      · dsimp only
        split
        · refine trans ?_ (raise _ _)
          exact change _ s fun _ => rfl
        · exact change _ s fun _ => rfl
      · refine trans ?_ (raise _ _)
        exact change _ s fun _ => rfl

theorem startWindow_calm (r : RunnerNo) (s : State) : Calm s (startWindow r s) :=
  startEntry_rel (R := Calm) r Calm.trans (fun f s _ => Calm.ofSame (onRunner_same r f s))
    (fun v ms srcs s => Calm.ofSame (setRequests_same r v ms srcs s)) raiseNotice_calm _ s

theorem abortCueWrite_calm (s : State) : Calm s (abortCueWrite s) := by
  unfold abortCueWrite
  split
  · exact .refl s
  · exact (fillReservation_calm _ _ _ _).after

theorem haltBoth_calm (s : State) : Calm s (haltBoth s) := .ofSame (haltBoth_same s)

/-! ### The SDV unit -/

theorem setSdvState_calm (st : SdvState) (s : State) : Calm s (setSdvState st s) := by
  unfold setSdvState
  split
  · exact .refl s
  · exact (raiseNotice_calm _ _).after

theorem adoptBoost_calm (b : Int) (s : State) : Calm s (adoptBoost b s) := .ofSame (adoptBoost_same b s)

theorem adoptAfterState_calm (b : Int) (st : SdvState) (s : State) : Calm s (adoptBoost b (setSdvState st s)) :=
  (setSdvState_calm st s).trans (adoptBoost_calm b _)

theorem stateThenManual_calm (b : Int) (st : SdvState) (m : Option Nat) (s : State) :
    Calm s (adoptBoost b { setSdvState st s with sdv := { (setSdvState st s).sdv with manual := m } }) :=
  (setSdvState_calm st s).trans (adoptBoost_calm b _).after

theorem takeStateByAge_calm (s : State) : Calm s (takeStateByAge s) := by
  unfold takeStateByAge
  split
  · exact adoptAfterState_calm _ _ s
  · exact adoptAfterState_calm _ _ s
  · exact adoptAfterState_calm _ _ s
  · exact .refl s
  · exact .refl s

theorem curveChange_calm (s : State) : Calm s (curveChange s) := by
  unfold curveChange
  split
  · split
    · exact .refl s
    · exact stateThenManual_calm 0 .off none s
  · split
    · split
      · exact takeStateByAge_calm s
      · exact .refl s
    · exact adoptBoost_calm _ s
    · exact adoptBoost_calm _ s
    · exact .refl s
    · exact adoptBoost_calm _ s

/-! ### The equalisation unit -/

/-- An update of the EQ unit followed by the report of sections. -/
theorem eqThenReport_calm (e : EqUnit) (is : List SectionNo) (s : State) : Calm s (reportSections is { s with eq := e }) :=
  (reportWrites_calm _ _ _).after

theorem swapAtOnce_calm (o : Output) (l : List SectionNo) (s : State) : Calm s (swapAtOnce o l s) :=
  (eqThenReport_calm _ _ s).trans (reportWrites_calm _ _ _)

theorem swapChain_calm (o : Output) (l : List SectionNo) (s : State) : Calm s (swapChain o l s) := by
  unfold swapChain
  split
  · split
    · exact (eqThenReport_calm _ _ s).trans (reportWrites_calm _ _ _)
    · exact swapAtOnce_calm o l s
  · exact swapAtOnce_calm o l s

theorem endSlot_calm (i : Fin 4) (s : State) : Calm s (endSlot i s) := by
  unfold endSlot
  split
  · exact eqThenReport_calm _ _ s
  · exact .refl s

theorem endAllSlots_calm (s : State) : Calm s (endAllSlots s) := Calm.foldl (fun s i => endSlot_calm i s) _ s

theorem completeSectionWrite_calm (w : SectionWrite) (s : State) : Calm s (completeSectionWrite w s) :=
  (eqThenReport_calm _ _ s).trans (fillReservation_calm _ _ _ _)

theorem abortSectionWrite_calm (s : State) : Calm s (abortSectionWrite s) := by
  unfold abortSectionWrite
  split
  · exact .refl s
  · exact (eqThenReport_calm _ _ s).trans (fillReservation_calm _ _ _ _)

theorem resetPool_calm (s : State) : Calm s (resetPool s) := (eqThenReport_calm _ _ s).trans (reportWrites_calm _ _ _)

/-! ### Change sets -/

theorem reportRecord_calm (r : ChangeRecord) (s : State) : Calm s (reportRecord r s) := by
  cases r
  case chain => exact .refl s
  all_goals exact reportWrites_calm _ _ s

theorem writeRecords_calm (rs : List ChangeRecord) (s : State) : Calm s (writeRecords rs s) :=
  (Calm.foldl (fun s r => reportRecord_calm r s) rs _).after

theorem swapChains_calm (rs : List ChangeRecord) (s : State) : Calm s (swapChains rs s) :=
  Calm.foldl (f := fun s (c : Output × List SectionNo) => swapChain c.1 c.2 s) (fun s c => swapChain_calm c.1 c.2 s) _ s

theorem tellSdv_calm (l : Live) (rs : List ChangeRecord) (s : State) : Calm s (tellSdv l rs s) := by
  unfold tellSdv
  refine Calm.trans (t := if rs.any ChangeRecord.isBoostCurve then curveChange s else s) ?_ (Calm.foldl (fun s g => ?_) _ _)
  · split
    · exact curveChange_calm s
    · exact .refl s
  · split
    · exact .refl s
    · exact .ofSame (setGroupTarget_same _ _ s)

theorem finishSet_calm (q : QueuedSet) (s : State) : Calm s (finishSet q s) := by
  unfold finishSet
  dsimp only
  split
  · exact (raiseNotice_calm _ _).after
  · exact .ofParts rfl rfl

theorem applySet_calm (q : QueuedSet) (s : State) : Calm s (applySet q s) :=
  ((((writeRecords_calm q.records s).trans (.ofSame (retargetSet_same _ _))).trans (swapChains_calm _ _)).trans
    (tellSdv_calm _ _ _)).trans (finishSet_calm q _)

theorem examineHead_calm (s : State) : Calm s (examineHead s) := by
  unfold examineHead
  split
  · exact .refl s
  · split
    · exact applySet_calm _ s
    · exact .ofParts rfl rfl

theorem takeExam_calm (s : State) : Calm s (takeExam s) := by
  unfold takeExam
  split
  · exact (examineHead_calm _).after
  · exact .refl s

/-! ### The TABLE unit and the modes -/

/-- A step of the operation in hand. -/
theorem stepTableOp_calm {s : State} (h : s.table ≠ none) (op : TableOp) : Calm s (stepTableOp op s) := by
  have hc : Calm s (countLive op.table op.step s) := .ofSame (countLive_same _ _ s)
  unfold stepTableOp finishTableOp
  dsimp only
  split
  · split <;> exact hc.trans (endTableOp_calm _ _ _)
  · exact { settings := hc.settings, noHeld := hc.noHeld, places := hc.places, idle := fun n => absurd n h }

theorem takeBatch_calm (s : State) : Calm s (takeBatch s) := by
  unfold takeBatch
  split
  · rename_i op h
    split
    · exact stepTableOp_calm (by simp [h]) op
    · exact .refl s
  · exact .refl s

theorem enterStandby_calm (s : State) : Calm s (enterStandby s) :=
  (((endAllSlots_calm _).trans (haltBoth_calm _)).trans (fillReservation_calm _ _ _ _)).after

end Sys2Proof.Machine

namespace Sys2Proof.Machine
-- One proof at a time: side by side the proofs start more threads than the memory limit allows.
set_option Elab.async false

/-! ## The invariants, part by part -/

/-- R8, R9, R152: the gate's range, and what STANDBY and HUNT say of it. -/
structure GateInv (s : State) : Prop where
  range : s.core.gate ≤ 2400
  standby : s.core.mode = .standby → s.core.gate = 0
  hunt : s.port.lock = .hunt → s.core.gate = 0 ∧ s.frame = Frame.idle

/-- R45, R128: every DUCK target is the lower of the two runners' requests. -/
def DuckInv (s : State) : Prop := ∀ src : Source, s.ramp.duckTargets[src] = duckMin s.cue src

/-- R52, R64: the staging list and the commit queue keep to their limits. -/
def CommitInv (c : Commit) : Prop := c.staging.length ≤ 32 ∧ c.queue.length ≤ 4

/-- R102, R116: the fields of the SDV unit agree with its state and with its enable state. -/
structure SdvInv (on : Bool) (u : Sdv) : Prop where
  boostZero : u.state = .off ∨ u.state = .fallback → u.boost = 0
  ageSpeed : u.lastSpeed = none ↔ u.age = none
  manualSpeed : u.manual ≠ none ↔ u.state = .manual
  disabled : on = false → u.state = .off

/-- R102: the counts and the configuration of the SDV unit keep to their ranges. -/
structure SdvRanges (u : Sdv) : Prop where
  phase : u.phase < 480
  age : ∀ a, u.age = some a → a ≤ 65535
  lastSpeed : ∀ v, u.lastSpeed = some v → v ≤ 320
  manual : ∀ v, u.manual = some v → v ≤ 320
  config : 1 ≤ u.hold ∧ u.hold < u.fallback ∧ u.fallback ≤ 65535 ∧ u.hyst ≤ 16 ∧ u.rampMs ≤ 65535

/-- R121 to R128: both runners' fields agree with their states. -/
def RunnersGood (c : CueUnit) : Prop := ∀ r : RunnerNo, (c.runners[r]).Good

/-- R92: no crossfade in use has reached 480. -/
def FadesInv (e : EqUnit) : Prop := ∀ (i : Fin 4) (f : Crossfade), e.slots[i] = some f → f.k < 480

theorem inv_iff (s : State) : Inv s ↔ NoHeld s ∧ s.ctl.queue.length ≤ 4 ∧ GateInv s ∧ memoryGood s.cue.mem ∧ DuckInv s ∧
    CommitInv s.commit ∧ SdvInv s.ctl.enabled.sdv s.sdv :=
  ⟨fun h => ⟨h.noHeld, h.places, ⟨h.gateRange, h.gateStandby, h.huntIdle⟩, h.memory, h.duck, ⟨h.staging, h.commitQueue⟩,
    ⟨h.boostZero, h.ageSpeed, h.manualSpeed, h.sdvDisabled⟩⟩,
  fun ⟨held, places, gate, memory, duck, commit, sdv⟩ => ⟨held, places, gate.range, gate.standby, gate.hunt, memory, duck,
    commit.1, commit.2, sdv.boostZero, sdv.ageSpeed, sdv.manualSpeed, sdv.disabled⟩⟩

theorem countInv_iff (s : State) : CountInv s ↔ RunnersGood s.cue ∧ FadesInv s.eq ∧ SdvRanges s.sdv :=
  ⟨fun h => ⟨h.runners, h.fades, h.phase, h.age, h.speeds.1, h.speeds.2, h.config⟩,
  fun ⟨runners, fades, sdv⟩ => ⟨runners, fades, sdv.phase, sdv.age, ⟨sdv.lastSpeed, sdv.manual⟩, sdv.config⟩⟩

/-! ### What keeps them -/

/-- What a step keeps of the invariants, whatever stands in the reply queue: each part's invariant is kept by itself. -/
structure Moves (s t : State) : Prop where
  places : s.ctl.queue.length ≤ 4 → t.ctl.queue.length ≤ 4
  gate : GateInv s → GateInv t
  memory : memoryGood s.cue.mem → memoryGood t.cue.mem
  duck : DuckInv s → DuckInv t
  commit : CommitInv s.commit → CommitInv t.commit
  sdv : SdvInv s.ctl.enabled.sdv s.sdv → SdvInv t.ctl.enabled.sdv t.sdv
  ranges : SdvRanges s.sdv → SdvRanges t.sdv
  runners : RunnersGood s.cue → RunnersGood t.cue
  fades : FadesInv s.eq → FadesInv t.eq

/-- The invariants are kept, and no place comes to be held. -/
structure Keeps (s t : State) : Prop extends Moves s t where
  noHeld : NoHeld s → NoHeld t

/-- The invariants but for held places are kept, and no place is held in the end: what the acting on a taken request does. -/
structure Settles (s t : State) : Prop extends Moves s t where
  settled : NoHeld t

theorem Moves.refl (s : State) : Moves s s := ⟨id, id, id, id, id, id, id, id, id⟩

theorem Moves.trans {s t u : State} (h : Moves s t) (k : Moves t u) : Moves s u :=
  ⟨k.places ∘ h.places, k.gate ∘ h.gate, k.memory ∘ h.memory, k.duck ∘ h.duck, k.commit ∘ h.commit, k.sdv ∘ h.sdv,
    k.ranges ∘ h.ranges, k.runners ∘ h.runners, k.fades ∘ h.fades⟩

theorem Keeps.refl (s : State) : Keeps s s := { Moves.refl s with noHeld := id }

theorem Keeps.trans {s t u : State} (h : Keeps s t) (k : Keeps t u) : Keeps s u :=
  { h.toMoves.trans k.toMoves with noHeld := k.noHeld ∘ h.noHeld }

theorem Keeps.foldl {α : Type} {f : State → α → State} (h : ∀ s a, Keeps s (f s a)) : ∀ (l : List α) (s : State), Keeps s (l.foldl f s)
  | [], s => Keeps.refl s
  | a :: l, s => (h s a).trans (Keeps.foldl h l (f s a))

theorem Settles.trans {s t u : State} (h : Settles s t) (k : Keeps t u) : Settles s u :=
  { h.toMoves.trans k.toMoves with settled := k.noHeld h.settled }

theorem Keeps.inv {s t : State} (h : Keeps s t) (k : Inv s) : Inv t := by
  rw [inv_iff] at k ⊢
  obtain ⟨held, places, gate, memory, duck, commit, sdv⟩ := k
  exact ⟨h.noHeld held, h.places places, h.gate gate, h.memory memory, h.duck duck, h.commit commit, h.sdv sdv⟩

theorem Keeps.countInv {s t : State} (h : Keeps s t) (k : CountInv s) : CountInv t := by
  rw [countInv_iff] at k ⊢
  obtain ⟨runners, fades, ranges⟩ := k
  exact ⟨h.runners runners, h.fades fades, h.ranges ranges⟩

/-- The parts an invariant speaks of are outside those a step changes. -/
theorem GateInv.ofSame {ps : List Part} {s t : State} (h : SameBut ps s t) (out : Part.port ∉ ps ∧ Part.frame ∉ ps ∧ Part.core ∉ ps)
    (k : GateInv s) : GateInv t := by
  obtain ⟨port, frame, core⟩ := out
  obtain ⟨range, standby, hunt⟩ := k
  rw [← h .core core] at range standby hunt
  rw [← h .port port, ← h .frame frame] at hunt
  exact ⟨range, standby, hunt⟩

theorem DuckInv.ofSame {ps : List Part} {s t : State} (h : SameBut ps s t) (out : Part.ramp ∉ ps ∧ Part.cue ∉ ps)
    (k : DuckInv s) : DuckInv t := by
  unfold DuckInv
  rwa [h .ramp out.1, h .cue out.2]

/-- A calm step keeps the invariants of the parts it leaves alone; what it does to those of the others is asked for. -/
theorem Keeps.ofCalm {ps : List Part} {s t : State} (h : SameBut ps s t) (calm : Calm s t)
    (gate : (Part.port ∉ ps ∧ Part.frame ∉ ps ∧ Part.core ∉ ps) ∨ (GateInv s → GateInv t) := by exact .inl (by decide))
    (memory : Part.cue ∉ ps ∨ (memoryGood s.cue.mem → memoryGood t.cue.mem) := by exact .inl (by decide))
    (duck : (Part.ramp ∉ ps ∧ Part.cue ∉ ps) ∨ (DuckInv s → DuckInv t) := by exact .inl (by decide))
    (commit : Part.commit ∉ ps ∨ (CommitInv s.commit → CommitInv t.commit) := by exact .inl (by decide))
    (sdv : Part.sdv ∉ ps ∨ (SdvInv s.ctl.enabled.sdv s.sdv → SdvInv s.ctl.enabled.sdv t.sdv) := by exact .inl (by decide))
    (ranges : Part.sdv ∉ ps ∨ (SdvRanges s.sdv → SdvRanges t.sdv) := by exact .inl (by decide))
    (runners : Part.cue ∉ ps ∨ (RunnersGood s.cue → RunnersGood t.cue) := by exact .inl (by decide))
    (fades : Part.eq ∉ ps ∨ (FadesInv s.eq → FadesInv t.eq) := by exact .inl (by decide)) : Keeps s t where
  places := calm.places
  noHeld := calm.noHeld
  gate := gate.elim (GateInv.ofSame h) id
  memory := memory.elim (fun out => by rw [h .cue out]; exact id) id
  duck := duck.elim (DuckInv.ofSame h) id
  commit := commit.elim (fun out => by rw [h .commit out]; exact id) id
  sdv := by
    obtain ⟨-, -, enabled, -⟩ := calm.settings
    rw [enabled]
    exact sdv.elim (fun out => by rw [h .sdv out]; exact id) id
  ranges := ranges.elim (fun out => by rw [h .sdv out]; exact id) id
  runners := runners.elim (fun out => by rw [h .cue out]; exact id) id
  fades := fades.elim (fun out => by rw [h .eq out]; exact id) id

/-- A step of the EQ unit and the TABLE unit, the lane and the free values keeps the invariants when no crossfade passes 480. -/
theorem Keeps.ofEq {s t : State} (h : SameBut [.ctl, .eq, .table] s t) (calm : Calm s t) (fades : FadesInv s.eq → FadesInv t.eq) :
    Keeps s t := .ofCalm h calm (fades := .inr fades)

end Sys2Proof.Machine

namespace Sys2Proof.Machine
-- One proof at a time: side by side the proofs start more threads than the memory limit allows.
set_option Elab.async false

/-! ## What the shared updates leave alone, part by part -/

@[simp] theorem raiseNotice_keeps (n : Notice) (s : State) :
    (raiseNotice n s).port = s.port ∧ (raiseNotice n s).frame = s.frame ∧ (raiseNotice n s).core = s.core ∧
    (raiseNotice n s).ramp = s.ramp ∧ (raiseNotice n s).commit = s.commit ∧ (raiseNotice n s).eq = s.eq ∧
    (raiseNotice n s).sdv = s.sdv ∧ (raiseNotice n s).cue = s.cue ∧ (raiseNotice n s).table = s.table :=
  have h := raiseNotice_same n s
  ⟨h .port (by decide), h .frame (by decide), h .core (by decide), h .ramp (by decide), h .commit (by decide), h .eq (by decide),
    h .sdv (by decide), h .cue (by decide), h .table (by decide)⟩

@[simp] theorem reportWrites_keeps (d : TableId) (is : List Nat) (s : State) :
    (reportWrites d is s).port = s.port ∧ (reportWrites d is s).frame = s.frame ∧ (reportWrites d is s).core = s.core ∧
    (reportWrites d is s).ramp = s.ramp ∧ (reportWrites d is s).commit = s.commit ∧ (reportWrites d is s).eq = s.eq ∧
    (reportWrites d is s).sdv = s.sdv ∧ (reportWrites d is s).cue = s.cue :=
  have h := reportWrites_same d is s
  ⟨h .port (by decide), h .frame (by decide), h .core (by decide), h .ramp (by decide), h .commit (by decide), h .eq (by decide),
    h .sdv (by decide), h .cue (by decide)⟩

@[simp] theorem reportSections_eq (is : List SectionNo) (s : State) : (reportSections is s).eq = s.eq := by
  simp [reportSections]

/-! ## Requests and runners -/

theorem getElem_foldl_set (v : Int) : ∀ (srcs : List Source) (q : Vector Int 12) (src : Source),
    (srcs.foldl (fun q (src : Source) => q.set src v) q)[src] = if src ∈ srcs then v else q[src]
  | [], q, src => by simp
  | a :: srcs, q, src => by
    rw [List.foldl_cons, getElem_foldl_set v srcs]
    by_cases ha : src = a
    · subst ha; simp
    · have : ¬ a.val = src.val := fun e => ha (Fin.ext e.symm)
      simp [ha, this]

/-- R130: all twelve requests become 0. -/
theorem foldl_set_all (q : Vector Int 12) (v : Int) :
    (List.finRange 12).foldl (fun q (src : Source) => q.set src v) q = Vector.replicate 12 v := by
  ext i hi
  have := getElem_foldl_set v (List.finRange 12) q ⟨i, hi⟩
  simpa using this

theorem onRunner_at (r : RunnerNo) (f : Runner → Runner) (s : State) :
    (onRunner r f s).cue.runners[r] = f s.cue.runners[r] := withRunner_at r _ s

/-- A change that changes nothing. -/
theorem onRunner_fixed {r : RunnerNo} {f : Runner → Runner} {s : State} (h : f s.cue.runners[r] = s.cue.runners[r]) :
    onRunner r f s = s := by
  unfold onRunner CueUnit.setRunner
  rw [h]
  simp

theorem onRunner_other {r q : RunnerNo} (h : q ≠ r) (f : Runner → Runner) (s : State) :
    (onRunner r f s).cue.runners[q] = s.cue.runners[q] := by
  have : ¬ r.val = q.val := fun e => h (Fin.ext e.symm)
  simp [onRunner, CueUnit.setRunner, this]

theorem onRunner_cue (r : RunnerNo) (f : Runner → Runner) (s : State) :
    (onRunner r f s).cue = { s.cue with runners := s.cue.runners.set r (f s.cue.runners[r]) } := rfl

/-- A change of the cue unit alone. -/
theorem onRunner_cue_congr {s t : State} (h : t.cue = s.cue) (r : RunnerNo) (f : Runner → Runner) :
    (onRunner r f t).cue = (onRunner r f s).cue := by rw [onRunner_cue, onRunner_cue, h]

theorem onRunner_twice (r : RunnerNo) (f g : Runner → Runner) (s : State) :
    onRunner r g (onRunner r f s) = onRunner r (g ∘ f) s := by
  rw [onRunner_eq, onRunner_at, onRunner_eq, withRunner_twice, onRunner_eq]
  rfl

/-- R124, R128: of the cue unit a request changes the runner's request alone. -/
theorem setRequest_cue (r : RunnerNo) (v : Int) (ms : Nat) (src : Source) (s : State) :
    (setRequest r v ms src s).cue = (onRunner r (fun x => { x with requests := x.requests.set src v }) s).cue := by
  unfold setRequest
  split
  · rename_i h
    subst h
    rw [onRunner_fixed (by simp)]
  · rfl

theorem setRequests_cue (r : RunnerNo) (v : Int) (ms : Nat) : ∀ (srcs : List Source) (s : State),
    (setRequests r v ms srcs s).cue =
      (onRunner r (fun x => { x with requests := srcs.foldl (fun q (src : Source) => q.set src v) x.requests }) s).cue
  | [], s => by rw [onRunner_fixed rfl]; rfl
  | src :: srcs, s => by
    have tail := setRequests_cue r v ms srcs (setRequest r v ms src s)
    rw [onRunner_cue_congr (t := setRequest r v ms src s) (setRequest_cue r v ms src s), onRunner_twice] at tail
    exact tail

theorem duckMin_eq (c : CueUnit) (src : Source) :
    duckMin c src = min (c.runners[(0 : RunnerNo)].requests[src]) (c.runners[(1 : RunnerNo)].requests[src]) := rfl

/-- R45: the DUCK targets follow a request. -/
theorem setRequest_duck (r : RunnerNo) (v : Int) (ms : Nat) (src : Source) (s : State) (h : DuckInv s) :
    DuckInv (setRequest r v ms src s) := by
  unfold setRequest
  split
  · exact h
  · intro p
    by_cases hp : p = src
    · subst hp
      simp [recomputeDuck]
    · have other : ¬ src.val = p.val := fun e => hp (Fin.ext e.symm)
      have at_r : ∀ q : RunnerNo, ((onRunner r (fun x => { x with requests := x.requests.set src v }) s).cue.runners[q]).requests[p]
          = (s.cue.runners[q]).requests[p] := fun q => by
        by_cases hq : q = r
        · subst hq; rw [onRunner_at]; simp [other]
        · rw [onRunner_other hq]
      have held := h p
      rw [duckMin_eq, ← at_r 0, ← at_r 1] at held
      refine Eq.trans ?_ held
      simp [recomputeDuck, other]

theorem setRequests_duck (r : RunnerNo) (v : Int) (ms : Nat) : ∀ (srcs : List Source) (s : State), DuckInv s →
    DuckInv (setRequests r v ms srcs s)
  | [], _, h => h
  | src :: srcs, s, h => setRequests_duck r v ms srcs _ (setRequest_duck r v ms src s h)

/-- A change of a runner that keeps its requests. -/
theorem onRunner_duck {f : Runner → Runner} (hf : ∀ x, (f x).requests = x.requests) (r : RunnerNo) (s : State) (h : DuckInv s) :
    DuckInv (onRunner r f s) := by
  intro src
  have at_r : ∀ q : RunnerNo, ((onRunner r f s).cue.runners[q]).requests = (s.cue.runners[q]).requests := fun q => by
    by_cases hq : q = r
    · subst hq; rw [onRunner_at, hf]
    · rw [onRunner_other hq]
  rw [duckMin_eq, at_r 0, at_r 1]
  exact h src

theorem startWindow_duck (r : RunnerNo) (s : State) : DuckInv s → DuckInv (startWindow r s) :=
  startEntry_rel (R := fun s t => DuckInv s → DuckInv t) r (fun h k => k ∘ h) (fun _ s hf => onRunner_duck hf r s)
    (fun v ms srcs s => setRequests_duck r v ms srcs s) (fun n s => DuckInv.ofSame (raiseNotice_same n s) (by decide)) _ s

theorem startWindow_mem (r : RunnerNo) (s : State) : (startWindow r s).cue.mem = s.cue.mem :=
  startEntry_rel (R := fun s t => t.cue.mem = s.cue.mem) r (fun h k => k.trans h) (fun _ _ _ => rfl)
    (fun v ms srcs s => by rw [setRequests_cue]; rfl) (fun n s => by simp) _ s

/-! ### The states of a runner -/

theorem u16_le (h l : Byte) : u16 h l ≤ 65535 := by
  have := h.isLt
  have := l.isLt
  unfold u16
  omega

/-- R120: the ranges of a STEP's fields. -/
theorem decodeEntry_step {e : CueEntry} {mask : BitVec 12} {offset : Int} {rampMs holdMs : Nat}
    (h : decodeEntry e = .step mask offset rampMs holdMs) :
    (-480 ≤ offset ∧ offset ≤ 0) ∧ rampMs ≤ 65535 ∧ holdMs ≤ 65535 := by
  unfold decodeEntry at h
  split at h
  · split at h
    · rename_i range
      cases h
      exact ⟨range, u16_le _ _, u16_le _ _⟩
    · cases h
  all_goals cases h

theorem decodeEntry_wait {e : CueEntry} {ms : Nat} (h : decodeEntry e = .wait ms) : ms ≤ 65535 := by
  unfold decodeEntry at h
  split at h
  · split at h <;> cases h
  · cases h
    exact u16_le _ _
  all_goals cases h

/-- The frames of the entry at position 0, from its decoded form. -/
theorem Runner.entryFrames_eq (x : Runner) : x.entryFrames = match x.first with
    | some (.step _ _ rampMs holdMs) => some (msFrames (rampMs + holdMs))
    | some (.wait ms) => if ms = 0 then none else some (msFrames ms)
    | _ => none := by
  unfold Runner.entryFrames Runner.first
  cases x.window with
  | nil => rfl
  | cons e es =>
    dsimp only [List.head?_cons, Option.map_some]
    cases decodeEntry e <;> rfl

theorem Runner.entryFrames_step {x : Runner} {mask : BitVec 12} {offset : Int} {rampMs holdMs : Nat}
    (h : x.first = some (.step mask offset rampMs holdMs)) : x.entryFrames = some (msFrames (rampMs + holdMs)) := by
  rw [x.entryFrames_eq, h]

theorem Runner.entryFrames_wait {x : Runner} {ms : Nat} (h : x.first = some (.wait ms)) :
    x.entryFrames = if ms = 0 then none else some (msFrames ms) := by rw [x.entryFrames_eq, h]

/-- What the start of an entry asks of a runner: at most four valid positions, and requests in their range. -/
structure Runner.Ready (x : Runner) : Prop where
  window : x.window.length ≤ 4
  requests : ∀ src : Source, -480 ≤ x.requests[src] ∧ x.requests[src] ≤ 0

theorem Runner.Good.ready {x : Runner} (h : x.Good) : x.Ready := ⟨h.window, h.requests⟩

theorem Runner.Ready.shift {x : Runner} (h : x.Ready) : x.shift.Ready :=
  ⟨by have := h.window; simp [Runner.shift]; omega, h.requests⟩

theorem Runner.Ready.requesting {x : Runner} (h : x.Ready) {v : Int} (hv : -480 ≤ v ∧ v ≤ 0) (srcs : List Source) :
    Runner.Ready { x with requests := srcs.foldl (fun q (src : Source) => q.set src v) x.requests } where
  window := h.window
  requests src := by
    rw [getElem_foldl_set]
    split
    · exact hv
    · exact h.requests src

/-- A runner that counts nothing and whose window its state does not speak of. -/
theorem Runner.Ready.resting {x : Runner} (h : x.Ready) (step : x.state ≠ .stepping) (wait : x.state ≠ .waiting)
    (stop : x.state ≠ .stopped) (empty : x.window = []) (due : x.due = false) (elapsed : x.elapsed = 0)
    (latch : x.latch = true → x.state = .fetching) : x.Good where
  window := h.window
  empty _ := empty
  step k := absurd k step
  wait k := absurd k wait
  stopped k := absurd k stop
  due k := by simp [due] at k
  latch k := .inr (latch k)
  still _ _ := elapsed
  elapsed := by omega
  requests := h.requests

theorem Runner.Ready.fetching {x : Runner} (h : x.Ready) : x.fetching.Good :=
  Runner.Ready.resting ⟨by simp [Runner.fetching], h.requests⟩ (by simp [Runner.fetching]) (by simp [Runner.fetching])
    (by simp [Runner.fetching]) rfl rfl rfl fun _ => rfl

theorem Runner.Ready.jumping {x : Runner} (h : x.Ready) (a : CueAddr) : Runner.Good { x.fetching with nextFetch := a } :=
  { h.fetching with }

theorem Runner.Ready.stepping {x : Runner} (h : x.Ready) {mask : BitVec 12} {offset : Int} {rampMs holdMs : Nat}
    (first : x.first = some (.step mask offset rampMs holdMs)) (pos : rampMs + holdMs ≠ 0) :
    Runner.Good { x with state := .stepping, elapsed := 0, due := false } where
  window := h.window
  empty k := by simp at k
  step _ := ⟨mask, offset, rampMs, holdMs, first, by dsimp only; omega⟩
  wait k := by simp at k
  stopped k := by simp at k
  due _ := .inl rfl
  latch _ := .inl rfl
  still k := absurd rfl k
  elapsed := by simp
  requests := h.requests

theorem Runner.Ready.waiting {x : Runner} (h : x.Ready) {ms : Nat} (first : x.first = some (.wait ms)) (latch : x.latch = false) :
    Runner.Good { x with state := .waiting, elapsed := 0, due := false } where
  window := h.window
  empty k := by simp at k
  step k := by simp at k
  wait _ := ⟨ms, first, fun pos => by dsimp only; omega⟩
  stopped k := by simp at k
  due _ := .inr rfl
  latch k := by simp [latch] at k
  still _ k := absurd rfl k
  elapsed := by simp
  requests := h.requests

theorem Runner.Ready.stopped {x : Runner} (h : x.Ready) (first : (∃ notify, x.first = some (.stop notify)) ∨ x.first = some .invalid) :
    x.stopped.Good where
  window := h.window
  empty k := by simp [Runner.stopped] at k
  step k := by simp [Runner.stopped] at k
  wait k := by simp [Runner.stopped] at k
  stopped _ := first
  due k := by simp [Runner.stopped] at k
  latch k := by simp [Runner.stopped] at k
  still _ _ := rfl
  elapsed := by simp [Runner.stopped]
  requests := h.requests

/-- Every runner but `r` is good. -/
def OthersGood (r : RunnerNo) (c : CueUnit) : Prop := ∀ q : RunnerNo, q ≠ r → (c.runners[q]).Good

theorem RunnersGood.others {c : CueUnit} (h : RunnersGood c) (r : RunnerNo) : OthersGood r c := fun q _ => h q

theorem OthersGood.onRunner {r : RunnerNo} {s : State} (h : OthersGood r s.cue) (f : Runner → Runner) :
    OthersGood r (onRunner r f s).cue := fun q hq => by rw [onRunner_other hq]; exact h q hq

theorem OthersGood.good {r : RunnerNo} {s : State} (h : OthersGood r s.cue) {f : Runner → Runner} (hf : (f s.cue.runners[r]).Good) :
    RunnersGood (Machine.onRunner r f s).cue := fun q => by
  by_cases hq : q = r
  · subst hq; rwa [onRunner_at]
  · exact h.onRunner f q hq

/-- R123 to R127: the start of an entry leaves good runners, from a ready one. -/
theorem startEntry_good (r : RunnerNo) : ∀ (fuel : Nat) (s : State), (s.cue.runners[r]).Ready → OthersGood r s.cue →
    RunnersGood (startEntry r fuel s).cue
  | 0, s, ready, others => others.good ready.fetching
  | fuel + 1, s, ready, others => by
    unfold startEntry
    split
    · exact others.good ready.fetching
    next e es hw =>
      have first : (s.cue.runners[r]).first = some (decodeEntry e) := by rw [Runner.first, hw]; rfl
      split
      next mask offset rampMs holdMs he =>
        rw [he] at first
        obtain ⟨range, -, -⟩ := decodeEntry_step he
        have requested := setRequests_cue r offset rampMs (maskSources mask) s
        have asked := ready.requesting range (maskSources mask)
        dsimp only
        split
        · refine startEntry_good r fuel _ ?_ ?_
          · rw [onRunner_at, requested, onRunner_at]
            exact asked.shift
          · rw [onRunner_cue_congr requested]
            exact (others.onRunner _).onRunner _
        · rename_i pos
          rw [onRunner_cue_congr requested, onRunner_twice]
          exact others.good (asked.stepping (mask := mask) (offset := offset) first pos)
      next ms he =>
        rw [he] at first
        split
        · exact startEntry_good r fuel _ (by rw [onRunner_at]; exact ⟨ready.shift.window, ready.requests⟩) (others.onRunner _)
        · rename_i latch
          exact others.good (ready.waiting first (by simpa using latch))
      · exact others.good (ready.jumping _)
      next notify he =>
        rw [he] at first
        have stopped := others.good (ready.stopped (.inl ⟨notify, first⟩))
        dsimp only
        split
        · rw [(raiseNotice_same _ _) .cue (by decide)]
          exact stopped
        · exact stopped
      next he =>
        rw [he] at first
        rw [(raiseNotice_same _ _) .cue (by decide)]
        exact others.good (ready.stopped (.inr first))

/-- A further count of a runner whose entry goes on. -/
theorem Runner.Good.counting {x : Runner} (h : x.Good) (counting : x.state = .stepping ∨ x.state = .waiting) {e : Nat}
    (range : e ≤ 6291360) (below : ∀ n, x.entryFrames = some n → e < n) : Runner.Good { x with elapsed := e } where
  window := h.window
  empty := h.empty
  step k := by
    obtain ⟨mask, offset, rampMs, holdMs, first, -⟩ := h.step k
    exact ⟨mask, offset, rampMs, holdMs, first, below _ (Runner.entryFrames_step first)⟩
  wait k := by
    obtain ⟨ms, first, -⟩ := h.wait k
    exact ⟨ms, first, fun pos => below _ (by rw [Runner.entryFrames_wait first, if_neg pos]; rfl)⟩
  stopped := h.stopped
  due := h.due
  latch := h.latch
  still a b := absurd counting (not_or.mpr ⟨a, b⟩)
  elapsed := range
  requests := h.requests

theorem Runner.Good.entryFrames_le {x : Runner} (h : x.Good) (counting : x.state = .stepping ∨ x.state = .waiting) {n : Nat}
    (hn : x.entryFrames = some n) : n ≤ 6291360 := by
  rcases counting with k | k
  · obtain ⟨mask, offset, rampMs, holdMs, first, -⟩ := h.step k
    obtain ⟨e, -, he⟩ := Option.map_eq_some_iff.mp first
    obtain ⟨-, ramp, hold⟩ := decodeEntry_step he
    rw [Runner.entryFrames_step first, Option.some.injEq, msFrames] at hn
    omega
  · obtain ⟨ms, first, -⟩ := h.wait k
    obtain ⟨e, -, he⟩ := Option.map_eq_some_iff.mp first
    have := decodeEntry_wait he
    rw [Runner.entryFrames_wait first] at hn
    split at hn
    · cases hn
    · rw [Option.some.injEq, msFrames] at hn
      omega

/-- R123: a runner's count at a boundary. -/
theorem Runner.Good.advance {x : Runner} (h : x.Good) (free : Nat) : (x.advance free).Good := by
  unfold Runner.advance
  split
  next counting =>
    split
    next n hn =>
      have range := h.entryFrames_le counting hn
      split
      · rename_i more
        refine h.counting counting (by omega) fun m hm => ?_
        rw [hn, Option.some.injEq] at hm
        omega
      · exact { h with due := fun _ => counting }
    next none =>
      split
      · rename_i more
        exact h.counting counting (by simpa [maxElapsed] using more) (by simp [none])
      · have := Nat.mod_lt (Config.freeElapsed free) (show 0 < maxElapsed + 1 by decide)
        exact h.counting counting (Nat.le_of_lt_succ this) (by simp [none])
  · exact h

end Sys2Proof.Machine

namespace Sys2Proof.Machine
-- One proof at a time: side by side the proofs start more threads than the memory limit allows.
set_option Elab.async false

/-! ## Every shared operation keeps the invariants -/

/-! ### The control unit and the TABLE unit -/

theorem fillReservation_keepsInv (u : UnitId) (res : Result) (data : List Byte) (s : State) :
    Keeps s (fillReservation u res data s) := .ofCalm (fillReservation_same u res data s) (fillReservation_calm u res data s)

theorem queueNotices_keepsInv (s : State) : Keeps s (queueNotices s) := .ofCalm (queueNotices_same s) (queueNotices_calm s)

theorem raiseNotice_keepsInv (n : Notice) (s : State) : Keeps s (raiseNotice n s) :=
  .ofCalm (raiseNotice_same n s) (raiseNotice_calm n s)

theorem reportWrites_keepsInv (d : TableId) (is : List Nat) (s : State) : Keeps s (reportWrites d is s) :=
  .ofCalm (reportWrites_same d is s) (reportWrites_calm d is s)

theorem abortTableOp_keepsInv (s : State) : Keeps s (abortTableOp s) := .ofCalm (abortTableOp_same s) (abortTableOp_calm s)

theorem setFlag_keepsInv (f : Flag) (s : State) : Keeps s (setFlag f s) where
  places := id
  gate h := ⟨h.range, h.standby, h.hunt⟩
  memory := id
  duck := id
  commit := id
  sdv := id
  ranges := id
  runners := id
  fades := id
  noHeld := id

/-- R142: entries are counted in a LOCKED frame only. -/
theorem countLive_keepsInv (d : TableId) (n : Nat) (s : State) : Keeps s (countLive d n s) :=
  .ofCalm (countLive_same d n s) (.ofSame (countLive_same d n s)) (gate := .inr fun h => by
    unfold countLive
    split
    · rename_i live
      exact ⟨h.range, h.standby, fun hunt => by simp [live.2] at hunt⟩
    · exact h)

theorem stepTableOp_keepsInv (op : TableOp) {s : State} (h : s.table ≠ none) : Keeps s (stepTableOp op s) :=
  .ofCalm (stepTableOp_same op s) (stepTableOp_calm h op) (gate := .inr fun k => by
    have counted := (countLive_keepsInv op.table op.step s).gate k
    refine ⟨?_, ?_, ?_⟩
    · rw [(stepTableOp_same op s) .core (by decide)]; exact k.range
    · rw [(stepTableOp_same op s) .core (by decide)]; exact k.standby
    · rw [(stepTableOp_same op s) .core (by decide), (stepTableOp_same op s) .port (by decide), stepTableOp_frame]
      simpa using counted.hunt)

theorem takeBatch_keepsInv (s : State) : Keeps s (takeBatch s) := by
  unfold takeBatch
  split
  · rename_i op h
    split
    · exact stepTableOp_keepsInv op (by simp [h])
    · exact .refl s
  · exact .refl s

/-! ### Runners -/

theorem setRequests_keepsInv (r : RunnerNo) {v : Int} (hv : -480 ≤ v ∧ v ≤ 0) (ms : Nat) (srcs : List Source) (s : State) :
    Keeps s (setRequests r v ms srcs s) :=
  .ofCalm (setRequests_same r v ms srcs s) (.ofSame (setRequests_same r v ms srcs s))
    (memory := .inr fun h => by rw [setRequests_cue]; exact h) (duck := .inr (setRequests_duck r v ms srcs s))
    (runners := .inr fun h => by
      rw [setRequests_cue]
      exact (h.others r).good { h r with requests := ((h r).ready.requesting hv srcs).requests })

/-- A change of a runner that keeps its requests and leaves it good. -/
theorem onRunner_keepsInv {f : Runner → Runner} (r : RunnerNo) (s : State) (good : (s.cue.runners[r]).Good → (f s.cue.runners[r]).Good)
    (hf : ∀ x, (f x).requests = x.requests := by exact fun _ => rfl) : Keeps s (onRunner r f s) :=
  .ofCalm (onRunner_same r f s) (.ofSame (onRunner_same r f s)) (memory := .inr id) (duck := .inr (onRunner_duck hf r s))
    (runners := .inr fun h => (h.others r).good (good (h r)))

/-- A change of a runner that keeps its requests and leaves it ready, and then the start of the entry at position 0. -/
theorem startAfter_keepsInv {f : Runner → Runner} (r : RunnerNo) (s : State)
    (ready : (s.cue.runners[r]).Good → (f s.cue.runners[r]).Ready)
    (hf : ∀ x, (f x).requests = x.requests := by exact fun _ => rfl) : Keeps s (startWindow r (onRunner r f s)) := by
  have same : SameBut [.ctl, .ramp, .cue] s (startWindow r (onRunner r f s)) :=
    ((onRunner_same r f s).mono (by decide)).trans (startWindow_same r _)
  have calm : Calm s (startWindow r (onRunner r f s)) := (Calm.ofSame (onRunner_same r f s)).trans (startWindow_calm r _)
  refine .ofCalm same calm (memory := .inr fun h => ?_) (duck := .inr fun h => ?_) (runners := .inr fun h => ?_)
  · rw [startWindow_mem]; exact h
  · exact startWindow_duck r _ (onRunner_duck hf r s h)
  · exact startEntry_good r _ _ (by rw [onRunner_at]; exact ready (h r)) ((h.others r).onRunner f)

theorem completeEntry_keepsInv (r : RunnerNo) (s : State) : Keeps s (completeEntry r s) :=
  startAfter_keepsInv r s fun h => h.ready.shift

theorem completeWait_keepsInv (r : RunnerNo) (b : Bool) (s : State) : Keeps s (completeWait r b s) := by
  unfold completeWait completeEntry
  rw [onRunner_twice]
  exact startAfter_keepsInv r s fun h => ⟨h.ready.shift.window, h.requests⟩

theorem fetchWindow_keepsInv (r : RunnerNo) (s : State) : Keeps s (fetchWindow r s) :=
  startAfter_keepsInv r s fun h => ⟨by simp, h.requests⟩

theorem takeStep_keepsInv (r : RunnerNo) (s : State) : Keeps s (takeStep r s) := by
  unfold takeStep
  split
  · exact completeEntry_keepsInv r s
  · exact .refl s

theorem takeTimeout_keepsInv (r : RunnerNo) (s : State) : Keeps s (takeTimeout r s) := by
  unfold takeTimeout
  split
  · exact completeWait_keepsInv r true s
  · exact .refl s

theorem Runner.Good.halted {x : Runner} (h : x.Good) : x.halted.Good :=
  Runner.Ready.resting ⟨by simp [Runner.halted], h.requests⟩ (by simp [Runner.halted]) (by simp [Runner.halted])
    (by simp [Runner.halted]) rfl rfl rfl (by simp [Runner.halted])

theorem haltRunner_keepsInv (r : RunnerNo) (s : State) : Keeps s (haltRunner r s) := by
  unfold haltRunner
  exact (onRunner_keepsInv r s Runner.Good.halted).trans (setRequests_keepsInv r (by decide) _ _ _)

theorem haltBoth_keepsInv (s : State) : Keeps s (haltBoth s) := (haltRunner_keepsInv 0 s).trans (haltRunner_keepsInv 1 _)

theorem startRunner_keepsInv (r : RunnerNo) (a : CueAddr) (s : State) : Keeps s (startRunner r a s) :=
  onRunner_keepsInv r s fun h => Runner.Ready.resting ⟨by simp, h.requests⟩ (by simp) (by simp) (by simp) rfl rfl rfl
    fun _ => rfl

/-- R131: a latch is set in FETCHING and STEPPING only. -/
theorem latch_keepsInv {r : RunnerNo} {s : State} (state : (s.cue.runners[r]).state = .stepping ∨ (s.cue.runners[r]).state = .fetching) :
    Keeps s (onRunner r (fun x => { x with latch := true }) s) :=
  onRunner_keepsInv r s fun h => { h with latch := fun _ => state }

theorem abortCueWrite_keepsInv (s : State) : Keeps s (abortCueWrite s) := by
  have kept : (abortCueWrite s).cue.mem = s.cue.mem ∧ (abortCueWrite s).cue.runners = s.cue.runners := by
    unfold abortCueWrite
    split <;> exact ⟨rfl, rfl⟩
  obtain ⟨mem, runners⟩ := kept
  refine .ofCalm (abortCueWrite_same s) (abortCueWrite_calm s) (memory := .inr fun h => by rwa [mem]) (duck := .inr fun h src => ?_)
    (runners := .inr fun h => by unfold RunnersGood; rwa [runners])
  rw [(abortCueWrite_same s) .ramp (by decide), duckMin, runners]
  exact h src

theorem cueDisable_keepsInv (s : State) : Keeps s (cueDisable s) := (abortCueWrite_keepsInv s).trans (haltBoth_keepsInv _)

/-- R137: a next-fetch address is free to change. -/
theorem nextFetch_keepsInv (r : RunnerNo) (a : CueAddr) (s : State) : Keeps s (onRunner r (fun x => { x with nextFetch := a }) s) :=
  onRunner_keepsInv r s fun h => { h with }

theorem cueReset_keepsInv (s : State) : Keeps s (cueReset s) := by
  unfold cueReset
  exact ((cueDisable_keepsInv s).trans (nextFetch_keepsInv 0 0 _)).trans (nextFetch_keepsInv 1 0 _)

/-! ### The SDV unit -/

/-- Of the SDV unit the following of the boost changes the group targets alone. -/
theorem followBoost_sdv (s : State) : (followBoost s).sdv = { s.sdv with targets := (followBoost s).sdv.targets } := by
  have fold : ∀ (gs : List Group) (s : State), (gs.foldl (fun s g => followGroup g s) s).sdv =
      { s.sdv with targets := (gs.foldl (fun s g => followGroup g s) s).sdv.targets } := fun gs => by
    induction gs with
    | nil => exact fun s => rfl
    | cons g gs ih => exact fun s => (ih (followGroup g s)).trans rfl
  exact fold _ s

theorem adoptBoost_sdv (b : Int) (s : State) :
    (adoptBoost b s).sdv = { s.sdv with boost := b, targets := (adoptBoost b s).sdv.targets } := followBoost_sdv _

theorem setSdvState_sdv (st : SdvState) (s : State) : (setSdvState st s).sdv = { s.sdv with state := st } := by
  unfold setSdvState
  split
  · rename_i h
    rw [← h]
  · simp

/-- A step of the SDV unit keeps the invariants when it keeps those of its fields. -/
theorem Keeps.ofSdv {s t : State} (h : SameBut [.ctl, .ramp, .sdv] s t) (calm : Calm s t)
    (sdv : SdvInv s.ctl.enabled.sdv s.sdv → SdvInv s.ctl.enabled.sdv t.sdv) (ranges : SdvRanges s.sdv → SdvRanges t.sdv)
    (ducks : t.ramp.duckTargets = s.ramp.duckTargets) : Keeps s t :=
  .ofCalm h calm (duck := .inr fun k => by unfold DuckInv; rwa [ducks, h .cue (by decide)]) (sdv := .inr sdv) (ranges := .inr ranges)

end Sys2Proof.Machine

namespace Sys2Proof.Machine
-- One proof at a time: side by side the proofs start more threads than the memory limit allows.
set_option Elab.async false

theorem RampUnit.freeKey_ducks (u : RampUnit) (k : Key) : (u.freeKey k).duckTargets = u.duckTargets := by
  unfold RampUnit.freeKey
  split <;> rfl

/-- A retarget changes entries alone. -/
@[simp] theorem RampUnit.retarget_ducks (u : RampUnit) (m : Mode) (k : Key) (old new : Gain) (ms : Nat) :
    (u.retarget m k old new ms).duckTargets = u.duckTargets := by
  unfold RampUnit.retarget
  split
  · rfl
  · split
    · exact u.freeKey_ducks k
    · split
      · rfl
      · split <;> rfl

theorem setGroupTarget_ducks (g : Group) (v : Int) (s : State) : (setGroupTarget g v s).ramp.duckTargets = s.ramp.duckTargets := by
  simp [setGroupTarget]

theorem adoptBoost_ducks (b : Int) (s : State) : (adoptBoost b s).ramp.duckTargets = s.ramp.duckTargets := by
  have fold : ∀ (gs : List Group) (s : State), (gs.foldl (fun s g => followGroup g s) s).ramp.duckTargets = s.ramp.duckTargets :=
    fun gs => by
      induction gs with
      | nil => exact fun s => rfl
      | cons g gs ih => exact fun s => (ih (followGroup g s)).trans (setGroupTarget_ducks _ _ s)
  exact fold _ _

theorem setSdvState_ducks (st : SdvState) (s : State) : (setSdvState st s).ramp = s.ramp :=
  (setSdvState_same st s) .ramp (by decide)

theorem stateThenManual_ducks (b : Int) (st : SdvState) (m : Option Nat) (s : State) :
    (adoptBoost b { setSdvState st s with sdv := { (setSdvState st s).sdv with manual := m } }).ramp.duckTargets =
      s.ramp.duckTargets := by
  rw [adoptBoost_ducks]
  exact congrArg RampUnit.duckTargets (setSdvState_ducks st s)

/-! ### What the SDV unit's operations make of its fields -/

theorem adoptAfterState_sdv (b : Int) (st : SdvState) (s : State) : (adoptBoost b (setSdvState st s)).sdv =
    { s.sdv with state := st, boost := b, targets := (adoptBoost b (setSdvState st s)).sdv.targets } :=
  (adoptBoost_sdv b _).trans (by rw [setSdvState_sdv])

theorem stateThenManual_sdv (b : Int) (st : SdvState) (m : Option Nat) (s : State) :
    ∃ ts, (adoptBoost b { setSdvState st s with sdv := { (setSdvState st s).sdv with manual := m } }).sdv =
      { s.sdv with state := st, manual := m, boost := b, targets := ts } :=
  ⟨_, (adoptBoost_sdv b _).trans (by rw [setSdvState_sdv])⟩

theorem stateByAge_cases (u : Sdv) : stateByAge u = .tracking ∨ stateByAge u = .holding ∨ stateByAge u = .fallback := by
  unfold stateByAge
  split
  · simp
  · split
    · simp
    · split <;> simp

/-- R106: the state by age is taken, with the boost it requires. -/
theorem takeStateByAge_sdv (s : State) : ∃ b ts, (takeStateByAge s).sdv = { s.sdv with state := stateByAge s.sdv, boost := b, targets := ts } ∧
    (stateByAge s.sdv = .fallback → b = 0) := by
  unfold takeStateByAge
  split
  next h => exact ⟨0, _, by rw [h]; exact adoptAfterState_sdv 0 .fallback s, fun _ => rfl⟩
  next h => exact ⟨_, _, by rw [h]; exact adoptAfterState_sdv _ .tracking s, fun k => by rw [h] at k; cases k⟩
  next h => exact ⟨_, _, by rw [h]; exact adoptAfterState_sdv _ .holding s, fun k => by rw [h] at k; cases k⟩
  next h => have := stateByAge_cases s.sdv; simp [h] at this
  next h => have := stateByAge_cases s.sdv; simp [h] at this

/-! ### What they keep -/

/-- R106: the unit takes the state by age while it is enabled and holds no manual speed. -/
theorem takeStateByAge_sdvInv {s : State} {on : Bool} (age : s.sdv.lastSpeed = none ↔ s.sdv.age = none) (manual : s.sdv.manual = none)
    (enabled : on = true) : SdvInv on (takeStateByAge s).sdv := by
  obtain ⟨b, ts, e, zero⟩ := takeStateByAge_sdv s
  have cases := stateByAge_cases s.sdv
  rw [e]
  refine ⟨fun k => zero ?_, age, ?_, fun k => ?_⟩
  · rcases k with k | k
    · dsimp only at k
      simp [k] at cases
    · exact k
  · dsimp only
    rw [manual]
    exact ⟨fun k => absurd rfl k, fun k => by simp [k] at cases⟩
  · rw [enabled] at k
    cases k

theorem takeStateByAge_ranges {s : State} (h : SdvRanges s.sdv) : SdvRanges (takeStateByAge s).sdv := by
  obtain ⟨b, ts, e, -⟩ := takeStateByAge_sdv s
  rw [e]
  exact { h with }

theorem takeStateByAge_ducks (s : State) : (takeStateByAge s).ramp.duckTargets = s.ramp.duckTargets := by
  unfold takeStateByAge
  split
  · rw [adoptBoost_ducks, setSdvState_ducks]
  · rw [adoptBoost_ducks, setSdvState_ducks]
  · rw [adoptBoost_ducks, setSdvState_ducks]
  · rfl
  · rfl

/-- A change of state with the boost it requires. -/
theorem adoptAfterState_keepsInv {b : Int} {st : SdvState} {s : State} (zero : st = .off ∨ st = .fallback → b = 0)
    (manual : s.sdv.state ≠ .manual ∧ st ≠ .manual) (on : s.sdv.state ≠ .off) : Keeps s (adoptBoost b (setSdvState st s)) := by
  refine .ofSdv (adoptAfterState_same b st s) (adoptAfterState_calm b st s) (fun h => ?_) (fun h => ?_)
    (by rw [adoptBoost_ducks, setSdvState_ducks])
  · rw [adoptAfterState_sdv]
    exact ⟨zero, h.ageSpeed, ⟨fun k => absurd (h.manualSpeed.mp k) manual.1, fun k => absurd k manual.2⟩,
      fun k => absurd (h.disabled k) on⟩
  · rw [adoptAfterState_sdv]
    exact { h with }

/-- R109: a boost adopted in a state that requires none to be 0. -/
theorem adoptBoost_keepsInv {b : Int} {s : State} (zero : s.sdv.state = .off ∨ s.sdv.state = .fallback → b = 0) :
    Keeps s (adoptBoost b s) := by
  refine .ofSdv ((adoptBoost_same b s).mono (by decide)) (adoptBoost_calm b s) (fun h => ?_) (fun h => ?_) (adoptBoost_ducks b s)
  · rw [adoptBoost_sdv]
    exact { h with boostZero := zero }
  · rw [adoptBoost_sdv]
    exact { h with }

theorem setGroupTarget_keepsInv (g : Group) (v : Int) (s : State) : Keeps s (setGroupTarget g v s) :=
  .ofSdv ((setGroupTarget_same g v s).mono (by decide)) (.ofSame (setGroupTarget_same g v s)) (fun h => { h with })
    (fun h => { h with }) (setGroupTarget_ducks g v s)

theorem setHolding_keepsInv {s : State} (h : s.sdv.state = .tracking) : Keeps s (setSdvState .holding s) := by
  refine .ofSdv ((setSdvState_same _ s).mono (by decide)) (setSdvState_calm _ s) (fun k => ?_) (fun k => ?_)
    (by rw [setSdvState_ducks])
  · rw [setSdvState_sdv]
    exact ⟨by simp, k.ageSpeed, ⟨fun m => by simp [k.manualSpeed.mp m] at h, fun m => by simp at m⟩,
      fun m => by simp [k.disabled m] at h⟩
  · rw [setSdvState_sdv]
    exact { k with }

theorem enterFallback_keepsInv {s : State} (h : s.sdv.state = .tracking ∨ s.sdv.state = .holding) : Keeps s (enterFallback s) :=
  adoptAfterState_keepsInv (fun _ => rfl) (by rcases h with h | h <;> simp [h]) (by rcases h with h | h <;> simp [h])

theorem compareAge_keepsInv (s : State) : Keeps s (compareAge s) := by
  unfold compareAge
  split
  · exact .refl s
  · split
    next h =>
      split
      · exact enterFallback_keepsInv (.inl h)
      · split
        · exact setHolding_keepsInv h
        · exact .refl s
    next h =>
      split
      · exact enterFallback_keepsInv (.inr h)
      · exact .refl s
    all_goals exact .refl s

/-- A change of the SDV unit's fields alone. -/
theorem Keeps.sdvFields {s : State} {u : Sdv} (sdv : SdvInv s.ctl.enabled.sdv s.sdv → SdvInv s.ctl.enabled.sdv u)
    (ranges : SdvRanges s.sdv → SdvRanges u) : Keeps s { s with sdv := u } :=
  .ofSdv (SameBut.ofParts fun p => by cases p <;> first | exact Or.inr rfl | exact Or.inl (by decide)) (.ofParts rfl rfl) sdv ranges rfl

theorem tickDue_keepsInv (b : Bool) (s : State) : Keeps s { s with sdv := { s.sdv with tickDue := b } } :=
  .sdvFields (fun h => { h with }) fun h => { h with }

theorem phase_keepsInv {n : Nat} (hn : n < 480) (s : State) : Keeps s { s with sdv := { s.sdv with phase := n } } :=
  .sdvFields (fun h => { h with }) fun h => { h with phase := hn }

theorem ageAdvance_keepsInv (s : State) : Keeps s (ageAdvance s) := by
  unfold ageAdvance
  split
  · exact .refl s
  · split
    · rename_i more
      exact phase_keepsInv more s
    · exact tickDue_keepsInv true s

theorem ageRise_keepsInv (s : State) : Keeps s (ageRise s) := by
  unfold ageRise
  split
  · exact .refl s
  next a ha =>
    split
    · rename_i more
      exact phase_keepsInv more s
    · refine Keeps.trans (.sdvFields (fun h => ?_) fun h => ?_) (compareAge_keepsInv _)
      · exact { h with ageSpeed := by rw [h.ageSpeed, ha]; simp }
      · refine { h with phase := by simp, age := fun n hn => ?_ }
        cases hn
        exact min_le_right _ _

theorem takeTick_keepsInv (s : State) : Keeps s (takeTick s) := by
  unfold takeTick
  split
  · exact (tickDue_keepsInv false s).trans (ageRise_keepsInv _)
  · exact .refl s

/-- R103: an accepted report of a speed in range, in a state that accepts it. -/
theorem acceptReport_keepsInv {v : Nat} {s : State} (hv : v ≤ 320) (off : s.sdv.state ≠ .off) (manual : s.sdv.state ≠ .manual) :
    Keeps s (acceptReport v s) := by
  have held : Keeps s { s with sdv := { s.sdv with lastSpeed := some v, age := some 0, phase := 0 } } :=
    .sdvFields (fun h => { h with ageSpeed := by simp }) fun h =>
      { h with phase := by simp, age := fun a ha => by cases ha; simp, lastSpeed := fun w hw => by cases hw; exact hv }
  unfold acceptReport
  dsimp only
  split
  next tracking =>
    split
    · exact held.trans (adoptBoost_keepsInv fun k => by dsimp only at k; simp [tracking] at k)
    · exact held
  next => exact held.trans (adoptAfterState_keepsInv (by simp) ⟨manual, by simp⟩ off)

theorem speedReport_keepsInv (v : Nat) (valid : Bool) (s : State) : Keeps s (speedReport v valid s) := by
  unfold speedReport reportOutcome
  split
  next => exact setFlag_keepsInv _ s
  next => exact .refl s
  next h =>
    split at h
    · cases h
    · rename_i range
      split at h
      · cases h
      · rename_i state
        rw [not_or] at state
        exact acceptReport_keepsInv (by simp at range; omega) state.1 state.2

/-- R110. -/
theorem curveChange_keepsInv (s : State) : Keeps s (curveChange s) := by
  unfold curveChange
  split
  · split
    · exact .refl s
    · obtain ⟨ts, e⟩ := stateThenManual_sdv 0 .off none s
      refine .ofSdv (stateThenManual_same 0 .off none s) (stateThenManual_calm 0 .off none s) (fun h => ?_) (fun h => ?_)
        (stateThenManual_ducks 0 .off none s)
      · rw [e]
        exact ⟨fun _ => rfl, h.ageSpeed, by simp, fun _ => rfl⟩
      · rw [e]
        exact { h with manual := by simp }
  · split
    next off =>
      split
      next enabled =>
        refine .ofSdv (takeStateByAge_same s) (takeStateByAge_calm s) (fun h => ?_) takeStateByAge_ranges (takeStateByAge_ducks s)
        refine takeStateByAge_sdvInv h.ageSpeed ?_ enabled
        by_contra k
        simp [h.manualSpeed.mp k] at off
      next => exact .refl s
    next h => exact adoptBoost_keepsInv (by simp [h])
    next h => exact adoptBoost_keepsInv (by simp [h])
    next => exact .refl s
    next h => exact adoptBoost_keepsInv (by simp [h])

theorem setConfig_keepsInv {hold fallback hyst rampMs : Nat}
    (h : 1 ≤ hold ∧ hold < fallback ∧ fallback ≤ 65535 ∧ hyst ≤ 16 ∧ rampMs ≤ 65535) (s : State) :
    Keeps s (setConfig hold fallback hyst rampMs s) := by
  unfold setConfig
  refine Keeps.trans ?_ (compareAge_keepsInv _)
  exact .sdvFields (fun k => { k with }) fun k => { k with config := h }

/-- R112. -/
theorem enterManual_keepsInv {v : Nat} {s : State} (hv : v ≤ 320) (on : s.sdv.state ≠ .off) : Keeps s (enterManual v s) := by
  obtain ⟨ts, e⟩ := stateThenManual_sdv (boostAt s.core.live.boostCurve v) .manual (some v) s
  unfold enterManual
  refine .ofSdv (stateThenManual_same _ .manual (some v) s) (stateThenManual_calm _ .manual (some v) s) (fun h => ?_) (fun h => ?_)
    (stateThenManual_ducks _ .manual (some v) s)
  · rw [e]
    exact ⟨by simp, h.ageSpeed, by simp, fun k => absurd (h.disabled k) on⟩
  · rw [e]
    exact { h with manual := fun w hw => by cases hw; exact hv }

/-- R113. -/
theorem leaveManual_keepsInv {s : State} (manual : s.sdv.state = .manual) : Keeps s (leaveManual s) := by
  refine .ofSdv (leaveManual_same s) ((takeStateByAge_calm _).after) (fun h => ?_) (fun h => ?_) (takeStateByAge_ducks _)
  · refine takeStateByAge_sdvInv h.ageSpeed rfl ?_
    by_contra off
    simp [h.disabled (by simpa using off)] at manual
  · exact takeStateByAge_ranges { h with manual := by simp }

/-- R118: the unit's fields after power-on, the unit being enabled. -/
theorem Sdv.reset_sdvInv : SdvInv true Sdv.reset := ⟨fun _ => rfl, by decide, by decide, by decide⟩

theorem Sdv.reset_ranges : SdvRanges Sdv.reset := ⟨by decide, by simp [Sdv.reset], by simp [Sdv.reset], by simp [Sdv.reset], by decide⟩

/-- R117. -/
theorem sdvReset_keepsInv (s : State) : Keeps s (sdvReset s) := by
  unfold sdvReset
  dsimp only
  generalize hst : (if s.ctl.enabled.sdv = true ∧ s.core.live.boostCurve ≠ [] then SdvState.fallback else SdvState.off) = st
  have cases : st = .off ∨ (st = .fallback ∧ s.ctl.enabled.sdv = true) := by
    split at hst
    · rename_i on
      exact .inr ⟨hst.symm, on.1⟩
    · exact .inl hst.symm
  refine .ofSdv ?_ (adoptAfterState_calm 0 st _).after (fun h => ?_) (fun h => ?_) ?_
  · exact SameBut.trans (SameBut.ofParts fun p => by cases p <;> first | exact Or.inr rfl | exact Or.inl (by decide))
      (adoptAfterState_same 0 st _)
  · rw [adoptAfterState_sdv]
    refine ⟨fun _ => rfl, by simp, ?_, fun k => ?_⟩
    · rcases cases with e | ⟨e, -⟩ <;> simp [e]
    · exact cases.resolve_right fun e => by simp [k] at e
  · rw [adoptAfterState_sdv]
    exact ⟨by simp, by simp, by simp, by simp, Sdv.reset_ranges.config⟩
  · rw [adoptBoost_ducks, setSdvState_ducks]

end Sys2Proof.Machine

namespace Sys2Proof.Machine
-- One proof at a time: side by side the proofs start more threads than the memory limit allows.
set_option Elab.async false

/-! ### The pool and the crossfades -/

/-- Putting sections into a state changes the pool's states alone. -/
theorem EqUnit.putStates_eq (st : SectionState) : ∀ (is : List SectionNo) (e : EqUnit),
    e.putStates is st = { e with sections := (e.putStates is st).sections }
  | [], _ => rfl
  | i :: is, e => EqUnit.putStates_eq st is (e.putState i st)

theorem EqUnit.makeLive_eq : ∀ (is : List SectionNo) (e : EqUnit), e.makeLive is = { e with sections := (e.makeLive is).sections }
  | [], _ => rfl
  | i :: is, e => EqUnit.makeLive_eq is
      { e with sections := e.sections.set i { e.sections[i] with state := .live, hist := History.zero } }

@[simp] theorem EqUnit.putStates_slots (is : List SectionNo) (st : SectionState) (e : EqUnit) : (e.putStates is st).slots = e.slots := by
  rw [EqUnit.putStates_eq]

@[simp] theorem EqUnit.makeLive_slots (is : List SectionNo) (e : EqUnit) : (e.makeLive is).slots = e.slots := by
  rw [EqUnit.makeLive_eq]

theorem FadesInv.ofSlots {e f : EqUnit} (h : f.slots = e.slots) (k : FadesInv e) : FadesInv f := by
  unfold FadesInv
  rwa [h]

/-- A slot is freed, or starts at 0. -/
theorem FadesInv.setSlot {e f : EqUnit} {i : Fin 4} {x : Option Crossfade} (h : f.slots = e.slots.set i x) (k : FadesInv e)
    (hx : ∀ y, x = some y → y.k < 480) : FadesInv f := fun j y hy => by
  rw [h] at hy
  by_cases hj : i.val = j.val
  · exact hx y (by simpa [hj] using hy)
  · exact k j y (by simpa [hj] using hy)

theorem FadesInv.advance {e : EqUnit} (h : FadesInv e) : FadesInv e.advance := fun i f hf => by
  simp only [EqUnit.advance, Fin.getElem_fin, Vector.getElem_map, Option.map_eq_some_iff] at hf
  obtain ⟨g, hg, rfl⟩ := hf
  have := h i g hg
  unfold Crossfade.advance
  split
  · rename_i more
    exact more
  · exact this

theorem claimSections_keepsInv (is : List SectionNo) (s : State) : Keeps s (claimSections is s) :=
  .ofEq (claimSections_same is s) (eqThenReport_calm _ is s) (FadesInv.ofSlots (by simp [claimSections]))

theorem unclaimSections_keepsInv (is : List SectionNo) (s : State) : Keeps s (unclaimSections is s) :=
  .ofEq (unclaimSections_same is s) (eqThenReport_calm _ is s) (FadesInv.ofSlots (by simp [unclaimSections]))

theorem swapAtOnce_keepsInv (o : Output) (l : List SectionNo) (s : State) : Keeps s (swapAtOnce o l s) :=
  .ofEq (swapAtOnce_same o l s) (swapAtOnce_calm o l s) (FadesInv.ofSlots (by simp [swapAtOnce]))

theorem swapWithFade_keepsInv (i : Fin 4) (o : Output) (l : List SectionNo) (s : State) : Keeps s (swapWithFade i o l s) :=
  .ofEq (swapWithFade_same i o l s) ((eqThenReport_calm _ _ s).trans (reportWrites_calm _ _ _)) fun h =>
    h.setSlot (i := i) (x := some _) (by simp [swapWithFade]; rfl) fun y hy => by cases hy; simp

theorem swapChain_keepsInv (o : Output) (l : List SectionNo) (s : State) : Keeps s (swapChain o l s) := by
  unfold swapChain
  split
  · split
    · exact swapWithFade_keepsInv _ o l s
    · exact swapAtOnce_keepsInv o l s
  · exact swapAtOnce_keepsInv o l s

theorem endSlot_keepsInv (i : Fin 4) (s : State) : Keeps s (endSlot i s) := by
  refine .ofEq (endSlot_same i s) (endSlot_calm i s) fun h => ?_
  unfold endSlot
  split
  · exact h.setSlot (i := i) (x := none) (by simp) fun y hy => by cases hy
  · exact h

theorem takeFadeEnd_keepsInv (i : Fin 4) (s : State) : Keeps s (takeFadeEnd i s) := by
  unfold takeFadeEnd
  split
  · exact endSlot_keepsInv i s
  · exact .refl s

theorem endAllSlots_keepsInv (s : State) : Keeps s (endAllSlots s) := Keeps.foldl (fun s i => endSlot_keepsInv i s) _ s

theorem completeSectionWrite_keepsInv (w : SectionWrite) (s : State) : Keeps s (completeSectionWrite w s) :=
  .ofEq (completeSectionWrite_same w s) (completeSectionWrite_calm w s) (FadesInv.ofSlots (by simp [completeSectionWrite]))

theorem abortSectionWrite_keepsInv (s : State) : Keeps s (abortSectionWrite s) := by
  refine .ofEq (abortSectionWrite_same s) (abortSectionWrite_calm s) (FadesInv.ofSlots ?_)
  unfold abortSectionWrite
  split
  · rfl
  · dsimp only
    split <;> simp [EqUnit.markFree, EqUnit.putState]

theorem resetPool_keepsInv (s : State) : Keeps s (resetPool s) :=
  .ofEq (resetPool_same s) (resetPool_calm s) (FadesInv.ofSlots (by simp [resetPool]))

theorem releaseSection_keepsInv (i : SectionNo) (s : State) : Keeps s (releaseSection i s) :=
  .ofEq (releaseSection_same i s) (eqThenReport_calm _ _ s) (FadesInv.ofSlots (by simp [releaseSection, EqUnit.markFree, EqUnit.putState]))

/-! ### Change sets -/

/-- A change of the commit engine alone. -/
theorem Keeps.commitFields {s : State} {c : Commit} (h : CommitInv s.commit → CommitInv c) : Keeps s { s with commit := c } :=
  .ofCalm (ps := [.commit]) (SameBut.ofParts fun p => by cases p <;> first | exact Or.inr rfl | exact Or.inl (by decide))
    (.ofParts rfl rfl) (commit := .inr h)

theorem abortOpen_keepsInv (s : State) : Keeps s (abortOpen s) := .commitFields fun h => ⟨by simp, h.2⟩

theorem flushQueue_keepsInv (s : State) : Keeps s (flushQueue s) := by
  unfold flushQueue
  refine Keeps.trans ?_ (unclaimSections_keepsInv _ _)
  exact .commitFields fun h => ⟨h.1, by simp⟩

theorem stageReset_keepsInv (s : State) : Keeps s (stageReset s) := (abortOpen_keepsInv s).trans (flushQueue_keepsInv _)

theorem eqReset_keepsInv (s : State) : Keeps s (eqReset s) :=
  ((flushQueue_keepsInv s).trans (abortSectionWrite_keepsInv _)).trans (resetPool_keepsInv _)

/-- R61: a set is accepted where the queue has a place. -/
theorem acceptSet_keepsInv (rs : List ChangeRecord) (notify : Bool) {s : State} (h : s.commit.queue.length < 4) :
    Keeps s (acceptSet rs notify s) := by
  unfold acceptSet
  refine Keeps.trans ?_ (claimSections_keepsInv _ _)
  exact .commitFields fun _ => ⟨by simp, by simp; omega⟩

/-- A step that changes the core keeps the gate's invariant when it keeps mode and gate. -/
theorem GateInv.ofCore {s t : State} (port : t.port = s.port) (frame : t.frame = s.frame) (mode : t.core.mode = s.core.mode)
    (gate : t.core.gate = s.core.gate) (h : GateInv s) : GateInv t := by
  obtain ⟨range, standby, hunt⟩ := h
  rw [← gate] at range standby hunt
  rw [← mode] at standby
  rw [← port, ← frame] at hunt
  exact ⟨range, standby, hunt⟩

theorem writeRecords_core (rs : List ChangeRecord) (s : State) :
    (writeRecords rs s).core = { s.core with live := s.core.live.writeAll rs } :=
  (SameBut.foldl (fun s r => reportRecord_same r s) rs _) .core (by decide)

theorem writeRecords_keepsInv (rs : List ChangeRecord) (s : State) : Keeps s (writeRecords rs s) :=
  .ofCalm (writeRecords_same rs s) (writeRecords_calm rs s) (gate := .inr fun h => by
    have core := writeRecords_core rs s
    exact h.ofCore ((writeRecords_same rs s) .port (by decide)) ((writeRecords_same rs s) .frame (by decide)) (by rw [core])
      (by rw [core]))

theorem RampUnit.takeMoves_ducks (m : Mode) : ∀ (vs : List Move) (u : RampUnit), (u.takeMoves m vs).duckTargets = u.duckTargets
  | [], _ => rfl
  | v :: vs, u => (RampUnit.takeMoves_ducks m vs (u.retarget m v.key v.old v.new v.ms)).trans (u.retarget_ducks m v.key v.old v.new v.ms)

theorem RampUnit.applyMoves_ducks (u : RampUnit) (m : Mode) (vs : List Move) : (u.applyMoves m vs).duckTargets = u.duckTargets := by
  rw [RampUnit.applyMoves, RampUnit.takeMoves_ducks, RampUnit.takeMoves_ducks]

/-- Of the core a retargeting changes the LEVEL targets, of the ramp unit the entries. -/
theorem retargetSet_changes (vs : List Move) (s : State) :
    (retargetSet vs s).core = { s.core with levelTargets := (retargetSet vs s).core.levelTargets } ∧
    (retargetSet vs s).ramp = s.ramp.applyMoves s.core.mode vs := by
  simp only [retargetSet, and_self]

theorem retargetSet_keepsInv (vs : List Move) (s : State) : Keeps s (retargetSet vs s) := by
  have same := retargetSet_same vs s
  obtain ⟨core, ramp⟩ := retargetSet_changes vs s
  refine .ofCalm same (.ofSame same) (gate := .inr fun h => ?_) (duck := .inr fun h src => ?_)
  · exact h.ofCore (same .port (by decide)) (same .frame (by decide)) (by rw [core]) (by rw [core])
  · rw [ramp, RampUnit.applyMoves_ducks, same .cue (by decide)]
    exact h src

theorem swapChains_keepsInv (rs : List ChangeRecord) (s : State) : Keeps s (swapChains rs s) :=
  Keeps.foldl (f := fun s (c : Output × List SectionNo) => swapChain c.1 c.2 s) (fun s c => swapChain_keepsInv c.1 c.2 s) _ s

theorem tellSdv_keepsInv (l : Live) (rs : List ChangeRecord) (s : State) : Keeps s (tellSdv l rs s) := by
  unfold tellSdv
  refine Keeps.trans (t := if rs.any ChangeRecord.isBoostCurve then curveChange s else s) ?_ (Keeps.foldl (fun s g => ?_) _ _)
  · split
    · exact curveChange_keepsInv s
    · exact .refl s
  · split
    · exact .refl s
    · exact setGroupTarget_keepsInv _ _ s

theorem finishSet_keepsInv (q : QueuedSet) (s : State) : Keeps s (finishSet q s) := by
  refine .ofCalm (finishSet_same q s) (finishSet_calm q s) (commit := .inr fun h => ?_)
  have bound : s.commit.queue.tail.length ≤ 4 := by
    have := h.2
    rw [List.length_tail]
    omega
  unfold finishSet
  dsimp only
  split
  · rw [(raiseNotice_same _ _) .commit (by decide)]
    exact ⟨h.1, bound⟩
  · exact ⟨h.1, bound⟩

theorem applySet_keepsInv (q : QueuedSet) (s : State) : Keeps s (applySet q s) :=
  ((((writeRecords_keepsInv q.records s).trans (retargetSet_keepsInv _ _)).trans (swapChains_keepsInv _ _)).trans
    (tellSdv_keepsInv _ _ _)).trans (finishSet_keepsInv q _)

theorem examineHead_keepsInv (s : State) : Keeps s (examineHead s) := by
  unfold examineHead
  split
  · exact .refl s
  next q rest hq =>
    split
    · exact applySet_keepsInv q s
    · exact .commitFields fun h => ⟨h.1, by have := h.2; simpa [hq] using this⟩

/-! ### The gate, the frame and the boundary -/

theorem takeExam_keepsInv (s : State) : Keeps s (takeExam s) := by
  unfold takeExam
  split
  next due =>
    refine Keeps.trans ?_ (examineHead_keepsInv _)
    refine .ofCalm (ps := [.frame]) (SameBut.ofParts fun p => by cases p <;> first | exact Or.inr rfl | exact Or.inl (by decide))
      (.ofParts rfl rfl) (gate := .inr fun h => ⟨h.range, h.standby, fun hunt => ?_⟩)
    have idle := (h.hunt hunt).2
    simp [idle, Frame.idle] at due
  · exact .refl s

theorem enterStandby_keepsInv (s : State) : Keeps s (enterStandby s) := by
  unfold enterStandby
  refine Keeps.trans ?_ (((endAllSlots_keepsInv _).trans (haltBoth_keepsInv _)).trans (fillReservation_keepsInv _ _ _ _))
  refine .ofCalm (ps := [.core, .ramp]) (SameBut.ofParts fun p => by cases p <;> first | exact Or.inr rfl | exact Or.inl (by decide))
    (.ofParts rfl rfl) (gate := .inr fun h => ⟨by simp, fun _ => rfl, fun hunt => ⟨rfl, (h.hunt hunt).2⟩⟩) (duck := .inr fun h => h)

theorem takeLeavingEnd_keepsInv (s : State) : Keeps s (takeLeavingEnd s) := by
  unfold takeLeavingEnd
  split
  · exact enterStandby_keepsInv s
  · exact .refl s

theorem takeRampEnd_keepsInv (i : Fin 64) (s : State) : Keeps s (takeRampEnd i s) :=
  .ofCalm (ps := [.ramp]) (SameBut.ofParts fun p => by cases p <;> first | exact Or.inr rfl | exact Or.inl (by decide))
    (.ofParts rfl rfl) (duck := .inr fun h src => by
      have : (takeRampEnd i s).ramp.duckTargets = s.ramp.duckTargets := by
        simp only [takeRampEnd, RampUnit.complete]
        split <;> rfl
      rw [this]
      exact h src)

theorem openFrame_keepsInv (up : Vector Sample 32) {s : State} (h : s.frame.boundaryDue = true) : Keeps s (openFrame up s) :=
  .ofCalm (ps := [.frame]) (SameBut.ofParts fun p => by cases p <;> first | exact Or.inr rfl | exact Or.inl (by decide))
    (.ofParts rfl rfl) (gate := .inr fun k => ⟨k.range, k.standby, fun hunt => by simp [(k.hunt hunt).2, Frame.idle] at h⟩)

theorem gateStep_le (m : Mode) {u : Nat} (h : u ≤ 2400) : gateStep m u ≤ 2400 := by
  cases m
  · simp [gateStep]
  · exact min_le_right _ _
  · exact (Nat.sub_le u 5).trans h

theorem advanceGains_keepsInv {s : State} (h : s.frame.opened ≠ none) : Keeps s (advanceGains s) :=
  .ofCalm (ps := [.core, .ramp, .eq]) (SameBut.ofParts fun p => by cases p <;> first | exact Or.inr rfl | exact Or.inl (by decide))
    (.ofParts rfl rfl) (duck := .inr fun k => k) (fades := .inr FadesInv.advance)
    (gate := .inr fun k => ⟨gateStep_le _ k.range, fun m => by
        have standby : s.core.mode = .standby := m
        simp [advanceGains, standby, gateStep],
      fun hunt => absurd (by rw [(k.hunt hunt).2]; rfl) h⟩)

theorem Runner.advance_requests (x : Runner) (free : Nat) : (x.advance free).requests = x.requests := by
  unfold Runner.advance
  split
  · split <;> split <;> rfl
  · rfl

theorem advanceRunners_keepsInv (s : State) : Keeps s (advanceRunners s) := by
  unfold advanceRunners
  have first : Keeps s (onRunner 0 (Runner.advance s.free) s) := onRunner_keepsInv 0 s (fun h => h.advance _) fun x => x.advance_requests _
  have second := onRunner_keepsInv (f := Runner.advance (s.free + 1)) 1 (onRunner 0 (Runner.advance s.free) s) (fun h => h.advance _)
    fun x => x.advance_requests _
  refine (first.trans second).trans ?_
  exact .ofCalm (ps := [.free]) (SameBut.ofParts fun p => by cases p <;> first | exact Or.inr rfl | exact Or.inl (by decide))
    (.ofParts rfl rfl)

theorem markBatch_calm (s : State) : Calm s (markBatch s) where
  settings := ⟨rfl, rfl, rfl, rfl⟩
  noHeld := id
  places := id
  idle h := by simp [markBatch, h]

theorem markBatch_keepsInv (s : State) : Keeps s (markBatch s) :=
  .ofCalm (ps := [.table]) (SameBut.ofParts fun p => by cases p <;> first | exact Or.inr rfl | exact Or.inl (by decide))
    (markBatch_calm s)

theorem advanceAll_keepsInv {s : State} (h : s.frame.opened ≠ none) : Keeps s (advanceAll s) :=
  (((advanceGains_keepsInv h).trans (advanceRunners_keepsInv _)).trans (ageAdvance_keepsInv _)).trans (markBatch_keepsInv _)

theorem markClip_keepsInv (o : Output) (s : State) : Keeps s (markClip o s) where
  places := id
  gate h := ⟨h.range, h.standby, h.hunt⟩
  memory := id
  duck := id
  commit := id
  sdv := id
  ranges := id
  runners := id
  fades := id
  noHeld := id

theorem lane_keepsInv (l : Lane) (s : State) : Keeps s { s with lane := l } :=
  .ofCalm (ps := [.lane]) (SameBut.ofParts fun p => by cases p <;> first | exact Or.inr rfl | exact Or.inl (by decide))
    (.ofParts rfl rfl)

theorem emitSample_keepsInv (o : Output) (w : Int) (s : State) : Keeps s (emitSample o w s) := by
  unfold emitSample
  dsimp only
  split
  · exact lane_keepsInv _ s
  · exact (lane_keepsInv _ s).trans (markClip_keepsInv o _)

theorem composeOutput_keepsInv (eqOn : Bool) (s : State) (o : Output) : Keeps s (composeOutput eqOn s o) := by
  unfold composeOutput
  refine Keeps.trans ?_ (emitSample_keepsInv o _ _)
  exact .ofCalm (ps := [.eq, .free]) (SameBut.ofParts fun p => by cases p <;> first | exact Or.inr rfl | exact Or.inl (by decide))
    (.ofParts rfl rfl) (fades := .inr id)

theorem transferSlots_changes (f : Opened) (s : State) :
    (transferSlots f s).core = { s.core with held := sourcesRead f } ∧
    (transferSlots f s).lane = { s.lane with slots := slotsDown f s.lane.samples } := by
  simp only [transferSlots, and_self]

theorem transferSlots_keepsInv (f : Opened) (s : State) : Keeps s (transferSlots f s) := by
  have same := transferSlots_same f s
  have ctl : (transferSlots f s).ctl = s.ctl := same .ctl (by decide)
  obtain ⟨core, -⟩ := transferSlots_changes f s
  exact .ofCalm same (.ofSame same) (gate := .inr fun h =>
    h.ofCore (same .port (by decide)) (same .frame (by decide)) (by rw [core]) (by rw [core]))

theorem closeBoundary_keepsInv (s : State) : Keeps s (closeBoundary s) := by
  unfold closeBoundary
  split
  next f hf =>
    refine Keeps.trans ?_ ((Keeps.foldl (composeOutput_keepsInv f.eqOn) _ _).trans (transferSlots_keepsInv f _))
    refine .ofCalm (ps := [.frame]) (SameBut.ofParts fun p => by cases p <;> first | exact Or.inr rfl | exact Or.inl (by decide))
      (.ofParts rfl rfl) (gate := .inr fun h => ⟨h.range, h.standby, fun hunt => ?_⟩)
    have idle := (h.hunt hunt).2
    simp [idle, Frame.idle] at hf
  · exact .refl s

theorem closeIfSettled_keepsInv (s : State) : Keeps s (closeIfSettled s) := by
  unfold closeIfSettled
  split
  · exact .refl s
  · exact closeBoundary_keepsInv s

theorem takeOwed_keepsInv (s : State) : Keeps s (takeOwed s) := by
  have ramps := Keeps.foldl (fun s i => takeRampEnd_keepsInv i s) (List.finRange 64) s
  have fades := ramps.trans (Keeps.foldl (fun s i => takeFadeEnd_keepsInv i s) (List.finRange 4) _)
  have tick := fades.trans (takeTick_keepsInv _)
  have first := (tick.trans (takeStep_keepsInv 0 _)).trans (takeTimeout_keepsInv 0 _)
  have runners := (first.trans (takeStep_keepsInv 1 _)).trans (takeTimeout_keepsInv 1 _)
  exact ((runners.trans (takeLeavingEnd_keepsInv _)).trans (takeExam_keepsInv _)).trans (takeBatch_keepsInv _)

theorem finishBoundary_keepsInv (s : State) : Keeps s (finishBoundary s) := by
  unfold finishBoundary
  split
  · exact (takeOwed_keepsInv s).trans (closeBoundary_keepsInv _)
  · exact .refl s

end Sys2Proof.Machine

namespace Sys2Proof.Machine
-- One proof at a time: side by side the proofs start more threads than the memory limit allows.
set_option Elab.async false

/-! ## Every command keeps the invariants -/

/-! ### Power-on and reset -/

theorem RunnersGood.reset : RunnersGood CueUnit.reset := fun r => by
  have e : CueUnit.reset.runners[r] = Runner.reset := by simp [CueUnit.reset]
  rw [e]
  exact Runner.Ready.resting ⟨by simp [Runner.reset], fun src => by simp [Runner.reset]⟩ (by simp [Runner.reset])
    (by simp [Runner.reset]) (by simp [Runner.reset]) rfl rfl rfl (by simp [Runner.reset])

theorem FadesInv.reset : FadesInv EqUnit.reset := fun i f h => by simp [EqUnit.reset] at h

/-- R19, R50, R77, R100, R118, R138, R172: a state whose blocks hold their reset values satisfies the invariants; of the gate's,
what HUNT says of the frame remains. -/
theorem Settles.ofReset {s t : State} (ctl : t.ctl = Control.reset) (core : t.core = Core.reset) (ramp : t.ramp = RampUnit.reset)
    (commit : t.commit = Commit.reset) (eq : t.eq = EqUnit.reset) (sdv : t.sdv = Sdv.reset) (cue : t.cue = CueUnit.reset)
    (hunt : GateInv s → t.port.lock = .hunt → t.frame = Frame.idle) : Settles s t where
  places _ := by simp [ctl, Control.reset]
  gate h := ⟨by simp [core, Core.reset], fun _ => by simp [core, Core.reset], fun k => ⟨by simp [core, Core.reset], hunt h k⟩⟩
  memory _ := by rw [cue]; exact ⟨rfl, by simp [CueUnit.reset]⟩
  duck _ := fun src => by simp [ramp, cue, RampUnit.reset, CueUnit.reset, duckMin, Runner.reset]
  commit _ := by rw [commit]; exact ⟨by simp [Commit.reset], by simp [Commit.reset]⟩
  sdv _ := by rw [ctl, sdv]; exact Sdv.reset_sdvInv
  ranges _ := by rw [sdv]; exact Sdv.reset_ranges
  runners _ := by rw [cue]; exact .reset
  fades _ := by rw [eq]; exact .reset
  settled p hp := by simp [ctl, Control.reset] at hp

theorem Settles.keeps {s t : State} (h : Settles s t) : Keeps s t := { h with noHeld := fun _ => h.settled }

theorem powerOn_keepsInv (strap : Nat) (s : State) : Keeps s (powerOn strap s) :=
  (Settles.ofReset rfl rfl rfl rfl rfl rfl rfl fun _ _ => rfl).keeps

theorem partReset_settles (s : State) : Settles s (partReset s) :=
  .ofReset rfl rfl rfl rfl rfl rfl rfl fun h hunt => (h.hunt hunt).2

/-! ### The ring port -/

/-- A change of the port that keeps its lock state. -/
theorem Keeps.portFields {s : State} {p : RingPort} (lock : p.lock = s.port.lock) : Keeps s { s with port := p } :=
  .ofCalm (ps := [.port]) (SameBut.ofParts fun p => by cases p <;> first | exact Or.inr rfl | exact Or.inl (by decide))
    (.ofParts rfl rfl) (gate := .inr fun h => ⟨h.range, h.standby, fun hunt => h.hunt (lock.symm.trans hunt)⟩)

/-- A change of port and frame that leaves the part LOCKED. -/
theorem Keeps.whileLocked {s : State} {p : RingPort} {f : Frame} (lock : p.lock = .locked) : Keeps s { s with port := p, frame := f } :=
  .ofCalm (ps := [.port, .frame]) (SameBut.ofParts fun p => by cases p <;> first | exact Or.inr rfl | exact Or.inl (by decide))
    (.ofParts rfl rfl) (gate := .inr fun h => ⟨h.range, h.standby, fun hunt => by simp [lock] at hunt⟩)

theorem gainLock_keepsInv (s : State) : Keeps s (gainLock s) := by
  unfold gainLock
  dsimp only
  split
  · exact Keeps.trans (.whileLocked rfl) (raiseNotice_keepsInv _ _)
  · exact .whileLocked rfl

theorem syncHunting_keepsInv (spacing : Spacing) (s : State) : Keeps s (syncHunting spacing s) := by
  cases spacing
  · simp only [syncHunting]
    split
    · exact .portFields rfl
    · exact gainLock_keepsInv s
  · exact .portFields rfl

theorem takeRampEnd_same (i : Fin 64) (s : State) : SameBut [.ramp] s (takeRampEnd i s) :=
  SameBut.ofParts fun p => by cases p <;> first | exact Or.inr rfl | exact Or.inl (by decide)

theorem takeExam_same (s : State) : SameBut [.frame, .ctl, .core, .ramp, .commit, .eq, .sdv, .table] s (takeExam s) := by
  unfold takeExam
  split
  · refine SameBut.trans ?_ ((examineHead_same _).mono (by decide))
    exact SameBut.ofParts fun p => by cases p <;> first | exact Or.inr rfl | exact Or.inl (by decide)
  · exact SameBut.refl _ s

theorem takeOwed_same (s : State) : SameBut [.frame, .ctl, .core, .ramp, .commit, .eq, .sdv, .cue, .table] s (takeOwed s) := by
  have ramps : SameBut [.frame, .ctl, .core, .ramp, .commit, .eq, .sdv, .cue, .table] s _ :=
    (SameBut.foldl (fun s i => takeRampEnd_same i s) (List.finRange 64) s).mono (by decide)
  have fades := ramps.trans ((SameBut.foldl (fun s i => takeFadeEnd_same i s) (List.finRange 4) _).mono (by decide))
  have tick := fades.trans ((takeTick_same _).mono (by decide))
  have first := (tick.trans ((takeStep_same 0 _).mono (by decide))).trans ((takeTimeout_same 0 _).mono (by decide))
  have runners := (first.trans ((takeStep_same 1 _).mono (by decide))).trans ((takeTimeout_same 1 _).mono (by decide))
  exact ((runners.trans ((takeLeavingEnd_same _).mono (by decide))).trans ((takeExam_same _).mono (by decide))).trans
    ((takeBatch_same _).mono (by decide))

theorem finishBoundary_port (s : State) : (finishBoundary s).port = s.port := by
  unfold finishBoundary
  split
  · exact ((closeBoundary_same _) .port (by decide)).trans ((takeOwed_same s) .port (by decide))
  · rfl

theorem nextFrame_keepsInv (missing : Nat) {s : State} (h : s.port.lock = .locked) : Keeps s (nextFrame missing s) :=
  (finishBoundary_keepsInv s).trans (.whileLocked (by rw [finishBoundary_port]; exact h))

theorem dropLock_keepsInv (s : State) : Keeps s (dropLock s) :=
  .ofCalm (ps := [.port, .frame, .core]) (SameBut.ofParts fun p => by cases p <;> first | exact Or.inr rfl | exact Or.inl (by decide))
    (.ofParts rfl rfl) (gate := .inr fun _ => ⟨by simp [dropLock], fun _ => rfl, fun _ => ⟨rfl, rfl⟩⟩)

theorem abortDigest_keepsInv (s : State) : Keeps s (abortDigest s) := by
  unfold abortDigest
  split
  · split
    · exact abortTableOp_keepsInv s
    · exact .refl s
  · exact .refl s

theorem lossInLeaving_keepsInv (s : State) : Keeps s (lossInLeaving s) := by
  unfold lossInLeaving
  split
  · exact enterStandby_keepsInv s
  · exact .refl s

theorem lockLoss_keepsInv (s : State) : Keeps s (lockLoss s) :=
  (((dropLock_keepsInv s).trans (setFlag_keepsInv _ _)).trans (lossInLeaving_keepsInv _)).trans (abortDigest_keepsInv _)

theorem execSyncReceived_keepsInv {spacing : Spacing} {s t : State} (h : execSyncReceived spacing s = .next t) : Keeps s t := by
  cases h
  split
  · exact syncHunting_keepsInv spacing s
  next locked =>
    cases spacing
    · exact nextFrame_keepsInv 0 locked
    · exact .refl s

theorem execSyncMissing_keepsInv {s t : State} (h : execSyncMissing s = .next t) : Keeps s t := by
  cases h
  split
  · exact .portFields rfl
  next locked =>
    split
    · exact nextFrame_keepsInv 1 locked
    · exact (finishBoundary_keepsInv s).trans (lockLoss_keepsInv _)

theorem putContext_keepsInv (i : Fin 2) (c : Context) (s : State) : Keeps s (putContext i c s) := .portFields rfl

theorem freeContextAt_keepsInv (i : Fin 2) (s : State) : Keeps s (freeContextAt i s) := .portFields rfl

theorem sendCell_keepsInv (c : Cell) (s : State) : Keeps s (sendCell c s) := lane_keepsInv _ s

theorem openPacket_keepsInv (b k : Bool) (c : Cell) (s : State) : Keeps s (openPacket b k c s) := by
  unfold openPacket
  split
  · exact (setFlag_keepsInv _ s).trans (putContext_keepsInv _ _ _)
  · split
    · exact putContext_keepsInv _ _ s
    · exact setFlag_keepsInv _ s

theorem extendPacket_keepsInv (last : Bool) (c : Cell) (s : State) : Keeps s (extendPacket last c s) := by
  unfold extendPacket
  split
  · exact setFlag_keepsInv _ s
  · split
    · exact setFlag_keepsInv _ s
    · split
      · exact putContext_keepsInv _ _ s
      · exact (freeContextAt_keepsInv _ s).trans (setFlag_keepsInv _ _)

theorem assemble_keepsInv (b : Bool) (c : Cell) (s : State) : Keeps s (assemble b c s) := by
  unfold assemble
  split
  · exact openPacket_keepsInv b true c s
  · exact openPacket_keepsInv b false c s
  · exact extendPacket_keepsInv false c s
  · exact extendPacket_keepsInv true c s
  · exact setFlag_keepsInv _ s

theorem fillPosition_keepsInv (s : State) : Keeps s (fillPosition s) := by
  unfold fillPosition
  split
  · refine Keeps.trans ?_ (sendCell_keepsInv _ _)
    exact .portFields rfl
  · refine Keeps.trans ?_ (sendCell_keepsInv _ _)
    exact .portFields rfl
  · exact sendCell_keepsInv _ s

theorem lockedCell_keepsInv (c : Cell) (s : State) : Keeps s (lockedCell c s) := by
  unfold lockedCell
  split
  · exact fillPosition_keepsInv s
  · split
    · exact (assemble_keepsInv false c s).trans (fillPosition_keepsInv _)
    · split
      · exact (assemble_keepsInv true c s).trans (sendCell_keepsInv c _)
      · split
        · exact (setFlag_keepsInv _ s).trans (fillPosition_keepsInv _)
        · exact sendCell_keepsInv c s

theorem execControlCell_keepsInv {c : Cell} {s t : State} (h : execControlCell c s = .next t) : Keeps s t := by
  cases h
  split
  · exact sendCell_keepsInv c s
  next locked =>
    split
    · exact Keeps.trans (.whileLocked (p := s.port) locked) (lockedCell_keepsInv c _)
    · exact .refl s

/-- A change of the reply queue and the notices. -/
theorem Keeps.queueFields {s : State} {q : List Place} {ns : List Notice} (places : s.ctl.queue.length ≤ 4 → q.length ≤ 4)
    (noHeld : NoHeld s → ∀ p ∈ q, p.isHeld = false) : Keeps s { s with ctl := { s.ctl with queue := q, notices := ns } } :=
  .ofCalm (ps := [.ctl]) (SameBut.ofParts fun p => by cases p <;> first | exact Or.inr rfl | exact Or.inl (by decide))
    { settings := ⟨rfl, rfl, rfl, rfl⟩, noHeld := noHeld, places := places, idle := id }

theorem takeOutgoing_keepsInv (s : State) : Keeps s (takeOutgoing s) := by
  unfold takeOutgoing
  split
  next p q _ hq =>
    refine Keeps.trans (t := { s with ctl := { s.ctl with queue := q } }) ?_ ?_
    · refine .queueFields (fun h => ?_) fun h p hp => h p (by simp [hq, hp])
      rw [hq, List.length_cons] at h
      omega
    · exact .portFields rfl
  · exact .refl s

theorem queueOneNotice_keepsInv (s : State) : Keeps s (queueOneNotice s) := by
  unfold queueOneNotice
  split
  · split
    next free =>
      have free : s.ctl.queue.length < 4 := of_decide_eq_true free
      refine .queueFields (fun _ => by simp; omega) fun h p hp => ?_
      rcases List.mem_append.mp hp with hp | hp
      · exact h p hp
      · rw [List.mem_singleton.mp hp]; rfl
    · exact .refl s
  · exact .refl s

/-! ### The boundary and the grants -/

theorem execFrameBoundary_keepsInv {up : Vector Sample 32} {examine batch : Bool} {s t : State}
    (h : execFrameBoundary up examine batch s = .next t) : Keeps s t := by
  cases h
  split
  next due =>
    dsimp only
    have advanced := (openFrame_keepsInv up due).trans (advanceAll_keepsInv (s := openFrame up s) (by simp [openFrame]))
    have batched : Keeps s (if batch then takeBatch (advanceAll (openFrame up s)) else advanceAll (openFrame up s)) := by
      split
      · exact advanced.trans (takeBatch_keepsInv _)
      · exact advanced
    refine Keeps.trans ?_ (closeIfSettled_keepsInv _)
    split
    · exact batched.trans (takeExam_keepsInv _)
    · exact batched
  · unfold repeatSlots
    split
    · exact lane_keepsInv _ s
    · exact .refl s

/-- A step of the boundary that is taken when it is due, and then the boundary's close. -/
theorem Keeps.dueThenClose {s u t : State} {p : Prop} [Decidable p] (h : p → Keeps s u)
    (ht : Host.Outcome.next (φ := Fault) (ρ := Refusal) (if p then closeIfSettled u else s) = .next t) : Keeps s t := by
  cases ht
  split
  next due => exact (h due).trans (closeIfSettled_keepsInv u)
  · exact .refl s

theorem mayGrant_locked {g : Grantee} {s : State} (h : mayGrant g s = true) : s.port.lock = .locked := by
  simp only [mayGrant, Bool.and_eq_true, decide_eq_true_eq] at h
  exact h.1.1

theorem spendGrant_keepsInv {g : Grantee} {s : State} (h : mayGrant g s = true) : Keeps s (spendGrant s) :=
  .whileLocked (p := s.port) (mayGrant_locked h)

theorem execCueFetchGrant_keepsInv {r : RunnerNo} {s t : State} (h : execCueFetchGrant r s = .next t) : Keeps s t := by
  cases h
  split
  next granted => exact (spendGrant_keepsInv granted).trans (fetchWindow_keepsInv r _)
  · exact .refl s

theorem execSectionWriteGrant_keepsInv {s t : State} (h : execSectionWriteGrant s = .next t) : Keeps s t := by
  cases h
  split
  next granted =>
    split
    · exact (spendGrant_keepsInv granted).trans (completeSectionWrite_keepsInv _ _)
    · exact .refl s
  · exact .refl s

/-- A change of the cue unit beside its runners. -/
theorem Keeps.cueFields {s : State} {c : CueUnit} (runners : c.runners = s.cue.runners)
    (memory : memoryGood s.cue.mem → memoryGood c.mem) : Keeps s { s with cue := c } :=
  .ofCalm (ps := [.cue]) (SameBut.ofParts fun p => by cases p <;> first | exact Or.inr rfl | exact Or.inl (by decide))
    (.ofParts rfl rfl) (memory := .inr memory) (runners := .inr fun h => by unfold RunnersGood; rwa [runners])
    (duck := .inr fun h src => by
      rw [duckMin, runners]
      exact h src)

theorem completeCueWrite_keepsInv (w : CueWrite) (s : State) : Keeps s (completeCueWrite w s) := by
  unfold completeCueWrite
  refine Keeps.trans ?_ ((reportWrites_keepsInv _ _ _).trans (fillReservation_keepsInv _ _ _ _))
  exact .cueFields rfl (memoryGood_writeEntries _ _)

theorem execCueWriteGrant_keepsInv {s t : State} (h : execCueWriteGrant s = .next t) : Keeps s t := by
  cases h
  split
  next granted =>
    split
    · exact (spendGrant_keepsInv granted).trans (completeCueWrite_keepsInv _ _)
    · exact .refl s
  · exact .refl s

theorem tableAccess_keepsInv {s : State} (h : mayGrant .table s = true) : Keeps s (tableAccess s) := by
  unfold tableAccess
  split
  next op hop => exact (spendGrant_keepsInv h).trans (stepTableOp_keepsInv op (by simp [hop]))
  · exact .refl s

theorem execTableAccessGrant_keepsInv {s t : State} (h : execTableAccessGrant s = .next t) : Keeps s t := by
  cases h
  split
  next granted => exact tableAccess_keepsInv granted
  · exact .refl s

theorem endTableStep_keepsInv (k : TableOpKind) (s : State) : Keeps s (endTableStep k s) := by
  unfold endTableStep
  split
  · split
    · exact (takeBatch_keepsInv s).trans (closeIfSettled_keepsInv _)
    · split
      next granted => exact tableAccess_keepsInv granted
      · exact .refl s
  · exact .refl s

end Sys2Proof.Machine

namespace Sys2Proof.Machine
-- One proof at a time: side by side the proofs start more threads than the memory limit allows.
set_option Elab.async false

/-! ### The taking of a packet -/

/-- A change of fields the invariants do not speak of, and of places. -/
theorem Moves.ofPlaces {s : State} {c : Control} (enabled : c.enabled = s.ctl.enabled)
    (places : s.ctl.queue.length ≤ 4 → c.queue.length ≤ 4) : Moves s { s with ctl := c } where
  places := places
  gate h := ⟨h.range, h.standby, h.hunt⟩
  memory := id
  duck := id
  commit := id
  sdv h := by rw [enabled]; exact h
  ranges := id
  runners := id
  fades := id

theorem takeOffer_moves {o : Offer} {s : State} (h : nextOffer s = some o) : Moves s (takeOffer o s) := by
  unfold takeOffer
  dsimp only
  split
  next placed =>
    have free : s.ctl.queue.length < 4 := by
      unfold nextOffer at h
      split at h
      next free => exact of_decide_eq_true free
      next =>
        split at h
        · cases h
        · simp only [Option.map_eq_some_iff] at h
          obtain ⟨x, -, rfl⟩ := h
          cases placed
    refine (freeContextAt_keepsInv o.ctx s).toMoves.trans ?_
    exact .ofPlaces rfl fun _ => by simp; omega
  · exact (freeContextAt_keepsInv o.ctx s).toMoves

/-- A step that moves on from another. -/
theorem Moves.after {s t u : State} (k : Moves t u) (h : Moves s t) : Moves s u := h.trans k

/-- A packet is taken and acted on so that no place stays held. -/
theorem takePacket_keepsInv {row : Option Request} {body : Context → State → State} (hb : ∀ c s, Settles s (body c s)) (s : State) :
    Keeps s (takePacket row body s) := by
  unfold takePacket
  split
  next o ho =>
    split
    · have taken := (queueNotices_keepsInv s).toMoves.trans (takeOffer_moves ho)
      have acted := hb o.packet (takeOffer o (queueNotices s))
      exact { taken.trans acted.toMoves with noHeld := fun _ => acted.settled }
    · exact .refl s
  · exact .refl s

theorem Moves.answer {s t : State} (h : Moves s t) (rq : Requester) (res : Result) (data : List Byte) :
    Settles s (answer rq res data t) where
  toMoves := h.trans (.ofPlaces rfl fun k => by simpa using k)
  settled p hp := by
    obtain ⟨q, -, rfl⟩ := List.mem_map.mp hp
    cases q <;> rfl

theorem Moves.reserve {s t : State} (h : Moves s t) (u : UnitId) : Settles s (reserve u t) where
  toMoves := h.trans (.ofPlaces rfl fun k => by simpa using k)
  settled p hp := by
    obtain ⟨q, -, rfl⟩ := List.mem_map.mp hp
    cases q <;> rfl

theorem Moves.release {s t : State} (h : Moves s t) : Settles s (releasePlace t) where
  toMoves := h.trans (.ofPlaces rfl fun k => (List.length_filter_le _ _).trans k)
  settled p hp := by simpa using (List.mem_filter.mp hp).2

/-- A refused request is answered, and nothing else. -/
theorem answer_settles (rq : Requester) (res : Result) (data : List Byte) (s : State) : Settles s (answer rq res data s) :=
  (Moves.refl s).answer rq res data

theorem decodeThen_settles {q : Request} {body : Requester → List Byte → State → State}
    (hb : ∀ rq data s, Settles s (body rq data s)) (c : Context) (s : State) : Settles s (decodeThen q body c s) := by
  unfold decodeThen
  split
  · exact answer_settles _ _ _ s
  · exact hb _ _ s

theorem takeRequest_keepsInv {q : Request} {body : Requester → List Byte → State → State}
    (hb : ∀ rq data s, Settles s (body rq data s)) {s t : State} (h : takeRequest q body s = .next t) : Keeps s t := by
  cases h
  exact takePacket_keepsInv (decodeThen_settles hb) s

theorem judgeUnknown_settles (c : Context) (s : State) : Settles s (judgeUnknown c s) := by
  unfold judgeUnknown refuseUnknown
  split
  · exact (setFlag_keepsInv _ s).toMoves.release
  · split
    · exact (Moves.refl s).release
    · split
      · exact (setFlag_keepsInv _ s).toMoves.answer _ _ _
      · split
        · exact (setFlag_keepsInv _ s).toMoves.answer _ _ _
        · exact answer_settles _ _ _ s

/-! ### The requests -/

theorem bodyReadStatus_settles (rq : Requester) (data : List Byte) (s : State) : Settles s (bodyReadStatus rq data s) := by
  unfold bodyReadStatus
  split
  · exact answer_settles _ _ _ s
  · refine Moves.answer ?_ _ _ _
    split
    · exact .ofPlaces rfl id
    · exact .refl s

/-- A change of the enable map that keeps SDV's enable state. -/
theorem enableMap_moves {s : State} {e : UnitEnables} (h : e.sdv = s.ctl.enabled.sdv) :
    Moves s { s with ctl := { s.ctl with enabled := e } } where
  places := id
  gate h := ⟨h.range, h.standby, h.hunt⟩
  memory := id
  duck := id
  commit := id
  sdv k := by dsimp only; rw [h]; exact k
  ranges := id
  runners := id
  fades := id

theorem enableEq_moves (on : Bool) (s : State) : Moves s (enableEq on s) := by
  unfold enableEq
  dsimp only
  split
  · exact (abortSectionWrite_keepsInv _).toMoves.after (enableMap_moves rfl)
  · exact enableMap_moves rfl

theorem enableCue_moves (on : Bool) (s : State) : Moves s (enableCue on s) := by
  unfold enableCue
  dsimp only
  split
  · exact (cueDisable_keepsInv _).toMoves.after (enableMap_moves rfl)
  · exact enableMap_moves rfl

theorem enableTable_moves (on : Bool) (s : State) : Moves s (enableTable on s) := by
  unfold enableTable
  dsimp only
  split
  · exact (abortTableOp_keepsInv _).toMoves.after (enableMap_moves rfl)
  · exact enableMap_moves rfl

/-- A step of the SDV unit and its enable state. -/
theorem Moves.ofSdv {s t : State} (h : SameBut [.ctl, .ramp, .sdv] s t) (places : s.ctl.queue.length ≤ 4 → t.ctl.queue.length ≤ 4)
    (sdv : SdvInv s.ctl.enabled.sdv s.sdv → SdvInv t.ctl.enabled.sdv t.sdv) (ranges : SdvRanges s.sdv → SdvRanges t.sdv)
    (ducks : t.ramp.duckTargets = s.ramp.duckTargets) : Moves s t where
  places := places
  gate := GateInv.ofSame h (by decide)
  memory k := by rwa [h .cue (by decide)]
  duck k := by unfold DuckInv; rwa [ducks, h .cue (by decide)]
  commit k := by rwa [h .commit (by decide)]
  sdv := sdv
  ranges := ranges
  runners k := by rwa [h .cue (by decide)]
  fades k := by rwa [h .eq (by decide)]

/-- R116: SDV's new enable state. A unit that is enabled was OFF before, without a manual speed. -/
theorem enableSdv_moves (on : Bool) (s : State) : Moves s (enableSdv on s) := by
  unfold enableSdv
  dsimp only
  generalize ht : ({ s with ctl := { s.ctl with enabled := { s.ctl.enabled with sdv := on } } } : State) = t
  have change : SameBut [.ctl, .ramp, .sdv] s t := by
    subst ht
    exact SameBut.ofParts fun p => by cases p <;> first | exact Or.inr rfl | exact Or.inl (by decide)
  have places : t.ctl.queue = s.ctl.queue := by rw [← ht]
  have enabled : t.ctl.enabled.sdv = on := by rw [← ht]
  have fields : t.sdv = s.sdv := by rw [← ht]
  have ducks : t.ramp = s.ramp := by rw [← ht]
  split
  next same => exact .ofSdv change (by rw [places]; exact id) (by rw [enabled, fields, ← same]; exact id) (by rw [fields]; exact id) (by rw [ducks])
  next changed =>
    split
    next isOn =>
      have off : SdvInv s.ctl.enabled.sdv s.sdv → s.sdv.state = .off := fun h => h.disabled (by simpa [isOn] using changed)
      unfold sdvEnable
      split
      · refine .ofSdv change (by rw [places]; exact id) (fun h => ?_) (by rw [fields]; exact id) (by rw [ducks])
        rw [enabled, fields, isOn]
        exact { h with disabled := by simp }
      · have calm := takeStateByAge_calm t
        refine .ofSdv (change.trans (takeStateByAge_same t)) (by rw [← places]; exact calm.places) (fun h => ?_)
          (by rw [← fields]; exact takeStateByAge_ranges) (by rw [takeStateByAge_ducks, ducks])
        obtain ⟨-, -, kept, -⟩ := calm.settings
        rw [kept]
        refine takeStateByAge_sdvInv (by rw [fields]; exact h.ageSpeed) ?_ (enabled.trans isOn)
        rw [fields]
        by_contra k
        simpa [h.manualSpeed.mp k] using off h
    next =>
      obtain ⟨ts, e⟩ : ∃ ts, (sdvDisable t).sdv = { t.sdv with state := .off, manual := none, boost := 0, targets := ts } :=
        stateThenManual_sdv 0 .off none t
      refine .ofSdv (change.trans (sdvDisable_same t)) (by rw [← places]; exact (stateThenManual_calm 0 .off none t).places)
        (fun h => ?_) (fun h => ?_) ((stateThenManual_ducks 0 .off none t).trans (by rw [ducks]))
      · rw [e, fields]
        exact ⟨fun _ => rfl, h.ageSpeed, by simp, fun _ => rfl⟩
      · rw [e, fields]
        exact { h with manual := by simp }

theorem bodyUnitEnable_settles (rq : Requester) (data : List Byte) (s : State) : Settles s (bodyUnitEnable rq data s) := by
  unfold bodyUnitEnable
  split
  · exact answer_settles _ _ _ s
  · split
    · exact answer_settles _ _ _ s
    · exact ((((enableEq_moves _ s).trans (enableSdv_moves _ _)).trans (enableCue_moves _ _)).trans (enableTable_moves _ _)).answer _ _ _

theorem resetUnit_keepsInv (u : UnitId) (s : State) : Keeps s (resetUnit u s) := by
  cases u
  · exact .refl s
  · exact stageReset_keepsInv s
  · exact eqReset_keepsInv s
  · exact sdvReset_keepsInv s
  · exact cueReset_keepsInv s
  · exact abortTableOp_keepsInv s

theorem bodyUnitReset_settles (rq : Requester) (data : List Byte) (s : State) : Settles s (bodyUnitReset rq data s) := by
  unfold bodyUnitReset
  split
  · exact answer_settles _ _ _ s
  · split
    · exact answer_settles _ _ _ s
    · split
      · exact answer_settles _ _ _ s
      · exact (resetUnit_keepsInv _ s).toMoves.answer _ _ _

theorem bodyNoticeEnable_settles (rq : Requester) (data : List Byte) (s : State) : Settles s (bodyNoticeEnable rq data s) := by
  unfold bodyNoticeEnable
  split
  · exact answer_settles _ _ _ s
  next a b c d _ =>
    have map : Moves s (setNoticeMap { setApplied := a, cueStopped := b, sdvState := c, ringRelocked := d } s) := .ofPlaces rfl id
    exact map.answer _ _ _

/-- A mode outside STANDBY, with the gate as it stands. -/
theorem mode_moves {m : Mode} (h : m ≠ .standby) (s : State) : Moves s { s with core := { s.core with mode := m } } where
  places := id
  gate k := ⟨k.range, fun e => absurd e h, k.hunt⟩
  memory := id
  duck := id
  commit := id
  sdv := id
  ranges := id
  runners := id
  fades := id

theorem Settles.mode {s t : State} (h : Settles s t) {m : Mode} (hm : m ≠ .standby) :
    Settles s { t with core := { t.core with mode := m } } :=
  { h.toMoves.trans (mode_moves hm t) with settled := h.settled }

theorem bodyMode_settles (rq : Requester) (data : List Byte) (s : State) : Settles s (bodyMode rq data s) := by
  unfold bodyMode
  split
  · exact answer_settles _ _ _ s
  · exact (mode_moves (by simp) s).answer _ _ _
  · split
    · unfold leaveRun
      have reserved := (Moves.refl s).reserve .ctrl
      dsimp only
      split
      · exact reserved.mode (by simp)
      · exact reserved.trans (enterStandby_keepsInv _)
    · exact answer_settles _ _ _ s

theorem setMap_keepsInv (output : Bool) (m : List (Option Slot)) (s : State) : Keeps s (setMap output m s) := by
  unfold setMap
  split <;> exact .portFields rfl

theorem bodySlotMap_settles (rq : Requester) (data : List Byte) (s : State) : Settles s (bodySlotMap rq data s) := by
  unfold bodySlotMap
  split
  · exact answer_settles _ _ _ s
  · dsimp only
    split
    · exact answer_settles _ _ _ s
    · split
      · exact answer_settles _ _ _ s
      · split
        · exact answer_settles _ _ _ s
        · split
          · exact answer_settles _ _ _ s
          · split
            · exact answer_settles _ _ _ s
            · exact (setMap_keepsInv _ _ s).toMoves.answer _ _ _

theorem bodyStageRecord_settles (rq : Requester) (data : List Byte) (s : State) : Settles s (bodyStageRecord rq data s) := by
  unfold bodyStageRecord
  split
  · exact answer_settles _ _ _ s
  · exact answer_settles _ _ _ s
  · split
    · unfold stageClose
      split
      · exact answer_settles _ _ _ s
      · split
        · exact answer_settles _ _ _ s
        · rename_i room
          split
          · exact (abortOpen_keepsInv s).toMoves.answer _ _ _
          · exact (acceptSet_keepsInv _ _ (not_le.mp room)).toMoves.answer _ _ _
    · unfold stageOpen
      split
      · rename_i room
        refine Moves.answer (Keeps.commitFields fun h => ?_).toMoves _ _ _
        exact ⟨by simp only [List.length_append, List.length_singleton]; exact room, h.2⟩
      · exact answer_settles _ _ _ s

theorem bodyAbortOpen_settles (rq : Requester) (data : List Byte) (s : State) : Settles s (bodyAbortOpen rq data s) :=
  (abortOpen_keepsInv s).toMoves.answer _ _ _

theorem bodyFlushQueue_settles (rq : Requester) (data : List Byte) (s : State) : Settles s (bodyFlushQueue rq data s) :=
  (flushQueue_keepsInv s).toMoves.answer _ _ _

/-- A change of the EQ unit that keeps its crossfade slots. -/
theorem Keeps.eqFields {s : State} {e : EqUnit} (slots : e.slots = s.eq.slots) : Keeps s { s with eq := e } :=
  .ofCalm (ps := [.eq]) (SameBut.ofParts fun p => by cases p <;> first | exact Or.inr rfl | exact Or.inl (by decide))
    (.ofParts rfl rfl) (fades := .inr (FadesInv.ofSlots slots))

theorem startSectionWrite_settles (sec : SectionNo) (kind : WriteKind) (c : Coeffs) {s t : State} (h : Moves s t) :
    Settles s (startSectionWrite sec kind c t) := by
  unfold startSectionWrite
  have pending : Keeps t { t with eq := { t.eq.putState sec .loading with pendingWrite := some { sec := sec, kind := kind, coeffs := c } } } :=
    .eqFields rfl
  have first := pending.trans (.cueFields (c := { t.cue with cueFirst := t.cue.pendingWrite.isSome }) rfl id)
  exact (h.trans (first.trans (reportWrites_keepsInv _ _ _)).toMoves).reserve .eq

theorem bodySectionLoad_settles (rq : Requester) (data : List Byte) (s : State) : Settles s (bodySectionLoad rq data s) := by
  unfold bodySectionLoad
  split
  · exact answer_settles _ _ _ s
  · split
    · exact answer_settles _ _ _ s
    · exact startSectionWrite_settles _ _ _ (Keeps.eqFields (e := s.eq.markUsed _) rfl).toMoves

theorem bodySectionWrite_settles (rq : Requester) (data : List Byte) (s : State) : Settles s (bodySectionWrite rq data s) := by
  unfold bodySectionWrite
  split
  · exact answer_settles _ _ _ s
  · dsimp only
    split
    · exact startSectionWrite_settles _ _ _ (.refl s)
    · exact answer_settles _ _ _ s

theorem bodySectionRelease_settles (rq : Requester) (data : List Byte) (s : State) : Settles s (bodySectionRelease rq data s) := by
  unfold bodySectionRelease
  dsimp only
  split
  · exact (releaseSection_keepsInv _ s).toMoves.answer _ _ _
  · exact answer_settles _ _ _ s

/-- The free values move on. -/
theorem free_keepsInv (n : Nat) (s : State) : Keeps s { s with free := n } :=
  .ofCalm (ps := [.free]) (SameBut.ofParts fun p => by cases p <;> first | exact Or.inr rfl | exact Or.inl (by decide))
    (.ofParts rfl rfl)

theorem takeReport_settles (c : Context) (s : State) : Settles s (takeReport c s) := by
  unfold takeReport
  split
  · exact (speedReport_keepsInv _ _ s).toMoves.release
  · exact decodeThen_settles (fun rq data s => (speedReport_keepsInv _ _ s).toMoves.answer _ _ _) c s

theorem parseConfig_ranges {data : List Byte} {hold fallback hyst rampMs : Nat}
    (h : parseConfig data = some (hold, fallback, hyst, rampMs)) :
    1 ≤ hold ∧ hold < fallback ∧ fallback ≤ 65535 ∧ hyst ≤ 16 ∧ rampMs ≤ 65535 := by
  unfold parseConfig at h
  split at h
  · split at h
    · rename_i range
      cases h
      exact ⟨range.1, range.2.1, u16_le _ _, range.2.2, u16_le _ _⟩
    · cases h
  · cases h

theorem bodySdvConfig_settles (rq : Requester) (data : List Byte) (s : State) : Settles s (bodySdvConfig rq data s) := by
  unfold bodySdvConfig
  split
  · exact answer_settles _ _ _ s
  next h => exact (setConfig_keepsInv (parseConfig_ranges h) s).toMoves.answer _ _ _

theorem bodySdvManual_settles (rq : Requester) (data : List Byte) (s : State) : Settles s (bodySdvManual rq data s) := by
  unfold bodySdvManual
  dsimp only
  split
  · exact answer_settles _ _ _ s
  next range =>
    split
    · exact answer_settles _ _ _ s
    next on => exact (enterManual_keepsInv (not_lt.mp range) on).toMoves.answer _ _ _

theorem bodySdvAuto_settles (rq : Requester) (data : List Byte) (s : State) : Settles s (bodySdvAuto rq data s) := by
  unfold bodySdvAuto
  split
  next manual => exact (leaveManual_keepsInv manual).toMoves.answer _ _ _
  · exact answer_settles _ _ _ s

theorem startCueWrite_settles (a : CueAddr) (es : List CueEntry) (s : State) : Settles s (startCueWrite a es s) := by
  unfold startCueWrite
  refine Moves.reserve (Keeps.toMoves ?_) .cue
  exact .cueFields rfl id

theorem bodyCueWrite_settles (rq : Requester) (data : List Byte) (s : State) : Settles s (bodyCueWrite rq data s) := by
  unfold bodyCueWrite
  dsimp only
  split
  · exact answer_settles _ _ _ s
  · exact startCueWrite_settles _ _ s

theorem bodyCueStart_settles (rq : Requester) (data : List Byte) (s : State) : Settles s (bodyCueStart rq data s) := by
  unfold bodyCueStart
  split
  · exact answer_settles _ _ _ s
  · split
    · exact (startRunner_keepsInv _ _ s).toMoves.answer _ _ _
    · exact answer_settles _ _ _ s

theorem latchRelease_settles (rq : Requester) {r : RunnerNo} {s : State}
    (state : (s.cue.runners[r]).state = .stepping ∨ (s.cue.runners[r]).state = .fetching) : Settles s (latchRelease rq r s) := by
  unfold latchRelease
  split
  · exact answer_settles _ _ _ s
  · exact (latch_keepsInv state).toMoves.answer _ _ _

theorem bodyCueRelease_settles (rq : Requester) (data : List Byte) (s : State) : Settles s (bodyCueRelease rq data s) := by
  unfold bodyCueRelease releaseRunner
  split
  · exact answer_settles _ _ _ s
  · split
    next => exact (completeWait_keepsInv _ _ s).toMoves.answer _ _ _
    next h => exact latchRelease_settles rq (.inl h)
    next h => exact latchRelease_settles rq (.inr h)
    next => exact answer_settles _ _ _ s
    next => exact answer_settles _ _ _ s

theorem bodyCueHalt_settles (rq : Requester) (data : List Byte) (s : State) : Settles s (bodyCueHalt rq data s) := by
  unfold bodyCueHalt
  split
  · exact answer_settles _ _ _ s
  · exact (haltRunner_keepsInv _ s).toMoves.answer _ _ _

theorem table_moves (x : Option TableOp) (s : State) : Moves s { s with table := x } where
  places := id
  gate k := ⟨k.range, k.standby, k.hunt⟩
  memory := id
  duck := id
  commit := id
  sdv := id
  ranges := id
  runners := id
  fades := id

theorem bodyTableRead_settles (rq : Requester) (data : List Byte) (s : State) : Settles s (bodyTableRead rq data s) := by
  unfold bodyTableRead startRead
  split
  · exact answer_settles _ _ _ s
  next op _ =>
    have counted := (countLive_keepsInv op.table op.step s).toMoves
    split
    · exact (table_moves _ s).reserve .table
    · dsimp only
      split
      · exact counted.answer _ _ _
      · exact (counted.trans (table_moves _ _)).reserve .table

theorem bodyDigest_settles (rq : Requester) (data : List Byte) (s : State) : Settles s (bodyDigest rq data s) := by
  unfold bodyDigest
  split
  · exact answer_settles _ _ _ s
  · split
    · exact answer_settles _ _ _ s
    · split
      · exact answer_settles _ _ _ s
      · exact (table_moves _ s).reserve .table

theorem execTableRead_keepsInv {s t : State} (h : execTableRead s = .next t) : Keeps s t := by
  cases h
  split
  · exact .refl s
  · exact takePacket_keepsInv (decodeThen_settles bodyTableRead_settles) s

/-! ### All commands -/

theorem exec_keepsInv {c : Instr} {s t : State} (h : exec c s = .next t) : Keeps s t := by
  cases c with
  | powerOn strap => cases h; exact powerOn_keepsInv strap s
  | syncReceived spacing => exact execSyncReceived_keepsInv h
  | syncMissing => exact execSyncMissing_keepsInv h
  | frameBoundary up examine batch => exact execFrameBoundary_keepsInv h
  | rampComplete i => exact .dueThenClose (fun _ => takeRampEnd_keepsInv i s) h
  | crossfadeEnd i => exact .dueThenClose (fun _ => takeFadeEnd_keepsInv i s) h
  | leavingEnd => exact .dueThenClose (fun _ => enterStandby_keepsInv s) h
  | setApplication => exact .dueThenClose (fun _ => takeExam_keepsInv s) h
  | sdvTick => exact .dueThenClose (fun _ => takeTick_keepsInv s) h
  | cueFetchGrant r => exact execCueFetchGrant_keepsInv h
  | stepComplete r => exact .dueThenClose (fun _ => completeEntry_keepsInv r s) h
  | waitTimeout r => exact .dueThenClose (fun _ => completeWait_keepsInv r true s) h
  | sectionWriteGrant => exact execSectionWriteGrant_keepsInv h
  | cueWriteGrant => exact execCueWriteGrant_keepsInv h
  | tableAccessGrant => exact execTableAccessGrant_keepsInv h
  | tableReadComplete => cases h; exact endTableStep_keepsInv .read s
  | digestEnd => cases h; exact endTableStep_keepsInv .digest s
  | controlCell cell => exact execControlCell_keepsInv h
  | outgoingPacketTake => cases h; exact (queueNotices_keepsInv s).trans (takeOutgoing_keepsInv _)
  | noticeQueue => cases h; exact queueOneNotice_keepsInv s
  | unknownRequest => cases h; exact takePacket_keepsInv judgeUnknown_settles s
  | identify => exact takeRequest_keepsInv (fun rq _ s => answer_settles rq _ _ s) h
  | readStatus => exact takeRequest_keepsInv bodyReadStatus_settles h
  | unitEnable => exact takeRequest_keepsInv bodyUnitEnable_settles h
  | unitReset => exact takeRequest_keepsInv bodyUnitReset_settles h
  | partReset => exact takeRequest_keepsInv (fun _ _ s => partReset_settles s) h
  | noticeEnable => exact takeRequest_keepsInv bodyNoticeEnable_settles h
  | mode => exact takeRequest_keepsInv bodyMode_settles h
  | slotMap => exact takeRequest_keepsInv bodySlotMap_settles h
  | stageRecord => exact takeRequest_keepsInv bodyStageRecord_settles h
  | abortOpen => exact takeRequest_keepsInv bodyAbortOpen_settles h
  | flushQueue => exact takeRequest_keepsInv bodyFlushQueue_settles h
  | setStatus => exact takeRequest_keepsInv (fun rq _ s => answer_settles rq _ _ s) h
  | sectionLoad => exact takeRequest_keepsInv bodySectionLoad_settles h
  | sectionWrite => exact takeRequest_keepsInv bodySectionWrite_settles h
  | sectionRelease => exact takeRequest_keepsInv bodySectionRelease_settles h
  | poolStatus => exact takeRequest_keepsInv (fun rq _ s => (free_keepsInv _ s).toMoves.answer rq _ _) h
  | speedReport => cases h; exact takePacket_keepsInv takeReport_settles s
  | sdvConfig => exact takeRequest_keepsInv bodySdvConfig_settles h
  | sdvManual => exact takeRequest_keepsInv bodySdvManual_settles h
  | sdvAuto => exact takeRequest_keepsInv bodySdvAuto_settles h
  | sdvStatus => exact takeRequest_keepsInv (fun rq _ s => (free_keepsInv _ s).toMoves.answer rq _ _) h
  | cueWrite => exact takeRequest_keepsInv bodyCueWrite_settles h
  | cueStart => exact takeRequest_keepsInv bodyCueStart_settles h
  | cueRelease => exact takeRequest_keepsInv bodyCueRelease_settles h
  | cueHalt => exact takeRequest_keepsInv bodyCueHalt_settles h
  | cueStatus => exact takeRequest_keepsInv (fun rq _ s => answer_settles rq _ _ s) h
  | tableRead => exact execTableRead_keepsInv h
  | digest => exact takeRequest_keepsInv bodyDigest_settles h

/-- The queue of commands is no part of the invariants. -/
theorem pending_keepsInv (cs : List Instr) (s : State) : Keeps s { s with pending := cs } :=
  .ofCalm (ps := [.pending]) (SameBut.ofParts fun p => by cases p <;> first | exact Or.inr rfl | exact Or.inl (by decide))
    (.ofParts rfl rfl)

theorem step_keepsInv {s t : State} (h : step s = .next t) : Keeps s t := by
  unfold step at h
  split at h
  · cases h; exact .refl s
  · exact (pending_keepsInv _ s).trans (exec_keepsInv h)

/-- Settles O5: each command keeps the invariant of each part by itself (`Keeps`). -/
theorem stepKeepsInv : Obligations.StepKeepsInv :=
  ⟨fun _ _ inv h => (step_keepsInv h).inv inv, fun _ _ inv h => (step_keepsInv h).countInv inv⟩

end Sys2Proof.Machine

namespace Sys2Proof.Machine
-- One proof at a time: side by side the proofs start more threads than the memory limit allows.
set_option Elab.async false

/-! ## What the TABLE unit hears of writes (R149) -/

theorem NoNotice.ofCtl {s t : State} (h : t.ctl = s.ctl) : NoNotice s t := by
  unfold NoNotice
  rw [h]
  exact ⟨rfl, rfl⟩

theorem NoNotice.foldl {α : Type} {f : State → α → State} (h : ∀ s a, NoNotice s (f s a)) : ∀ (l : List α) (s : State),
    NoNotice s (l.foldl f s)
  | [], s => .refl s
  | a :: l, s => (h s a).trans (NoNotice.foldl h l (f s a))

/-- Writes that say the same. -/
theorem WritesHeard.congr {v w : TableId → Nat → Prop} {as : List Answer} {s t : State} (h : WritesHeard v as s t)
    (e : ∀ d n, v d n ↔ w d n) : WritesHeard w as s t := by
  have : v = w := funext fun d => funext fun n => propext (e d n)
  rwa [← this]

/-- What an update outside the control unit and the TABLE unit leaves of it. -/
theorem WritesHeard.of_ctl {w : TableId → Nat → Prop} {as : List Answer} {s s' t t' : State} (h : WritesHeard w as s t)
    (hs : s'.ctl = s.ctl ∧ s'.table = s.table) (ht : t'.ctl = t.ctl ∧ t'.table = t.table) : WritesHeard w as s' t' := by
  obtain ⟨ends, stands⟩ := h
  rw [WritesHeard, hs.2, ht.2]
  exact ⟨fun op ho hk hn => (ends op ho hk hn).imp_right fun a => a.of_ctl hs.1 ht.1,
    fun hw => (stands hw).imp_right fun a => a.of_ctl hs.1 ht.1⟩

theorem WritesHeard.refl {w : TableId → Nat → Prop} (none : ∀ d n, ¬ w d n) (s : State) : WritesHeard w [] s s :=
  ⟨fun _ _ _ ⟨n, hn, _⟩ => absurd hn (none _ n), fun _ => ⟨rfl, .refl s⟩⟩

/-- R149: a digest that has covered a written entry ends, and nothing else does. -/
theorem reportWrites_heard (d : TableId) (is : List Nat) (s : State) :
    WritesHeard (fun t n => t = d ∧ n ∈ is) [] s (reportWrites d is s) := by
  unfold reportWrites
  split
  next h => exact ⟨fun op ho => absurd (h.symm.trans ho) (by simp), fun _ => ⟨rfl, .refl s⟩⟩
  next op h =>
    have disturbed : is.any (op.disturbedBy d) = true ↔
        op.kind = .digest ∧ ∃ n, (op.table = d ∧ n ∈ is) ∧ op.first ≤ n ∧ n < op.next := by
      simp only [List.any_eq_true, TableOp.disturbedBy, Bool.and_eq_true, decide_eq_true_eq]
      constructor
      · rintro ⟨n, mem, ⟨⟨kind, table⟩, first⟩, next⟩
        exact ⟨kind, n, ⟨table, mem⟩, first, next⟩
      · rintro ⟨kind, n, ⟨table, mem⟩, first, next⟩
        exact ⟨n, mem, ⟨⟨kind, table⟩, first⟩, next⟩
    split
    next hit =>
      obtain ⟨answered, ended, -⟩ := endTableOp_answered .ok (digestData .disturbed op) s
      refine ⟨fun op' ho hk hn => ?_, fun hw => ?_⟩
      · rw [h] at ho
        cases ho
        exact ⟨ended, answered⟩
      · obtain ⟨kind, n, written, first, next⟩ := disturbed.mp hit
        have := hw op h kind n written
        omega
    next miss =>
      refine ⟨fun op' ho hk hn => ?_, fun _ => ⟨rfl, .refl s⟩⟩
      rw [h] at ho
      cases ho
      exact absurd (disturbed.mpr ⟨hk, hn⟩) miss

theorem reportWrites_noNotice (d : TableId) (is : List Nat) (s : State) : NoNotice s (reportWrites d is s) := by
  unfold reportWrites
  split
  · exact .refl s
  · split
    · obtain ⟨-, -, quiet⟩ := endTableOp_answered .ok (digestData .disturbed ‹TableOp›) s
      exact quiet
    · exact .refl s

/-- Writes after writes. -/
theorem WritesHeard.trans {v w : TableId → Nat → Prop} {s t u : State} (h : WritesHeard v [] s t) (k : WritesHeard w [] t u) :
    WritesHeard (fun d n => v d n ∨ w d n) [] s u := by
  obtain ⟨hEnds, hStands⟩ := h
  obtain ⟨kEnds, kStands⟩ := k
  by_cases first : ∃ op, s.table = some op ∧ op.kind = .digest ∧ ∃ n, v op.table n ∧ op.first ≤ n ∧ n < op.next
  · obtain ⟨op, ho, hk, hn⟩ := first
    obtain ⟨ended, answered⟩ := hEnds op ho hk hn
    obtain ⟨same, more⟩ := kStands fun op' ho' => by rw [ended] at ho'; cases ho'
    refine ⟨fun op' ho' _ _ => ?_, fun out => ?_⟩
    · rw [ho] at ho'
      cases ho'
      exact ⟨same.trans ended, by simpa using answered.trans more fun a _ b hb => absurd hb (List.not_mem_nil)⟩
    · obtain ⟨n, written, lo, hi⟩ := hn
      have := out op ho hk n (.inl written)
      omega
  · have out : ∀ op : TableOp, s.table = some op → op.kind = .digest → ∀ n, v op.table n → n < op.first ∨ op.next ≤ n :=
      fun op ho hk n hn => by
        by_contra k
        exact first ⟨op, ho, hk, n, hn, by omega, by omega⟩
    obtain ⟨same, quiet⟩ := hStands out
    refine ⟨fun op ho hk ⟨n, hn, lo, hi⟩ => ?_, fun all => ?_⟩
    · have written : w op.table n := hn.resolve_left fun hv => by have := out op ho hk n hv; omega
      obtain ⟨ended, answered⟩ := kEnds op (same.trans ho) hk ⟨n, written, lo, hi⟩
      exact ⟨ended, quiet.trans answered fun a ha => absurd ha (List.not_mem_nil)⟩
    · obtain ⟨same', quiet'⟩ := kStands fun op ho hk n hn => all op (same.symm.trans ho) hk n (.inr hn)
      exact ⟨same'.trans same, quiet.trans quiet' fun a ha => absurd ha (List.not_mem_nil)⟩

/-- Answers of other units after the writes. -/
theorem WritesHeard.thenAnswered {w : TableId → Nat → Prop} {as : List Answer} {s t u : State} (h : WritesHeard w [] s t)
    (k : Answered as t u) (table : u.table = t.table) (other : ∀ a ∈ as, a.unit ≠ .table) : WritesHeard w as s u := by
  obtain ⟨ends, stands⟩ := h
  refine ⟨fun op ho hk hn => ?_, fun out => ?_⟩
  · obtain ⟨ended, answered⟩ := ends op ho hk hn
    refine ⟨table.trans ended, answered.trans k fun a ha b hb => ?_⟩
    rw [List.mem_singleton.mp ha]
    exact (other b hb).symm
  · obtain ⟨same, quiet⟩ := stands out
    exact ⟨table.trans same, quiet.trans k fun a ha => absurd ha (List.not_mem_nil)⟩

/-- Of the units the writes answer the TABLE unit alone. -/
theorem WritesHeard.answered {w : TableId → Nat → Prop} {s t : State} (h : WritesHeard w [] s t) :
    ∃ as, Answered as s t ∧ ∀ a ∈ as, a.unit = .table := by
  obtain ⟨ends, stands⟩ := h
  by_cases hit : ∃ op, s.table = some op ∧ op.kind = .digest ∧ ∃ n, w op.table n ∧ op.first ≤ n ∧ n < op.next
  · obtain ⟨op, ho, hk, hn⟩ := hit
    exact ⟨_, (ends op ho hk hn).2, by simp⟩
  · refine ⟨[], (stands fun op ho hk n hn => ?_).2, by simp⟩
    by_contra k
    exact hit ⟨op, ho, hk, n, hn, by omega, by omega⟩

/-! ## The end of crossfades (R94, R95) -/

theorem mem_oldSections {e : EqUnit} {n : SectionNo} :
    n ∈ oldSections e ↔ ∃ (i : Fin 4) (f : Crossfade), e.slots[i] = some f ∧ n ∈ f.old := by
  unfold oldSections
  rw [List.mem_flatten]
  constructor
  · rintro ⟨l, hl, hn⟩
    obtain ⟨x, hx, rfl⟩ := List.mem_map.mp hl
    cases x with
    | none => exact absurd hn (List.not_mem_nil)
    | some f =>
      obtain ⟨i, hi, e⟩ := List.getElem_of_mem hx
      exact ⟨⟨i, by simpa using hi⟩, f, by simpa using e, hn⟩
  · rintro ⟨i, f, hf, hn⟩
    refine ⟨f.old, List.mem_map.mpr ⟨some f, ?_, rfl⟩, hn⟩
    rw [← hf]
    simp

/-- Sections put into a state hold it; all else of the pool stands. -/
theorem EqUnit.putStates_at (st : SectionState) (n : SectionNo) : ∀ (is : List SectionNo) (e : EqUnit),
    (e.putStates is st).sections[n] = { e.sections[n] with state := if n ∈ is then st else (e.sections[n]).state }
  | [], e => by simp [EqUnit.putStates]
  | i :: is, e => by
    refine (EqUnit.putStates_at st n is (e.putState i st)).trans ?_
    by_cases h : n = i
    · subst h
      simp [EqUnit.putState]
    · have : ¬ i.val = n.val := fun k => h (Fin.ext k.symm)
      simp [EqUnit.putState, this, h]

/-- The sections that slot `i` holds of an old chain. -/
def EqUnit.retires (e : EqUnit) (i : Fin 4) (n : SectionNo) : Prop := ∃ f : Crossfade, e.slots[i] = some f ∧ n ∈ f.old

/-- R94, R95: what the end of one slot makes of the EQ unit. -/
theorem endSlot_eq (i : Fin 4) (s : State) :
    (endSlot i s).eq = { s.eq with slots := s.eq.slots.set i none, sections := (endSlot i s).eq.sections } ∧
    ∀ n : SectionNo, (s.eq.retires i n → (endSlot i s).eq.sections[n] = { s.eq.sections[n] with state := .loaded }) ∧
      (¬ s.eq.retires i n → (endSlot i s).eq.sections[n] = s.eq.sections[n]) := by
  unfold endSlot
  split
  next f hf =>
    rw [reportSections_eq]
    refine ⟨by dsimp only; rw [EqUnit.putStates_eq], fun n => ⟨fun ⟨g, hg, hn⟩ => ?_, fun out => ?_⟩⟩
    · rw [hf] at hg
      cases hg
      exact (EqUnit.putStates_at .loaded n f.old s.eq).trans (by rw [if_pos hn])
    · refine (EqUnit.putStates_at .loaded n f.old s.eq).trans ?_
      rw [if_neg fun hn => out ⟨f, hf, hn⟩]
  next hf =>
    refine ⟨?_, fun n => ⟨fun ⟨g, hg, _⟩ => absurd (hf.symm.trans hg) (by simp), fun _ => rfl⟩⟩
    rw [← hf]
    simp

theorem endSlot_retires {i j : Fin 4} {n : SectionNo} (s : State) : (endSlot i s).eq.retires j n ↔ j ≠ i ∧ s.eq.retires j n := by
  unfold EqUnit.retires
  obtain ⟨e, -⟩ := endSlot_eq i s
  rw [e]
  dsimp only
  by_cases h : j = i
  · subst h; simp
  · have : ¬ i.val = j.val := fun k => h (Fin.ext k.symm)
    simp [h, this]

/-- R95: what the end of slots, one after another, makes of the EQ unit. -/
theorem endSlots_eq : ∀ (is : List (Fin 4)) (s : State),
    let t := is.foldl (fun s i => endSlot i s) s
    t.eq = { s.eq with slots := t.eq.slots, sections := t.eq.sections } ∧
    (∀ j : Fin 4, t.eq.slots[j] = if j ∈ is then none else s.eq.slots[j]) ∧
    ∀ n : SectionNo, ((∃ i ∈ is, s.eq.retires i n) → t.eq.sections[n] = { s.eq.sections[n] with state := .loaded }) ∧
      ((∀ i ∈ is, ¬ s.eq.retires i n) → t.eq.sections[n] = s.eq.sections[n])
  | [], s => ⟨rfl, by simp, by simp⟩
  | i :: is, s => by
    obtain ⟨headEq, headAt⟩ := endSlot_eq i s
    obtain ⟨tailEq, tailSlots, tailAt⟩ := endSlots_eq is (endSlot i s)
    refine ⟨tailEq.trans (by rw [headEq]; rfl), fun j => ?_, fun n => ⟨fun ⟨k, hk, hn⟩ => ?_, fun out => ?_⟩⟩
    · refine (tailSlots j).trans ?_
      rw [headEq]
      by_cases h : j = i
      · subst h; simp
      · have : ¬ i.val = j.val := fun k => h (Fin.ext k.symm)
        simp [h, this]
    · obtain ⟨landed, stands⟩ := tailAt n
      obtain ⟨headLanded, headStands⟩ := headAt n
      have head : ((endSlot i s).eq.sections[n] = { s.eq.sections[n] with state := .loaded }) ∨
          (endSlot i s).eq.sections[n] = s.eq.sections[n] := (em (s.eq.retires i n)).imp headLanded headStands
      by_cases later : ∃ j ∈ is, (endSlot i s).eq.retires j n
      · refine (landed later).trans ?_
        rcases head with e | e <;> rw [e]
      · have first : k = i := by
          by_contra ne
          exact later ⟨k, (List.mem_cons.mp hk).resolve_left ne, (endSlot_retires s).mpr ⟨ne, hn⟩⟩
        subst first
        exact (stands fun j hj hr => later ⟨j, hj, hr⟩).trans (headLanded hn)
    · refine ((tailAt n).2 fun j hj hr => ?_).trans ((headAt n).2 (out i (by simp)))
      exact out j (by simp [hj]) ((endSlot_retires s).mp hr).2

theorem endAllSlots_eq (s : State) :
    (endAllSlots s).eq = { s.eq with slots := (endAllSlots s).eq.slots, sections := (endAllSlots s).eq.sections } ∧
    (∀ j : Fin 4, (endAllSlots s).eq.slots[j] = none) ∧
    ∀ n : SectionNo, (endAllSlots s).eq.sections[n] =
      { s.eq.sections[n] with state := if n ∈ oldSections s.eq then .loaded else (s.eq.sections[n]).state } := by
  obtain ⟨rest, slots, sections⟩ := endSlots_eq (List.finRange 4) s
  refine ⟨rest, fun j => (slots j).trans (by simp), fun n => ?_⟩
  by_cases old : n ∈ oldSections s.eq
  · obtain ⟨i, f, hf, hn⟩ := mem_oldSections.mp old
    rw [if_pos old]
    exact (sections n).1 ⟨i, by simp, f, hf, hn⟩
  · rw [if_neg old]
    exact (sections n).2 fun i _ ⟨f, hf, hn⟩ => old (mem_oldSections.mpr ⟨i, f, hf, hn⟩)

theorem endSlot_noNotice (i : Fin 4) (s : State) : NoNotice s (endSlot i s) := by
  unfold endSlot
  split
  · exact reportWrites_noNotice _ _ _
  · exact .refl s

theorem reportSections_heard (is : List SectionNo) {s t : State} (ctl : t.ctl = s.ctl) (table : t.table = s.table) :
    WritesHeard (sectionEntries is) [] s (reportSections is t) := by
  unfold reportSections
  have heard := (reportWrites_heard .sections (is.map Fin.val) t).of_ctl ⟨ctl.symm, table.symm⟩ ⟨rfl, rfl⟩
  exact heard.congr fun d n => and_congr_right fun _ => List.mem_map

/-- R88: the TABLE unit hears of the sections a slot's end returns. -/
theorem endSlot_heard (i : Fin 4) (s : State) :
    WritesHeard (fun d n => d = .sections ∧ ∃ m : SectionNo, s.eq.retires i m ∧ m.val = n) [] s (endSlot i s) := by
  unfold endSlot
  split
  next f hf =>
    refine WritesHeard.congr (v := sectionEntries f.old) ?_ fun d n => and_congr_right fun _ => ?_
    · exact reportSections_heard f.old rfl rfl
    · exact ⟨fun ⟨m, hm, e⟩ => ⟨m, ⟨f, hf, hm⟩, e⟩, fun ⟨m, ⟨g, hg, hm⟩, e⟩ => ⟨m, by rw [hf] at hg; cases hg; exact hm, e⟩⟩
  next hf => exact .refl (fun d n ⟨_, m, ⟨g, hg, _⟩, _⟩ => by rw [hf] at hg; cases hg) s

theorem endSlots_heard : ∀ (is : List (Fin 4)) (s : State),
    WritesHeard (fun d n => d = .sections ∧ ∃ i ∈ is, ∃ m : SectionNo, s.eq.retires i m ∧ m.val = n) [] s
      (is.foldl (fun s i => endSlot i s) s)
  | [], s => .refl (by simp) s
  | i :: is, s => by
    refine ((endSlot_heard i s).trans (endSlots_heard is (endSlot i s))).congr fun d n => ?_
    simp only [endSlot_retires]
    constructor
    · rintro (⟨hd, m, hr, e⟩ | ⟨hd, j, hj, m, ⟨-, hr⟩, e⟩)
      · exact ⟨hd, i, by simp, m, hr, e⟩
      · exact ⟨hd, j, by simp [hj], m, hr, e⟩
    · rintro ⟨hd, j, hj, m, hr, e⟩
      by_cases h : j = i
      · subst h; exact .inl ⟨hd, m, hr, e⟩
      · exact .inr ⟨hd, j, (List.mem_cons.mp hj).resolve_left h, m, ⟨h, hr⟩, e⟩

theorem endAllSlots_heard (s : State) : WritesHeard (sectionEntries (oldSections s.eq)) [] s (endAllSlots s) := by
  refine (endSlots_heard (List.finRange 4) s).congr fun d n => and_congr_right fun _ => ?_
  constructor
  · rintro ⟨i, -, m, ⟨f, hf, hm⟩, e⟩
    exact ⟨m, mem_oldSections.mpr ⟨i, f, hf, hm⟩, e⟩
  · rintro ⟨m, hm, e⟩
    obtain ⟨i, f, hf, hm⟩ := mem_oldSections.mp hm
    exact ⟨i, by simp, m, ⟨f, hf, hm⟩, e⟩

theorem endAllSlots_noNotice (s : State) : NoNotice s (endAllSlots s) := NoNotice.foldl (fun s i => endSlot_noNotice i s) _ s

/-! ## The halt of both runners (R130) -/

/-- R130: what a halt makes of a runner. -/
def Runner.silenced (x : Runner) : Runner := { x.halted with requests := Vector.replicate 12 0 }

theorem haltRunner_cue (r : RunnerNo) (s : State) : (haltRunner r s).cue = (onRunner r Runner.silenced s).cue := by
  refine (setRequests_cue r 0 haltMs (List.finRange 12) (onRunner r Runner.halted s)).trans ?_
  rw [onRunner_twice]
  simp only [foldl_set_all]
  rfl

theorem haltBoth_cue (s : State) : (haltBoth s).cue = { s.cue with runners := (haltBoth s).cue.runners } ∧
    ∀ r : RunnerNo, (haltBoth s).cue.runners[r] = (s.cue.runners[r]).silenced := by
  have e : (haltBoth s).cue = (onRunner 1 Runner.silenced (onRunner 0 Runner.silenced s)).cue :=
    (haltRunner_cue 1 (haltRunner 0 s)).trans (onRunner_cue_congr (haltRunner_cue 0 s) 1 _)
  rw [e]
  refine ⟨rfl, fun r => ?_⟩
  match r with
  | 0 => rw [onRunner_other (by decide), onRunner_at]
  | 1 => rw [onRunner_at, onRunner_other (by decide)]

/-- R40: in STANDBY no retarget makes an entry. -/
theorem RampUnit.retarget_standby {u : RampUnit} (empty : ∀ i : Fin 64, u.entries[i] = none) (k : Key) (old new : Gain) (ms : Nat) :
    u.retarget .standby k old new ms = u := by
  have lost : u.find k = none := by
    unfold RampUnit.find
    rw [List.find?_eq_none]
    intro i _
    rw [empty i]
    simp
  unfold RampUnit.retarget RampUnit.jumps RampUnit.freeKey
  simp [lost]

theorem setRequests_standby (r : RunnerNo) (v : Int) (ms : Nat) : ∀ (srcs : List Source) (s : State), s.core.mode = .standby →
    (∀ i : Fin 64, s.ramp.entries[i] = none) → (setRequests r v ms srcs s).ramp.entries = s.ramp.entries
  | [], _, _, _ => rfl
  | src :: srcs, s, mode, empty => by
    have e : (setRequest r v ms src s).ramp.entries = s.ramp.entries := by
      unfold setRequest
      split
      · rfl
      · simp only [recomputeDuck, onRunner_keeps, mode, RampUnit.retarget_standby empty]
    have mode' : (setRequest r v ms src s).core.mode = .standby := by
      rw [(setRequest_same r v ms src s) .core (by decide)]; exact mode
    exact (setRequests_standby r v ms srcs _ mode' (by rw [e]; exact empty)).trans e

theorem haltRunner_standby (r : RunnerNo) {s : State} (mode : s.core.mode = .standby) (empty : ∀ i : Fin 64, s.ramp.entries[i] = none) :
    (haltRunner r s).ramp.entries = s.ramp.entries := by
  unfold haltRunner
  have keptMode : (onRunner r Runner.halted s).core.mode = .standby := by rw [(onRunner_same r _ s) .core (by decide)]; exact mode
  have keptRamp : (onRunner r Runner.halted s).ramp = s.ramp := (onRunner_same r _ s) .ramp (by decide)
  rw [setRequests_standby r 0 haltMs _ _ keptMode (by rw [keptRamp]; exact empty), keptRamp]

theorem haltBoth_standby {s : State} (mode : s.core.mode = .standby) (empty : ∀ i : Fin 64, s.ramp.entries[i] = none) (i : Fin 64) :
    (haltBoth s).ramp.entries[i] = none := by
  have first := haltRunner_standby 0 mode empty
  have mode' : (haltRunner 0 s).core.mode = .standby := by rw [(haltRunner_same 0 s) .core (by decide)]; exact mode
  rw [haltBoth, haltRunner_standby 1 mode' (by rw [first]; exact empty), first]
  exact empty i

end Sys2Proof.Machine

namespace Sys2Proof.Machine
-- One proof at a time: side by side the proofs start more threads than the memory limit allows.
set_option Elab.async false

/-! ## The entry into STANDBY (R15, R49, R95, R130) -/

/-- R15, R49: STANDBY with the gate at 0 and no ramp. -/
def resting (s : State) : State := { s with core := { s.core with mode := .standby, gate := 0 }, ramp := s.ramp.empty }

/-- R15: the entry into STANDBY, before the MODE request is answered. -/
def landed (s : State) : State := haltBoth (endAllSlots (resting s))

/-- R15: what the entry into STANDBY makes of a state. -/
structure Landed (s t : State) : Prop where
  core : t.core = { s.core with mode := .standby, gate := 0 }
  ramps : ∀ i : Fin 64, t.ramp.entries[i] = none
  slots : ∀ i : Fin 4, t.eq.slots[i] = none
  chains : t.eq.chains = s.eq.chains
  sections : ∀ n : SectionNo, t.eq.sections[n] =
    { s.eq.sections[n] with state := if n ∈ oldSections s.eq then .loaded else (s.eq.sections[n]).state }
  cue : t.cue = { s.cue with runners := t.cue.runners }
  runners : ∀ r : RunnerNo, t.cue.runners[r] = (s.cue.runners[r]).silenced
  heard : WritesHeard (sectionEntries (oldSections s.eq)) [] s t
  quiet : NoNotice s t
  same : SameBut [.ctl, .core, .ramp, .eq, .cue, .table] s t

theorem resting_same (s : State) : SameBut [.core, .ramp] s (resting s) :=
  SameBut.ofParts fun p => by cases p <;> first | exact Or.inr rfl | exact Or.inl (by decide)

theorem resting_empty (s : State) (i : Fin 64) : (resting s).ramp.entries[i] = none := by
  simp [resting, RampUnit.empty]

theorem landed_landed (s : State) : Landed s (landed s) := by
  have ended := endAllSlots_same (resting s)
  have halted := haltBoth_same (endAllSlots (resting s))
  have endedCore : (endAllSlots (resting s)).core = (resting s).core := ended .core (by decide)
  have endedRamp : (endAllSlots (resting s)).ramp = (resting s).ramp := ended .ramp (by decide)
  have endedCue : (endAllSlots (resting s)).cue = s.cue := ended .cue (by decide)
  have ramps : ∀ i : Fin 64, (landed s).ramp.entries[i] = none := by
    unfold landed
    exact haltBoth_standby (by rw [endedCore]; rfl) (by rw [endedRamp]; exact resting_empty s)
  have heard := endAllSlots_heard (resting s)
  have quiet := endAllSlots_noNotice (resting s)
  obtain ⟨rest, slots, sections⟩ := endAllSlots_eq (resting s)
  have cue : (landed s).cue = { s.cue with runners := (landed s).cue.runners } ∧
      ∀ r : RunnerNo, (landed s).cue.runners[r] = (s.cue.runners[r]).silenced := by
    have both := haltBoth_cue (endAllSlots (resting s))
    rw [endedCue] at both
    unfold landed
    exact both
  obtain ⟨cue, runners⟩ := cue
  have core := (halted .core (by decide)).trans endedCore
  have eq : (landed s).eq = _ := halted .eq (by decide)
  have ctl : (landed s).ctl = _ := halted .ctl (by decide)
  have table : (landed s).table = _ := halted .table (by decide)
  refine ⟨core, ramps, ?slots, ?chains, ?sections, cue, runners, ?heard, ?quiet, ?same⟩
  case slots => rw [eq]; exact slots
  case chains => rw [eq, rest]; rfl
  case sections => rw [eq]; exact sections
  case heard => exact heard.of_ctl ⟨rfl, rfl⟩ ⟨ctl, table⟩
  case quiet => unfold NoNotice at quiet ⊢; rw [ctl]; exact quiet
  case same =>
    exact ((resting_same s).mono (by decide)).trans ((ended.mono (by decide)).trans (halted.mono (by decide)))

/-- R45: with all requests at 0 every DUCK target is 0. -/
theorem DuckInv.silent {t : State} (h : DuckInv t) {cs : Vector Runner 2}
    (runners : ∀ r : RunnerNo, t.cue.runners[r] = (cs[r]).silenced) (src : Source) : t.ramp.duckTargets[src] = 0 := by
  rw [h src, duckMin_eq, runners 0, runners 1]
  simp [Runner.silenced]

/-- Settles O22: R15, by what the entry into STANDBY makes of a state, followed by the reply in the place reserved for it. -/
theorem leavingEndEntersStandby : Obligations.LeavingEndEntersStandby := by
  intro s inv mode gate
  have h := landed_landed s
  have filled := fillReservation_same .ctrl .ok [0] (landed s)
  have heard := h.heard.thenAnswered (fillReservation_answered .ctrl .ok [0] (landed s)) (filled .table (by decide)) (by simp)
  have quiet := h.quiet.trans (fillReservation_noNotice .ctrl .ok [0] (landed s))
  have core : (enterStandby s).core = (landed s).core := filled .core (by decide)
  have ramp : (enterStandby s).ramp = (landed s).ramp := filled .ramp (by decide)
  have eq : (enterStandby s).eq = (landed s).eq := filled .eq (by decide)
  have cue : (enterStandby s).cue = (landed s).cue := filled .cue (by decide)
  have duck : DuckInv (enterStandby s) := ((enterStandby_keepsInv s).inv inv).duck
  have runners : ∀ r : RunnerNo, (enterStandby s).cue.runners[r] = (s.cue.runners[r]).silenced := by
    rw [cue]; exact h.runners
  refine ⟨enterStandby s, ?exec, ?core, ?ramps, duck.silent runners, ?slots, ?chains, ?states, ?coeffs, runners,
    ?memory, heard, quiet, (enterStandby_calm s).settings, enterStandby_same s⟩
  case exec =>
    show Host.Outcome.next _ = _
    rw [if_pos ⟨mode, gate⟩]
  case core => rw [core, h.core, ← gate]
  case ramps => rw [ramp]; exact h.ramps
  case slots => rw [eq]; exact h.slots
  case chains => rw [eq]; exact h.chains
  case states => intro n; rw [eq, h.sections n]
  case coeffs => intro n; rw [eq, h.sections n]
  case memory => rw [cue, h.cue]

end Sys2Proof.Machine

namespace Sys2Proof.Machine
-- One proof at a time: side by side the proofs start more threads than the memory limit allows.
set_option Elab.async false

/-! ## The MODE request (R11 to R15) -/

/-- The unit byte of a packet that is a request of row `q` is that of its unit. -/
theorem UnitId.ofByte_code {b : Byte} {u : UnitId} (h : UnitId.ofByte b = some u) : b = u.code := by
  unfold UnitId.ofByte at h
  apply BitVec.eq_of_toNat_eq
  split at h <;> cases h <;> assumption

theorem Request.ofCode_unit {u : UnitId} {b : Byte} {q : Request} (h : Request.ofCode u b = some q) : q.unit = u := by
  unfold Request.ofCode at h
  split at h <;> cases h <;> rfl

theorem Offered.unitByte {q : Request} {c : Context} {i : Fin 2} {s : State} (h : Offered q c i s) :
    c.requester.unitByte = q.unit.code := by
  have row := h.row
  unfold Context.row at row
  rw [h.request] at row
  split at row
  · cases row
  · rw [if_neg (by simp)] at row
    unfold Context.named at row
    split at row
    next u hu => rw [Request.ofCode_unit row]; exact UnitId.ofByte_code hu
    next => cases row

/-- R166: notices bring no reservation. -/
theorem reservationOf_enqueueNotices (u : UnitId) : ∀ (ns : List Notice) (q : List Place),
    reservationOf u (enqueueNotices ns q).1 = reservationOf u q
  | [], _ => rfl
  | n :: ns, q => by
    unfold enqueueNotices
    split
    · rw [reservationOf_enqueueNotices u ns]
      simp [reservationOf_eq, List.findSome?_append, Place.heldFor]
    · rfl

theorem reservationOf_afterTake (u : UnitId) (i : Fin 2) (s : State) :
    reservationOf u (afterTake i s).ctl.queue = reservationOf u s.ctl.queue := reservationOf_enqueueNotices u _ _

/-- A place is filled for a unit only where the unit has its reservation. -/
theorem map_filled_of_none {u : UnitId} {res : Result} {data : List Byte} : ∀ {q : List Place}, reservationOf u q = none →
    q.map (Place.filled u res data) = q
  | [], _ => rfl
  | .held rq :: q, h => congrArg (_ :: ·) (map_filled_of_none (q := q) h)
  | .packet p :: q, h => congrArg (_ :: ·) (map_filled_of_none (q := q) h)
  | .reservation rq :: q, h => by
    unfold reservationOf at h
    split at h
    · cases h
    next other =>
      rw [List.map_cons, map_filled_of_none h]
      simp [Place.filled, other]

/-- The state without the last place of the reply queue and with a unit out of execution. -/
def lastWithdrawn (u : UnitId) (s : State) : State :=
  { s with ctl := { s.ctl with queue := s.ctl.queue.dropLast, executing := s.ctl.executing.set u.marker false } }

theorem lastWithdrawn_same (u : UnitId) (s : State) : SameBut [.ctl] s (lastWithdrawn u s) :=
  SameBut.ofParts fun p => by cases p <;> first | exact Or.inr rfl | exact Or.inl (by decide)

theorem eq_dropLast_append {α : Type} {q : List α} {n : Nat} {x : α} (length : q.length = n + 1) (last : q[n]? = some x) :
    q = q.dropLast ++ [x] := by
  have ne : q ≠ [] := by rintro rfl; simp at length
  have e : q.getLast ne = x := by
    rw [List.getLast_eq_getElem]
    obtain ⟨h, hx⟩ := List.getElem?_eq_some_iff.mp last
    simpa [length] using hx
  rw [← e, List.dropLast_append_getLast]

theorem reservationOf_append_other {u : UnitId} {rq : Requester} (q : List Place) (other : rq.unitByte ≠ u.code) :
    reservationOf u (q ++ [.reservation rq]) = reservationOf u q := by
  simp [reservationOf_eq, List.findSome?_append, Place.heldFor, other]

section
variable {u : UnitId} {c : Context} {v w : State}

/-- A reservation of a unit that the answers pass by stands in the last place. -/
theorem Answered.last {as : List Answer} (h : Answered as (reserved u c v) w) (quiet : NoNotice (reserved u c v) w)
    (other : ∀ a ∈ as, c.requester.unitByte ≠ a.unit.code) :
    w.ctl.queue = (lastWithdrawn u w).ctl.queue ++ [.reservation c.requester] := by
  obtain ⟨-, length⟩ := quiet
  refine eq_dropLast_append (n := v.ctl.queue.length) (by simpa [reserved] using length) ?_
  exact h.kept _ _ (by simp [reserved]) fun rq e a ha => by cases e; exact other a ha

theorem NoNotice.withdrawn (quiet : NoNotice (reserved u c v) w)
    (last : w.ctl.queue = (lastWithdrawn u w).ctl.queue ++ [.reservation c.requester]) : NoNotice v (lastWithdrawn u w) := by
  obtain ⟨notices, length⟩ := quiet
  rw [last] at length
  exact ⟨notices, by simpa [reserved] using length⟩

/-- Answers pass by a reservation of another unit: without it they are the same. -/
theorem Answered.withdrawn {as : List Answer} (h : Answered as (reserved u c v) w) (quiet : NoNotice (reserved u c v) w)
    (unit : c.requester.unitByte = u.code) (idle : inExecution u v = false) (other : ∀ a ∈ as, a.unit ≠ u)
    (codes : ∀ a ∈ as, c.requester.unitByte ≠ a.unit.code) : Answered as v (lastWithdrawn u w) := by
  have last := h.last quiet codes
  obtain ⟨-, length⟩ := quiet
  have length' : (lastWithdrawn u w).ctl.queue.length = v.ctl.queue.length := by
    rw [last] at length
    simpa [reserved] using length
  have before : ∀ {n : Nat} {p : Place}, v.ctl.queue[n]? = some p → (reserved u c v).ctl.queue[n]? = some p := fun hp => by
    obtain ⟨hn, -⟩ := List.getElem?_eq_some_iff.mp hp
    simpa [reserved, List.getElem?_append_left hn] using hp
  have after : ∀ {n : Nat} {p q : Place}, v.ctl.queue[n]? = some q → w.ctl.queue[n]? = some p →
      (lastWithdrawn u w).ctl.queue[n]? = some p := fun hq hp => by
    obtain ⟨hn, -⟩ := List.getElem?_eq_some_iff.mp hq
    rw [last, List.getElem?_append_left (by omega)] at hp
    exact hp
  refine ⟨fun n rq a hn ha hu => after hn (h.filled n rq a (before hn) ha hu), fun n p hn hp => after hn (h.kept n p (before hn) hp),
    fun p hp => ?_, fun x => ?_, ?_⟩
  · rw [← length', List.drop_length] at hp
    exact absurd hp List.not_mem_nil
  · have marker := h.markers x
    by_cases same : x = u
    · subst same
      rw [idle, Bool.false_and]
      simp [inExecution, lastWithdrawn]
    · have away : x.marker ≠ u.marker := fun e => same (UnitId.marker_injective e)
      have ne : u.marker.val ≠ x.marker.val := fun e => away (Fin.ext e.symm)
      simpa [inExecution, lastWithdrawn, reserved, ne] using marker
  · have first : ∀ a ∈ as.filter (fun a => decide (a.res = .ok)),
        Machine.reservationOf a.unit (reserved u c v).ctl.queue = Machine.reservationOf a.unit v.ctl.queue := fun a ha =>
      reservationOf_append_other _ (codes a (List.mem_filter.mp ha).1)
    refine h.tag.trans (List.foldl_ext _ _ _ fun tag a ha => ?_)
    rw [first a ha]

/-- The reply is written into the place the request's reservation held. -/
theorem fill_lastWithdrawn (last : w.ctl.queue = (lastWithdrawn u w).ctl.queue ++ [.reservation c.requester])
    (unit : c.requester.unitByte = u.code) (alone : reservationOf u (lastWithdrawn u w).ctl.queue = none) (data : List Byte) :
    fillReservation u .ok data w = replied c .ok data (lastWithdrawn u w) := by
  have found : reservationOf u w.ctl.queue = some c.requester := by
    rw [last, reservationOf_eq, List.findSome?_append, ← reservationOf_eq, alone]
    simp [Place.heldFor, unit]
  have places : w.ctl.queue.map (Place.filled u .ok data) =
      (lastWithdrawn u w).ctl.queue ++ [.packet (replyPacket c.requester .ok data)] := by
    rw [last, List.map_append, map_filled_of_none alone]
    simp [Place.filled, unit]
  unfold fillReservation replied
  rw [found, places]
  rfl

/-- What the TABLE unit hears of writes between the reservation and the reply of another unit's request. -/
theorem WritesHeard.withdrawn {written : TableId → Nat → Prop} (h : WritesHeard written [] (reserved u c v) w)
    (quiet : NoNotice (reserved u c v) w) (unit : c.requester.unitByte = u.code) (other : u ≠ .table)
    (code : u.code ≠ UnitId.table.code) (idle : inExecution u v = false) : WritesHeard written [] v (lastWithdrawn u w) := by
  obtain ⟨ends, stands⟩ := h
  refine ⟨fun op ho hk hn => ?_, fun out => ?_⟩
  · obtain ⟨ended, answered⟩ := ends op ho hk hn
    exact ⟨ended, answered.withdrawn quiet unit idle (by simpa using other.symm) (by simpa [unit] using code)⟩
  · obtain ⟨same, answered⟩ := stands out
    exact ⟨same, answered.withdrawn quiet unit idle (by simp) (by simp)⟩
end

/-- R13, R15: MODE STANDBY with the gate at 0: the reservation and its reply, the entry into STANDBY between them, is the reply
to the entry into STANDBY. -/
theorem enterStandby_reserved {c : Context} {v : State} (unit : c.requester.unitByte = UnitId.ctrl.code)
    (idle : inExecution .ctrl v = false) (alone : reservationOf .ctrl v.ctl.queue = none) :
    let t := lastWithdrawn .ctrl (landed (reserved .ctrl c v))
    enterStandby (reserved .ctrl c v) = replied c .ok [0] t ∧
    WritesHeard (sectionEntries (oldSections v.eq)) [] v t ∧ NoNotice v t := by
  have h := landed_landed (reserved .ctrl c v)
  obtain ⟨as, answered, table⟩ := h.heard.answered
  have codes : ∀ a ∈ as, c.requester.unitByte ≠ a.unit.code := fun a ha => by rw [unit, table a ha]; decide
  have units : ∀ a ∈ as, a.unit ≠ .ctrl := fun a ha => by rw [table a ha]; decide
  have last := answered.last h.quiet codes
  have passed := answered.withdrawn h.quiet unit idle units codes
  have heard := h.heard.withdrawn h.quiet unit (by decide) (by decide) idle
  have keptEq : (reserved .ctrl c v).eq = v.eq := rfl
  rw [keptEq] at heard
  exact ⟨fill_lastWithdrawn last unit ((passed.reservationOf units).trans alone) [0], heard, h.quiet.withdrawn last⟩

theorem bit01_of_ne {b : Byte} (zero : b ≠ 0) (one : b ≠ 1) : bit01 b = none := by
  unfold bit01
  rw [if_neg zero, if_neg one]

end Sys2Proof.Machine

namespace Sys2Proof.Machine
-- One proof at a time: side by side the proofs start more threads than the memory limit allows.
set_option Elab.async false

/-! ## The MODE request, case by case -/

theorem bodyMode_bad {rq : Requester} {b : Byte} (zero : b ≠ 0) (one : b ≠ 1) (s : State) :
    bodyMode rq [b] s = answer rq .badValue [] s := by
  unfold bodyMode
  rw [List.getD_cons_zero, bit01_of_ne zero one]

theorem bodyMode_run (rq : Requester) (s : State) :
    bodyMode rq [1] s = answer rq .ok [1] { s with core := { s.core with mode := .run } } := rfl

theorem bodyMode_standby (rq : Requester) (s : State) :
    bodyMode rq [0] s = if s.core.mode = .run then leaveRun s else answerMode rq s := rfl

/-- An update outside the control unit between the taking of a request and its answer. -/
theorem answer_heldTake_of_ctl {s t : State} (c : Context) (i : Fin 2) (res : Result) (data : List Byte) (h : NoHeld s) :
    answer c.requester res data { t with ctl := (heldTake c i s).ctl } = replied c res data { t with ctl := (afterTake i s).ctl } := by
  have e := congrArg State.ctl (answer_heldTake c i res data h)
  exact congrArg (fun k => { t with ctl := k }) e

theorem freeContextAt_calm (i : Fin 2) (s : State) : Calm s (freeContextAt i s) := .ofParts rfl rfl

theorem afterTake_calm (i : Fin 2) (s : State) : Calm s (afterTake i s) :=
  (queueNotices_calm s).trans (freeContextAt_calm i _)

theorem resting_calm (s : State) : Calm s (resting s) := .ofParts rfl rfl

theorem landed_calm (s : State) : Calm s (landed s) :=
  (resting_calm s).trans ((endAllSlots_calm _).trans (haltBoth_calm _))

theorem landed_keepsInv (s : State) : Keeps s (landed s) := by
  have rests : Keeps s (resting s) :=
    .ofCalm (resting_same s) (resting_calm s) (gate := .inr fun h => ⟨by simp [resting], fun _ => rfl, fun hunt => ⟨rfl, (h.hunt hunt).2⟩⟩)
      (duck := .inr fun h => h)
  exact rests.trans ((endAllSlots_keepsInv _).trans (haltBoth_keepsInv _))

theorem afterTake_same (i : Fin 2) (s : State) : SameBut [.port, .ctl] s (afterTake i s) :=
  SameBut.ofParts fun p => by cases p <;> first | exact Or.inr rfl | exact Or.inl (by decide)

theorem reserved_same (u : UnitId) (c : Context) (s : State) : SameBut [.ctl] s (reserved u c s) :=
  SameBut.ofParts fun p => by cases p <;> first | exact Or.inr rfl | exact Or.inl (by decide)

/-- R13, R15: MODE STANDBY in RUN with the gate at 0. -/
theorem modeStandby_lands {c : Context} {i : Fin 2} {s : State} (held : NoHeld s) (busy : BusyInv s) (takes : Takes .mode c i s)
    (mode : s.core.mode = .run) (gate : s.core.gate = 0) :
    let w := landed (reserved .ctrl c (afterTake i s))
    let t := lastWithdrawn .ctrl w
    leaveRun (heldTake c i s) = replied c .ok [0] t ∧
    WritesHeard (sectionEntries (oldSections s.eq)) [] (afterTake i s) t ∧ NoNotice (afterTake i s) t := by
  have marker : inExecution .ctrl s = false := by rw [busy.ctrl, mode]; rfl
  have idle : inExecution .ctrl (afterTake i s) = false := marker
  have alone : reservationOf .ctrl (afterTake i s).ctl.queue = none := by
    rw [reservationOf_afterTake, ← Option.not_isSome_iff_eq_none, ← busy.reservation, marker]
    decide
  have left : leaveRun (heldTake c i s) = enterStandby (reserved .ctrl c (afterTake i s)) := by
    unfold leaveRun
    have core : (heldTake c i s).core = s.core := rfl
    rw [core, gate, if_neg (by decide), reserve_heldTake c i .ctrl held]
  have keptEq : (afterTake i s).eq = s.eq := rfl
  have entered := enterStandby_reserved takes.offered.unitByte idle alone
  rw [← left, keptEq] at entered
  exact entered

/-- Settles O21: R11 to R15, by the cases of the code and the mode; with the gate at 0 by what the entry into STANDBY makes of the
state in which the reply has its place. -/
theorem modeRequest : Obligations.ModeRequest := by
  intro c i b s held busy takes data
  have taken : exec .mode s = .next (bodyMode c.requester c.data (heldTake c i s)) := takeRequest_takes takes bodyMode
  rw [data] at taken
  refine ⟨fun zero one => ?_, ?_, ?_, ?_, ?_⟩
  · rw [taken, bodyMode_bad zero one, answer_heldTake c i _ _ held]
  · rintro rfl
    rw [taken, bodyMode_run]
    exact congrArg _ (answer_heldTake_of_ctl (t := { afterTake i s with core := { s.core with mode := .run } }) c i .ok [1] held)
  · rintro rfl mode
    have core : (heldTake c i s).core = s.core := rfl
    rw [taken, bodyMode_standby, core, mode, if_neg (by decide)]
    unfold answerMode
    rw [core, mode, answer_heldTake c i _ _ held]
    rfl
  · rintro rfl mode gate
    have core : (heldTake c i s).core = s.core := rfl
    rw [taken, bodyMode_standby, core, mode, if_pos rfl]
    unfold leaveRun
    rw [core, if_pos gate, reserve_heldTake c i .ctrl held]
    rfl
  · rintro rfl mode gate
    obtain ⟨left, heard, quiet⟩ := modeStandby_lands held busy takes mode gate
    have h := landed_landed (reserved .ctrl c (afterTake i s))
    have calm := landed_calm (reserved .ctrl c (afterTake i s))
    have duck := (landed_keepsInv (reserved .ctrl c (afterTake i s))).duck
    generalize landed (reserved .ctrl c (afterTake i s)) = w at left heard quiet h calm duck
    have core : (heldTake c i s).core = s.core := rfl
    refine ⟨lastWithdrawn .ctrl w, ?exec, h.core.trans ?core, h.ramps, h.slots, h.chains, h.sections, h.runners, h.cue,
      ?duck, heard, quiet, ?same, h.same .port (by decide), ?settings⟩
    case exec => rw [taken, bodyMode_standby, core, mode, if_pos rfl, left]
    case core => rw [← gate]; rfl
    case duck => exact fun inv => DuckInv.silent (t := w) (duck inv.duck) h.runners
    case same =>
      exact ((afterTake_same i s).mono (by decide)).trans (((reserved_same _ _ _).mono (by decide)).trans
        ((h.same.mono (by decide)).trans ((lastWithdrawn_same _ w).mono (by decide))))
    case settings => exact (afterTake_calm i s).settings.trans calm.settings

end Sys2Proof.Machine

namespace Sys2Proof.Machine
-- One proof at a time: side by side the proofs start more threads than the memory limit allows.
set_option Elab.async false

/-! ## What the boundary's advances make of the units (R8, R37, R94, R105, R123) -/

section
variable {x : Runner} (free : Nat)

theorem Runner.advance_resting (stepping : x.state ≠ .stepping) (waiting : x.state ≠ .waiting) : x.advance free = x := by
  unfold Runner.advance
  rw [if_neg (by simp [stepping, waiting])]

theorem Runner.advance_counts {n : Nat} (counting : x.state = .stepping ∨ x.state = .waiting) (frames : x.entryFrames = some n)
    (more : x.elapsed + 1 < n) : x.advance free = { x with elapsed := x.elapsed + 1 } := by
  unfold Runner.advance
  rw [if_pos counting, frames]
  simp only [more, if_true]

theorem Runner.advance_last {n : Nat} (counting : x.state = .stepping ∨ x.state = .waiting) (frames : x.entryFrames = some n)
    (last : n ≤ x.elapsed + 1) : x.advance free = { x with due := true } := by
  unfold Runner.advance
  rw [if_pos counting, frames]
  simp only [not_lt.mpr last, if_false]

/-- R121: the count of a WAIT without a timeout. -/
theorem Runner.advance_open_counts (waiting : x.state = .waiting) (frames : x.entryFrames = none) (more : x.elapsed < 6291360) :
    x.advance free = { x with elapsed := x.elapsed + 1 } := by
  unfold Runner.advance
  rw [if_pos (.inr waiting), frames]
  exact if_pos more

/-- R121, entry 9: past its range the count of a WAIT without a timeout is one of the range. -/
theorem Runner.advance_open_past (waiting : x.state = .waiting) (frames : x.entryFrames = none) (past : 6291360 ≤ x.elapsed) :
    ∃ e : Nat, e ≤ 6291360 ∧ x.advance free = { x with elapsed := e } := by
  refine ⟨Config.freeElapsed free % (maxElapsed + 1), Nat.lt_succ_iff.mp (Nat.mod_lt _ (Nat.succ_pos _)), ?_⟩
  unfold Runner.advance
  rw [if_pos (.inr waiting), frames]
  exact if_neg (not_lt.mpr past)
end

theorem advanceRunners_cue (s : State) : (advanceRunners s).cue = { s.cue with runners := (advanceRunners s).cue.runners } ∧
    ∀ r : RunnerNo, ∃ free : Nat, (advanceRunners s).cue.runners[r] = (s.cue.runners[r]).advance free := by
  have e : (advanceRunners s).cue = (onRunner 1 (Runner.advance (s.free + 1)) (onRunner 0 (Runner.advance s.free) s)).cue := rfl
  rw [e]
  refine ⟨rfl, fun r => ?_⟩
  match r with
  | 0 => exact ⟨s.free, by rw [onRunner_other (by decide), onRunner_at]⟩
  | 1 => exact ⟨s.free + 1, by rw [onRunner_at, onRunner_other (by decide)]⟩

theorem RampUnit.advance_at (u : RampUnit) (i : Fin 64) : u.advance.entries[i] = (u.entries[i]).map Ramp.advance := by
  simp [RampUnit.advance]

theorem EqUnit.advance_at (e : EqUnit) (i : Fin 4) : e.advance.slots[i] = (e.slots[i]).map Crossfade.advance := by
  simp [EqUnit.advance]

section
variable {s : State} {a : Nat}

theorem ageAdvance_phase (age : s.sdv.age = some a) (more : s.sdv.phase + 1 < 480) :
    (ageAdvance s).sdv = { s.sdv with phase := s.sdv.phase + 1 } := by
  unfold ageAdvance
  rw [age]
  exact congrArg State.sdv (if_pos more)

theorem ageAdvance_tick (age : s.sdv.age = some a) (last : 480 ≤ s.sdv.phase + 1) :
    (ageAdvance s).sdv = { s.sdv with tickDue := true } := by
  unfold ageAdvance
  rw [age]
  exact congrArg State.sdv (if_neg (not_lt.mpr last))

theorem ageAdvance_none (age : s.sdv.age = none) : (ageAdvance s).sdv = s.sdv := by
  unfold ageAdvance
  rw [age]
end

/-- R8, R37, R94, R105, R123, R145, R148: what the advances make of each part. -/
structure Advanced (s w : State) : Prop where
  core : w.core = { s.core with gate := gateStep s.core.mode s.core.gate }
  ramp : w.ramp = s.ramp.advance
  eq : w.eq = s.eq.advance
  cue : w.cue = { s.cue with runners := w.cue.runners }
  runners : ∀ r : RunnerNo, ∃ free : Nat, w.cue.runners[r] = (s.cue.runners[r]).advance free
  sdv : w.sdv = (ageAdvance s).sdv
  table : w.table = s.table.map fun op => if op.table.inMemory then op else { op with batchDue := true }

theorem advanceGains_same (s : State) : SameBut [.core, .ramp, .eq] s (advanceGains s) :=
  SameBut.ofParts fun p => by cases p <;> first | exact Or.inr rfl | exact Or.inl (by decide)

theorem markBatch_same (s : State) : SameBut [.table] s (markBatch s) :=
  SameBut.ofParts fun p => by cases p <;> first | exact Or.inr rfl | exact Or.inl (by decide)

/-- R105: the age's advance depends on the SDV unit alone. -/
theorem ageAdvance_sdv_congr {s t : State} (h : t.sdv = s.sdv) : (ageAdvance t).sdv = (ageAdvance s).sdv := by
  unfold ageAdvance
  rw [h]
  split
  · exact h
  · split <;> rfl

theorem advanceAll_same (s : State) : SameBut [.core, .ramp, .eq, .cue, .sdv, .table, .free] s (advanceAll s) :=
  (((advanceGains_same s).mono (by decide)).trans ((advanceRunners_same _).mono (by decide))).trans
    (((ageAdvance_same _).mono (by decide)).trans ((markBatch_same _).mono (by decide)))

theorem advanceAll_advanced (s : State) : Advanced s (advanceAll s) := by
  have gains := advanceGains_same s
  have counted := advanceRunners_same (advanceGains s)
  have aged := ageAdvance_same (advanceRunners (advanceGains s))
  have marked := markBatch_same (ageAdvance (advanceRunners (advanceGains s)))
  obtain ⟨cue, runners⟩ := advanceRunners_cue (advanceGains s)
  have gainsCue : (advanceGains s).cue = s.cue := gains .cue (by decide)
  rw [gainsCue] at cue runners
  have cueIs : (advanceAll s).cue = (advanceRunners (advanceGains s)).cue :=
    (marked .cue (by decide)).trans (aged .cue (by decide))
  refine ⟨?core, ?ramp, ?eq, ?cue, ?runners, ?sdv, ?table⟩
  case core => exact (marked .core (by decide)).trans ((aged .core (by decide)).trans (counted .core (by decide)))
  case ramp => exact (marked .ramp (by decide)).trans ((aged .ramp (by decide)).trans (counted .ramp (by decide)))
  case eq => exact (marked .eq (by decide)).trans ((aged .eq (by decide)).trans (counted .eq (by decide)))
  case cue => rw [cueIs]; exact cue
  case runners => rw [cueIs]; exact runners
  case sdv =>
    exact (marked .sdv (by decide)).trans (ageAdvance_sdv_congr ((counted .sdv (by decide)).trans (gains .sdv (by decide))))
  case table =>
    have before : (ageAdvance (advanceRunners (advanceGains s))).table = s.table :=
      (aged .table (by decide)).trans ((counted .table (by decide)).trans (gains .table (by decide)))
    unfold advanceAll markBatch
    rw [before]

end Sys2Proof.Machine

namespace Sys2Proof.Machine
-- One proof at a time: side by side the proofs start more threads than the memory limit allows.
set_option Elab.async false

/-! ## A step of a table operation (R145, R146, R148) -/

theorem TableOp.take_owed (op : TableOp) (s : State) : (op.take s).owed = op.owed - op.step := by
  cases h : op.kind <;> simp only [TableOp.take, TableOp.owed, h] <;> exact Nat.sub_add_eq _ _ _

theorem TableOp.take_owed_eq_zero_iff (op : TableOp) (s : State) : (op.take s).owed = 0 ↔ op.step = op.owed := by
  have least : op.step ≤ op.owed := min_le_right _ _
  rw [op.take_owed]
  omega

theorem digestData_end (op : TableOp) : digestData (if op.covered = op.count then .complete else .part) op =
    (if op.covered = op.count then 0 else 1) :: op.fields := by
  split <;> rfl

/-- R145, R146, R148: a step takes the entries of its pace, or all that are owed. -/
theorem stepTableOp_entriesTaken (op : TableOp) (s : State) : EntriesTaken op op.pace s s (stepTableOp op s) := by
  have counted : (countLive op.table op.step s).ctl = s.ctl := (countLive_same _ _ s) .ctl (by decide)
  have ends := op.take_owed_eq_zero_iff s
  refine ⟨fun more => ?_, fun all => ?_⟩
  · have notLast : ¬ (op.take s).owed = 0 := fun e => more.ne (ends.mp e)
    unfold stepTableOp
    rw [if_neg notLast]
    refine ⟨?_, counted⟩
    cases h : op.kind <;> simp [TableOp.take, TableOp.step, h]
  · unfold stepTableOp
    rw [if_pos (ends.mpr all)]
    unfold finishTableOp
    have kind : (op.take s).kind = op.kind := rfl
    rw [kind]
    cases h : op.kind with
    | read =>
      obtain ⟨answered, ended, quiet⟩ := endTableOp_answered .ok (readData (op.take s)) (countLive op.table op.step s)
      refine ⟨ended, ?_, (NoNotice.ofCtl counted).trans quiet⟩
      have reply := answered.of_ctl (s' := s) counted.symm rfl
      simpa [readData, TableOp.take, TableOp.step, h] using reply
    | digest =>
      dsimp only
      rw [digestData_end (op.take s)]
      obtain ⟨answered, ended, quiet⟩ := endTableOp_answered .ok
        ((if (op.take s).covered = (op.take s).count then 0 else 1) :: (op.take s).fields) (countLive op.table op.step s)
      refine ⟨ended, ?_, (NoNotice.ofCtl counted).trans quiet⟩
      have reply := answered.of_ctl (s' := s) counted.symm rfl
      simpa [TableOp.fields, TableOp.take, TableOp.step, h] using reply

/-- The entries are read from the units' state. -/
theorem entryBytes_congr {s t : State} (core : t.core = s.core) (ramp : t.ramp = s.ramp) (eq : t.eq = s.eq) (cue : t.cue = s.cue)
    (d : TableId) (i : Nat) : entryBytes t d i = entryBytes s d i := by
  unfold entryBytes
  rw [core, ramp, eq, cue]

theorem entriesBytes_congr {s t : State} (core : t.core = s.core) (ramp : t.ramp = s.ramp) (eq : t.eq = s.eq) (cue : t.cue = s.cue)
    (d : TableId) (first n : Nat) : entriesBytes t d first n = entriesBytes s d first n := by
  unfold entriesBytes
  simp only [entryBytes_congr core ramp eq cue]

/-- What a step takes depends on the entries and on the control unit alone. -/
theorem EntriesTaken.congr {op : TableOp} {pace : Nat} {v v' s s' t : State} (h : EntriesTaken op pace v s t)
    (same : SameBut [.frame, .ctl, .table] v v') (ctl : s'.ctl = s.ctl) : EntriesTaken op pace v' s' t := by
  have bytes := entriesBytes_congr (same .core (by decide)) (same .ramp (by decide)) (same .eq (by decide)) (same .cue (by decide))
    op.table op.next (min pace op.owed)
  obtain ⟨stands, ends⟩ := h
  unfold EntriesTaken
  dsimp only
  rw [bytes]
  refine ⟨fun more => ?_, fun all => ?_⟩
  · rw [ctl]
    exact stands more
  · obtain ⟨ended, answered, quiet⟩ := ends all
    refine ⟨ended, answered.of_ctl ctl rfl, ?_⟩
    unfold NoNotice
    rw [ctl]
    exact quiet

/-- Whether a batch was owed before does not matter. -/
theorem EntriesTaken.ofBatchDue {op : TableOp} {b : Bool} {pace : Nat} {v s t : State}
    (h : EntriesTaken { op with batchDue := b } pace v s t) : EntriesTaken op pace v s t := h

theorem TableOp.pace_live {op : TableOp} (live : op.table.inMemory = false) : op.pace = 8 := by
  unfold TableOp.pace
  cases h : op.table <;> rw [h] at live <;> first | rfl | cases live

end Sys2Proof.Machine

namespace Sys2Proof.Machine
-- One proof at a time: side by side the proofs start more threads than the memory limit allows.
set_option Elab.async false

/-! ## The examination of the head set (R65) leaves mode, gate and held sources -/

/-- Mode, gate and held source vector are unchanged. -/
def PathKept (s t : State) : Prop := t.core.mode = s.core.mode ∧ t.core.gate = s.core.gate ∧ t.core.held = s.core.held

theorem PathKept.ofCore {s t : State} (h : t.core = s.core) : PathKept s t := by
  unfold PathKept
  rw [h]
  exact ⟨rfl, rfl, rfl⟩

theorem PathKept.ofSame {ps : List Part} {s t : State} (h : SameBut ps s t) (out : Part.core ∉ ps := by decide) : PathKept s t :=
  .ofCore (h .core out)

theorem PathKept.trans {s t u : State} (h : PathKept s t) (k : PathKept t u) : PathKept s u := by
  obtain ⟨hm, hg, hh⟩ := h
  obtain ⟨km, kg, kh⟩ := k
  exact ⟨km.trans hm, kg.trans hg, kh.trans hh⟩

theorem writeRecords_path (rs : List ChangeRecord) (s : State) : PathKept s (writeRecords rs s) := by
  unfold PathKept
  rw [writeRecords_core]
  exact ⟨rfl, rfl, rfl⟩

theorem retargetSet_path (vs : List Move) (s : State) : PathKept s (retargetSet vs s) := by
  unfold PathKept
  rw [(retargetSet_changes vs s).1]
  exact ⟨rfl, rfl, rfl⟩

theorem applySet_path (q : QueuedSet) (s : State) : PathKept s (applySet q s) := by
  unfold applySet
  exact ((((writeRecords_path q.records s).trans (retargetSet_path _ _)).trans (.ofSame (swapChains_same _ _))).trans
    (.ofSame (tellSdv_same _ _ _))).trans (.ofSame (finishSet_same _ _))

theorem examineHead_path (s : State) : PathKept s (examineHead s) := by
  unfold examineHead
  split
  · exact .ofCore rfl
  · split
    · exact applySet_path _ s
    · exact .ofCore rfl

theorem takeExam_path (s : State) : PathKept s (takeExam s) := by
  unfold takeExam
  split
  · exact (PathKept.ofCore rfl).trans (examineHead_path _)
  · exact .ofCore rfl

theorem takeExam_frame {s : State} (due : s.frame.examDue = true) : (takeExam s).frame = { s.frame with examDue := false } := by
  unfold takeExam
  rw [if_pos due]
  exact (examineHead_same _) .frame (by decide)

/-! ## The steps of FRAME_BOUNDARY -/

/-- The boundary's advances and what is taken at once. -/
def boundaryTaken (up : Vector Sample 32) (examine batch : Bool) (s : State) : State :=
  let t := advanceAll (openFrame up s)
  let t := if batch then takeBatch t else t
  if examine then takeExam t else t

section
variable (up : Vector Sample 32) (batch : Bool) (s : State)

theorem exec_frameBoundary (examine : Bool) (due : s.frame.boundaryDue = true) :
    exec (.frameBoundary up examine batch) s = .next (closeIfSettled (boundaryTaken up examine batch s)) := by
  show Host.Outcome.next _ = _
  rw [if_pos due]
  rfl

theorem boundaryTaken_examine : boundaryTaken up true batch s = takeExam (boundaryTaken up false batch s) := rfl

theorem boundaryTaken_batch : boundaryTaken up false true s = takeBatch (advanceAll (openFrame up s)) := rfl

theorem boundaryTaken_plain : boundaryTaken up false false s = advanceAll (openFrame up s) := rfl

theorem boundaryTaken_same : SameBut [.frame, .ctl, .table] (advanceAll (openFrame up s)) (boundaryTaken up false batch s) := by
  cases batch with
  | true => exact takeBatch_same _
  | false => exact .refl _ _

theorem boundaryTaken_examined (examine : Bool) : SameBut [.frame, .ctl, .core, .ramp, .commit, .eq, .sdv, .table]
    (advanceAll (openFrame up s)) (boundaryTaken up examine batch s) := by
  have taken := boundaryTaken_same up batch s
  cases examine with
  | true => exact (taken.mono (by decide)).trans (takeExam_same _)
  | false => exact taken.mono (by decide)

theorem boundaryTaken_path (examine : Bool) : PathKept (advanceAll (openFrame up s)) (boundaryTaken up examine batch s) := by
  have taken : PathKept (advanceAll (openFrame up s)) (boundaryTaken up false batch s) :=
    .ofCore (boundaryTaken_same up batch s .core (by decide))
  cases examine with
  | true => exact taken.trans (takeExam_path _)
  | false => exact taken

theorem openFrame_calm : Calm s (openFrame up s) := .ofParts rfl rfl

theorem advanceAll_calm (s : State) : Calm s (advanceAll s) :=
  (((Calm.ofSame (advanceGains_same s)).trans (.ofSame (advanceRunners_same _))).trans (.ofSame (ageAdvance_same _))).trans
    (markBatch_calm _)

theorem boundaryTaken_calm (examine : Bool) : Calm s (boundaryTaken up examine batch s) := by
  have advanced : Calm s (boundaryTaken up false false s) := (openFrame_calm up s).trans (advanceAll_calm _)
  have taken : Calm s (boundaryTaken up false batch s) := by
    cases batch with
    | true => exact advanced.trans (takeBatch_calm _)
    | false => exact advanced
  cases examine with
  | true => exact taken.trans (takeExam_calm _)
  | false => exact taken

/-- R145, R148: a batch step of a live operation that is owed one. -/
theorem takeBatch_owed {op : TableOp} {s : State} (held : s.table = some op) (due : op.batchDue = true) :
    takeBatch s = stepTableOp op s := by
  unfold takeBatch
  rw [held]
  exact if_pos due

theorem takeBatch_notOwed {op : TableOp} {s : State} (held : s.table = some op) (due : op.batchDue = false) : takeBatch s = s := by
  unfold takeBatch
  rw [held]
  exact if_neg (by simp [due])

theorem takeBatch_none {s : State} (held : s.table = none) : takeBatch s = s := by
  unfold takeBatch
  rw [held]

/-- R142: the live entries a batch takes are counted in the frame. -/
theorem takeBatch_frame (s : State) : (takeBatch s).frame = { s.frame with
    liveTaken := match s.table with
      | some op =>
          if op.batchDue = true ∧ op.table.inMemory = false ∧ s.port.lock = .locked then s.frame.liveTaken + op.step
          else s.frame.liveTaken
      | none => s.frame.liveTaken } := by
  cases held : s.table with
  | none => exact congrArg State.frame (takeBatch_none held)
  | some op =>
    cases due : op.batchDue with
    | false => rw [takeBatch_notOwed held due]; simp [due]
    | true =>
      rw [takeBatch_owed held due, stepTableOp_frame, countLive_frame]
      simp [due]

theorem TableOp.step_live {op : TableOp} (live : op.table.inMemory = false) : op.step = min 8 op.owed := by
  unfold TableOp.step
  rw [TableOp.pace_live live]

/-- What the boundary's advances make of each part, the frame being opened first. -/
theorem boundary_advanced : Advanced s (advanceAll (openFrame up s)) := by
  obtain ⟨core, ramp, eq, cue, runners, sdv, table⟩ := advanceAll_advanced (openFrame up s)
  exact ⟨core, ramp, eq, cue, runners, sdv.trans (ageAdvance_sdv_congr rfl), table⟩

theorem boundaryTaken_frame (examine : Bool) : (boundaryTaken up examine batch s).frame =
    { boundaryDue := false
      opened := some { slots := up, sourceMap := s.port.sourceMap, outputMap := s.port.outputMap, eqOn := s.ctl.enabled.eq }
      examDue := !examine
      cellDue := true
      grantFree := true
      liveTaken := match s.table with
        | some op => if batch = true ∧ op.table.inMemory = false ∧ s.port.lock = .locked then min 8 op.owed else 0
        | none => 0 } := by
  have h := boundary_advanced up s
  have same := advanceAll_same (openFrame up s)
  have frame : (advanceAll (openFrame up s)).frame = (openFrame up s).frame := same .frame (by decide)
  have port : (advanceAll (openFrame up s)).port = s.port := same .port (by decide)
  have taken : (boundaryTaken up false batch s).frame = { (openFrame up s).frame with
      liveTaken := match s.table with
        | some op => if batch = true ∧ op.table.inMemory = false ∧ s.port.lock = .locked then min 8 op.owed else 0
        | none => 0 } := by
    cases batch with
    | false =>
      rw [boundaryTaken_plain, frame]
      cases s.table <;> simp [openFrame]
    | true =>
      rw [boundaryTaken_batch, takeBatch_frame, h.table, frame, port]
      cases s.table with
      | none => rfl
      | some op =>
        cases live : op.table.inMemory with
        | true => simp [live, openFrame]
        | false => simp [live, openFrame, TableOp.step_live, TableOp.owed]
  cases examine with
  | false => exact taken
  | true =>
    rw [boundaryTaken_examine, takeExam_frame (by rw [taken]; rfl), taken]
    rfl
end

end Sys2Proof.Machine

namespace Sys2Proof.Machine
-- One proof at a time: side by side the proofs start more threads than the memory limit allows.
set_option Elab.async false

/-! ## FRAME_BOUNDARY (R1, R8) -/

theorem Ramp.advance_counts {r : Ramp} (more : r.k + 1 < r.n) : r.advance = { r with k := r.k + 1 } := if_pos more

theorem Ramp.advance_last {r : Ramp} (last : r.n ≤ r.k + 1) : r.advance = { r with due := true } := if_neg (not_lt.mpr last)

theorem Crossfade.advance_counts {f : Crossfade} (more : f.k + 1 < 480) : f.advance = { f with k := f.k + 1 } := if_pos more

theorem Crossfade.advance_last {f : Crossfade} (last : 480 ≤ f.k + 1) : f.advance = { f with due := true } :=
  if_neg (not_lt.mpr last)

section
variable {s w : State} (h : Advanced s w)
include h

theorem Advanced.runner (r : RunnerNo) :
    ((s.cue.runners[r]).state ≠ .stepping → (s.cue.runners[r]).state ≠ .waiting → w.cue.runners[r] = s.cue.runners[r]) ∧
    (∀ n : Nat, (s.cue.runners[r]).state = .stepping ∨ (s.cue.runners[r]).state = .waiting →
      (s.cue.runners[r]).entryFrames = some n → (s.cue.runners[r]).elapsed + 1 < n →
      w.cue.runners[r] = { s.cue.runners[r] with elapsed := (s.cue.runners[r]).elapsed + 1 }) ∧
    (∀ n : Nat, (s.cue.runners[r]).state = .stepping ∨ (s.cue.runners[r]).state = .waiting →
      (s.cue.runners[r]).entryFrames = some n → n ≤ (s.cue.runners[r]).elapsed + 1 →
      w.cue.runners[r] = { s.cue.runners[r] with due := true }) ∧
    ((s.cue.runners[r]).state = .waiting → (s.cue.runners[r]).entryFrames = none →
      ((s.cue.runners[r]).elapsed < 6291360 →
        w.cue.runners[r] = { s.cue.runners[r] with elapsed := (s.cue.runners[r]).elapsed + 1 }) ∧
      (6291360 ≤ (s.cue.runners[r]).elapsed →
        ∃ e : Nat, e ≤ 6291360 ∧ w.cue.runners[r] = { s.cue.runners[r] with elapsed := e })) := by
  obtain ⟨free, advanced⟩ := h.runners r
  rw [advanced]
  exact ⟨Runner.advance_resting free, fun n => Runner.advance_counts free, fun n => Runner.advance_last free,
    fun waiting frames => ⟨Runner.advance_open_counts free waiting frames, Runner.advance_open_past free waiting frames⟩⟩

theorem Advanced.ramps (i : Fin 64) :
    (∀ r : Ramp, s.ramp.entries[i] = some r → r.k + 1 < r.n → w.ramp.entries[i] = some { r with k := r.k + 1 }) ∧
    (∀ r : Ramp, s.ramp.entries[i] = some r → r.n ≤ r.k + 1 → w.ramp.entries[i] = some { r with due := true }) ∧
    (s.ramp.entries[i] = none → w.ramp.entries[i] = none) := by
  rw [h.ramp, RampUnit.advance_at]
  refine ⟨fun r e more => ?_, fun r e last => ?_, fun e => by rw [e]; rfl⟩
  · rw [e, Option.map_some, Ramp.advance_counts more]
  · rw [e, Option.map_some, Ramp.advance_last last]

theorem Advanced.fades (i : Fin 4) :
    (∀ f : Crossfade, s.eq.slots[i] = some f → f.k + 1 < 480 → w.eq.slots[i] = some { f with k := f.k + 1 }) ∧
    (∀ f : Crossfade, s.eq.slots[i] = some f → 480 ≤ f.k + 1 → w.eq.slots[i] = some { f with due := true }) ∧
    (s.eq.slots[i] = none → w.eq.slots[i] = none) := by
  rw [h.eq, EqUnit.advance_at]
  refine ⟨fun f e more => ?_, fun f e last => ?_, fun e => by rw [e]; rfl⟩
  · rw [e, Option.map_some, Crossfade.advance_counts more]
  · rw [e, Option.map_some, Crossfade.advance_last last]

theorem Advanced.age :
    (∀ a : Nat, s.sdv.age = some a → s.sdv.phase + 1 < 480 → w.sdv = { s.sdv with phase := s.sdv.phase + 1 }) ∧
    (∀ a : Nat, s.sdv.age = some a → 480 ≤ s.sdv.phase + 1 → w.sdv = { s.sdv with tickDue := true }) ∧
    (s.sdv.age = none → w.sdv = s.sdv) := by
  rw [h.sdv]
  exact ⟨fun _ => ageAdvance_phase, fun _ => ageAdvance_tick, ageAdvance_none⟩

/-- R145, R148: a live operation is owed its batch, an operation on table memory waits for grants. -/
theorem Advanced.operation {op : TableOp} (held : s.table = some op) :
    (op.table.inMemory = true → w.table = some op) ∧
    (op.table.inMemory = false → w.table = some { op with batchDue := true }) := by
  rw [h.table, held, Option.map_some]
  exact ⟨fun memory => by rw [if_pos memory], fun live => by rw [if_neg (by simp [live])]⟩
end

theorem takeBatch_notices (s : State) : (takeBatch s).ctl.notices = s.ctl.notices := by
  cases held : s.table with
  | none => rw [takeBatch_none held]
  | some op =>
    cases due : op.batchDue with
    | false => rw [takeBatch_notOwed held due]
    | true =>
      rw [takeBatch_owed held due]
      obtain ⟨stands, ends⟩ := stepTableOp_entriesTaken op s
      have least : min op.pace op.owed ≤ op.owed := min_le_right _ _
      rcases least.lt_or_eq with more | all
      · rw [(stands more).2]
      · obtain ⟨-, -, notices, -⟩ := ends all
        exact notices

section
variable (up : Vector Sample 32) (batch : Bool) (s : State)

/-- R145, R148: a live operation's batch is taken at the boundary or owed there. -/
theorem boundaryTaken_operation {op : TableOp} (held : s.table = some op) :
    let u := boundaryTaken up false batch s
    (op.table.inMemory = true → op.batchDue = false → u.table = some op) ∧
    (op.table.inMemory = false → batch = false → u.table = some { op with batchDue := true }) ∧
    (op.table.inMemory = false → batch = true → EntriesTaken op 8 u s u) := by
  have same := boundaryTaken_same up batch s
  obtain ⟨memory, live⟩ := (boundary_advanced up s).operation held
  refine ⟨fun inMemory due => ?_, ?_, ?_⟩
  · cases batch with
    | false => exact memory inMemory
    | true =>
      rw [boundaryTaken_batch, takeBatch_notOwed (memory inMemory) due]
      exact memory inMemory
  · rintro isLive rfl
    exact live isLive
  · rintro isLive rfl
    have taken : boundaryTaken up false true s = stepTableOp { op with batchDue := true } (advanceAll (openFrame up s)) :=
      takeBatch_owed (live isLive) rfl
    have entries := stepTableOp_entriesTaken { op with batchDue := true } (advanceAll (openFrame up s))
    rw [← taken, TableOp.pace_live (op := { op with batchDue := true }) isLive] at entries
    have ctl : s.ctl = (advanceAll (openFrame up s)).ctl := (advanceAll_same (openFrame up s) .ctl (by decide)).symm
    exact entries.ofBatchDue.congr same ctl
/-- What has moved by one, is owed, or stands, where the head set is not examined. -/
theorem boundaryTaken_unexamined (u : State) (hu : u = boundaryTaken up false batch s) :
    (∀ (i : Fin 64) (r : Ramp), s.ramp.entries[i] = some r → r.k + 1 < r.n →
      u.ramp.entries[i] = some { r with k := r.k + 1 }) ∧
    (∀ (i : Fin 64) (r : Ramp), s.ramp.entries[i] = some r → r.n ≤ r.k + 1 →
      u.ramp.entries[i] = some { r with due := true }) ∧
    (∀ (i : Fin 64), s.ramp.entries[i] = none → u.ramp.entries[i] = none) ∧ u.ramp.duckTargets = s.ramp.duckTargets ∧
    (∀ (i : Fin 4) (f : Crossfade), s.eq.slots[i] = some f → f.k + 1 < 480 →
      u.eq.slots[i] = some { f with k := f.k + 1 }) ∧
    (∀ (i : Fin 4) (f : Crossfade), s.eq.slots[i] = some f → 480 ≤ f.k + 1 →
      u.eq.slots[i] = some { f with due := true }) ∧
    (∀ i : Fin 4, s.eq.slots[i] = none → u.eq.slots[i] = none) ∧ u.eq = { s.eq with slots := u.eq.slots } ∧
    (∀ a : Nat, s.sdv.age = some a → s.sdv.phase + 1 < 480 → u.sdv = { s.sdv with phase := s.sdv.phase + 1 }) ∧
    (∀ a : Nat, s.sdv.age = some a → 480 ≤ s.sdv.phase + 1 → u.sdv = { s.sdv with tickDue := true }) ∧
    (s.sdv.age = none → u.sdv = s.sdv) ∧ u.core.live = s.core.live ∧ u.core.levelTargets = s.core.levelTargets ∧
    u.commit = s.commit := by
  have h := boundary_advanced up s
  have same := boundaryTaken_same up batch s
  rw [← hu] at same
  have ramp : u.ramp = (advanceAll (openFrame up s)).ramp := same .ramp (by decide)
  have eq : u.eq = (advanceAll (openFrame up s)).eq := same .eq (by decide)
  have sdv : u.sdv = (advanceAll (openFrame up s)).sdv := same .sdv (by decide)
  have core : u.core = (advanceAll (openFrame up s)).core := same .core (by decide)
  have commit : u.commit = (advanceAll (openFrame up s)).commit := same .commit (by decide)
  obtain ⟨phase, tick, ageless⟩ := h.age
  rw [ramp, eq, sdv, core, commit]
  refine ⟨fun i => (h.ramps i).1, fun i => (h.ramps i).2.1, fun i => (h.ramps i).2.2, by rw [h.ramp]; rfl, fun i => (h.fades i).1,
    fun i => (h.fades i).2.1, fun i => (h.fades i).2.2, by rw [h.eq]; rfl, phase, tick, ageless, by rw [h.core], by rw [h.core], ?_⟩
  exact advanceAll_same (openFrame up s) .commit (by decide)

theorem boundaryTaken_ctl : (batch = false → (boundaryTaken up false batch s).ctl = s.ctl) ∧
    (boundaryTaken up false batch s).ctl.notices = s.ctl.notices := by
  have ctl : (advanceAll (openFrame up s)).ctl = s.ctl := advanceAll_same (openFrame up s) .ctl (by decide)
  cases batch with
  | false => exact ⟨fun _ => ctl, congrArg Control.notices ctl⟩
  | true => exact ⟨fun e => absurd e (by decide), (takeBatch_notices _).trans (congrArg Control.notices ctl)⟩

/-- R65: a boundary that examines is the boundary that does not, followed by SET_APPLICATION. -/
theorem frameBoundary_examines {v : State} (due : s.frame.boundaryDue = true)
    (first : exec (.frameBoundary up false batch) s = .next v) :
    exec (.frameBoundary up true batch) s = exec .setApplication v := by
  have frame := boundaryTaken_frame up batch s false
  have examDue : (boundaryTaken up false batch s).frame.examDue = true := by rw [frame]; rfl
  have settled : closeIfSettled (boundaryTaken up false batch s) = boundaryTaken up false batch s :=
    if_pos (by simp [owing, examDue])
  rw [exec_frameBoundary up batch s false due, settled] at first
  cases first
  rw [exec_frameBoundary up batch s true due, boundaryTaken_examine]
  exact (congrArg Host.Outcome.next (if_pos examDue)).symm

/-- R152, entry 29: in HUNT the slots are repeated. -/
theorem frameBoundary_hunt (examine : Bool) (due : s.frame.boundaryDue = false) (hunt : s.port.lock = .hunt) :
    exec (.frameBoundary up examine batch) s = .next { s with lane := { s.lane with slots := up } } := by
  show Host.Outcome.next _ = _
  rw [if_neg (by simp [due])]
  unfold repeatSlots
  rw [hunt]
end

/-- Settles O15: the boundary's advances part by part, with the batch and the examination, which change none of what is said of
them, after. -/
theorem boundaryAdvances : Obligations.BoundaryAdvances := by
  refine ⟨fun up examine batch s due => ?_, fun up batch s v due first => frameBoundary_examines up batch s due first,
    fun up examine batch s due hunt => frameBoundary_hunt up batch s examine due hunt⟩
  have h := boundary_advanced up s
  have advanced := advanceAll_same (openFrame up s)
  have same := boundaryTaken_examined up batch s examine
  have calm := boundaryTaken_calm up batch s examine
  obtain ⟨mode, gate, held⟩ := boundaryTaken_path up batch s examine
  have cue : (boundaryTaken up examine batch s).cue = (advanceAll (openFrame up s)).cue := same .cue (by decide)
  refine ⟨boundaryTaken up examine batch s, exec_frameBoundary up batch s examine due, boundaryTaken_frame up batch s examine,
    mode.trans ?mode, held.trans ?held, ?port, ?lane, ?memory, calm.settings, gate.trans ?gate, ?resting, ?counts, ?last, ?waits,
    ?cue, calm.idle, ?unexamined⟩
  case mode => rw [h.core]
  case held => rw [h.core]
  case port => exact (same .port (by decide)).trans (advanced .port (by decide))
  case lane => exact (same .lane (by decide)).trans (advanced .lane (by decide))
  case memory => rw [cue, h.cue]
  case gate => rw [h.core]; rfl
  case resting => rw [cue]; exact fun r => (h.runner r).1
  case counts => rw [cue]; exact fun r => (h.runner r).2.1
  case last => rw [cue]; intro r; obtain ⟨-, -, last, -⟩ := h.runner r; exact last
  case waits => rw [cue]; intro r; obtain ⟨-, -, -, waits⟩ := h.runner r; exact waits
  case cue => rw [cue]; exact h.cue
  case unexamined =>
    rintro rfl
    obtain ⟨ramps, ends, free, ducks, fades, fadeEnds, slots, eq, phase, tick, ageless, live, levels, commit⟩ :=
      boundaryTaken_unexamined up batch s _ rfl
    exact ⟨ramps, ends, free, ducks, fades, fadeEnds, slots, eq, phase, tick, ageless, live, levels, commit,
      fun op held => boundaryTaken_operation up batch s held, boundaryTaken_ctl up batch s⟩

end Sys2Proof.Machine

namespace Sys2Proof.Machine
-- One proof at a time: side by side the proofs start more threads than the memory limit allows.
set_option Elab.async false

/-! ## What computing chains leaves of the pool (R90, R91) -/

/-- Of the pool only histories changed, and only those of the named sections. -/
def HistoriesMoved (names : List SectionNo) (p q : Vector EqSection 256) : Prop :=
  ∀ n : SectionNo, q[n] = { p[n] with hist := (q[n]).hist } ∧ (n ∉ names → q[n] = p[n])

theorem HistoriesMoved.refl (names : List SectionNo) (p : Vector EqSection 256) : HistoriesMoved names p p :=
  fun _ => ⟨rfl, fun _ => rfl⟩

theorem HistoriesMoved.trans {names : List SectionNo} {p q r : Vector EqSection 256} (h : HistoriesMoved names p q)
    (k : HistoriesMoved names q r) : HistoriesMoved names p r := fun n => by
  obtain ⟨hHist, hOut⟩ := h n
  obtain ⟨kHist, kOut⟩ := k n
  refine ⟨?_, fun out => (kOut out).trans (hOut out)⟩
  rw [hHist] at kHist
  exact kHist

theorem HistoriesMoved.mono {names more : List SectionNo} {p q : Vector EqSection 256} (h : HistoriesMoved names p q)
    (sub : ∀ n ∈ names, n ∈ more) : HistoriesMoved more p q :=
  fun n => ⟨(h n).1, fun out => (h n).2 fun mem => out (sub n mem)⟩

theorem HistoriesMoved.set (p : Vector EqSection 256) (i : SectionNo) (x : History) :
    HistoriesMoved [i] p (p.set i { p[i] with hist := x }) := fun n => by
  by_cases here : n = i
  · subst here
    simp
  · have apart : i.val ≠ n.val := fun e => here (Fin.ext e.symm)
    simp [apart]

theorem runChain_moved : ∀ (l : List SectionNo) (p : Vector EqSection 256) (x : Int), HistoriesMoved l p (runChain p l x).2
  | [], p, _ => .refl [] p
  | i :: is, p, x => by
    unfold runChain
    exact ((HistoriesMoved.set p i _).mono (by simp)).trans ((runChain_moved is _ _).mono fun n mem => List.mem_cons_of_mem i mem)

theorem chainSide_moved (p : Vector EqSection 256) (l : List SectionNo) (mix : Ivl) (x : Int) :
    HistoriesMoved l p (chainSide p l mix x).2 := by
  unfold chainSide
  split
  · exact .refl _ p
  · exact runChain_moved _ p x

theorem mem_chainSections {e : EqUnit} {o : Output} {n : SectionNo} (h : n ∈ e.chains[o]) : n ∈ chainSections e :=
  List.mem_flatten.mpr ⟨e.chains[o], by simp, h⟩

/-- R4, R91: equalisation moves histories of sections in chains, and with EQ disabled none. -/
theorem equalise_moved (on : Bool) (s : State) (o : Output) (mix : Ivl) (free : Nat) :
    HistoriesMoved (chainSections s.eq ++ oldSections s.eq) s.eq.sections (equalise on s o mix free).2 := by
  have chain : ∀ n ∈ s.eq.chains[o], n ∈ chainSections s.eq ++ oldSections s.eq :=
    fun n mem => List.mem_append_left _ (mem_chainSections mem)
  unfold equalise
  dsimp only
  split
  · split
    next f hf =>
      obtain ⟨i, at_i⟩ := slotOf_mem hf
      have old : ∀ n ∈ f.old, n ∈ chainSections s.eq ++ oldSections s.eq :=
        fun n mem => List.mem_append_right _ (mem_oldSections.mpr ⟨i, f, at_i, mem⟩)
      exact ((chainSide_moved _ _ _ _).mono old).trans ((chainSide_moved _ _ _ _).mono chain)
    · exact (chainSide_moved _ _ _ _).mono chain
  · exact .refl _ _

/-! ## What composing leaves of the state (R2 to R7) -/

/-- What composing outputs changes of the units beside the samples: clip markers, and histories of sections in chains. -/
structure Composes (on : Bool) (s t : State) : Prop where
  ctl : t.ctl = { s.ctl with clip := t.ctl.clip }
  clip : ∀ o : Output, s.ctl.clip.getLsbD o.val = true → t.ctl.clip.getLsbD o.val = true
  eq : t.eq = { s.eq with sections := t.eq.sections }
  moved : HistoriesMoved (chainSections s.eq ++ oldSections s.eq) s.eq.sections t.eq.sections
  off : on = false → t.eq = s.eq
  cell : t.lane.cell = s.lane.cell

theorem Composes.refl (on : Bool) (s : State) : Composes on s s := ⟨rfl, fun _ h => h, rfl, .refl _ _, fun _ => rfl, rfl⟩

theorem chainSections_congr {e d : EqUnit} (h : d.chains = e.chains) : chainSections d = chainSections e := by
  unfold chainSections
  rw [h]

theorem oldSections_congr {e d : EqUnit} (h : d.slots = e.slots) : oldSections d = oldSections e := by
  unfold oldSections
  rw [h]

theorem Composes.trans {on : Bool} {s t u : State} (h : Composes on s t) (k : Composes on t u) : Composes on s u := by
  have chains : chainSections t.eq = chainSections s.eq := chainSections_congr (by rw [h.eq])
  have olds : oldSections t.eq = oldSections s.eq := oldSections_congr (by rw [h.eq])
  have moved := k.moved
  rw [chains, olds] at moved
  refine ⟨?_, fun o marked => k.clip o (h.clip o marked), ?_, h.moved.trans moved, fun off => (k.off off).trans (h.off off),
    k.cell.trans h.cell⟩
  · rw [k.ctl, h.ctl]
  · rw [k.eq, h.eq]

theorem Composes.foldl {on : Bool} {f : State → Output → State} (h : ∀ s o, Composes on s (f s o)) : ∀ (l : List Output) (s : State),
    Composes on s (l.foldl f s)
  | [], s => .refl on s
  | o :: l, s => (h s o).trans (Composes.foldl h l (f s o))

theorem emitSample_composes (on : Bool) (o : Output) (w : Int) (s : State) : Composes on s (emitSample o w s) := by
  unfold emitSample
  dsimp only
  split
  · exact ⟨rfl, fun _ h => h, rfl, .refl _ _, fun _ => rfl, rfl⟩
  · exact ⟨rfl, fun p h => by simp [markClip, h], rfl, .refl _ _, fun _ => rfl, rfl⟩

theorem composeOutput_composes (on : Bool) (s : State) (o : Output) : Composes on s (composeOutput on s o) := by
  unfold composeOutput
  dsimp only
  refine Composes.trans ?_ (emitSample_composes on o _ _)
  exact ⟨rfl, fun _ h => h, rfl, equalise_moved on s o _ _, fun off => by subst off; rfl, rfl⟩

theorem composeAll_composes (on : Bool) (s : State) : Composes on s (composeAll on s) :=
  Composes.foldl (fun s o => composeOutput_composes on s o) _ s

/-! ## The gate at 0 (R6, R8) -/

theorem ceilDiv_zero (d : Int) : ceilDiv 0 d = 0 := by simp [ceilDiv]

theorem Ivl.fraction_zero (v : Ivl) (d : Nat) : v.fraction 0 d = ⟨0, 0⟩ := by simp [Ivl.fraction, ceilDiv_zero]

theorem staged_gate_zero {s : State} (gate : s.core.gate = 0) (o : Output) (v : Ivl) : staged s o v = ⟨0, 0⟩ := by
  unfold staged
  rw [gate, Ivl.fraction_zero]
  simp [Ivl.neg]

theorem Ivl.whole_zero (free : Nat) : (⟨0, 0⟩ : Ivl).whole free = 0 := rfl

theorem emitSample_zero (o : Output) (s : State) :
    emitSample o 0 s = { s with lane := { s.lane with samples := s.lane.samples.set o 0 } } := rfl

/-- R6: with the gate at 0 an output's sample is 0, without a clip marker. -/
theorem composeOutput_gate_zero (on : Bool) {s : State} (gate : s.core.gate = 0) (o : Output) :
    (composeOutput on s o).lane.samples = s.lane.samples.set o 0 ∧ (composeOutput on s o).ctl = s.ctl := by
  unfold composeOutput
  dsimp only
  rw [staged_gate_zero gate, Ivl.whole_zero, emitSample_zero]
  exact ⟨rfl, rfl⟩

theorem foldl_composeOutput_gate_zero (on : Bool) : ∀ (l : List Output) {s : State}, s.core.gate = 0 →
    (l.foldl (composeOutput on) s).ctl = s.ctl ∧
    ∀ o : Output, o ∈ l ∨ s.lane.samples[o] = 0 → (l.foldl (composeOutput on) s).lane.samples[o] = 0
  | [], s, _ => ⟨rfl, fun o h => h.resolve_left List.not_mem_nil⟩
  | p :: l, s, gate => by
    obtain ⟨samples, ctl⟩ := composeOutput_gate_zero on gate p
    have gate' : (composeOutput on s p).core.gate = 0 := by rw [(composeOutput_keeps on s p).1]; exact gate
    obtain ⟨restCtl, restSamples⟩ := foldl_composeOutput_gate_zero on l gate'
    refine ⟨restCtl.trans ctl, fun o h => restSamples o ?_⟩
    by_cases here : o = p
    · subst here
      right
      rw [samples]
      simp
    · have apart : p.val ≠ o.val := fun e => here (Fin.ext e.symm)
      refine h.imp (fun mem => (List.mem_cons.mp mem).resolve_left here) fun zero => ?_
      rw [samples]
      simpa [apart] using zero

theorem composeAll_gate_zero (on : Bool) {s : State} (gate : s.core.gate = 0) :
    (composeAll on s).ctl = s.ctl ∧ ∀ o : Output, (composeAll on s).lane.samples[o] = 0 := by
  unfold composeAll
  obtain ⟨ctl, samples⟩ := foldl_composeOutput_gate_zero on (List.finRange 24) gate
  exact ⟨ctl, fun o => samples o (.inl (List.mem_finRange o))⟩

end Sys2Proof.Machine

namespace Sys2Proof.Machine
-- One proof at a time: side by side the proofs start more threads than the memory limit allows.
set_option Elab.async false

/-! ## The slots of a closed boundary (R154, R155) -/

theorem outputAt_eq_some {m : Vector (Option Slot) 24} {o : Output} {i : Slot} (mapped : m[o] = some i)
    (alone : ∀ p : Output, m[p] = some i → p = o) : outputAt m i = some o := by
  unfold outputAt
  cases found : (List.finRange 24).find? fun p => decide (m[p] = some i) with
  | none => exact absurd mapped (by simpa using List.find?_eq_none.mp found o (List.mem_finRange o))
  | some p => rw [alone p (by simpa using List.find?_some found)]

theorem outputAt_eq_none {m : Vector (Option Slot) 24} {i : Slot} (free : ∀ o : Output, m[o] ≠ some i) : outputAt m i = none :=
  List.find?_eq_none.mpr fun o _ => by simpa using free o

section
variable (f : Opened) (samples : Vector Sample 24)

theorem slotsDown_mapped {o : Output} {i : Slot} (mapped : f.outputMap[o] = some i)
    (alone : ∀ p : Output, f.outputMap[p] = some i → p = o) : (slotsDown f samples)[i] = samples[o] := by
  simp [slotsDown, outputAt_eq_some mapped alone]

theorem slotsDown_passed {i : Slot} (free : ∀ o : Output, f.outputMap[o] ≠ some i) : (slotsDown f samples)[i] = f.slots[i] := by
  simp [slotsDown, outputAt_eq_none free]

theorem sourcesRead_at (src : Source) : (sourcesRead f)[src] = match f.sourceMap[src] with
    | some i => f.slots[i]
    | none => 0 := by
  simp [sourcesRead] <;> rfl
end

/-! ## The close of a boundary -/

theorem closeIfSettled_owing {s : State} (h : owing s = true) : closeIfSettled s = s := if_pos h

theorem closeIfSettled_settled {s : State} (h : owing s = false) : closeIfSettled s = closeBoundary s := if_neg (by simp [h])

theorem closeIfSettled_shut {s : State} (h : s.frame.opened = none) : closeIfSettled s = s := by
  unfold closeIfSettled closeBoundary
  rw [h]
  exact ite_self s

/-- The state in which an open boundary's outputs are composed. -/
def shut (s : State) : State := { s with frame := { s.frame with opened := none } }

theorem closeBoundary_opened {s : State} {f : Opened} (h : s.frame.opened = some f) :
    closeBoundary s = transferSlots f (composeAll f.eqOn (shut s)) := by
  unfold closeBoundary
  rw [h]
  rfl

theorem shut_countInv {s : State} (h : CountInv s) : CountInv (shut s) := (countInv_iff _).mpr ((countInv_iff s).mp h)

theorem shut_boostInv {s : State} (h : BoostInv s) : BoostInv (shut s) :=
  ⟨h.staged, h.queued, h.curve, h.weights, h.ceilings, h.boost, h.targets⟩

/-- Settles O16: the slots by the maps of the opening, the samples as composing every output gives them, and what composing
leaves of the other units. -/
theorem closingComposes : Obligations.ClosingComposes := by
  refine ⟨fun s => ⟨closeIfSettled_owing, closeIfSettled_settled, closeIfSettled_shut⟩, fun f s opened => ?_⟩
  have same := closeBoundary_same s
  have composedSame := composeAll_same f.eqOn (shut s)
  have h := composeAll_composes f.eqOn (shut s)
  have gateZero := fun gate => composeAll_gate_zero f.eqOn (s := shut s) gate
  have composed := fun count boost gate => composeAll_composed f.eqOn (shut s) (shut_countInv count) (shut_boostInv boost) gate
  rw [closeBoundary_opened opened] at same ⊢
  have frame : (composeAll f.eqOn (shut s)).frame = { s.frame with opened := none } := composedSame .frame (by decide)
  have core : (composeAll f.eqOn (shut s)).core = s.core := composedSame .core (by decide)
  generalize composeAll f.eqOn (shut s) = c at *
  have kept := transferSlots_keeps f c
  obtain ⟨-, keptFrame, keptCtl, -, -, keptEq, -⟩ := kept
  obtain ⟨heldNow, laneNow⟩ := transferSlots_changes f c
  rw [core] at heldNow
  have samples : (transferSlots f c).lane.samples = c.lane.samples := by rw [laneNow]
  have slots : (transferSlots f c).lane.slots = slotsDown f c.lane.samples := by rw [laneNow]
  have cell : (transferSlots f c).lane.cell = c.lane.cell := by rw [laneNow]
  have held : (transferSlots f c).core.held = sourcesRead f := by rw [heldNow]
  have eq : (transferSlots f c).eq = c.eq := keptEq
  have ctl : (transferSlots f c).ctl = c.ctl := keptCtl
  generalize transferSlots f c = t at *
  refine ⟨?mapped, ?passed, ?read, ?silent, ?cell, keptFrame.trans frame, ?core, ?ctl, ?clip, ?eq, ?histories, ?others, ?off, same,
    ?composed⟩
  case mapped =>
    intro o i mapped alone
    rw [slots, samples]
    exact slotsDown_mapped f _ mapped alone
  case passed =>
    intro i free
    rw [slots]
    exact slotsDown_passed f _ free
  case read =>
    intro src
    rw [held]
    exact sourcesRead_at f src
  case silent =>
    intro gate
    obtain ⟨quiet, zero⟩ := gateZero gate
    rw [samples, ctl]
    exact ⟨zero, quiet⟩
  case cell => exact cell.trans h.cell
  case core => rw [held]; exact heldNow
  case ctl => rw [ctl]; exact h.ctl
  case clip => rw [ctl]; exact h.clip
  case eq => rw [eq]; exact h.eq
  case histories => rw [eq]; exact fun n => (h.moved n).1
  case others =>
    intro n chain old
    rw [eq]
    exact (h.moved n).2 fun mem => (List.mem_append.mp mem).elim chain old
  case off => rw [eq]; exact h.off
  case composed =>
    intro count boost gate
    obtain ⟨p, first, steps, last⟩ := composed count boost gate
    rw [samples, ctl, eq, last]
    exact ⟨p, first, steps, rfl, rfl, rfl⟩

end Sys2Proof.Machine

namespace Sys2Proof.Machine
-- One proof at a time: side by side the proofs start more threads than the memory limit allows.
set_option Elab.async false

/-! ## The LEVEL target of an output (R25, R26) -/

/-- R20, R25: a position from −15 to +15 reads its own entry of its curve. -/
theorem curveIndex_val (c : CurveId) {p : Int} (lo : -15 ≤ p) (hi : p ≤ 15) :
    ((curveIndex c p).val : Int) = 31 * (c.idx.val : Int) + p + 15 := by
  have small : (p + 15).toNat % 31 = (p + 15).toNat := Nat.mod_eq_of_lt (by omega)
  simp only [curveIndex, small]
  omega

theorem Live.levelTarget_muted {l : Live} {o : Output} (h : (l.zoneOf o).mute = true ∨ (l.outputs[o]).mute = true) :
    l.levelTarget o = -480 := if_pos (by rw [Bool.or_eq_true]; exact h)

theorem Live.levelTarget_open {l : Live} {o : Output} (zone : (l.zoneOf o).mute = false) (output : (l.outputs[o]).mute = false) :
    l.levelTarget o =
      max (-480) ((l.zoneOf o).volume + (l.outputs[o]).trim + l.curves[l.lateralEntry o] + l.longTerm o) :=
  if_neg (by simp only [zone, output]; decide)

theorem Row.curve_eq_none_iff (r : Row) : r.curve = none ↔ r = .noRow := by cases r <;> simp [Row.curve]

theorem Live.longTerm_none {l : Live} {o : Output} (h : (l.outputs[o]).row.curve = none) : l.longTerm o = 0 := by
  simp only [Live.longTerm, Live.longEntry, h, Option.map_none]

theorem Live.longTerm_some {l : Live} {o : Output} {c : CurveId} (h : (l.outputs[o]).row.curve = some c) :
    l.longTerm o = l.curves[curveIndex c (l.zoneOf o).fade] := by
  simp only [Live.longTerm, Live.longEntry, h, Option.map_some]

/-- R25, R26: the longitudinal term is an entry of the row's curve, or 0 without a row. -/
theorem Live.longTerm_entry {l : Live} {o : Output} (lo : -15 ≤ (l.zoneOf o).fade) (hi : (l.zoneOf o).fade ≤ 15) :
    ∃ long : Fin 186,
      (∀ c : CurveId, (l.outputs[o]).row.curve = some c → (long.val : Int) = 31 * (c.idx.val : Int) + (l.zoneOf o).fade + 15) ∧
      l.longTerm o = if (l.outputs[o]).row = .noRow then 0 else l.curves[long] := by
  cases h : (l.outputs[o]).row.curve with
  | none =>
    refine ⟨0, fun c hc => (by cases hc), ?_⟩
    rw [if_pos ((Row.curve_eq_none_iff _).mp h)]
    exact Live.longTerm_none h
  | some c =>
    refine ⟨curveIndex c (l.zoneOf o).fade, fun d hd => ?_, ?_⟩
    · cases hd
      exact curveIndex_val c lo hi
    · rw [if_neg fun none => by rw [(Row.curve_eq_none_iff _).mpr none] at h; cases h]
      exact Live.longTerm_some h

/-- Settles O17: the lateral entry is the side's at the balance, the longitudinal one the row's at the fade. -/
theorem levelTargetFormula : Obligations.LevelTargetFormula := by
  intro l o
  refine ⟨Live.levelTarget_muted, fun zone output balanceLo balanceHi fadeLo fadeHi => ?_⟩
  obtain ⟨long, entry, term⟩ := Live.longTerm_entry (l := l) (o := o) fadeLo fadeHi
  refine ⟨l.lateralEntry o, long, curveIndex_val _ balanceLo balanceHi, entry, ?_⟩
  rw [Live.levelTarget_open zone output, term]

/-! ## What each record writes (R69) -/

/-- R25: values replace entries from an index onward, as far as they reach. -/
theorem writeRun_at (i : Fin 186) : ∀ (vs : List Int) (v : Vector Int 186) (a : Nat),
    (writeRun v a vs)[i] = if a ≤ i.val then vs.getD (i.val - a) v[i] else v[i]
  | [], v, a => by simp [writeRun]
  | x :: vs, v, a => by
    have set : (v.setIfInBounds a x)[i] = if a = i.val then x else v[i] := Vector.getElem_setIfInBounds i.isLt
    rw [writeRun, writeRun_at i vs, set]
    rcases lt_trichotomy a i.val with before | here | after
    · have next : i.val - a = i.val - (a + 1) + 1 := by omega
      rw [if_pos (show a + 1 ≤ i.val from before), if_pos before.le, if_neg before.ne, next, List.getD_cons_succ]
    · rw [if_neg (by omega), if_pos here, if_pos here.le, here, Nat.sub_self, List.getD_cons_zero]
    · rw [if_neg (by omega), if_neg (by omega), if_neg (by omega)]

theorem Live.write_zone_at (l : Live) (z z' : Zone) (c : ZoneChange) (ms : Option Nat) :
    (l.write (.zone z c ms)).zones[z'] = if z' = z then (l.zones[z]).write c else l.zones[z'] := by
  simp [Live.write, Vector.getElem_set, Fin.val_inj, eq_comm]

theorem Live.write_cell_at (l : Live) (o : Output) (src : Source) (g : Gain) (ms : Option Nat) (i : Fin 288) :
    (l.write (.cell o src g ms)).cells[i] = if i.val = o.val * 12 + src.val then g else l.cells[i] := by
  simp [Live.write, Vector.getElem_set, cellIndex, eq_comm]

theorem Live.write_output_at (l : Live) (o o' : Output) (z : Zone) (side : Side) (row : Row) (g : Option Group) (trim ceiling : Int) :
    (l.write (.output o z side row g trim ceiling)).outputs[o'] =
      if o' = o then { l.outputs[o] with zone := z, side := side, row := row, group := g, trim := trim, ceiling := ceiling }
      else l.outputs[o'] := by
  simp [Live.write, Vector.getElem_set, Fin.val_inj, eq_comm]

theorem Live.write_flags_at (l : Live) (op : FlagOp) (f : OutFlag) (mask : BitVec 24) (o : Output) :
    (l.write (.flags op f mask)).outputs[o] = if mask.getLsbD o.val then (l.outputs[o]).flag op f else l.outputs[o] := by
  simp [Live.write]

theorem Live.write_curve_at (l : Live) (c : CurveId) (first : Fin 31) (vs : List Int) (i : Fin 186) :
    (l.write (.curve c first vs)).curves[i] =
      if c.idx.val * 31 + first.val ≤ i.val then vs.getD (i.val - (c.idx.val * 31 + first.val)) l.curves[i] else l.curves[i] :=
  writeRun_at i vs l.curves (c.base + first.val)

theorem Live.write_group_at (l : Live) (g g' : Group) (w : Nat) :
    (l.write (.group g w)).weights[g'] = if g' = g then w else l.weights[g'] := by
  simp [Live.write, Vector.getElem_set, Fin.val_inj, eq_comm]

theorem Live.write_zone_self (l : Live) (z : Zone) (c : ZoneChange) (ms : Option Nat) :
    (l.write (.zone z c ms)).zones[z] = (l.zones[z]).write c := by rw [Live.write_zone_at, if_pos rfl]

/-- Settles O30: each table entry by the lemma of its record's kind; what a kind leaves alone, it does not mention. -/
theorem recordWrites : Obligations.RecordWrites := by
  intro l
  refine ⟨fun z v ms => l.write_zone_self z _ ms, fun z v ms => l.write_zone_self z _ ms, fun z v ms => l.write_zone_self z _ ms,
    fun z v ms => l.write_zone_self z _ ms, fun z z' v ms other => ?otherZone, fun z v ms => rfl,
    l.write_cell_at, fun o src g ms => rfl, l.write_output_at, fun o z side row g trim ceiling => rfl,
    fun op mask o => l.write_flags_at op .mute mask o, fun op mask o => l.write_flags_at op .invert mask o, fun op f mask => rfl,
    fun b => ⟨rfl, rfl, rfl⟩, fun c first vs i _ => l.write_curve_at c first vs i, fun c first vs => rfl, fun ps => rfl,
    fun ps => rfl, l.write_group_at, fun g w => rfl, fun o list => rfl⟩
  case otherZone => rw [Live.write_zone_at, if_neg other]

end Sys2Proof.Machine

namespace Sys2Proof.Machine
-- One proof at a time: side by side the proofs start more threads than the memory limit allows.
set_option Elab.async false

/-! ## The ranges of change records and live tables (R22, R53 to R56) -/

theorem within_range {lo hi i v : Int} (h : within lo hi i = some v) : lo ≤ v ∧ v ≤ hi := by
  unfold within at h
  split at h
  next range => cases h; exact range
  next => cases h

/-! ### A record that passes its checks is in range -/

theorem parseZone_liveGood {body : List Byte} {r : ChangeRecord} (h : parseZone body = some r) : r.liveGood := by
  unfold parseZone at h
  split at h
  · simp only [Option.bind_eq_bind, Option.bind_eq_some_iff, Option.pure_def, Option.some.injEq] at h
    obtain ⟨z, -, c, -, ms, -, rfl⟩ := h
    trivial
  · cases h

theorem parseCell_liveGood {body : List Byte} {r : ChangeRecord} (h : parseCell body = some r) : r.liveGood := by
  unfold parseCell at h
  split at h
  · simp only [Option.bind_eq_bind, Option.bind_eq_some_iff, Option.pure_def, Option.some.injEq] at h
    obtain ⟨o, -, src, -, g, -, ms, -, rfl⟩ := h
    trivial
  · cases h

/-- R54: the ceiling is checked. -/
theorem parseOutput_liveGood {body : List Byte} {r : ChangeRecord} (h : parseOutput body = some r) : r.liveGood := by
  unfold parseOutput at h
  split at h
  · simp only [Option.bind_eq_bind, Option.bind_eq_some_iff, Option.pure_def, Option.some.injEq] at h
    obtain ⟨o, -, z, -, side, -, row, -, g, -, trim, -, ceiling, range, rfl⟩ := h
    exact within_range range
  · cases h

theorem parseFlags_liveGood {body : List Byte} {r : ChangeRecord} (h : parseFlags body = some r) : r.liveGood := by
  unfold parseFlags at h
  split at h
  · split at h
    case h_3 => split at h <;> cases h
    all_goals
      split at h
      case h_4 => cases h
      all_goals cases h; trivial
  · cases h

theorem parseChain_liveGood {o : Byte} {list : List Byte} {r : ChangeRecord} (h : parseChain o list = some r) : r.liveGood := by
  unfold parseChain at h
  simp only [Option.bind_eq_bind, Option.bind_eq_some_iff] at h
  obtain ⟨o, -, h⟩ := h
  split at h
  · cases h; trivial
  · cases h

theorem parseCurve_liveGood {c first : Byte} {list : List Byte} {r : ChangeRecord} (h : parseCurve c first list = some r) :
    r.liveGood := by
  unfold parseCurve at h
  simp only [Option.bind_eq_bind, Option.bind_eq_some_iff] at h
  obtain ⟨c, -, first, -, vs, -, h⟩ := h
  split at h
  · cases h; trivial
  · cases h

/-- R56: the weight is checked. -/
theorem parseGroup_liveGood {body : List Byte} {r : ChangeRecord} (h : parseGroup body = some r) : r.liveGood := by
  unfold parseGroup at h
  split at h
  · simp only [Option.bind_eq_bind, Option.bind_eq_some_iff] at h
    obtain ⟨g, -, h⟩ := h
    split at h
    next weight => cases h; exact weight
    next => cases h
  · cases h

theorem ofFields_good {x : Option ChangeRecord} {r : ChangeRecord} (h : RecordCheck.ofFields x = .good r) : x = some r := by
  cases x with
  | none => cases h
  | some r' => cases h; rfl

theorem checkFixed_good {n : Nat} {parse : List Byte → Option ChangeRecord} {body : List Byte} {r : ChangeRecord}
    (h : checkFixed n parse body = .good r) : parse body = some r := by
  unfold checkFixed at h
  split at h
  · exact ofFields_good h
  · cases h

/-- R57: a record that passes its checks is in range, kind by kind. -/
theorem checkRecord_liveGood {kind : Byte} {body : List Byte} {r : ChangeRecord} (h : checkRecord kind body = .good r) :
    r.liveGood := by
  unfold checkRecord at h
  split at h
  · exact parseZone_liveGood (checkFixed_good h)
  · exact parseCell_liveGood (checkFixed_good h)
  · exact parseOutput_liveGood (checkFixed_good h)
  · exact parseFlags_liveGood (checkFixed_good h)
  · split at h
    · split at h
      · exact parseChain_liveGood (ofFields_good h)
      · cases h
    · cases h
  · split at h
    · split at h
      · exact parseCurve_liveGood (ofFields_good h)
      · cases h
    · cases h
  · split at h
    · split at h
      · split at h
        next valid => cases h; exact valid
        next => cases h
      · cases h
    · cases h
  · exact parseGroup_liveGood (checkFixed_good h)
  · cases h

/-! ### Records in range keep the live tables in range -/

/-- R22, R56: the boost curve, the weights and the ceilings are in their ranges. -/
structure LiveRanges (l : Live) : Prop where
  curve : curveValid l.boostCurve = true
  weights : ∀ g : Group, l.weights[g] ≤ 100
  ceilings : ∀ o : Output, -240 ≤ (l.outputs[o]).ceiling ∧ (l.outputs[o]).ceiling ≤ 48

theorem OutputRec.flag_ceiling (x : OutputRec) (op : FlagOp) (f : OutFlag) : (x.flag op f).ceiling = x.ceiling := by
  cases f <;> rfl

theorem Live.write_flags_rest (l : Live) (op : FlagOp) (f : OutFlag) (mask : BitVec 24) :
    (l.write (.flags op f mask)).boostCurve = l.boostCurve ∧ (l.write (.flags op f mask)).weights = l.weights := by
  simp only [Live.write, and_self]

theorem LiveRanges.congr {l l' : Live} (h : LiveRanges l) (curve : l'.boostCurve = l.boostCurve) (weights : l'.weights = l.weights)
    (outputs : l'.outputs = l.outputs) : LiveRanges l' :=
  ⟨by rw [curve]; exact h.curve, by rw [weights]; exact h.weights, by rw [outputs]; exact h.ceilings⟩

theorem LiveRanges.write {l : Live} (h : LiveRanges l) {r : ChangeRecord} (good : r.liveGood) : LiveRanges (l.write r) := by
  cases r with
  | zone z c ms => exact h.congr rfl rfl rfl
  | cell o src g ms => exact h.congr rfl rfl rfl
  | output o z side row g trim ceiling =>
    refine ⟨h.curve, h.weights, fun o' => ?_⟩
    rw [Live.write_output_at]
    split
    · exact good
    · exact h.ceilings o'
  | flags op f mask =>
    obtain ⟨curve, weights⟩ := l.write_flags_rest op f mask
    refine ⟨by rw [curve]; exact h.curve, by rw [weights]; exact h.weights, fun o => ?_⟩
    rw [Live.write_flags_at]
    split
    · rw [OutputRec.flag_ceiling]
      exact h.ceilings o
    · exact h.ceilings o
  | chain o list => exact h
  | curve c first vs => exact h.congr rfl rfl rfl
  | boostCurve ps => exact ⟨good, h.weights, h.ceilings⟩
  | group g w =>
    refine ⟨h.curve, fun g' => ?_, h.ceilings⟩
    rw [Live.write_group_at]
    split
    · exact good
    · exact h.weights g'

theorem LiveRanges.writeAll : ∀ {rs : List ChangeRecord} {l : Live}, LiveRanges l → (∀ r ∈ rs, r.liveGood) → LiveRanges (l.writeAll rs)
  | [], _, h, _ => h
  | r :: rs, _, h, good =>
    LiveRanges.writeAll (rs := rs) (h.write (good r List.mem_cons_self)) fun q hq => good q (List.mem_cons_of_mem r hq)

/-! ### A valid curve gives boosts in range (R108) -/

/-- R108: a part of a difference, truncated, lies between 0 and the difference. -/
theorem tdiv_part {m k d : Int} (hm : 0 ≤ m) (hk : 0 ≤ k) (part : k ≤ d) (hd : 0 < d) : 0 ≤ (m * k).tdiv d ∧ (m * k).tdiv d ≤ m := by
  rw [Int.tdiv_eq_ediv_of_nonneg (mul_nonneg hm hk)]
  exact ⟨Int.ediv_nonneg (mul_nonneg hm hk) hd.le, Int.ediv_le_of_le_mul hd (mul_le_mul_of_nonneg_left part hm)⟩

/-- R108: between two breakpoints the boost lies between theirs. -/
theorem segment_between {a b k d : Int} (hk : 0 ≤ k) (part : k ≤ d) (hd : 0 < d) :
    min a b ≤ a + ((b - a) * k).tdiv d ∧ a + ((b - a) * k).tdiv d ≤ max a b := by
  rcases le_total a b with rises | falls
  · have := tdiv_part (sub_nonneg.mpr rises) hk part hd
    omega
  · have := tdiv_part (sub_nonneg.mpr falls) hk part hd
    have turned : (b - a) * k = -((a - b) * k) := by rw [← neg_mul, neg_sub]
    rw [turned, Int.neg_tdiv]
    omega

/-- R22: a boost in the curve's range. -/
def boostGood (b : Int) : Prop := 0 ≤ b ∧ b ≤ 48

theorem boostGood_zero : boostGood 0 := ⟨le_rfl, by decide⟩

theorem boostFrom_good {v : Nat} : ∀ {rest : List (Nat × Int)} {p : Nat × Int}, p.1 ≤ v → boostGood p.2 → (∀ q ∈ rest, boostGood q.2) →
    boostGood (boostFrom v p rest)
  | [], _, _, good, _ => good
  | q :: rest, p, reached, good, others => by
    have next : boostGood q.2 := others q List.mem_cons_self
    unfold boostFrom
    split
    next inside =>
      have between := segment_between (a := p.2) (b := q.2) (k := (v : Int) - p.1) (d := (q.1 : Int) - p.1) (by omega) (by omega)
        (by omega)
      unfold boostGood at good next ⊢
      omega
    next past => exact boostFrom_good (not_lt.mp past) next fun x hx => others x (List.mem_cons_of_mem q hx)

theorem curveValid_boosts {ps : List (Nat × Int)} (h : curveValid ps = true) : ∀ p ∈ ps, boostGood p.2 := by
  simp only [curveValid, Bool.and_eq_true, List.all_eq_true, decide_eq_true_eq] at h
  obtain ⟨-, points⟩ := h
  exact fun p hp => ⟨(points p hp).1.2, (points p hp).2⟩

theorem boostAt_good {curve : List (Nat × Int)} (h : curveValid curve = true) (v : Nat) : boostGood (boostAt curve v) := by
  have boosts := curveValid_boosts h
  cases curve with
  | nil => exact boostGood_zero
  | cons p rest =>
    have first : boostGood p.2 := boosts p List.mem_cons_self
    unfold boostAt
    dsimp only
    split
    · exact first
    next past => exact boostFrom_good (not_le.mp past).le first fun q hq => boosts q (List.mem_cons_of_mem p hq)

end Sys2Proof.Machine

namespace Sys2Proof.Machine
-- One proof at a time: side by side the proofs start more threads than the memory limit allows.
set_option Elab.async false

/-! ## What keeps the targets -/

/-- R22, R56: the staged and the queued records are in range. -/
def RecordsGood (c : Commit) : Prop := (∀ r ∈ c.staging, r.liveGood) ∧ ∀ q ∈ c.queue, ∀ r ∈ q.records, r.liveGood

/-- R109: a group's target is the one the adopted boost and its weight give. -/
def InStep (l : Live) (u : Sdv) (g : Group) : Prop := u.targets[g] = groupTarget u.boost l.weights[g]

/-- R109: the adopted boost is in range, and every group target in step with it. -/
structure BoostFollowed (l : Live) (u : Sdv) : Prop where
  boost : boostGood u.boost
  targets : ∀ g : Group, InStep l u g

theorem boostInv_iff (s : State) : BoostInv s ↔ RecordsGood s.commit ∧ LiveRanges s.core.live ∧ BoostFollowed s.core.live s.sdv :=
  ⟨fun h => ⟨⟨h.staged, h.queued⟩, ⟨h.curve, h.weights, h.ceilings⟩, ⟨h.boost, h.targets⟩⟩,
  fun ⟨records, live, sdv⟩ => ⟨records.1, records.2, live.curve, live.weights, live.ceilings, sdv.boost, sdv.targets⟩⟩

/-- A step keeps that the LEVEL targets follow the tables, and that the boost values keep their ranges. -/
structure Follows (s t : State) : Prop where
  level : LevelInv s → LevelInv t
  boost : BoostInv s → BoostInv t

theorem Follows.refl (s : State) : Follows s s := ⟨id, id⟩

theorem Follows.trans {s t u : State} (h : Follows s t) (k : Follows t u) : Follows s u := ⟨k.level ∘ h.level, k.boost ∘ h.boost⟩

theorem Follows.foldl {α : Type} {f : State → α → State} (h : ∀ s a, Follows s (f s a)) : ∀ (l : List α) (s : State), Follows s (l.foldl f s)
  | [], s => .refl s
  | a :: l, s => (h s a).trans (Follows.foldl h l (f s a))

/-- A step that keeps the live tables and the LEVEL targets; what it does to records and boost is asked for. -/
theorem Follows.ofParts {s t : State} (live : t.core.live = s.core.live) (levels : t.core.levelTargets = s.core.levelTargets)
    (records : RecordsGood s.commit → RecordsGood t.commit)
    (boost : LiveRanges s.core.live → BoostFollowed s.core.live s.sdv → BoostFollowed s.core.live t.sdv) : Follows s t where
  level h := by unfold LevelInv; rwa [live, levels]
  boost h := by
    rw [boostInv_iff] at h ⊢
    obtain ⟨good, ranges, followed⟩ := h
    rw [live]
    exact ⟨records good, ranges, boost ranges followed⟩

/-- A step that leaves alone every field the two invariants speak of. -/
theorem Follows.ofFields {s t : State} (live : t.core.live = s.core.live := by rfl)
    (levels : t.core.levelTargets = s.core.levelTargets := by rfl) (commit : t.commit = s.commit := by rfl)
    (sdv : t.sdv = s.sdv := by rfl) : Follows s t :=
  .ofParts live levels (by rw [commit]; exact id) (by rw [sdv]; exact fun _ => id)

theorem Follows.ofSame {ps : List Part} {s t : State} (h : SameBut ps s t)
    (out : Part.core ∉ ps ∧ Part.commit ∉ ps ∧ Part.sdv ∉ ps := by decide) : Follows s t :=
  .ofFields (congrArg Core.live (h .core out.1)) (congrArg Core.levelTargets (h .core out.1)) (h .commit out.2.1) (h .sdv out.2.2)

theorem Follows.ofCommit {s t : State} (h : SameBut [.ctl, .commit, .eq, .table] s t)
    (records : RecordsGood s.commit → RecordsGood t.commit) : Follows s t :=
  .ofParts (congrArg Core.live (h .core (by decide))) (congrArg Core.levelTargets (h .core (by decide))) records
    (by rw [h .sdv (by decide)]; exact fun _ => id)

theorem Follows.ofSdv {s t : State} (h : SameBut [.ctl, .ramp, .sdv] s t)
    (boost : LiveRanges s.core.live → BoostFollowed s.core.live s.sdv → BoostFollowed s.core.live t.sdv) : Follows s t :=
  .ofParts (congrArg Core.live (h .core (by decide))) (congrArg Core.levelTargets (h .core (by decide)))
    (by rw [h .commit (by decide)]; exact id) boost

theorem Follows.answer {s t : State} (h : Follows s t) (rq : Requester) (res : Result) (data : List Byte) :
    Follows s (answer rq res data t) := h.trans (.ofSame (answer_same rq res data t))

theorem Follows.reserve {s t : State} (h : Follows s t) (u : UnitId) : Follows s (reserve u t) := h.trans (.ofSame (reserve_same u t))

theorem Follows.release {s t : State} (h : Follows s t) : Follows s (releasePlace t) := h.trans (.ofSame (releasePlace_same t))

theorem answer_follows (rq : Requester) (res : Result) (data : List Byte) (s : State) : Follows s (answer rq res data s) :=
  (Follows.refl s).answer rq res data

/-! ### The group targets (R109, R111) -/

theorem followGroup_target (g g' : Group) (s : State) : (followGroup g s).sdv.targets[g'] =
    if g' = g then groupTarget s.sdv.boost s.core.live.weights[g] else s.sdv.targets[g'] := by
  simp [followGroup, setGroupTarget, Vector.getElem_set, Fin.val_inj, eq_comm]

theorem followGroup_boost (g : Group) (s : State) : (followGroup g s).sdv.boost = s.sdv.boost := rfl

theorem followGroup_core (g : Group) (s : State) : (followGroup g s).core = s.core := rfl

theorem followGroup_inStep (g : Group) (s : State) : InStep s.core.live (followGroup g s).sdv g := by
  unfold InStep
  rw [followGroup_target, if_pos rfl, followGroup_boost]

theorem followGroup_other {l : Live} {g g' : Group} {s : State} (other : g' ≠ g) (h : InStep l s.sdv g') :
    InStep l (followGroup g s).sdv g' := by
  unfold InStep
  rw [followGroup_target, if_neg other, followGroup_boost]
  exact h

/-- The following of a group puts no group out of step. -/
theorem followGroup_keeps {g g' : Group} {s : State} (h : InStep s.core.live s.sdv g') : InStep s.core.live (followGroup g s).sdv g' := by
  by_cases here : g' = g
  · rw [here]
    exact followGroup_inStep g s
  · exact followGroup_other here h

/-- What each step of a fold establishes of its own element, and no step undoes, holds of every element in the end. -/
theorem foldl_establishes {α β : Type} {f : β → α → β} {Q : β → Prop} {P : β → α → Prop} (base : ∀ b a, Q b → Q (f b a))
    (sets : ∀ b a, Q b → P (f b a) a) (keeps : ∀ b a a', Q b → P b a' → P (f b a) a') :
    ∀ (l : List α) (b : β), Q b → ∀ a, a ∈ l ∨ P b a → P (l.foldl f b) a
  | [], _, _, _, h => h.resolve_left List.not_mem_nil
  | x :: l, b, hb, a, h => by
    refine foldl_establishes base sets keeps l (f b x) (base b x hb) a ?_
    rcases h with mem | held
    · rcases List.mem_cons.mp mem with rfl | mem
      · exact .inr (sets b a hb)
      · exact .inl mem
    · exact .inr (keeps b x a hb held)

theorem followBoost_inStep (s : State) (g : Group) : InStep s.core.live (followBoost s).sdv g :=
  foldl_establishes (f := fun s g => followGroup g s) (Q := fun t => t.core.live = s.core.live)
    (P := fun t g => InStep s.core.live t.sdv g) (fun _ _ h => h) (fun t g h => by rw [← h]; exact followGroup_inStep g t)
    (fun t g g' h k => by rw [← h] at k ⊢; exact followGroup_keeps k) (List.finRange 4) s rfl g (.inl (List.mem_finRange g))

/-! ### The SDV unit -/

/-- R109: an adopted boost in range is followed by every group, whatever stood before. -/
def Adopts (s t : State) : Prop := LiveRanges s.core.live → BoostFollowed s.core.live t.sdv

theorem adoptBoost_adopts {b : Int} {s : State} (good : LiveRanges s.core.live → boostGood b) : Adopts s (adoptBoost b s) := fun ranges => by
  refine ⟨?_, followBoost_inStep { s with sdv := { s.sdv with boost := b } }⟩
  rw [adoptBoost_sdv]
  exact good ranges

/-- R109: the boost is adopted after a step that keeps the live tables. -/
theorem Adopts.after {s t u : State} (k : Adopts t u) (live : t.core.live = s.core.live) : Adopts s u := by
  unfold Adopts
  rwa [← live]

theorem Follows.ofAdopts {s t : State} (same : SameBut [.ctl, .ramp, .sdv] s t) (h : Adopts s t) : Follows s t :=
  .ofSdv same fun ranges _ => h ranges

theorem setSdvState_live (st : SdvState) (s : State) : (setSdvState st s).core.live = s.core.live :=
  congrArg Core.live ((setSdvState_same st s) .core (by decide))

/-- R106, R109: the boost is adopted after a change of state. -/
theorem adoptAfterState_adopts {b : Int} (st : SdvState) {s : State} (good : LiveRanges s.core.live → boostGood b) :
    Adopts s (adoptBoost b (setSdvState st s)) := by
  have live := setSdvState_live st s
  exact (adoptBoost_adopts (s := setSdvState st s) (by rwa [live])).after live

theorem stateThenManual_adopts {b : Int} (st : SdvState) (m : Option Nat) {s : State} (good : LiveRanges s.core.live → boostGood b) :
    Adopts s (adoptBoost b { setSdvState st s with sdv := { (setSdvState st s).sdv with manual := m } }) := by
  have live := setSdvState_live st s
  refine Adopts.after (adoptBoost_adopts fun ranges => good ?_) live
  rwa [← live]

theorem LiveRanges.boostAt_good {l : Live} (h : LiveRanges l) (v : Nat) : boostGood (boostAt l.boostCurve v) :=
  Machine.boostAt_good h.curve v

theorem takeStateByAge_adopts (s : State) : Adopts s (takeStateByAge s) := by
  unfold takeStateByAge
  split
  · exact adoptAfterState_adopts _ fun _ => boostGood_zero
  · exact adoptAfterState_adopts _ fun ranges => ranges.boostAt_good _
  · exact adoptAfterState_adopts _ fun ranges => ranges.boostAt_good _
  next off => have := stateByAge_cases s.sdv; simp [off] at this
  next manual => have := stateByAge_cases s.sdv; simp [manual] at this

/-- R110: a new curve leaves the unit as it is, or a boost is adopted. -/
theorem curveChange_adopts (s : State) : curveChange s = s ∨ Adopts s (curveChange s) := by
  unfold curveChange
  split
  · split
    · exact .inl rfl
    · exact .inr (stateThenManual_adopts .off none fun _ => boostGood_zero)
  · split
    · split
      · exact .inr (takeStateByAge_adopts s)
      · exact .inl rfl
    · exact .inr (adoptBoost_adopts fun ranges => ranges.boostAt_good _)
    · exact .inr (adoptBoost_adopts fun ranges => ranges.boostAt_good _)
    · exact .inl rfl
    · exact .inr (adoptBoost_adopts fun ranges => ranges.boostAt_good _)

theorem BoostFollowed.congr {l : Live} {u v : Sdv} (h : BoostFollowed l u) (boost : v.boost = u.boost) (targets : v.targets = u.targets) :
    BoostFollowed l v :=
  ⟨by rw [boost]; exact h.boost, fun g => by unfold InStep; rw [boost, targets]; exact h.targets g⟩

/-- A change of the SDV unit's fields other than boost and group targets. -/
theorem Follows.sdvFields {s : State} {u : Sdv} (boost : u.boost = s.sdv.boost := by rfl) (targets : u.targets = s.sdv.targets := by rfl) :
    Follows s { s with sdv := u } := .ofParts rfl rfl id fun _ h => h.congr boost targets

theorem setSdvState_follows (st : SdvState) (s : State) : Follows s (setSdvState st s) :=
  .ofSdv ((setSdvState_same st s).mono (by decide)) fun _ h => by rw [setSdvState_sdv]; exact h.congr rfl rfl

theorem takeStateByAge_follows (s : State) : Follows s (takeStateByAge s) := .ofAdopts (takeStateByAge_same s) (takeStateByAge_adopts s)

theorem enterFallback_follows (s : State) : Follows s (enterFallback s) :=
  .ofAdopts (adoptAfterState_same 0 .fallback s) (adoptAfterState_adopts _ fun _ => boostGood_zero)

theorem compareAge_follows (s : State) : Follows s (compareAge s) := by
  unfold compareAge
  split
  · exact .refl s
  · split
    · split
      · exact enterFallback_follows s
      · split
        · exact setSdvState_follows _ s
        · exact .refl s
    · split
      · exact enterFallback_follows s
      · exact .refl s
    all_goals exact .refl s

theorem ageAdvance_follows (s : State) : Follows s (ageAdvance s) := by
  unfold ageAdvance
  split
  · exact .refl s
  · split <;> exact .sdvFields

theorem ageRise_follows (s : State) : Follows s (ageRise s) := by
  unfold ageRise
  split
  · exact .refl s
  · split
    · exact .sdvFields
    · exact Follows.trans .sdvFields (compareAge_follows _)

theorem takeTick_follows (s : State) : Follows s (takeTick s) := by
  unfold takeTick
  split
  · exact Follows.trans .sdvFields (ageRise_follows _)
  · exact .refl s

theorem acceptReport_follows (v : Nat) (s : State) : Follows s (acceptReport v s) := by
  have held : Follows s { s with sdv := { s.sdv with lastSpeed := some v, age := some 0, phase := 0 } } := .sdvFields
  unfold acceptReport
  dsimp only
  split
  · split
    · exact held.trans (.ofAdopts ((adoptBoost_same _ _).mono (by decide)) (adoptBoost_adopts fun ranges => ranges.boostAt_good v))
    · exact held
  · exact held.trans (.ofAdopts (adoptAfterState_same _ _ _) (adoptAfterState_adopts _ fun ranges => ranges.boostAt_good v))

theorem speedReport_follows (v : Nat) (valid : Bool) (s : State) : Follows s (speedReport v valid s) := by
  unfold speedReport
  split
  · exact .ofSame (setFlag_same _ s)
  · exact .refl s
  · exact acceptReport_follows v s

theorem setConfig_follows (hold fallback hyst rampMs : Nat) (s : State) : Follows s (setConfig hold fallback hyst rampMs s) :=
  Follows.trans .sdvFields (compareAge_follows _)

theorem enterManual_follows (v : Nat) (s : State) : Follows s (enterManual v s) :=
  .ofAdopts (enterManual_same v s) (stateThenManual_adopts .manual (some v) fun ranges => ranges.boostAt_good v)

theorem leaveManual_follows (s : State) : Follows s (leaveManual s) := Follows.trans .sdvFields (takeStateByAge_follows _)

theorem sdvDisable_follows (s : State) : Follows s (sdvDisable s) :=
  .ofAdopts (sdvDisable_same s) (stateThenManual_adopts .off none fun _ => boostGood_zero)

theorem sdvEnable_follows (s : State) : Follows s (sdvEnable s) := by
  unfold sdvEnable
  split
  · exact .refl s
  · exact takeStateByAge_follows s

theorem sdvReset_follows (s : State) : Follows s (sdvReset s) := by
  refine .ofAdopts (sdvReset_same s) ?_
  unfold sdvReset
  exact Adopts.after (adoptAfterState_adopts _ fun _ => boostGood_zero) rfl

/-! ### The application of a set (R69, R70, R72) -/

/-- A group's target is in step with the weights before a set, or with those after it. -/
def Heard (before after : Live) (u : Sdv) (g : Group) : Prop := InStep before u g ∨ InStep after u g

theorem followGroup_heard {before : Live} {g g' : Group} {s : State} (h : Heard before s.core.live s.sdv g') :
    Heard before s.core.live (followGroup g s).sdv g' := by
  by_cases here : g' = g
  · rw [here]
    exact .inr (followGroup_inStep g s)
  · exact h.imp (followGroup_other here) (followGroup_other here)

theorem InStep.ofWeight {l l' : Live} {u : Sdv} {g : Group} (weight : l'.weights[g] = l.weights[g]) (h : InStep l u g) : InStep l' u g := by
  unfold InStep
  rw [weight]
  exact h

/-- R72, R111: a group whose weight differs from before the set is followed. -/
def followChanged (before : Live) (s : State) (g : Group) : State :=
  if s.core.live.weights[g] = before.weights[g] then s else weightChange g s

theorem tellSdv_eq (before : Live) (rs : List ChangeRecord) (s : State) : tellSdv before rs s =
    (List.finRange 4).foldl (followChanged before) (if rs.any ChangeRecord.isBoostCurve then curveChange s else s) := rfl

theorem followChanged_core (before : Live) (s : State) (g : Group) : (followChanged before s g).core = s.core := by
  unfold followChanged
  split <;> rfl

theorem followChanged_boost (before : Live) (s : State) (g : Group) : (followChanged before s g).sdv.boost = s.sdv.boost := by
  unfold followChanged
  split <;> rfl

theorem followChanged_heard {before : Live} {g g' : Group} {s : State} (h : Heard before s.core.live s.sdv g') :
    Heard before s.core.live (followChanged before s g).sdv g' := by
  unfold followChanged
  split
  · exact h
  · exact followGroup_heard h

theorem followChanged_keeps {before : Live} {g g' : Group} {s : State} (h : InStep s.core.live s.sdv g') :
    InStep s.core.live (followChanged before s g).sdv g' := by
  unfold followChanged
  split
  · exact h
  · exact followGroup_keeps h

theorem followChanged_inStep {before : Live} {g : Group} {s : State} (h : Heard before s.core.live s.sdv g) :
    InStep s.core.live (followChanged before s g).sdv g := by
  unfold followChanged
  split
  next unchanged => exact h.elim (InStep.ofWeight unchanged) id
  next => exact followGroup_inStep g s

/-- R72: the weight changes put every group in step that was in step with the weights before the set or after it. -/
theorem followChanged_all {before : Live} {s : State} (heard : ∀ g, Heard before s.core.live s.sdv g) (g : Group) :
    InStep s.core.live ((List.finRange 4).foldl (followChanged before) s).sdv g :=
  foldl_establishes (f := followChanged before)
    (Q := fun t => t.core.live = s.core.live ∧ ∀ g, Heard before s.core.live t.sdv g) (P := fun t g => InStep s.core.live t.sdv g)
    (fun t g ⟨live, h⟩ => ⟨by rw [followChanged_core]; exact live, fun g' => by rw [← live] at h ⊢; exact followChanged_heard (h g')⟩)
    (fun t g ⟨live, h⟩ => by rw [← live] at h ⊢; exact followChanged_inStep (h g))
    (fun t g g' ⟨live, _⟩ k => by rw [← live] at k ⊢; exact followChanged_keeps k)
    (List.finRange 4) s ⟨rfl, heard⟩ g (.inl (List.mem_finRange g))

theorem foldl_followChanged_boost (before : Live) : ∀ (gs : List Group) (s : State),
    (gs.foldl (followChanged before) s).sdv.boost = s.sdv.boost
  | [], _ => rfl
  | g :: gs, s => (foldl_followChanged_boost before gs (followChanged before s g)).trans (followChanged_boost before s g)

/-- R72: a set whose curve and weights the SDV unit is told of leaves every target in step. -/
theorem tellSdv_followed {before : Live} (rs : List ChangeRecord) {s : State} (ranges : LiveRanges s.core.live)
    (followed : BoostFollowed before s.sdv) : BoostFollowed s.core.live (tellSdv before rs s).sdv := by
  have told : ∀ t : State, t.core.live = s.core.live → boostGood t.sdv.boost → (∀ g, Heard before s.core.live t.sdv g) →
      BoostFollowed s.core.live ((List.finRange 4).foldl (followChanged before) t).sdv := fun t live good heard => by
    rw [← live] at heard ⊢
    exact ⟨by rw [foldl_followChanged_boost]; exact good, followChanged_all heard⟩
  have unheard := told s rfl followed.boost fun g => .inl (followed.targets g)
  rw [tellSdv_eq]
  split
  next =>
    rcases curveChange_adopts s with same | adopts
    · rw [same]
      exact unheard
    · have new := adopts ranges
      exact told _ (congrArg Core.live ((curveChange_same s) .core (by decide))) new.boost fun g => .inr (new.targets g)
  next => exact unheard

/-- R27: after the retargeting the LEVEL targets are those of the tables. -/
theorem retargetSet_levelInv (vs : List Move) (s : State) : LevelInv (retargetSet vs s) := fun o => by
  have levels : (retargetSet vs s).core.levelTargets = Vector.ofFn fun o => s.core.live.levelTarget o := by simp only [retargetSet]
  have live : (retargetSet vs s).core.live = s.core.live := by simp only [retargetSet]
  rw [levels, live]
  simp

theorem LevelInv.congr {s t : State} (core : t.core = s.core) (h : LevelInv s) : LevelInv t := by unfold LevelInv; rwa [core]

theorem finishSet_commit (q : QueuedSet) (s : State) :
    (finishSet q s).commit = { s.commit with queue := s.commit.queue.tail, lastApplied := some q.number } := by
  unfold finishSet
  dsimp only
  split
  · exact (raiseNotice_same _ _) .commit (by decide)
  · rfl

theorem RecordsGood.tail {c : Commit} (h : RecordsGood c) (n : Option SetNo) :
    RecordsGood { c with queue := c.queue.tail, lastApplied := n } :=
  ⟨h.1, fun q hq => h.2 q (List.mem_of_mem_tail hq)⟩

/-- R69 to R71: a set's records are written, the LEVEL targets stored and the chains swapped; the SDV unit is not told yet. -/
def rewritten (q : QueuedSet) (s : State) : State :=
  swapChains q.records (retargetSet (setMoves s q.records) (writeRecords q.records s))

theorem rewritten_same (q : QueuedSet) (s : State) : SameBut [.ctl, .core, .ramp, .eq, .table] s (rewritten q s) :=
  (((writeRecords_same q.records s).mono (by decide)).trans ((retargetSet_same _ _).mono (by decide))).trans
    ((swapChains_same _ _).mono (by decide))

theorem rewritten_core (q : QueuedSet) (s : State) :
    (rewritten q s).core = (retargetSet (setMoves s q.records) (writeRecords q.records s)).core :=
  (swapChains_same _ _) .core (by decide)

theorem rewritten_levelInv (q : QueuedSet) (s : State) : LevelInv (rewritten q s) :=
  (retargetSet_levelInv _ _).congr (rewritten_core q s)

theorem rewritten_live (q : QueuedSet) (s : State) : (rewritten q s).core.live = s.core.live.writeAll q.records := by
  rw [rewritten_core, (retargetSet_changes _ _).1, writeRecords_core]

/-- R69 to R73: a queued set's application: the LEVEL targets are stored anew, and the SDV unit is told of what it follows. -/
theorem applySet_follows {q : QueuedSet} {s : State} (queued : q ∈ s.commit.queue) : Follows s (applySet q s) := by
  have same := rewritten_same q s
  have told := tellSdv_same s.core.live q.records (rewritten q s)
  have finished := finishSet_same q (tellSdv s.core.live q.records (rewritten q s))
  have core : (applySet q s).core = (rewritten q s).core := (finished .core (by decide)).trans (told .core (by decide))
  refine ⟨fun _ => (rewritten_levelInv q s).congr core, fun h => ?_⟩
  have kept : (tellSdv s.core.live q.records (rewritten q s)).commit = s.commit := (told .commit (by decide)).trans (same .commit (by decide))
  have commit : (applySet q s).commit = { s.commit with queue := s.commit.queue.tail, lastApplied := some q.number } := by
    have now := finishSet_commit q (tellSdv s.core.live q.records (rewritten q s))
    rwa [kept] at now
  have sdv : (applySet q s).sdv = (tellSdv s.core.live q.records (rewritten q s)).sdv := finished .sdv (by decide)
  rw [boostInv_iff] at h ⊢
  obtain ⟨good, ranges, followed⟩ := h
  have written : LiveRanges (rewritten q s).core.live := by
    rw [rewritten_live]
    exact ranges.writeAll (good.2 q queued)
  rw [core, commit, sdv]
  exact ⟨good.tail _, written, tellSdv_followed q.records written (by rw [same .sdv (by decide)]; exact followed)⟩

theorem examineHead_follows (s : State) : Follows s (examineHead s) := by
  unfold examineHead
  split
  · exact .refl s
  next q rest hq =>
    have queued : q ∈ s.commit.queue := by rw [hq]; exact List.mem_cons_self
    split
    · exact applySet_follows queued
    · refine .ofParts rfl rfl (fun h => ⟨h.1, fun p hp => ?_⟩) fun _ => id
      rcases List.mem_cons.mp hp with rfl | mem
      · exact h.2 q queued
      · exact h.2 p (by rw [hq]; exact List.mem_cons_of_mem q mem)

/-! ### The staging list and the commit queue (R58, R61, R74, R75) -/

theorem abortOpen_follows (s : State) : Follows s (abortOpen s) :=
  .ofParts rfl rfl (fun h => ⟨fun _ hr => absurd hr List.not_mem_nil, h.2⟩) fun _ => id

theorem flushQueue_follows (s : State) : Follows s (flushQueue s) := by
  have emptied : Follows s { s with commit := { s.commit with queue := [] } } :=
    .ofParts rfl rfl (fun h => ⟨h.1, fun _ hq => absurd hq List.not_mem_nil⟩) fun _ => id
  exact emptied.trans (.ofSame (unclaimSections_same _ _))

theorem stageReset_follows (s : State) : Follows s (stageReset s) := (abortOpen_follows s).trans (flushQueue_follows _)

theorem eqReset_follows (s : State) : Follows s (eqReset s) :=
  ((flushQueue_follows s).trans (.ofSame (abortSectionWrite_same _))).trans (.ofSame (resetPool_same _))

/-- The staging list with a new record in range. -/
theorem RecordsGood.staged {c : Commit} (h : RecordsGood c) {r : ChangeRecord} (good : r.liveGood) : ∀ p ∈ c.staging ++ [r], p.liveGood :=
  fun p hp => (List.mem_append.mp hp).elim (h.1 p) fun last => by rw [List.mem_singleton.mp last]; exact good

theorem acceptSet_follows {rs : List ChangeRecord} (notify : Bool) {s : State}
    (good : RecordsGood s.commit → ∀ r ∈ rs, r.liveGood) : Follows s (acceptSet rs notify s) := by
  refine .ofCommit (acceptSet_same rs notify s) fun h => ?_
  have commit : (acceptSet rs notify s).commit = _ := (claimSections_same (namedSections rs) _) .commit (by decide)
  rw [commit]
  refine ⟨fun _ hr => absurd hr List.not_mem_nil, fun q hq => ?_⟩
  rcases List.mem_append.mp hq with old | new
  · exact h.2 q old
  · rw [List.mem_singleton.mp new]
    exact good h

end Sys2Proof.Machine

namespace Sys2Proof.Machine
-- One proof at a time: side by side the proofs start more threads than the memory limit allows.
set_option Elab.async false

/-! ## The boundary and the modes keep the targets -/

theorem takeExam_follows (s : State) : Follows s (takeExam s) := by
  unfold takeExam
  split
  · exact Follows.trans .ofFields (examineHead_follows _)
  · exact .refl s

/-- R15: of the core the entry into STANDBY changes mode and gate. -/
theorem enterStandby_core (s : State) : (enterStandby s).core = { s.core with mode := .standby, gate := 0 } :=
  ((fillReservation_same .ctrl .ok [Mode.standby.code] (landed s)) .core (by decide)).trans (landed_landed s).core

theorem enterStandby_follows (s : State) : Follows s (enterStandby s) := by
  have same := enterStandby_same s
  have core := enterStandby_core s
  exact .ofFields (by rw [core]) (by rw [core]) (same .commit (by decide)) (same .sdv (by decide))

theorem takeLeavingEnd_follows (s : State) : Follows s (takeLeavingEnd s) := by
  unfold takeLeavingEnd
  split
  · exact enterStandby_follows s
  · exact .refl s

/-- R7: of the core the close of a boundary changes the held sources. -/
theorem closeBoundary_follows (s : State) : Follows s (closeBoundary s) := by
  unfold closeBoundary
  split
  next f _ =>
    have composed : Follows s (composeAll f.eqOn { s with frame := { s.frame with opened := none } }) :=
      Follows.trans .ofFields (.ofSame (composeAll_same _ _))
    have same := transferSlots_same f (composeAll f.eqOn { s with frame := { s.frame with opened := none } })
    obtain ⟨core, -⟩ := transferSlots_changes f (composeAll f.eqOn { s with frame := { s.frame with opened := none } })
    exact composed.trans (.ofFields (by rw [core]) (by rw [core]) (same .commit (by decide)) (same .sdv (by decide)))
  · exact .refl s

theorem closeIfSettled_follows (s : State) : Follows s (closeIfSettled s) := by
  unfold closeIfSettled
  split
  · exact .refl s
  · exact closeBoundary_follows s

theorem takeOwed_follows (s : State) : Follows s (takeOwed s) := by
  have ramps := Follows.foldl (fun s i => .ofSame (takeRampEnd_same i s)) (List.finRange 64) s
  have fades := ramps.trans (Follows.foldl (fun s i => .ofSame (takeFadeEnd_same i s)) (List.finRange 4) _)
  have tick := fades.trans (takeTick_follows _)
  have first := (tick.trans (.ofSame (takeStep_same 0 _))).trans (.ofSame (takeTimeout_same 0 _))
  have runners := (first.trans (.ofSame (takeStep_same 1 _))).trans (.ofSame (takeTimeout_same 1 _))
  exact ((runners.trans (takeLeavingEnd_follows _)).trans (takeExam_follows _)).trans (.ofSame (takeBatch_same _))

theorem finishBoundary_follows (s : State) : Follows s (finishBoundary s) := by
  unfold finishBoundary
  split
  · exact (takeOwed_follows s).trans (closeBoundary_follows _)
  · exact .refl s

/-- R8: the gate's advance is no matter of the targets. -/
theorem advanceAll_follows (s : State) : Follows s (advanceAll s) := by
  have gains : Follows s (advanceGains s) := .ofFields
  exact ((gains.trans (.ofSame (advanceRunners_same _))).trans (ageAdvance_follows _)).trans (.ofSame (markBatch_same _))

theorem execFrameBoundary_follows {up : Vector Sample 32} {examine batch : Bool} {s t : State}
    (h : execFrameBoundary up examine batch s = .next t) : Follows s t := by
  cases h
  split
  · dsimp only
    have advanced : Follows s (advanceAll (openFrame up s)) := Follows.trans .ofFields (advanceAll_follows _)
    have batched : Follows s (if batch then takeBatch (advanceAll (openFrame up s)) else advanceAll (openFrame up s)) := by
      split
      · exact advanced.trans (.ofSame (takeBatch_same _))
      · exact advanced
    refine Follows.trans ?_ (closeIfSettled_follows _)
    split
    · exact batched.trans (takeExam_follows _)
    · exact batched
  · exact .ofSame (repeatSlots_same up s)

/-- A step of the boundary that is taken when it is due, and then the boundary's close. -/
theorem Follows.dueThenClose {s u t : State} {p : Prop} [Decidable p] (h : Follows s u)
    (ht : Host.Outcome.next (φ := Fault) (ρ := Refusal) (if p then closeIfSettled u else s) = .next t) : Follows s t := by
  cases ht
  split
  · exact h.trans (closeIfSettled_follows u)
  · exact .refl s

/-! ### Power-on, reset and lock (R32, R118, R152, R153, R160) -/

theorem LevelInv.reset {s : State} (core : s.core = Core.reset) : LevelInv s := fun o => by
  have muted : Live.reset.levelTarget o = -480 := Live.levelTarget_muted (.inl (by simp [Live.zoneOf, Live.reset, ZoneRec.reset]))
  rw [core]
  simpa [Core.reset] using muted.symm

theorem LiveRanges.reset : LiveRanges Live.reset :=
  ⟨rfl, fun g => by simp [Live.reset], fun o => by simp [Live.reset, OutputRec.reset]⟩

theorem RecordsGood.reset : RecordsGood Commit.reset :=
  ⟨fun _ hr => absurd hr List.not_mem_nil, fun _ hq => absurd hq List.not_mem_nil⟩

theorem BoostFollowed.reset : BoostFollowed Live.reset Sdv.reset :=
  ⟨boostGood_zero, fun g => by simp [InStep, Sdv.reset, groupTarget]⟩

theorem Follows.ofReset {s t : State} (core : t.core = Core.reset) (commit : t.commit = Commit.reset) (sdv : t.sdv = Sdv.reset) :
    Follows s t where
  level _ := .reset core
  boost _ := by
    rw [boostInv_iff, core, commit, sdv]
    exact ⟨.reset, .reset, .reset⟩

theorem gainLock_follows (s : State) : Follows s (gainLock s) := by
  unfold gainLock
  dsimp only
  split
  · exact Follows.trans .ofFields (.ofSame (raiseNotice_same _ _))
  · exact .ofFields

theorem syncHunting_follows (spacing : Spacing) (s : State) : Follows s (syncHunting spacing s) := by
  cases spacing
  · simp only [syncHunting]
    split
    · exact .ofFields
    · exact gainLock_follows s
  · exact .ofFields

theorem nextFrame_follows (missing : Nat) (s : State) : Follows s (nextFrame missing s) := (finishBoundary_follows s).trans .ofFields

theorem abortDigest_follows (s : State) : Follows s (abortDigest s) := by
  unfold abortDigest
  split
  · split
    · exact .ofSame (abortTableOp_same s)
    · exact .refl s
  · exact .refl s

theorem lossInLeaving_follows (s : State) : Follows s (lossInLeaving s) := by
  unfold lossInLeaving
  split
  · exact enterStandby_follows s
  · exact .refl s

theorem lockLoss_follows (s : State) : Follows s (lockLoss s) := by
  have dropped : Follows s (dropLock s) := .ofFields
  exact ((dropped.trans (.ofSame (setFlag_same _ _))).trans (lossInLeaving_follows _)).trans (abortDigest_follows _)

theorem execSyncReceived_follows {spacing : Spacing} {s t : State} (h : execSyncReceived spacing s = .next t) : Follows s t := by
  cases h
  split
  · exact syncHunting_follows spacing s
  · cases spacing
    · exact nextFrame_follows 0 s
    · exact .refl s

theorem execSyncMissing_follows {s t : State} (h : execSyncMissing s = .next t) : Follows s t := by
  cases h
  split
  · exact .ofFields
  · split
    · exact nextFrame_follows 1 s
    · exact (finishBoundary_follows s).trans (lockLoss_follows _)

end Sys2Proof.Machine

namespace Sys2Proof.Machine
-- One proof at a time: side by side the proofs start more threads than the memory limit allows.
set_option Elab.async false

/-! ## Every command keeps the targets -/

/-! ### The ring port and the grants -/

theorem putContext_follows (i : Fin 2) (c : Context) (s : State) : Follows s (putContext i c s) := .ofFields

theorem setFlag_follows (f : Flag) (s : State) : Follows s (setFlag f s) := .ofSame (setFlag_same f s)

theorem openPacket_follows (b k : Bool) (c : Cell) (s : State) : Follows s (openPacket b k c s) := by
  unfold openPacket
  split
  · exact (setFlag_follows _ s).trans (putContext_follows _ _ _)
  · split
    · exact putContext_follows _ _ s
    · exact setFlag_follows _ s

theorem extendPacket_follows (last : Bool) (c : Cell) (s : State) : Follows s (extendPacket last c s) := by
  unfold extendPacket
  split
  · exact setFlag_follows _ s
  · split
    · exact setFlag_follows _ s
    · split
      · exact putContext_follows _ _ s
      · exact Follows.trans .ofFields (setFlag_follows _ _)

theorem assemble_follows (b : Bool) (c : Cell) (s : State) : Follows s (assemble b c s) := by
  unfold assemble
  split
  · exact openPacket_follows b true c s
  · exact openPacket_follows b false c s
  · exact extendPacket_follows false c s
  · exact extendPacket_follows true c s
  · exact setFlag_follows _ s

theorem sendCell_follows (c : Cell) (s : State) : Follows s (sendCell c s) := .ofFields

theorem fillPosition_follows (s : State) : Follows s (fillPosition s) := by
  unfold fillPosition
  split <;> exact .ofFields

theorem lockedCell_follows (c : Cell) (s : State) : Follows s (lockedCell c s) := by
  unfold lockedCell
  split
  · exact fillPosition_follows s
  · split
    · exact (assemble_follows false c s).trans (fillPosition_follows _)
    · split
      · exact (assemble_follows true c s).trans (sendCell_follows c _)
      · split
        · exact (setFlag_follows _ s).trans (fillPosition_follows _)
        · exact sendCell_follows c s

theorem execControlCell_follows {c : Cell} {s t : State} (h : execControlCell c s = .next t) : Follows s t := by
  cases h
  split
  · exact sendCell_follows c s
  · split
    · exact Follows.trans .ofFields (lockedCell_follows c _)
    · exact .refl s

theorem takeOutgoing_follows (s : State) : Follows s (takeOutgoing s) := by
  unfold takeOutgoing
  split
  · exact .ofFields
  · exact .refl s

theorem queueOneNotice_follows (s : State) : Follows s (queueOneNotice s) := by
  unfold queueOneNotice
  split
  · split
    · exact .ofFields
    · exact .refl s
  · exact .refl s

theorem spendGrant_follows (s : State) : Follows s (spendGrant s) := .ofFields

theorem execCueFetchGrant_follows {r : RunnerNo} {s t : State} (h : execCueFetchGrant r s = .next t) : Follows s t := by
  cases h
  split
  · exact (spendGrant_follows s).trans (.ofSame (fetchWindow_same r _))
  · exact .refl s

theorem execSectionWriteGrant_follows {s t : State} (h : execSectionWriteGrant s = .next t) : Follows s t := by
  cases h
  split
  · split
    · exact (spendGrant_follows s).trans (.ofSame (completeSectionWrite_same _ _))
    · exact .refl s
  · exact .refl s

theorem completeCueWrite_follows (w : CueWrite) (s : State) : Follows s (completeCueWrite w s) := by
  unfold completeCueWrite
  exact Follows.trans .ofFields (Follows.trans (.ofSame (reportWrites_same _ _ _)) (.ofSame (fillReservation_same _ _ _ _)))

theorem execCueWriteGrant_follows {s t : State} (h : execCueWriteGrant s = .next t) : Follows s t := by
  cases h
  split
  · split
    · exact (spendGrant_follows s).trans (completeCueWrite_follows _ _)
    · exact .refl s
  · exact .refl s

theorem tableAccess_follows (s : State) : Follows s (tableAccess s) := by
  unfold tableAccess
  split
  · exact (spendGrant_follows s).trans (.ofSame (stepTableOp_same _ _))
  · exact .refl s

theorem execTableAccessGrant_follows {s t : State} (h : execTableAccessGrant s = .next t) : Follows s t := by
  cases h
  split
  · exact tableAccess_follows s
  · exact .refl s

theorem endTableStep_follows (k : TableOpKind) (s : State) : Follows s (endTableStep k s) := by
  unfold endTableStep
  split
  · split
    · exact Follows.trans (.ofSame (takeBatch_same s)) (closeIfSettled_follows _)
    · split
      · exact tableAccess_follows s
      · exact .refl s
  · exact .refl s

/-! ### The taking of a packet -/

theorem takeOffer_follows (o : Offer) (s : State) : Follows s (takeOffer o s) := by
  unfold takeOffer
  dsimp only
  split <;> exact .ofFields

theorem takePacket_follows {row : Option Request} {body : Context → State → State} (hb : ∀ c s, Follows s (body c s)) (s : State) :
    Follows s (takePacket row body s) := by
  unfold takePacket
  split
  next o _ =>
    split
    · exact (Follows.trans (.ofSame (queueNotices_same s)) (takeOffer_follows o _)).trans (hb o.packet _)
    · exact .refl s
  · exact .refl s

theorem decodeThen_follows {q : Request} {body : Requester → List Byte → State → State}
    (hb : ∀ rq data s, Follows s (body rq data s)) (c : Context) (s : State) : Follows s (decodeThen q body c s) := by
  unfold decodeThen
  split
  · exact answer_follows _ _ _ s
  · exact hb _ _ s

theorem takeRequest_follows {q : Request} {body : Requester → List Byte → State → State}
    (hb : ∀ rq data s, Follows s (body rq data s)) {s t : State} (h : takeRequest q body s = .next t) : Follows s t := by
  cases h
  exact takePacket_follows (decodeThen_follows hb) s

theorem judgeUnknown_follows (c : Context) (s : State) : Follows s (judgeUnknown c s) := by
  unfold judgeUnknown refuseUnknown
  split
  · exact (setFlag_follows _ s).release
  · split
    · exact (Follows.refl s).release
    · split
      · exact (setFlag_follows _ s).answer _ _ _
      · split
        · exact (setFlag_follows _ s).answer _ _ _
        · exact answer_follows _ _ _ s

/-! ### The requests of CTRL -/

theorem bodyReadStatus_follows (rq : Requester) (data : List Byte) (s : State) : Follows s (bodyReadStatus rq data s) := by
  unfold bodyReadStatus
  split
  · exact answer_follows _ _ _ s
  · refine Follows.answer ?_ _ _ _
    split
    · exact .ofFields
    · exact .refl s

theorem enableEq_follows (on : Bool) (s : State) : Follows s (enableEq on s) := by
  unfold enableEq
  dsimp only
  split
  · exact Follows.trans .ofFields (.ofSame (abortSectionWrite_same _))
  · exact .ofFields

theorem enableSdv_follows (on : Bool) (s : State) : Follows s (enableSdv on s) := by
  unfold enableSdv
  dsimp only
  split
  · exact .ofFields
  · split
    · exact Follows.trans .ofFields (sdvEnable_follows _)
    · exact Follows.trans .ofFields (sdvDisable_follows _)

theorem enableCue_follows (on : Bool) (s : State) : Follows s (enableCue on s) := by
  unfold enableCue
  dsimp only
  split
  · exact Follows.trans .ofFields (.ofSame (cueDisable_same _))
  · exact .ofFields

theorem enableTable_follows (on : Bool) (s : State) : Follows s (enableTable on s) := by
  unfold enableTable
  dsimp only
  split
  · exact Follows.trans .ofFields (.ofSame (abortTableOp_same _))
  · exact .ofFields

theorem bodyUnitEnable_follows (rq : Requester) (data : List Byte) (s : State) : Follows s (bodyUnitEnable rq data s) := by
  unfold bodyUnitEnable
  split
  · exact answer_follows _ _ _ s
  · split
    · exact answer_follows _ _ _ s
    · exact ((((enableEq_follows _ s).trans (enableSdv_follows _ _)).trans (enableCue_follows _ _)).trans
        (enableTable_follows _ _)).answer _ _ _

theorem resetUnit_follows (u : UnitId) (s : State) : Follows s (resetUnit u s) := by
  cases u with
  | ctrl => exact .refl s
  | stage => exact stageReset_follows s
  | eq => exact eqReset_follows s
  | sdv => exact sdvReset_follows s
  | cue => exact .ofSame (cueReset_same s)
  | table => exact .ofSame (abortTableOp_same s)

theorem bodyUnitReset_follows (rq : Requester) (data : List Byte) (s : State) : Follows s (bodyUnitReset rq data s) := by
  unfold bodyUnitReset
  split
  · exact answer_follows _ _ _ s
  · split
    · exact answer_follows _ _ _ s
    · split
      · exact answer_follows _ _ _ s
      · exact (resetUnit_follows _ s).answer _ _ _

theorem bodyNoticeEnable_follows (rq : Requester) (data : List Byte) (s : State) : Follows s (bodyNoticeEnable rq data s) := by
  unfold bodyNoticeEnable
  split
  · exact answer_follows _ _ _ s
  next a b c d _ =>
    have map : Follows s (setNoticeMap { setApplied := a, cueStopped := b, sdvState := c, ringRelocked := d } s) := .ofFields
    exact map.answer _ _ _

theorem mode_follows (m : Mode) (s : State) : Follows s { s with core := { s.core with mode := m } } := .ofFields

theorem bodyMode_follows (rq : Requester) (data : List Byte) (s : State) : Follows s (bodyMode rq data s) := by
  unfold bodyMode
  split
  · exact answer_follows _ _ _ s
  · exact (mode_follows .run s).answer _ _ _
  · split
    · have reserved := (Follows.refl s).reserve .ctrl
      unfold leaveRun
      dsimp only
      split
      · exact reserved.trans (mode_follows .leaving _)
      · exact reserved.trans (enterStandby_follows _)
    · exact answer_follows _ _ _ s

theorem setMap_follows (output : Bool) (m : List (Option Slot)) (s : State) : Follows s (setMap output m s) := by
  unfold setMap
  split <;> exact .ofFields

theorem bodySlotMap_follows (rq : Requester) (data : List Byte) (s : State) : Follows s (bodySlotMap rq data s) := by
  unfold bodySlotMap
  split
  · exact answer_follows _ _ _ s
  · dsimp only
    split
    · exact answer_follows _ _ _ s
    · split
      · exact answer_follows _ _ _ s
      · split
        · exact answer_follows _ _ _ s
        · split
          · exact answer_follows _ _ _ s
          · split
            · exact answer_follows _ _ _ s
            · exact (setMap_follows _ _ s).answer _ _ _

/-! ### The requests of STAGE -/

theorem stageOpen_follows (rq : Requester) {r : ChangeRecord} (good : r.liveGood) (s : State) : Follows s (stageOpen rq r s) := by
  have staged : Follows s { s with commit := { s.commit with staging := s.commit.staging ++ [r] } } :=
    .ofParts rfl rfl (fun h => ⟨h.staged good, h.2⟩) fun _ => id
  unfold stageOpen
  split
  · exact staged.answer _ _ _
  · exact answer_follows _ _ _ s

theorem stageClose_follows (rq : Requester) {r : ChangeRecord} (good : r.liveGood) (notify : Bool) (s : State) :
    Follows s (stageClose rq r notify s) := by
  unfold stageClose
  split
  · exact answer_follows _ _ _ s
  · split
    · exact answer_follows _ _ _ s
    · split
      · exact (abortOpen_follows s).answer _ _ _
      · exact (acceptSet_follows notify fun h => h.staged good).answer _ _ _

/-- R57: only a record that passed its checks is staged. -/
theorem bodyStageRecord_follows (rq : Requester) (data : List Byte) (s : State) : Follows s (bodyStageRecord rq data s) := by
  unfold bodyStageRecord
  split
  · exact answer_follows _ _ _ s
  · exact answer_follows _ _ _ s
  next r checked =>
    have good := checkRecord_liveGood checked
    split
    · exact stageClose_follows rq good _ s
    · exact stageOpen_follows rq good s

/-! ### The requests of EQ -/

theorem startSectionWrite_follows (sec : SectionNo) (kind : WriteKind) (c : Coeffs) (s : State) :
    Follows s (startSectionWrite sec kind c s) := by
  unfold startSectionWrite
  exact (Follows.trans .ofFields (.ofSame (reportSections_same _ _))).reserve .eq

theorem bodySectionLoad_follows (rq : Requester) (data : List Byte) (s : State) : Follows s (bodySectionLoad rq data s) := by
  unfold bodySectionLoad
  split
  · exact answer_follows _ _ _ s
  · split
    · exact answer_follows _ _ _ s
    · exact Follows.trans .ofFields (startSectionWrite_follows _ _ _ _)

theorem bodySectionWrite_follows (rq : Requester) (data : List Byte) (s : State) : Follows s (bodySectionWrite rq data s) := by
  unfold bodySectionWrite
  split
  · exact answer_follows _ _ _ s
  · dsimp only
    split
    · exact startSectionWrite_follows _ _ _ s
    · exact answer_follows _ _ _ s

theorem bodySectionRelease_follows (rq : Requester) (data : List Byte) (s : State) : Follows s (bodySectionRelease rq data s) := by
  unfold bodySectionRelease
  dsimp only
  split
  · exact Follows.answer (.ofSame (releaseSection_same _ s)) _ _ _
  · exact answer_follows _ _ _ s

/-- The free values move on, and a status is answered (R86, R115). -/
theorem freeThenAnswer_follows (n : Nat) (rq : Requester) (data : List Byte) (s : State) :
    Follows s (answer rq .ok data { s with free := n }) := Follows.answer .ofFields _ _ _

/-! ### The requests of SDV -/

theorem takeReport_follows (c : Context) (s : State) : Follows s (takeReport c s) := by
  unfold takeReport
  split
  · exact (speedReport_follows _ _ s).release
  · exact decodeThen_follows (fun rq data s => (speedReport_follows _ _ s).answer _ _ _) c s

theorem bodySdvConfig_follows (rq : Requester) (data : List Byte) (s : State) : Follows s (bodySdvConfig rq data s) := by
  unfold bodySdvConfig
  split
  · exact answer_follows _ _ _ s
  · exact (setConfig_follows _ _ _ _ s).answer _ _ _

theorem bodySdvManual_follows (rq : Requester) (data : List Byte) (s : State) : Follows s (bodySdvManual rq data s) := by
  unfold bodySdvManual
  dsimp only
  split
  · exact answer_follows _ _ _ s
  · split
    · exact answer_follows _ _ _ s
    · exact (enterManual_follows _ s).answer _ _ _

theorem bodySdvAuto_follows (rq : Requester) (data : List Byte) (s : State) : Follows s (bodySdvAuto rq data s) := by
  unfold bodySdvAuto
  split
  · exact (leaveManual_follows s).answer _ _ _
  · exact answer_follows _ _ _ s

/-! ### The requests of CUE -/

theorem bodyCueWrite_follows (rq : Requester) (data : List Byte) (s : State) : Follows s (bodyCueWrite rq data s) := by
  unfold bodyCueWrite
  dsimp only
  split
  · exact answer_follows _ _ _ s
  · exact Follows.reserve .ofFields .cue

theorem onRunner_follows (r : RunnerNo) (f : Runner → Runner) (s : State) : Follows s (onRunner r f s) := .ofSame (onRunner_same r f s)

theorem bodyCueStart_follows (rq : Requester) (data : List Byte) (s : State) : Follows s (bodyCueStart rq data s) := by
  unfold bodyCueStart
  split
  · exact answer_follows _ _ _ s
  · split
    · exact (onRunner_follows _ _ s).answer _ _ _
    · exact answer_follows _ _ _ s

theorem latchRelease_follows (rq : Requester) (r : RunnerNo) (s : State) : Follows s (latchRelease rq r s) := by
  unfold latchRelease
  split
  · exact answer_follows _ _ _ s
  · exact (onRunner_follows _ _ s).answer _ _ _

theorem bodyCueRelease_follows (rq : Requester) (data : List Byte) (s : State) : Follows s (bodyCueRelease rq data s) := by
  unfold bodyCueRelease releaseRunner
  split
  · exact answer_follows _ _ _ s
  · split
    · exact Follows.answer (.ofSame (completeWait_same _ _ s)) _ _ _
    · exact latchRelease_follows rq _ s
    · exact latchRelease_follows rq _ s
    · exact answer_follows _ _ _ s
    · exact answer_follows _ _ _ s

theorem bodyCueHalt_follows (rq : Requester) (data : List Byte) (s : State) : Follows s (bodyCueHalt rq data s) := by
  unfold bodyCueHalt
  split
  · exact answer_follows _ _ _ s
  · exact Follows.answer (.ofSame (haltRunner_same _ s)) _ _ _

/-! ### The requests of TABLE -/

theorem bodyTableRead_follows (rq : Requester) (data : List Byte) (s : State) : Follows s (bodyTableRead rq data s) := by
  unfold bodyTableRead startRead
  split
  · exact answer_follows _ _ _ s
  next op _ =>
    have counted : Follows s (countLive op.table op.step s) := .ofSame (countLive_same _ _ s)
    split
    · exact Follows.reserve .ofFields .table
    · dsimp only
      split
      · exact counted.answer _ _ _
      · exact (counted.trans .ofFields).reserve .table

theorem bodyDigest_follows (rq : Requester) (data : List Byte) (s : State) : Follows s (bodyDigest rq data s) := by
  unfold bodyDigest
  split
  · exact answer_follows _ _ _ s
  · split
    · exact answer_follows _ _ _ s
    · split
      · exact answer_follows _ _ _ s
      · exact Follows.reserve .ofFields .table

theorem execTableRead_follows {s t : State} (h : execTableRead s = .next t) : Follows s t := by
  cases h
  split
  · exact .refl s
  · exact takePacket_follows (decodeThen_follows bodyTableRead_follows) s

/-! ### All commands -/

theorem exec_follows {c : Instr} {s t : State} (h : exec c s = .next t) : Follows s t := by
  cases c with
  | powerOn strap => cases h; exact .ofReset rfl rfl rfl
  | syncReceived spacing => exact execSyncReceived_follows h
  | syncMissing => exact execSyncMissing_follows h
  | frameBoundary up examine batch => exact execFrameBoundary_follows h
  | rampComplete i => exact .dueThenClose (.ofSame (takeRampEnd_same i s)) h
  | crossfadeEnd i => exact .dueThenClose (.ofSame (takeFadeEnd_same i s)) h
  | leavingEnd => exact .dueThenClose (enterStandby_follows s) h
  | setApplication => exact .dueThenClose (takeExam_follows s) h
  | sdvTick => exact .dueThenClose (takeTick_follows s) h
  | cueFetchGrant r => exact execCueFetchGrant_follows h
  | stepComplete r => exact .dueThenClose (.ofSame (completeEntry_same r s)) h
  | waitTimeout r => exact .dueThenClose (.ofSame (completeWait_same r true s)) h
  | sectionWriteGrant => exact execSectionWriteGrant_follows h
  | cueWriteGrant => exact execCueWriteGrant_follows h
  | tableAccessGrant => exact execTableAccessGrant_follows h
  | tableReadComplete => cases h; exact endTableStep_follows .read s
  | digestEnd => cases h; exact endTableStep_follows .digest s
  | controlCell cell => exact execControlCell_follows h
  | outgoingPacketTake => cases h; exact Follows.trans (.ofSame (queueNotices_same s)) (takeOutgoing_follows _)
  | noticeQueue => cases h; exact queueOneNotice_follows s
  | unknownRequest => cases h; exact takePacket_follows judgeUnknown_follows s
  | identify => exact takeRequest_follows (fun rq _ s => answer_follows rq _ _ s) h
  | readStatus => exact takeRequest_follows bodyReadStatus_follows h
  | unitEnable => exact takeRequest_follows bodyUnitEnable_follows h
  | unitReset => exact takeRequest_follows bodyUnitReset_follows h
  | partReset => exact takeRequest_follows (fun _ _ s => .ofReset rfl rfl rfl) h
  | noticeEnable => exact takeRequest_follows bodyNoticeEnable_follows h
  | mode => exact takeRequest_follows bodyMode_follows h
  | slotMap => exact takeRequest_follows bodySlotMap_follows h
  | stageRecord => exact takeRequest_follows bodyStageRecord_follows h
  | abortOpen => exact takeRequest_follows (fun rq _ s => (abortOpen_follows s).answer rq _ _) h
  | flushQueue => exact takeRequest_follows (fun rq _ s => (flushQueue_follows s).answer rq _ _) h
  | setStatus => exact takeRequest_follows (fun rq _ s => answer_follows rq _ _ s) h
  | sectionLoad => exact takeRequest_follows bodySectionLoad_follows h
  | sectionWrite => exact takeRequest_follows bodySectionWrite_follows h
  | sectionRelease => exact takeRequest_follows bodySectionRelease_follows h
  | poolStatus => exact takeRequest_follows (fun rq _ s => freeThenAnswer_follows _ rq _ s) h
  | speedReport => cases h; exact takePacket_follows takeReport_follows s
  | sdvConfig => exact takeRequest_follows bodySdvConfig_follows h
  | sdvManual => exact takeRequest_follows bodySdvManual_follows h
  | sdvAuto => exact takeRequest_follows bodySdvAuto_follows h
  | sdvStatus => exact takeRequest_follows (fun rq _ s => freeThenAnswer_follows _ rq _ s) h
  | cueWrite => exact takeRequest_follows bodyCueWrite_follows h
  | cueStart => exact takeRequest_follows bodyCueStart_follows h
  | cueRelease => exact takeRequest_follows bodyCueRelease_follows h
  | cueHalt => exact takeRequest_follows bodyCueHalt_follows h
  | cueStatus => exact takeRequest_follows (fun rq _ s => answer_follows rq _ _ s) h
  | tableRead => exact execTableRead_follows h
  | digest => exact takeRequest_follows bodyDigest_follows h

theorem step_follows {s t : State} (h : step s = .next t) : Follows s t := by
  unfold step at h
  split at h
  · cases h; exact .refl s
  · exact Follows.trans .ofFields (exec_follows h)

/-- Settles O7: each command keeps both invariants (`Follows`); LEVEL targets and live tables change together in a set's
application alone, and every change of the boost or of a weight is followed by the group targets. -/
theorem stepKeepsTargets : Obligations.StepKeepsTargets :=
  ⟨fun _ _ level h => (step_follows h).level level, fun _ _ boost h => (step_follows h).boost boost⟩

end Sys2Proof.Machine

namespace Sys2Proof.Machine
-- One proof at a time: side by side the proofs start more threads than the memory limit allows.
set_option Elab.async false

/-! ## The ramp law (R36) -/

/-- Settles O18: a ramp's value is its start and a truncated part of the distance, as between two breakpoints of a curve. -/
theorem rampLaw : Obligations.RampLaw := by
  intro r positive within
  obtain ⟨low, high⟩ := segment_between (a := r.start) (b := r.target.qdb) (k := r.k) (d := r.n) (by omega) (by omega) (by omega)
  refine ⟨low, high, fun first => ?_, fun last => ?_, rfl⟩
  · simp [Ramp.value, first]
  · rw [Ramp.value, last, Int.mul_tdiv_cancel _ (by omega)]
    omega

/-! ## The entries of the ramp table (R34, R38) -/

/-- A table with one entry replaced. -/
def RampUnit.put (u : RampUnit) (i : Fin 64) (x : Option Ramp) : RampUnit := { u with entries := u.entries.set i x }

theorem RampUnit.put_at (u : RampUnit) (i j : Fin 64) (x : Option Ramp) :
    (u.put i x).entries[j] = if j = i then x else u.entries[j] := by
  simp [RampUnit.put, Vector.getElem_set, Fin.val_inj, eq_comm]

theorem RampUnit.put_self (u : RampUnit) (i : Fin 64) (x : Option Ramp) : (u.put i x).entries[i] = x := by
  rw [put_at, if_pos rfl]

theorem RampUnit.put_other (u : RampUnit) {i j : Fin 64} (x : Option Ramp) (other : j ≠ i) :
    (u.put i x).entries[j] = u.entries[j] := by
  rw [put_at, if_neg other]

/-- An active entry of a table with one entry replaced is the new one, or stood before. -/
theorem RampUnit.put_entry {u : RampUnit} {i j : Fin 64} {x : Option Ramp} {r : Ramp} (h : (u.put i x).entries[j] = some r) :
    (j = i ∧ x = some r) ∨ (j ≠ i ∧ u.entries[j] = some r) := by
  by_cases here : j = i
  · rw [here, put_self] at h
    exact .inl ⟨here, h⟩
  · rw [put_other u x here] at h
    exact .inr ⟨here, h⟩

/-- The entry `find` gives holds the key. -/
theorem RampUnit.find_holds {u : RampUnit} {k : Key} {i : Fin 64} (h : u.find k = some i) :
    ∃ r, u.entries[i] = some r ∧ r.key = k := by
  have held := List.find?_some h
  split at held
  next r entry => exact ⟨r, entry, of_decide_eq_true held⟩
  next => cases held

theorem RampUnit.find_eq_none_iff {u : RampUnit} {k : Key} :
    u.find k = none ↔ ∀ (i : Fin 64) (r : Ramp), u.entries[i] = some r → r.key ≠ k := by
  unfold RampUnit.find
  rw [List.find?_eq_none]
  constructor
  · intro none i r entry
    have := none i (List.mem_finRange i)
    rw [entry] at this
    simpa using this
  · intro none i _
    split
    next r entry => simpa using none i r entry
    next => simp

/-- R38: the lowest-numbered free general entry. -/
theorem RampUnit.lowestFree_eq_some_iff {u : RampUnit} {i : Fin 64} :
    u.lowestFree = some i ↔ i.val < 48 ∧ u.entries[i] = none ∧ ∀ j : Fin 64, j < i → u.entries[j] ≠ none := by
  unfold RampUnit.lowestFree
  rw [List.find?_eq_some_iff_getElem]
  simp only [Bool.and_eq_true, decide_eq_true_eq, Option.isNone_iff_eq_none, List.getElem_finRange]
  constructor
  · rintro ⟨⟨general, free⟩, n, hn, at_n, lower⟩
    refine ⟨general, free, fun j below taken => ?_⟩
    have index : n = i.val := congrArg Fin.val at_n
    have := lower j.val (by rw [index]; exact below)
    simp only [Fin.cast_mk, Fin.eta, taken] at this
    have inPool : j.val < 48 := by omega
    simp [inPool] at this
  · rintro ⟨general, free, lower⟩
    refine ⟨⟨general, free⟩, i.val, by simp, rfl, fun j below => ?_⟩
    have taken := lower ⟨j, by omega⟩ below
    simpa [Option.isSome_iff_ne_none] using Or.inr taken

/-- R38: the entry a key takes: the dedicated entry of DUCK and BOOST, the lowest-numbered free general one of LEVEL and CELL. -/
theorem RampUnit.entryFor_eq_some_iff (u : RampUnit) (k : Key) (i : Fin 64) : u.entryFor k = some i ↔
    match k with
    | .level _ | .cell _ _ => i.val < 48 ∧ u.entries[i] = none ∧ ∀ j : Fin 64, j < i → u.entries[j] ≠ none
    | .duck src => i.val = 48 + src.val
    | .boost g => i.val = 60 + g.val := by
  cases k with
  | level o => exact lowestFree_eq_some_iff
  | cell o src => exact lowestFree_eq_some_iff
  | duck src => simp [RampUnit.entryFor, Fin.ext_iff, eq_comm]
  | boost g => simp [RampUnit.entryFor, Fin.ext_iff, eq_comm]

theorem RampUnit.entryFor_poolHolds {u : RampUnit} {k : Key} {i : Fin 64} (h : u.entryFor k = some i) : poolHolds i k := by
  have place := (u.entryFor_eq_some_iff k i).mp h
  cases k with
  | level o => exact place.1
  | cell o src => exact place.1
  | duck src => exact place
  | boost g => exact place

/-! ## Retargets (R38 to R40) -/

/-- R38, second case: a retarget is a jump. -/
def RampUnit.Jump (u : RampUnit) (m : Mode) (k : Key) (old new : Gain) (ms : Nat) : Prop :=
  m = .standby ∨ ms = 0 ∨ u.present k old = new.qdb

theorem RampUnit.jumps_iff (u : RampUnit) (m : Mode) (k : Key) (old new : Gain) (ms : Nat) :
    u.jumps m k old new ms = true ↔ u.Jump m k old new ms := by
  simp [RampUnit.jumps, RampUnit.Jump, or_assoc]

/-- R38, third case: the entry a key's ramp takes is the one it has, else the one its pool gives it. -/
def RampUnit.Takes (u : RampUnit) (k : Key) (i : Fin 64) : Prop := u.find k = some i ∨ (u.find k = none ∧ u.entryFor k = some i)

section
variable {u : RampUnit} {m : Mode} {k : Key} {old new : Gain} {ms : Nat} {i : Fin 64}

theorem RampUnit.freeKey_found (h : u.find k = some i) : u.freeKey k = u.put i none := by
  unfold RampUnit.freeKey
  rw [h]
  rfl

theorem RampUnit.freeKey_absent (h : u.find k = none) : u.freeKey k = u := by
  unfold RampUnit.freeKey
  rw [h]

/-- R38, first case. -/
theorem RampUnit.retarget_equal (equal : new = old) : u.retarget m k old new ms = u := if_pos equal

/-- R38, R40, second case. -/
theorem RampUnit.retarget_jump (moved : new ≠ old) (jump : u.Jump m k old new ms) : u.retarget m k old new ms = u.freeKey k := by
  unfold RampUnit.retarget
  rw [if_neg moved, if_pos ((u.jumps_iff m k old new ms).mpr jump)]

/-- R38, R39, third case. -/
theorem RampUnit.retarget_ramp (moved : new ≠ old) (far : ¬ u.Jump m k old new ms) (takes : u.Takes k i) :
    u.retarget m k old new ms = u.put i (some (u.newRamp k old new ms)) := by
  unfold RampUnit.retarget
  rw [if_neg moved, if_neg ((u.jumps_iff m k old new ms).not.mpr far)]
  rcases takes with found | ⟨absent, given⟩
  · rw [found]
    rfl
  · rw [absent, given]
    rfl

/-- All a retarget can do: nothing to a key that keeps its target or has no entry, or free its entry, or put its ramp. -/
theorem RampUnit.retarget_cases (u : RampUnit) (m : Mode) (k : Key) (old new : Gain) (ms : Nat) :
    ((new = old ∨ u.find k = none) ∧ u.retarget m k old new ms = u) ∨
    (∃ i, new ≠ old ∧ u.find k = some i ∧ u.retarget m k old new ms = u.put i none) ∨
    ∃ i, new ≠ old ∧ ms ≠ 0 ∧ u.Takes k i ∧ u.retarget m k old new ms = u.put i (some (u.newRamp k old new ms)) := by
  by_cases moved : new = old
  · exact .inl ⟨.inl moved, retarget_equal moved⟩
  by_cases jump : u.Jump m k old new ms
  · rw [retarget_jump moved jump]
    cases found : u.find k with
    | none => exact .inl ⟨.inr rfl, freeKey_absent found⟩
    | some i => exact .inr (.inl ⟨i, moved, rfl, freeKey_found found⟩)
  · have long : ms ≠ 0 := fun zero => jump (.inr (.inl zero))
    cases found : u.find k with
    | some i => exact .inr (.inr ⟨i, moved, long, .inl found, retarget_ramp moved jump (.inl found)⟩)
    | none =>
      cases given : u.entryFor k with
      | some i => exact .inr (.inr ⟨i, moved, long, .inr ⟨found, given⟩, retarget_ramp moved jump (.inr ⟨found, given⟩)⟩)
      | none =>
        refine .inl ⟨.inr rfl, ?_⟩
        unfold RampUnit.retarget
        rw [if_neg moved, if_neg ((u.jumps_iff m k old new ms).not.mpr jump), found, given]

end

/-! ## The form of the table (R34, R36) -/

/-- R34, R36: `RampInv`, said of the ramp unit alone. -/
structure RampUnit.Good (u : RampUnit) : Prop where
  pools : ∀ (i : Fin 64) (r : Ramp), u.entries[i] = some r → poolHolds i r.key ∧ r.k < r.n
  keysOnce : ∀ (i j : Fin 64) (r q : Ramp), u.entries[i] = some r → u.entries[j] = some q → r.key = q.key → i = j

theorem rampInv_iff (s : State) : RampInv s ↔ s.ramp.Good := ⟨fun h => ⟨h.pools, h.keysOnce⟩, fun h => ⟨h.pools, h.keysOnce⟩⟩

theorem RampUnit.Good.congr {u v : RampUnit} (h : u.Good) (entries : v.entries = u.entries) : v.Good :=
  ⟨by rw [entries]; exact h.pools, by rw [entries]; exact h.keysOnce⟩

theorem RampUnit.Good.empty {u : RampUnit} (none : ∀ i : Fin 64, u.entries[i] = none) : u.Good :=
  ⟨fun i r entry => by simp [none i] at entry, fun i j r q entry => by simp [none i] at entry⟩

section
variable {u : RampUnit} {k : Key} {i : Fin 64}

/-- The key is found where it is held. -/
theorem RampUnit.Good.find_eq (h : u.Good) {r : Ramp} (entry : u.entries[i] = some r) : u.find r.key = some i := by
  cases found : u.find r.key with
  | none => exact absurd rfl (RampUnit.find_eq_none_iff.mp found i r entry)
  | some j =>
    obtain ⟨q, held, key⟩ := RampUnit.find_holds found
    rw [h.keysOnce j i q r held entry key]

theorem RampUnit.Good.takes_poolHolds (h : u.Good) (takes : u.Takes k i) : poolHolds i k := by
  rcases takes with found | ⟨-, given⟩
  · obtain ⟨r, held, rfl⟩ := RampUnit.find_holds found
    exact (h.pools i r held).1
  · exact RampUnit.entryFor_poolHolds given

/-- No other entry holds the key whose ramp takes entry `i`. -/
theorem RampUnit.Good.takes_once (h : u.Good) (takes : u.Takes k i) {j : Fin 64} {r : Ramp} (entry : u.entries[j] = some r)
    (key : r.key = k) : j = i := by
  have found := h.find_eq entry
  rw [key] at found
  rcases takes with here | ⟨absent, -⟩
  · exact Option.some.inj (found.symm.trans here)
  · rw [absent] at found
    cases found

/-- An entry is freed. -/
theorem RampUnit.Good.putNone (h : u.Good) (i : Fin 64) : (u.put i none).Good := by
  have old : ∀ (j : Fin 64) (r : Ramp), (u.put i none).entries[j] = some r → u.entries[j] = some r := fun j r entry =>
    (RampUnit.put_entry entry).elim (fun new => nomatch new.2) fun stood => stood.2
  exact ⟨fun j r entry => h.pools j r (old j r entry), fun a b r q ha hb => h.keysOnce a b r q (old a r ha) (old b q hb)⟩

/-- A ramp of a key is put where the key's ramp goes. -/
theorem RampUnit.Good.putSome (h : u.Good) {q : Ramp} (counts : q.k < q.n) (takes : u.Takes q.key i) : (u.put i (some q)).Good := by
  refine ⟨fun j r entry => ?_, fun a b r p ha hb key => ?_⟩
  · rcases RampUnit.put_entry entry with ⟨rfl, ⟨⟩⟩ | ⟨-, stood⟩
    · exact ⟨h.takes_poolHolds takes, counts⟩
    · exact h.pools j r stood
  · rcases RampUnit.put_entry ha with ⟨rfl, ⟨⟩⟩ | ⟨-, stoodA⟩ <;> rcases RampUnit.put_entry hb with ⟨rfl, ⟨⟩⟩ | ⟨-, stoodB⟩
    · rfl
    · exact (h.takes_once takes stoodB key.symm).symm
    · exact h.takes_once takes stoodA key
    · exact h.keysOnce a b r p stoodA stoodB key

/-- A key whose entry is freed has no other. -/
theorem RampUnit.Good.find_freed (h : u.Good) (found : u.find k = some i) : (u.put i none).find k = none :=
  RampUnit.find_eq_none_iff.mpr fun j r entry key => by
    rcases RampUnit.put_entry entry with ⟨-, ⟨⟩⟩ | ⟨other, stood⟩
    exact other (h.takes_once (.inl found) stood key)

theorem RampUnit.Good.retarget (h : u.Good) (m : Mode) (k : Key) (old new : Gain) (ms : Nat) : (u.retarget m k old new ms).Good := by
  rcases u.retarget_cases m k old new ms with ⟨-, same⟩ | ⟨i, -, -, freed⟩ | ⟨i, -, long, takes, ramps⟩
  · rwa [same]
  · rw [freed]
    exact h.putNone i
  · rw [ramps]
    exact h.putSome (q := u.newRamp k old new ms) (by simp [RampUnit.newRamp]; omega) takes

/-- An entry after a retarget to another target is the key's, with the new target, or stood before and is not the key's. -/
theorem RampUnit.Good.retarget_entry (h : u.Good) {m : Mode} {old new : Gain} {ms : Nat} (moved : new ≠ old) {j : Fin 64} {r : Ramp}
    (entry : (u.retarget m k old new ms).entries[j] = some r) :
    (r.key = k ∧ r.target = new) ∨ (r.key ≠ k ∧ u.entries[j] = some r) := by
  rcases u.retarget_cases m k old new ms with ⟨absent, same⟩ | ⟨i, -, found, freed⟩ | ⟨i, -, -, takes, ramps⟩
  · rw [same] at entry
    exact .inr ⟨RampUnit.find_eq_none_iff.mp (absent.resolve_left moved) j r entry, entry⟩
  · rw [freed] at entry
    rcases RampUnit.put_entry entry with ⟨-, ⟨⟩⟩ | ⟨other, stood⟩
    exact .inr ⟨fun key => other (h.takes_once (.inl found) stood key), stood⟩
  · rw [ramps] at entry
    rcases RampUnit.put_entry entry with ⟨-, ⟨⟩⟩ | ⟨other, stood⟩
    · exact .inl ⟨rfl, rfl⟩
    · exact .inr ⟨fun key => other (h.takes_once takes stood key), stood⟩

end

/-- Settles O19: the branches of a retarget, with the place `Takes` gives the key's ramp. -/
theorem retargetCases : Obligations.RetargetCases := by
  intro s m k old new ms inv
  have good := (rampInv_iff s).mp inv
  refine ⟨RampUnit.retarget_equal, fun moved jump => ?_, fun moved far i takes => ?_, s.ramp.entryFor_eq_some_iff k⟩
  · have freed : s.ramp.retarget m k old new ms = s.ramp.freeKey k := RampUnit.retarget_jump moved jump
    rw [freed]
    cases found : s.ramp.find k with
    | none =>
      rw [RampUnit.freeKey_absent found]
      exact ⟨found, fun i _ => rfl⟩
    | some i =>
      rw [RampUnit.freeKey_found found]
      refine ⟨good.find_freed found, fun j other => RampUnit.put_other _ _ fun here => ?_⟩
      obtain ⟨r, entry, key⟩ := RampUnit.find_holds found
      exact other r (by rw [here]; exact entry) key
  · have ramps : s.ramp.retarget m k old new ms = _ := RampUnit.retarget_ramp moved far takes
    rw [ramps]
    exact ⟨RampUnit.put_self _ _ _, fun j other => RampUnit.put_other _ _ other, good.takes_poolHolds takes⟩

end Sys2Proof.Machine

namespace Sys2Proof.Machine
-- One proof at a time: side by side the proofs start more threads than the memory limit allows.
set_option Elab.async false

/-! ## A completed ramp (R35, R37) -/

/-- R35: a key's target is its owner's alone. -/
theorem keyTarget_congr {s t : State} (levels : t.core.levelTargets = s.core.levelTargets := by rfl)
    (cells : t.core.live.cells = s.core.live.cells := by rfl) (ducks : t.ramp.duckTargets = s.ramp.duckTargets := by rfl)
    (groups : t.sdv.targets = s.sdv.targets := by rfl) (k : Key) : keyTarget t k = keyTarget s k := by
  cases k with
  | level o => simp only [keyTarget, levels]
  | cell o src => simp only [keyTarget, cells]
  | duck src => simp only [keyTarget, ducks]
  | boost g => simp only [keyTarget, groups]

/-- R7: of the core the close of a boundary changes the held sources alone. -/
theorem closeBoundary_core (s : State) : (closeBoundary s).core = { s.core with held := (closeBoundary s).core.held } := by
  cases opened : s.frame.opened with
  | none =>
    unfold closeBoundary
    rw [opened]
  | some f =>
    have composed : (composeAll f.eqOn (shut s)).core = s.core := (composeAll_same f.eqOn (shut s)) .core (by decide)
    rw [closeBoundary_opened opened, (transferSlots_changes f _).1, composed]

theorem closeIfSettled_core (s : State) : (closeIfSettled s).core = { s.core with held := (closeIfSettled s).core.held } := by
  unfold closeIfSettled
  split
  · rfl
  · exact closeBoundary_core s

theorem closeIfSettled_keyTarget (s : State) (k : Key) : keyTarget (closeIfSettled s) k = keyTarget s k := by
  have core := closeIfSettled_core s
  have same := closeIfSettled_same s
  exact keyTarget_congr (by rw [core]) (by rw [core]) (congrArg RampUnit.duckTargets (same .ramp (by decide)))
    (congrArg Sdv.targets (same .sdv (by decide))) k

/-- R35: a settled key's current value is its target. -/
theorem RampUnit.current_settled {u : RampUnit} {k : Key} (settled : u.find k = none) (target : Gain) : u.current k target = target := by
  unfold RampUnit.current
  rw [settled]

theorem takeRampEnd_due {i : Fin 64} {r : Ramp} {s : State} (entry : s.ramp.entries[i] = some r) (due : r.due = true) :
    s.ramp.dueAt i = true ∧ takeRampEnd i s = { s with ramp := s.ramp.put i none } := by
  have owed : s.ramp.dueAt i = true := by
    unfold RampUnit.dueAt
    rw [entry]
    exact due
  refine ⟨owed, ?_⟩
  unfold takeRampEnd RampUnit.complete
  rw [if_pos owed]
  rfl

/-- Settles O20: the freed entry was the only one with its key, so the key is settled. -/
theorem rampCompleteSettles : Obligations.RampCompleteSettles := by
  intro i r s inv entry due
  have good := (rampInv_iff s).mp inv
  obtain ⟨owed, taken⟩ := takeRampEnd_due entry due
  have target : keyTarget (closeIfSettled { s with ramp := s.ramp.put i none }) r.key = keyTarget s r.key :=
    (closeIfSettled_keyTarget _ _).trans (keyTarget_congr (k := r.key))
  have ramp : (closeIfSettled { s with ramp := s.ramp.put i none }).ramp = s.ramp.put i none := (closeIfSettled_same _) .ramp (by decide)
  have current : keyCurrent (closeIfSettled { s with ramp := s.ramp.put i none }) r.key = keyTarget s r.key := by
    unfold keyCurrent
    rw [ramp, RampUnit.current_settled (good.find_freed (good.find_eq entry))]
    exact target
  refine ⟨?_, target, current⟩
  show Host.Outcome.next _ = _
  rw [if_pos owed, taken]
  rfl

/-! ## Dedicated entries (R34, R38) -/

/-- R34: the key's pool is entry `i` alone, and that entry is no other key's. -/
structure Dedicated (k : Key) (i : Fin 64) : Prop where
  given : ∀ u : RampUnit, u.entryFor k = some i
  own : ∀ (j : Fin 64) (k' : Key), poolHolds j k' → (j = i ↔ k' = k)

theorem Dedicated.duck (src : Source) : Dedicated (.duck src) ⟨48 + src.val, by omega⟩ where
  given _ := rfl
  own j k' pool := by
    cases k' <;> simp only [poolHolds] at pool <;> simp [Fin.ext_iff] <;> omega

theorem Dedicated.boost (g : Group) : Dedicated (.boost g) ⟨60 + g.val, by omega⟩ where
  given _ := rfl
  own j k' pool := by
    cases k' <;> simp only [poolHolds] at pool <;> simp [Fin.ext_iff] <;> omega

section
variable {u v : RampUnit} {k : Key} {i : Fin 64}

theorem RampUnit.Good.takes_dedicated (h : u.Good) (d : Dedicated k i) : u.Takes k i := by
  cases found : u.find k with
  | none => exact .inr ⟨found, d.given u⟩
  | some j =>
    have here : j = i := (d.own j k (h.takes_poolHolds (.inl found))).mpr rfl
    exact .inl (by rw [found, here])

theorem RampUnit.Good.key_dedicated (h : u.Good) (d : Dedicated k i) {r : Ramp} (entry : u.entries[i] = some r) : r.key = k :=
  (d.own i r.key (h.pools i r entry).1).mp rfl

/-- R34: the ramp of a key with a dedicated entry is that entry's. -/
theorem RampUnit.Good.rampOf_dedicated (h : u.Good) (d : Dedicated k i) : u.rampOf k = u.entries[i] := by
  unfold RampUnit.rampOf
  rcases h.takes_dedicated d with found | ⟨absent, -⟩
  · rw [found]
    rfl
  · rw [absent]
    cases entry : u.entries[i] with
    | none => rfl
    | some r => exact absurd (h.key_dedicated d entry) (RampUnit.find_eq_none_iff.mp absent i r entry)

/-- R38: a key's present value is its ramp's, or the target of a settled key. -/
theorem RampUnit.present_eq (u : RampUnit) (k : Key) (old : Gain) :
    u.present k old = ((u.rampOf k).map Ramp.present).getD old.qdb := by
  unfold RampUnit.present RampUnit.rampOf
  cases found : u.find k with
  | none => rfl
  | some i =>
    dsimp only [Option.bind_some]
    cases u.entries[i] <;> rfl

theorem RampUnit.Good.present_dedicated (hu : u.Good) (hv : v.Good) (d : Dedicated k i) (same : v.entries[i] = u.entries[i]) (old : Gain) :
    v.present k old = u.present k old := by
  rw [v.present_eq, u.present_eq, hv.rampOf_dedicated d, hu.rampOf_dedicated d, same]

theorem retargetedEntry_equal (u : RampUnit) (m : Mode) (k : Key) (e : Option Ramp) (g : Gain) (ms : Nat) :
    retargetedEntry u m k e g g ms = e := if_pos rfl

/-- The entry depends on the table by the key's present value alone. -/
theorem retargetedEntry_congr {old : Gain} (present : v.present k old = u.present k old) (m : Mode) (e : Option Ramp) (new : Gain) (ms : Nat) :
    retargetedEntry v m k e old new ms = retargetedEntry u m k e old new ms := by
  unfold retargetedEntry
  rw [present]

/-- R38 to R40: a retarget of a key with a dedicated entry changes that entry alone. -/
theorem RampUnit.Good.retarget_dedicated (h : u.Good) (d : Dedicated k i) (m : Mode) (old new : Gain) (ms : Nat) :
    (u.retarget m k old new ms).entries[i] = retargetedEntry u m k u.entries[i] old new ms ∧
    ∀ j : Fin 64, j ≠ i → (u.retarget m k old new ms).entries[j] = u.entries[j] := by
  have takes := h.takes_dedicated d
  unfold retargetedEntry
  by_cases moved : new = old
  · rw [if_pos moved, RampUnit.retarget_equal moved]
    exact ⟨rfl, fun _ _ => rfl⟩
  rw [if_neg moved]
  by_cases jump : u.Jump m k old new ms
  · rw [RampUnit.retarget_jump moved jump, if_pos (show m = .standby ∨ _ from jump)]
    rcases takes with found | ⟨absent, -⟩
    · rw [RampUnit.freeKey_found found]
      exact ⟨RampUnit.put_self _ _ _, fun j other => RampUnit.put_other _ _ other⟩
    · have free : u.entries[i] = none := by
        rw [← h.rampOf_dedicated d, RampUnit.rampOf, absent]
        rfl
      rw [RampUnit.freeKey_absent absent]
      exact ⟨free, fun _ _ => rfl⟩
  · rw [RampUnit.retarget_ramp moved jump takes, if_neg (show ¬ (m = .standby ∨ _) from jump)]
    exact ⟨RampUnit.put_self _ _ _, fun j other => RampUnit.put_other _ _ other⟩

end

/-! ## DUCK keys (R45, R128) -/

/-- R45: of the ramp table the DUCK keys of `srcs` were retargeted, and nothing else changed. -/
structure DucksMoved (ms : Nat) (srcs : List Source) (s t : State) : Prop where
  retargeted : DucksRetargeted ms s t
  others : ∀ i : Fin 64, (∀ src ∈ srcs, i.val ≠ 48 + src.val) → t.ramp.entries[i] = s.ramp.entries[i]
  targets : ∀ src : Source, src ∉ srcs → t.ramp.duckTargets[src] = s.ramp.duckTargets[src]
  good : t.ramp.Good
  mode : t.core.mode = s.core.mode

theorem DucksMoved.refl (ms : Nat) (srcs : List Source) {s : State} (good : s.ramp.Good) : DucksMoved ms srcs s s where
  retargeted _ := (retargetedEntry_equal _ _ _ _ _ _).symm
  others _ _ := rfl
  targets _ _ := rfl
  good := good
  mode := rfl

/-- A step before that leaves the ramp unit and the core. -/
theorem DucksMoved.after {ms : Nat} {srcs : List Source} {s s' t : State} (h : DucksMoved ms srcs s' t) (ramp : s'.ramp = s.ramp)
    (core : s'.core = s.core) : DucksMoved ms srcs s t := by
  obtain ⟨retargeted, others, targets, good, mode⟩ := h
  unfold DucksRetargeted at retargeted
  rw [ramp] at others targets
  rw [ramp, core] at retargeted
  rw [core] at mode
  exact ⟨retargeted, others, targets, good, mode⟩

theorem DucksMoved.entry {ms : Nat} {srcs : List Source} {s t : State} (h : DucksMoved ms srcs s t) {p : Source} (out : p ∉ srcs) :
    t.ramp.entries[48 + p.val] = s.ramp.entries[48 + p.val] :=
  h.others ⟨48 + p.val, by omega⟩ fun src mem here => out (by
    have : p = src := Fin.ext (by simpa using here)
    rwa [this])

/-- Different keys' retargets one after the other are those of all. -/
theorem DucksMoved.trans {ms : Nat} {srcs more : List Source} {s t u : State} (good : s.ramp.Good) (h : DucksMoved ms srcs s t)
    (k : DucksMoved ms more t u) (apart : ∀ p ∈ srcs, p ∉ more) : DucksMoved ms (srcs ++ more) s u where
  retargeted p := by
    by_cases late : p ∈ more
    · have early : p ∉ srcs := fun mem => apart p mem late
      have entry := h.entry early
      have present := good.present_dedicated h.good (Dedicated.duck p) entry (.level s.ramp.duckTargets[p])
      have moved := k.retargeted p
      rw [entry, h.targets p early, h.mode, retargetedEntry_congr present] at moved
      exact moved
    · rw [k.entry late, k.targets p late]
      exact h.retargeted p
  others i out := (k.others i fun src mem => out src (List.mem_append_right _ mem)).trans
    (h.others i fun src mem => out src (List.mem_append_left _ mem))
  targets p out := (k.targets p fun mem => out (List.mem_append_right _ mem)).trans
    (h.targets p fun mem => out (List.mem_append_left _ mem))
  good := k.good
  mode := k.mode.trans h.mode

/-- The change of a DUCK target. -/
theorem recomputeDuck_target (src p : Source) (ms : Nat) (s : State) : (recomputeDuck src ms s).ramp.duckTargets[p] =
    if p = src then duckMin s.cue src else s.ramp.duckTargets[p] := by
  simp [recomputeDuck, Vector.getElem_set, Fin.val_inj, eq_comm]

/-- R45: a minimum that equals the target changes nothing. -/
theorem recomputeDuck_equal {src : Source} {s : State} (equal : duckMin s.cue src = s.ramp.duckTargets[src]) (ms : Nat) :
    recomputeDuck src ms s = s := by
  unfold recomputeDuck
  rw [equal, RampUnit.retarget_equal rfl]
  simp

theorem recomputeDuck_moved (src : Source) (ms : Nat) {s : State} (good : s.ramp.Good) :
    DucksMoved ms [src] s (recomputeDuck src ms s) := by
  obtain ⟨own, other⟩ := good.retarget_dedicated (Dedicated.duck src) s.core.mode (.level s.ramp.duckTargets[src])
    (.level (duckMin s.cue src)) ms
  refine ⟨fun p => ?_, fun i out => ?_, fun p out => ?_, ?_, rfl⟩
  · rw [recomputeDuck_target]
    by_cases here : p = src
    · rw [if_pos here, here]
      exact own
    · rw [if_neg here, retargetedEntry_equal]
      exact other ⟨48 + p.val, by omega⟩ fun same => here (Fin.ext (by simpa using same))
  · exact other i fun same => out src (List.mem_singleton.mpr rfl) (congrArg Fin.val same)
  · rw [recomputeDuck_target, if_neg fun here => out (List.mem_singleton.mpr here)]
  · exact (good.retarget _ _ _ _ _).congr rfl

theorem setRequest_moved (r : RunnerNo) (v : Int) (ms : Nat) (src : Source) {s : State} (good : s.ramp.Good) :
    DucksMoved ms [src] s (setRequest r v ms src s) := by
  unfold setRequest
  split
  · exact .refl ms [src] good
  · exact (recomputeDuck_moved src ms (s := onRunner r _ s) good).after rfl rfl

theorem setRequests_moved (r : RunnerNo) (v : Int) (ms : Nat) : ∀ {srcs : List Source} {s : State}, srcs.Nodup → s.ramp.Good →
    DucksMoved ms srcs s (setRequests r v ms srcs s)
  | [], _, _, good => .refl ms [] good
  | src :: srcs, _, once, good => by
    obtain ⟨out, rest⟩ := List.nodup_cons.mp once
    have first := setRequest_moved r v ms src good
    exact first.trans good (setRequests_moved r v ms rest first.good) fun p mem => by
      rw [List.mem_singleton.mp mem]
      exact out

/-- R45, R130: a halt hands over all twelve. -/
theorem haltRunner_moved (r : RunnerNo) {s : State} (good : s.ramp.Good) :
    DucksMoved 50 (List.finRange 12) s (haltRunner r s) :=
  (setRequests_moved r 0 haltMs (s := onRunner r Runner.halted s) (List.nodup_finRange 12) good).after rfl rfl

theorem haltRunner_duck (r : RunnerNo) {s : State} (h : DuckInv s) : DuckInv (haltRunner r s) :=
  setRequests_duck r 0 haltMs _ _ (onRunner_duck (f := Runner.halted) (fun _ => rfl) r s h)

/-- R128: the request is the one set. -/
theorem setRequest_request (r : RunnerNo) (v : Int) (ms : Nat) (src : Source) (s : State) :
    ((setRequest r v ms src s).cue.runners[r]).requests[src] = v := by
  rw [setRequest_cue, onRunner_at]
  simp

/-- R45: where the new minimum equals the target the ramp unit stands. -/
theorem setRequest_equal {r : RunnerNo} {v : Int} {ms : Nat} {src : Source} {s : State}
    (equal : duckMin (setRequest r v ms src s).cue src = s.ramp.duckTargets[src]) : (setRequest r v ms src s).ramp = s.ramp := by
  rw [setRequest_cue] at equal
  unfold setRequest
  split
  · rfl
  · rw [recomputeDuck_equal (s := onRunner r (fun x => { x with requests := x.requests.set src v }) s) equal]
    rfl

/-- R46, R109: a new group target is handed to BOOST(g). -/
theorem setGroupTarget_boosts (g : Group) (v : Int) {s : State} (good : s.ramp.Good) :
    BoostsRetargeted s.sdv.rampMs s (setGroupTarget g v s) ∧
    ∀ i : Fin 64, i.val ≠ 60 + g.val → (setGroupTarget g v s).ramp.entries[i] = s.ramp.entries[i] := by
  obtain ⟨own, other⟩ := good.retarget_dedicated (Dedicated.boost g) s.core.mode (.level s.sdv.targets[g]) (.level v) s.sdv.rampMs
  refine ⟨fun p => ?_, fun i out => other i fun same => out (congrArg Fin.val same)⟩
  by_cases here : p = g
  · have target : (setGroupTarget g v s).sdv.targets[p] = v := by simp [setGroupTarget, here]
    rw [target, here]
    exact own
  · have kept : (setGroupTarget g v s).sdv.targets[p] = s.sdv.targets[p] := by
      simp [setGroupTarget, Fin.val_inj, Ne.symm here]
    rw [kept, retargetedEntry_equal]
    exact other ⟨60 + p.val, by omega⟩ fun same => here (Fin.ext (by simpa using same))

/-- Settles O44: a request moves one DUCK key's dedicated entry, a halt those of all twelve, a group target one BOOST key's. -/
theorem duckFollowsLowerRequest : Obligations.DuckFollowsLowerRequest := by
  refine ⟨fun r v ms src s inv table => ?request, fun r s inv table => ?halt, fun g v s table => ?boost⟩
  case request =>
    have moved := setRequest_moved r v ms src ((rampInv_iff s).mp table)
    have follows : (setRequest r v ms src s).ramp.duckTargets[src] = duckMin (setRequest r v ms src s).cue src :=
      setRequest_duck r v ms src s inv.duck src
    refine ⟨setRequest_request r v ms src s, follows, fun p other => moved.targets p (by simpa using other), setRequest_equal,
      fun differs mode long far => ?_, moved.retargeted, fun i out => moved.others i (by simpa using out), setRequest_same r v ms src s⟩
    have entry := moved.retargeted src
    rw [follows, retargetedEntry, if_neg (by simpa using differs), if_neg (by simp [mode, long]; exact far)] at entry
    exact entry
  case halt =>
    have moved := haltRunner_moved r ((rampInv_iff s).mp table)
    refine ⟨fun src => ⟨?_, haltRunner_duck r inv.duck src⟩, moved.retargeted, fun i out => moved.others i fun src _ => by omega, haltRunner_same r s⟩
    rw [haltRunner_cue, onRunner_at]
    simp [Runner.silenced]
  case boost =>
    obtain ⟨boosts, others⟩ := setGroupTarget_boosts g v ((rampInv_iff s).mp table)
    exact ⟨rfl, boosts, setGroupTarget_ducks g v s, others, setGroupTarget_same g v s⟩

end Sys2Proof.Machine

namespace Sys2Proof.Machine
-- One proof at a time: side by side the proofs start more threads than the memory limit allows.
set_option Elab.async false

/-! ## What keeps the ramp table tied to its targets (R34, R35, R40, R49) -/

/-- A step keeps the form of the ramp table, and with it that every entry serves its key's target. -/
structure RampsKept (s t : State) : Prop where
  table : RampInv s → RampInv t
  link : RampInv s → RampLink s → RampLink t

theorem RampsKept.refl (s : State) : RampsKept s s := ⟨id, fun _ => id⟩

theorem RampsKept.trans {s t u : State} (h : RampsKept s t) (k : RampsKept t u) : RampsKept s u :=
  ⟨k.table ∘ h.table, fun inv link => k.link (h.table inv) (h.link inv link)⟩

theorem RampsKept.foldl {α : Type} {f : State → α → State} (h : ∀ s a, RampsKept s (f s a)) : ∀ (l : List α) (s : State),
    RampsKept s (l.foldl f s)
  | [], s => .refl s
  | a :: l, s => (h s a).trans (RampsKept.foldl h l (f s a))

/-- A step that leaves alone every field the two invariants speak of. -/
theorem RampsKept.ofFields {s t : State} (ramp : t.ramp = s.ramp := by rfl) (mode : t.core.mode = s.core.mode := by rfl)
    (levels : t.core.levelTargets = s.core.levelTargets := by rfl) (cells : t.core.live.cells = s.core.live.cells := by rfl)
    (groups : t.sdv.targets = s.sdv.targets := by rfl) : RampsKept s t where
  table h := by
    rw [rampInv_iff, ramp]
    exact (rampInv_iff s).mp h
  link _ h := by
    obtain ⟨targets, standby⟩ := h
    refine ⟨fun i r entry => ?_, fun m i => ?_⟩
    · rw [keyTarget_congr levels cells (congrArg RampUnit.duckTargets ramp) groups]
      exact targets i r (by rwa [ramp] at entry)
    · rw [ramp]
      exact standby (mode.symm.trans m) i

theorem RampsKept.ofSame {ps : List Part} {s t : State} (h : SameBut ps s t)
    (out : Part.core ∉ ps ∧ Part.ramp ∉ ps ∧ Part.sdv ∉ ps := by decide) : RampsKept s t := by
  have core : t.core = s.core := h .core out.1
  exact .ofFields (h .ramp out.2.1) (by rw [core]) (by rw [core]) (by rw [core]) (congrArg Sdv.targets (h .sdv out.2.2))

/-- A step into a state without active entries. -/
theorem RampsKept.ofEmpty {s t : State} (empty : ∀ i : Fin 64, t.ramp.entries[i] = none) : RampsKept s t where
  table _ := (rampInv_iff t).mpr (.empty empty)
  link _ _ := ⟨fun i r entry => by simp [empty i] at entry, fun _ => empty⟩

/-- R38: one key is retargeted from the target it holds to the one its owner stores. -/
theorem RampsKept.ofRetarget {s t : State} {k : Key} {ms : Nat}
    (entries : t.ramp.entries = (s.ramp.retarget s.core.mode k (keyTarget s k) (keyTarget t k) ms).entries)
    (others : ∀ k', k' ≠ k → keyTarget t k' = keyTarget s k') (mode : t.core.mode = s.core.mode) : RampsKept s t where
  table h := (rampInv_iff t).mpr ((((rampInv_iff s).mp h).retarget _ _ _ _ _).congr entries)
  link inv h := by
    refine ⟨fun i r entry => ?_, fun standby i => ?_⟩
    · have kept : s.ramp.entries[i] = some r → keyTarget t r.key = keyTarget s r.key → r.target = keyTarget t r.key :=
        fun stood same => (h.targets i r stood).trans same.symm
      rw [entries] at entry
      by_cases moved : keyTarget t k = keyTarget s k
      · rw [RampUnit.retarget_equal moved] at entry
        refine kept entry ?_
        by_cases key : r.key = k
        · rw [key, moved]
        · exact others r.key key
      · rcases ((rampInv_iff s).mp inv).retarget_entry moved entry with ⟨key, target⟩ | ⟨key, stood⟩
        · rw [target, key]
        · exact kept stood (others r.key key)
    · have before : s.core.mode = .standby := mode.symm.trans standby
      rw [entries, before, RampUnit.retarget_standby (h.standby before)]
      exact h.standby before i

/-- A change of the SDV unit that leaves the group targets. -/
theorem RampsKept.sdvFields {s : State} {u : Sdv} (groups : u.targets = s.sdv.targets := by rfl) : RampsKept s { s with sdv := u } :=
  .ofFields (groups := groups)

theorem RampsKept.answer {s t : State} (h : RampsKept s t) (rq : Requester) (res : Result) (data : List Byte) :
    RampsKept s (answer rq res data t) := h.trans (.ofSame (answer_same rq res data t))

theorem RampsKept.release {s t : State} (h : RampsKept s t) : RampsKept s (releasePlace t) := h.trans (.ofSame (releasePlace_same t))

theorem answer_rampsKept (rq : Requester) (res : Result) (data : List Byte) (s : State) : RampsKept s (answer rq res data s) :=
  (RampsKept.refl s).answer rq res data

/-! ### DUCK requests and runners (R45, R123 to R130) -/

theorem recomputeDuck_rampsKept (src : Source) (ms : Nat) (s : State) : RampsKept s (recomputeDuck src ms s) := by
  have target : keyTarget (recomputeDuck src ms s) (.duck src) = .level (duckMin s.cue src) := by
    rw [keyTarget, recomputeDuck_target, if_pos rfl]
  refine .ofRetarget (k := .duck src) (ms := ms) (by rw [target]; rfl) (fun k other => ?_) rfl
  cases k with
  | duck p =>
    have apart : p ≠ src := fun same => other (congrArg Key.duck same)
    rw [keyTarget, recomputeDuck_target, if_neg apart]
    rfl
  | level o => rfl
  | cell o src => rfl
  | boost g => rfl

theorem setRequest_rampsKept (r : RunnerNo) (v : Int) (ms : Nat) (src : Source) (s : State) : RampsKept s (setRequest r v ms src s) := by
  unfold setRequest
  split
  · exact .refl s
  · exact RampsKept.trans (.ofSame (onRunner_same r _ s)) (recomputeDuck_rampsKept src ms _)

theorem setRequests_rampsKept (r : RunnerNo) (v : Int) (ms : Nat) (srcs : List Source) (s : State) :
    RampsKept s (setRequests r v ms srcs s) := .foldl (fun s src => setRequest_rampsKept r v ms src s) srcs s

theorem onRunner_rampsKept (r : RunnerNo) (f : Runner → Runner) (s : State) : RampsKept s (onRunner r f s) := .ofSame (onRunner_same r f s)

theorem startWindow_rampsKept (r : RunnerNo) (s : State) : RampsKept s (startWindow r s) :=
  startEntry_rel (R := RampsKept) r .trans (fun f s _ => onRunner_rampsKept r f s) (setRequests_rampsKept r)
    (fun n s => .ofSame (raiseNotice_same n s)) _ s

theorem completeEntry_rampsKept (r : RunnerNo) (s : State) : RampsKept s (completeEntry r s) :=
  (onRunner_rampsKept r _ s).trans (startWindow_rampsKept r _)

theorem completeWait_rampsKept (r : RunnerNo) (b : Bool) (s : State) : RampsKept s (completeWait r b s) :=
  (onRunner_rampsKept r _ s).trans (completeEntry_rampsKept r _)

theorem fetchWindow_rampsKept (r : RunnerNo) (s : State) : RampsKept s (fetchWindow r s) :=
  (onRunner_rampsKept r _ s).trans (startWindow_rampsKept r _)

theorem takeStep_rampsKept (r : RunnerNo) (s : State) : RampsKept s (takeStep r s) := by
  unfold takeStep
  split
  · exact completeEntry_rampsKept r s
  · exact .refl s

theorem takeTimeout_rampsKept (r : RunnerNo) (s : State) : RampsKept s (takeTimeout r s) := by
  unfold takeTimeout
  split
  · exact completeWait_rampsKept r true s
  · exact .refl s

theorem haltRunner_rampsKept (r : RunnerNo) (s : State) : RampsKept s (haltRunner r s) :=
  (onRunner_rampsKept r _ s).trans (setRequests_rampsKept r 0 haltMs _ _)

theorem cueDisable_rampsKept (s : State) : RampsKept s (cueDisable s) :=
  (RampsKept.ofSame (abortCueWrite_same s)).trans ((haltRunner_rampsKept 0 _).trans (haltRunner_rampsKept 1 _))

theorem cueReset_rampsKept (s : State) : RampsKept s (cueReset s) :=
  (cueDisable_rampsKept s).trans ((onRunner_rampsKept 0 _ _).trans (onRunner_rampsKept 1 _ _))

/-! ### The SDV unit (R46, R109) -/

theorem setGroupTarget_rampsKept (g : Group) (v : Int) (s : State) : RampsKept s (setGroupTarget g v s) := by
  have target : keyTarget (setGroupTarget g v s) (.boost g) = .level v := by simp [keyTarget, setGroupTarget]
  refine .ofRetarget (k := .boost g) (ms := s.sdv.rampMs) (by rw [target]; rfl) (fun k other => ?_) rfl
  cases k with
  | boost p =>
    have apart : g ≠ p := fun same => other (congrArg Key.boost same.symm)
    simp [keyTarget, setGroupTarget, Fin.val_inj, apart]
  | duck src => rw [keyTarget, setGroupTarget_ducks, keyTarget]
  | level o => rfl
  | cell o src => rfl

theorem adoptBoost_rampsKept (b : Int) (s : State) : RampsKept s (adoptBoost b s) :=
  RampsKept.trans (.sdvFields) (.foldl (fun s g => setGroupTarget_rampsKept g _ s) _ _)

theorem setSdvState_rampsKept (st : SdvState) (s : State) : RampsKept s (setSdvState st s) := by
  unfold setSdvState
  split
  · exact .refl s
  · exact RampsKept.trans .sdvFields (.ofSame (raiseNotice_same _ _))

theorem adoptAfterState_rampsKept (b : Int) (st : SdvState) (s : State) : RampsKept s (adoptBoost b (setSdvState st s)) :=
  (setSdvState_rampsKept st s).trans (adoptBoost_rampsKept b _)

theorem stateThenManual_rampsKept (b : Int) (st : SdvState) (m : Option Nat) (s : State) :
    RampsKept s (adoptBoost b { setSdvState st s with sdv := { (setSdvState st s).sdv with manual := m } }) :=
  (setSdvState_rampsKept st s).trans (RampsKept.trans .sdvFields (adoptBoost_rampsKept b _))

theorem takeStateByAge_rampsKept (s : State) : RampsKept s (takeStateByAge s) := by
  unfold takeStateByAge
  split
  · exact adoptAfterState_rampsKept _ _ s
  · exact adoptAfterState_rampsKept _ _ s
  · exact adoptAfterState_rampsKept _ _ s
  · exact .refl s
  · exact .refl s

theorem compareAge_rampsKept (s : State) : RampsKept s (compareAge s) := by
  unfold compareAge
  split
  · exact .refl s
  · split
    · split
      · exact adoptAfterState_rampsKept _ _ s
      · split
        · exact setSdvState_rampsKept _ s
        · exact .refl s
    · split
      · exact adoptAfterState_rampsKept _ _ s
      · exact .refl s
    all_goals exact .refl s

theorem ageRise_rampsKept (s : State) : RampsKept s (ageRise s) := by
  unfold ageRise
  split
  · exact .refl s
  · split
    · exact .sdvFields
    · exact RampsKept.trans .sdvFields (compareAge_rampsKept _)

theorem takeTick_rampsKept (s : State) : RampsKept s (takeTick s) := by
  unfold takeTick
  split
  · exact RampsKept.trans .sdvFields (ageRise_rampsKept _)
  · exact .refl s

theorem ageAdvance_rampsKept (s : State) : RampsKept s (ageAdvance s) := by
  unfold ageAdvance
  split
  · exact .refl s
  · split <;> exact .sdvFields

theorem acceptReport_rampsKept (v : Nat) (s : State) : RampsKept s (acceptReport v s) := by
  have held : RampsKept s { s with sdv := { s.sdv with lastSpeed := some v, age := some 0, phase := 0 } } := .sdvFields
  unfold acceptReport
  dsimp only
  split
  · split
    · exact held.trans (adoptBoost_rampsKept _ _)
    · exact held
  · exact held.trans (adoptAfterState_rampsKept _ _ _)

theorem speedReport_rampsKept (v : Nat) (valid : Bool) (s : State) : RampsKept s (speedReport v valid s) := by
  unfold speedReport
  split
  · exact .ofSame (setFlag_same _ s)
  · exact .refl s
  · exact acceptReport_rampsKept v s

theorem curveChange_rampsKept (s : State) : RampsKept s (curveChange s) := by
  unfold curveChange
  split
  · split
    · exact .refl s
    · exact stateThenManual_rampsKept 0 .off none s
  · split
    · split
      · exact takeStateByAge_rampsKept s
      · exact .refl s
    · exact adoptBoost_rampsKept _ s
    · exact adoptBoost_rampsKept _ s
    · exact .refl s
    · exact adoptBoost_rampsKept _ s

theorem sdvEnable_rampsKept (s : State) : RampsKept s (sdvEnable s) := by
  unfold sdvEnable
  split
  · exact .refl s
  · exact takeStateByAge_rampsKept s

theorem sdvReset_rampsKept (s : State) : RampsKept s (sdvReset s) := RampsKept.trans .sdvFields (adoptAfterState_rampsKept _ _ _)

/-! ### The application of a set (R27, R42, R70) -/

theorem RampUnit.Good.takeMoves (m : Mode) : ∀ (vs : List Move) {u : RampUnit}, u.Good → (u.takeMoves m vs).Good
  | [], _, h => h
  | v :: vs, _, h => RampUnit.Good.takeMoves m vs (h.retarget m v.key v.old v.new v.ms)

/-- An entry after a list of retargets, each to another target, serves one of them, or stood before and is of no key moved. -/
theorem RampUnit.Good.takeMoves_entry {m : Mode} {i : Fin 64} {r : Ramp} : ∀ {vs : List Move} {u : RampUnit}, u.Good →
    (∀ v ∈ vs, v.new ≠ v.old) → (u.takeMoves m vs).entries[i] = some r →
    (∃ v ∈ vs, r.key = v.key ∧ r.target = v.new) ∨ ((∀ v ∈ vs, v.key ≠ r.key) ∧ u.entries[i] = some r)
  | [], _, _, _, entry => .inr ⟨fun _ mem => absurd mem List.not_mem_nil, entry⟩
  | v :: vs, u, h, moved, entry => by
    have after := RampUnit.Good.takeMoves_entry (h.retarget m v.key v.old v.new v.ms)
      (fun w mem => moved w (List.mem_cons_of_mem v mem)) entry
    rcases after with ⟨w, mem, served⟩ | ⟨unmoved, stood⟩
    · exact .inl ⟨w, List.mem_cons_of_mem v mem, served⟩
    · rcases h.retarget_entry (moved v List.mem_cons_self) stood with served | ⟨key, before⟩
      · exact .inl ⟨v, List.mem_cons_self, served⟩
      · refine .inr ⟨fun w mem => ?_, before⟩
        rcases List.mem_cons.mp mem with rfl | later
        · exact key.symm
        · exact unmoved w later

/-- R42: the moves of the first pass and then those of the second are the set's moves in another order. -/
theorem RampUnit.applyMoves_eq (u : RampUnit) (m : Mode) (vs : List Move) : u.applyMoves m vs =
    u.takeMoves m (vs.filter (u.firstPass m) ++ vs.filter fun v => !u.firstPass m v) := by
  simp only [RampUnit.applyMoves, RampUnit.takeMoves, List.foldl_append]

theorem mem_passes (p : Move → Bool) (vs : List Move) (v : Move) : v ∈ vs.filter p ++ vs.filter (fun v => !p v) ↔ v ∈ vs := by
  cases taken : p v <;> simp [taken]

theorem RampUnit.takeMoves_standby : ∀ (vs : List Move) {u : RampUnit}, (∀ i : Fin 64, u.entries[i] = none) →
    u.takeMoves .standby vs = u
  | [], _, _ => rfl
  | v :: vs, u, empty => by
    have first : u.retarget .standby v.key v.old v.new v.ms = u := RampUnit.retarget_standby empty v.key v.old v.new v.ms
    have rest := RampUnit.takeMoves_standby vs empty
    unfold RampUnit.takeMoves at rest ⊢
    rw [List.foldl_cons, first, rest]

/-- R70: a set's moves are taken, and the owners store the new targets of the keys moved, and of no other. -/
theorem RampsKept.ofMoves {s t : State} {vs : List Move} (ramp : t.ramp = s.ramp.applyMoves s.core.mode vs)
    (mode : t.core.mode = s.core.mode) (moved : ∀ v ∈ vs, v.new ≠ v.old) (stored : ∀ v ∈ vs, keyTarget t v.key = v.new)
    (others : ∀ k, (∀ v ∈ vs, v.key ≠ k) → keyTarget t k = keyTarget s k) : RampsKept s t := by
  have mem := mem_passes (s.ramp.firstPass s.core.mode) vs
  rw [RampUnit.applyMoves_eq] at ramp
  refine ⟨fun h => ?_, fun inv h => ⟨fun i r entry => ?_, fun standby i => ?_⟩⟩
  · rw [rampInv_iff, ramp]
    exact RampUnit.Good.takeMoves _ _ ((rampInv_iff s).mp h)
  · rw [ramp] at entry
    rcases ((rampInv_iff s).mp inv).takeMoves_entry (fun v taken => moved v ((mem v).mp taken)) entry with
      ⟨v, taken, key, target⟩ | ⟨unmoved, stood⟩
    · rw [target, key, stored v ((mem v).mp taken)]
    · rw [others r.key fun v taken => unmoved v ((mem v).mpr taken)]
      exact h.targets i r stood
  · have before : s.core.mode = .standby := mode.symm.trans standby
    rw [ramp, before, RampUnit.takeMoves_standby _ (h.standby before)]
    exact h.standby before i

theorem cellPair_cellIndex (o : Output) (src : Source) : cellPair (cellIndex o src) = (o, src) := by
  simp only [cellPair, cellIndex, Prod.mk.injEq, Fin.ext_iff]
  omega

theorem cellIndex_cellPair (i : Fin 288) : cellIndex (cellPair i).1 (cellPair i).2 = i := by
  simp only [cellPair, cellIndex, Fin.ext_iff]
  omega

/-- R27: each LEVEL key whose target moves, from the target held to the new one. -/
theorem mem_levelMoves {held : Vector Int 24} {l : Live} {rs : List ChangeRecord} {v : Move} : v ∈ levelMoves held l rs ↔
    ∃ o : Output, (l.writeAll rs).levelTarget o ≠ held[o] ∧
      v = { key := .level o, old := .level held[o], new := .level ((l.writeAll rs).levelTarget o),
            ms := shortest 200 (causes (l.writeAll rs) o l rs) } := by
  simp [levelMoves, eq_comm]

/-- R44: each CELL key whose gain moves, from the gain held to the new one. -/
theorem mem_cellMoves {l : Live} {rs : List ChangeRecord} {v : Move} : v ∈ cellMoves l rs ↔
    ∃ i : Fin 288, (l.writeAll rs).cells[i] ≠ l.cells[i] ∧
      v = { key := .cell (cellPair i).1 (cellPair i).2, old := l.cells[i], new := (l.writeAll rs).cells[i],
            ms := shortest 50 (cellCauses (cellPair i).1 (cellPair i).2 l rs) } := by
  simp [cellMoves, eq_comm]

/-- The targets the tables of a set give. -/
def targetAfter (s : State) (rs : List ChangeRecord) : Key → Gain
  | .level o => .level ((s.core.live.writeAll rs).levelTarget o)
  | .cell o src => (s.core.live.writeAll rs).cells[cellIndex o src]
  | k => keyTarget s k

theorem setMoves_moved {s : State} {rs : List ChangeRecord} {v : Move} (h : v ∈ setMoves s rs) :
    v.new ≠ v.old ∧ targetAfter s rs v.key = v.new := by
  rcases List.mem_append.mp h with level | cell
  · obtain ⟨o, moved, rfl⟩ := mem_levelMoves.mp level
    exact ⟨fun same => moved (Gain.level.inj same), rfl⟩
  · obtain ⟨i, moved, rfl⟩ := mem_cellMoves.mp cell
    exact ⟨moved, congrArg (fun i : Fin 288 => (s.core.live.writeAll rs).cells[i]) (cellIndex_cellPair i)⟩

theorem setMoves_others {s : State} {rs : List ChangeRecord} {k : Key} (h : ∀ v ∈ setMoves s rs, v.key ≠ k) :
    targetAfter s rs k = keyTarget s k := by
  cases k with
  | level o =>
    by_contra moved
    exact h _ (List.mem_append_left _ (mem_levelMoves.mpr ⟨o, fun same => moved (congrArg Gain.level same), rfl⟩)) rfl
  | cell o src =>
    by_contra moved
    refine h _ (List.mem_append_right _ (mem_cellMoves.mpr ⟨cellIndex o src, moved, rfl⟩)) ?_
    rw [cellPair_cellIndex]
  | duck src => rfl
  | boost g => rfl

/-- R42, R70: of the ramp unit the set's moves alone change something. -/
theorem rewritten_ramp (q : QueuedSet) (s : State) : (rewritten q s).ramp = s.ramp.applyMoves s.core.mode (setMoves s q.records) := by
  have swapped : (rewritten q s).ramp = (retargetSet (setMoves s q.records) (writeRecords q.records s)).ramp :=
    (swapChains_same _ _) .ramp (by decide)
  have ramp : (writeRecords q.records s).ramp = s.ramp := (writeRecords_same q.records s) .ramp (by decide)
  rw [swapped, (retargetSet_changes _ _).2, ramp, writeRecords_core]

theorem rewritten_mode (q : QueuedSet) (s : State) : (rewritten q s).core.mode = s.core.mode := by
  rw [rewritten_core, (retargetSet_changes _ _).1, writeRecords_core]

/-- R35: the owners hold what the tables of the set give. -/
theorem rewritten_keyTarget (q : QueuedSet) (s : State) (k : Key) : keyTarget (rewritten q s) k = targetAfter s q.records k := by
  cases k with
  | level o => rw [keyTarget, rewritten_levelInv q s o, rewritten_live, targetAfter]
  | cell o src => rw [keyTarget, rewritten_live, targetAfter]
  | duck src => simp only [keyTarget, targetAfter, rewritten_ramp, RampUnit.applyMoves_ducks]
  | boost g =>
    have sdv : (rewritten q s).sdv = s.sdv := (rewritten_same q s) .sdv (by decide)
    simp only [keyTarget, targetAfter, sdv]

theorem rewritten_rampsKept (q : QueuedSet) (s : State) : RampsKept s (rewritten q s) := by
  refine .ofMoves (rewritten_ramp q s) (rewritten_mode q s) (fun v mem => (setMoves_moved mem).1) (fun v mem => ?_) fun k out => ?_
  · rw [rewritten_keyTarget]
    exact (setMoves_moved mem).2
  · rw [rewritten_keyTarget]
    exact setMoves_others out

theorem tellSdv_rampsKept (before : Live) (rs : List ChangeRecord) (s : State) : RampsKept s (tellSdv before rs s) := by
  have curve : RampsKept s (if rs.any ChangeRecord.isBoostCurve then curveChange s else s) := by
    split
    · exact curveChange_rampsKept s
    · exact .refl s
  rw [tellSdv_eq]
  refine curve.trans (.foldl (fun s g => ?_) _ _)
  unfold followChanged
  split
  · exact .refl s
  · exact setGroupTarget_rampsKept g _ s

theorem applySet_rampsKept (q : QueuedSet) (s : State) : RampsKept s (applySet q s) :=
  ((rewritten_rampsKept q s).trans (tellSdv_rampsKept s.core.live q.records _)).trans (.ofSame (finishSet_same q _))

theorem examineHead_rampsKept (s : State) : RampsKept s (examineHead s) := by
  unfold examineHead
  split
  · exact .refl s
  · split
    · exact applySet_rampsKept _ s
    · exact .ofFields

theorem takeExam_rampsKept (s : State) : RampsKept s (takeExam s) := by
  unfold takeExam
  split
  · exact RampsKept.trans .ofFields (examineHead_rampsKept _)
  · exact .refl s

/-! ### The boundary, the modes and the lock (R15, R37, R49, R153) -/

/-- R49: the entry into STANDBY leaves no entry active. -/
theorem enterStandby_rampsKept (s : State) : RampsKept s (enterStandby s) := by
  have ramp : (enterStandby s).ramp = (landed s).ramp := (fillReservation_same .ctrl .ok [Mode.standby.code] (landed s)) .ramp (by decide)
  exact .ofEmpty (by rw [ramp]; exact (landed_landed s).ramps)

theorem takeLeavingEnd_rampsKept (s : State) : RampsKept s (takeLeavingEnd s) := by
  unfold takeLeavingEnd
  split
  · exact enterStandby_rampsKept s
  · exact .refl s

theorem takeRampEnd_cases (i : Fin 64) (s : State) : takeRampEnd i s = s ∨ takeRampEnd i s = { s with ramp := s.ramp.put i none } := by
  unfold takeRampEnd RampUnit.complete
  split
  · exact .inr rfl
  · exact .inl rfl

/-- R37: a completed ramp's entry is freed. -/
theorem takeRampEnd_rampsKept (i : Fin 64) (s : State) : RampsKept s (takeRampEnd i s) := by
  rcases takeRampEnd_cases i s with same | freed
  · rw [same]
    exact .refl s
  · rw [freed]
    have stood : ∀ {j : Fin 64} {r : Ramp}, (s.ramp.put i none).entries[j] = some r → s.ramp.entries[j] = some r := fun entry =>
      (RampUnit.put_entry entry).elim (fun new => nomatch new.2) fun old => old.2
    refine ⟨fun h => (rampInv_iff _).mpr (((rampInv_iff s).mp h).putNone i), fun _ h => ⟨fun j r entry => ?_, fun mode j => ?_⟩⟩
    · exact (h.targets j r (stood entry)).trans (keyTarget_congr (k := r.key)).symm
    · rw [RampUnit.put_at, h.standby mode j, ite_self]

theorem Ramp.advance_kept (r : Ramp) : r.advance.key = r.key ∧ r.advance.target = r.target ∧ (r.k < r.n → r.advance.k < r.advance.n) := by
  unfold Ramp.advance
  split
  · exact ⟨rfl, rfl, fun _ => by assumption⟩
  · exact ⟨rfl, rfl, id⟩

theorem RampUnit.advance_entry {u : RampUnit} {i : Fin 64} {r : Ramp} (h : u.advance.entries[i] = some r) :
    ∃ q, u.entries[i] = some q ∧ r = q.advance := by
  rw [RampUnit.advance_at] at h
  obtain ⟨q, entry, rfl⟩ := Option.map_eq_some_iff.mp h
  exact ⟨q, entry, rfl⟩

/-- R37: an advance keeps k below n, for the advance that would reach n is the completion's. -/
theorem RampUnit.Good.advance {u : RampUnit} (h : u.Good) : u.advance.Good := by
  refine ⟨fun i r entry => ?_, fun i j r q ei ej key => ?_⟩
  · obtain ⟨p, before, rfl⟩ := RampUnit.advance_entry entry
    obtain ⟨key, -, counts⟩ := p.advance_kept
    obtain ⟨pool, below⟩ := h.pools i p before
    rw [key]
    exact ⟨pool, counts below⟩
  · obtain ⟨a, atI, rfl⟩ := RampUnit.advance_entry ei
    obtain ⟨b, atJ, rfl⟩ := RampUnit.advance_entry ej
    rw [a.advance_kept.1, b.advance_kept.1] at key
    exact h.keysOnce i j a b atI atJ key

theorem advanceGains_rampsKept (s : State) : RampsKept s (advanceGains s) where
  table h := (rampInv_iff _).mpr ((rampInv_iff s).mp h).advance
  link _ h := by
    refine ⟨fun i r entry => ?_, fun mode i => ?_⟩
    · obtain ⟨q, before, rfl⟩ := RampUnit.advance_entry entry
      obtain ⟨key, target, -⟩ := q.advance_kept
      rw [key, target, h.targets i q before]
      exact (keyTarget_congr (s := s) (k := q.key)).symm
    · show s.ramp.advance.entries[i] = none
      rw [RampUnit.advance_at, h.standby mode i]
      rfl

theorem advanceAll_rampsKept (s : State) : RampsKept s (advanceAll s) :=
  (((advanceGains_rampsKept s).trans (.ofSame (advanceRunners_same _))).trans (ageAdvance_rampsKept _)).trans (.ofSame (markBatch_same _))

theorem closeBoundary_rampsKept (s : State) : RampsKept s (closeBoundary s) := by
  have core := closeBoundary_core s
  have same := closeBoundary_same s
  exact .ofFields (same .ramp (by decide)) (by rw [core]) (by rw [core]) (by rw [core]) (congrArg Sdv.targets (same .sdv (by decide)))

theorem closeIfSettled_rampsKept (s : State) : RampsKept s (closeIfSettled s) := by
  unfold closeIfSettled
  split
  · exact .refl s
  · exact closeBoundary_rampsKept s

theorem takeOwed_rampsKept (s : State) : RampsKept s (takeOwed s) := by
  have ramps := RampsKept.foldl (fun s i => takeRampEnd_rampsKept i s) (List.finRange 64) s
  have fades := ramps.trans (RampsKept.foldl (fun s i => .ofSame (takeFadeEnd_same i s)) (List.finRange 4) _)
  have tick := fades.trans (takeTick_rampsKept _)
  have first := (tick.trans (takeStep_rampsKept 0 _)).trans (takeTimeout_rampsKept 0 _)
  have runners := (first.trans (takeStep_rampsKept 1 _)).trans (takeTimeout_rampsKept 1 _)
  exact ((runners.trans (takeLeavingEnd_rampsKept _)).trans (takeExam_rampsKept _)).trans (.ofSame (takeBatch_same _))

theorem finishBoundary_rampsKept (s : State) : RampsKept s (finishBoundary s) := by
  unfold finishBoundary
  split
  · exact (takeOwed_rampsKept s).trans (closeBoundary_rampsKept _)
  · exact .refl s

theorem boundaryTaken_rampsKept (up : Vector Sample 32) (examine batch : Bool) (s : State) : RampsKept s (boundaryTaken up examine batch s) := by
  have advanced : RampsKept s (advanceAll (openFrame up s)) := RampsKept.trans .ofFields (advanceAll_rampsKept _)
  have batched : RampsKept s (boundaryTaken up false batch s) := advanced.trans (.ofSame (boundaryTaken_same up batch s))
  cases examine with
  | false => exact batched
  | true => exact batched.trans (takeExam_rampsKept _)

theorem nextFrame_rampsKept (missing : Nat) (s : State) : RampsKept s (nextFrame missing s) :=
  (finishBoundary_rampsKept s).trans .ofFields

theorem gainLock_rampsKept (s : State) : RampsKept s (gainLock s) := by
  unfold gainLock
  dsimp only
  split
  · exact RampsKept.trans .ofFields (.ofSame (raiseNotice_same _ _))
  · exact .ofFields

theorem syncHunting_rampsKept (spacing : Spacing) (s : State) : RampsKept s (syncHunting spacing s) := by
  cases spacing
  · simp only [syncHunting]
    split
    · exact .ofFields
    · exact gainLock_rampsKept s
  · exact .ofFields

theorem abortDigest_same (s : State) : SameBut [.ctl, .table] s (abortDigest s) := by
  unfold abortDigest
  split
  · split
    · exact abortTableOp_same s
    · exact .refl _ s
  · exact .refl _ s

theorem lossInLeaving_rampsKept (s : State) : RampsKept s (lossInLeaving s) := by
  unfold lossInLeaving
  split
  · exact enterStandby_rampsKept s
  · exact .refl s

theorem lockLoss_rampsKept (s : State) : RampsKept s (lockLoss s) := by
  have dropped : RampsKept s (dropLock s) := .ofFields
  exact ((dropped.trans (.ofSame (setFlag_same _ _))).trans (lossInLeaving_rampsKept _)).trans (.ofSame (abortDigest_same _))

/-- A step of the boundary that is taken when it is due, and then the boundary's close. -/
theorem RampsKept.dueThenClose {s u : State} {p : Prop} [Decidable p] (h : RampsKept s u) :
    RampsKept s (if p then closeIfSettled u else s) := by
  split
  · exact h.trans (closeIfSettled_rampsKept u)
  · exact .refl s

end Sys2Proof.Machine

namespace Sys2Proof.Machine
-- One proof at a time: side by side the proofs start more threads than the memory limit allows.
set_option Elab.async false

/-! ## Every command keeps the ramp table -/

/-! ### Commands aside from the core, the ramp unit and the SDV unit -/

/-- The core, the ramp unit and the SDV unit stand. -/
def Aside (s t : State) : Prop := t.core = s.core ∧ t.ramp = s.ramp ∧ t.sdv = s.sdv

/-- An update of other parts. -/
theorem Aside.plain {s t : State} (core : t.core = s.core := by rfl) (ramp : t.ramp = s.ramp := by rfl)
    (sdv : t.sdv = s.sdv := by rfl) : Aside s t := ⟨core, ramp, sdv⟩

theorem Aside.trans {s t u : State} (h : Aside s t) (k : Aside t u) : Aside s u :=
  ⟨k.1.trans h.1, k.2.1.trans h.2.1, k.2.2.trans h.2.2⟩

/-- An update of other parts, and then a step aside. -/
theorem Aside.after {s t u : State} (k : Aside t u) (core : t.core = s.core := by rfl) (ramp : t.ramp = s.ramp := by rfl)
    (sdv : t.sdv = s.sdv := by rfl) : Aside s u := Aside.trans (.plain core ramp sdv) k

theorem Aside.ofSame {ps : List Part} {s t : State} (h : SameBut ps s t)
    (out : Part.core ∉ ps ∧ Part.ramp ∉ ps ∧ Part.sdv ∉ ps := by decide) : Aside s t :=
  ⟨h .core out.1, h .ramp out.2.1, h .sdv out.2.2⟩

theorem Aside.answer {s t : State} (h : Aside s t) (rq : Requester) (res : Result) (data : List Byte) :
    Aside s (answer rq res data t) := h.trans (.ofSame (answer_same rq res data t))

theorem Aside.reserve {s t : State} (h : Aside s t) (u : UnitId) : Aside s (reserve u t) := h.trans (.ofSame (reserve_same u t))

theorem Aside.kept {s t : State} (h : Aside s t) : RampsKept s t := by
  obtain ⟨core, ramp, sdv⟩ := h
  exact .ofFields ramp (by rw [core]) (by rw [core]) (by rw [core]) (by rw [sdv])

theorem openPacket_aside (b k : Bool) (c : Cell) (s : State) : Aside s (openPacket b k c s) := by
  unfold openPacket
  split
  · exact .plain
  · split <;> exact .plain

theorem extendPacket_aside (last : Bool) (c : Cell) (s : State) : Aside s (extendPacket last c s) := by
  unfold extendPacket
  split
  · exact .plain
  · split
    · exact .plain
    · split <;> exact .plain

theorem assemble_aside (b : Bool) (c : Cell) (s : State) : Aside s (assemble b c s) := by
  unfold assemble
  split
  · exact openPacket_aside b true c s
  · exact openPacket_aside b false c s
  · exact extendPacket_aside false c s
  · exact extendPacket_aside true c s
  · exact .plain

theorem fillPosition_aside (s : State) : Aside s (fillPosition s) := by
  unfold fillPosition
  split <;> exact .plain

theorem lockedCell_aside (c : Cell) (s : State) : Aside s (lockedCell c s) := by
  unfold lockedCell
  split
  · exact fillPosition_aside s
  · split
    · exact (assemble_aside false c s).trans (fillPosition_aside _)
    · split
      · exact assemble_aside true c s
      · split
        · exact fillPosition_aside (setFlag .undelivered s)
        · exact .plain

theorem takeOutgoing_aside (s : State) : Aside s (takeOutgoing s) := by
  unfold takeOutgoing
  split <;> exact .plain

theorem queueOneNotice_aside (s : State) : Aside s (queueOneNotice s) := by
  unfold queueOneNotice
  split
  · split <;> exact .plain
  · exact .plain

theorem completeCueWrite_aside (w : CueWrite) (s : State) : Aside s (completeCueWrite w s) := by
  unfold completeCueWrite
  exact Aside.after (Aside.trans (.ofSame (reportWrites_same _ _ _)) (.ofSame (fillReservation_same _ _ _ _)))

theorem tableAccess_aside (s : State) : Aside s (tableAccess s) := by
  unfold tableAccess
  split
  · exact Aside.after (.ofSame (stepTableOp_same _ (spendGrant s)))
  · exact .plain

theorem takeOffer_aside (o : Offer) (s : State) : Aside s (takeOffer o s) := by
  unfold takeOffer
  dsimp only
  split <;> exact .plain

theorem judgeUnknown_aside (c : Context) (s : State) : Aside s (judgeUnknown c s) := by
  unfold judgeUnknown refuseUnknown
  split
  · exact .plain
  · split
    · exact .plain
    · split
      · exact .plain
      · split <;> exact .plain

theorem setMap_aside (output : Bool) (m : List (Option Slot)) (s : State) : Aside s (setMap output m s) := by
  unfold setMap
  split <;> exact .plain

section
variable (rq : Requester) (data : List Byte) (s : State)

theorem bodyReadStatus_aside : Aside s (bodyReadStatus rq data s) := by
  unfold bodyReadStatus
  split
  · exact .plain
  · refine Aside.answer ?_ _ _ _
    split <;> exact .plain

theorem bodyNoticeEnable_aside : Aside s (bodyNoticeEnable rq data s) := by
  unfold bodyNoticeEnable
  split <;> exact .plain

theorem bodySlotMap_aside : Aside s (bodySlotMap rq data s) := by
  unfold bodySlotMap
  split
  · exact .plain
  · dsimp only
    split
    · exact .plain
    · split
      · exact .plain
      · split
        · exact .plain
        · split
          · exact .plain
          · split
            · exact .plain
            · exact (setMap_aside _ _ s).answer _ _ _

theorem stageOpen_aside (r : ChangeRecord) : Aside s (stageOpen rq r s) := by
  unfold stageOpen
  split <;> exact .plain

theorem stageClose_aside (r : ChangeRecord) (notify : Bool) : Aside s (stageClose rq r notify s) := by
  unfold stageClose
  split
  · exact .plain
  · split
    · exact .plain
    · split
      · exact .plain
      · exact Aside.answer (.ofSame (acceptSet_same _ notify s)) _ _ _

theorem bodyStageRecord_aside : Aside s (bodyStageRecord rq data s) := by
  unfold bodyStageRecord
  split
  · exact .plain
  · exact .plain
  · split
    · exact stageClose_aside rq s _ _
    · exact stageOpen_aside rq s _

theorem startSectionWrite_aside (sec : SectionNo) (kind : WriteKind) (c : Coeffs) : Aside s (startSectionWrite sec kind c s) := by
  unfold startSectionWrite
  exact Aside.reserve (Aside.after (.ofSame (reportSections_same _ _))) .eq

theorem bodySectionLoad_aside : Aside s (bodySectionLoad rq data s) := by
  unfold bodySectionLoad
  split
  · exact .plain
  · split
    · exact .plain
    · exact (startSectionWrite_aside _ _ _ _).after

theorem bodySectionWrite_aside : Aside s (bodySectionWrite rq data s) := by
  unfold bodySectionWrite
  split
  · exact .plain
  · dsimp only
    split
    · exact startSectionWrite_aside s _ _ _
    · exact .plain

theorem bodySectionRelease_aside : Aside s (bodySectionRelease rq data s) := by
  unfold bodySectionRelease
  dsimp only
  split
  · exact Aside.answer (.ofSame (releaseSection_same _ s)) _ _ _
  · exact .plain

theorem bodyCueWrite_aside : Aside s (bodyCueWrite rq data s) := by
  unfold bodyCueWrite
  dsimp only
  split <;> exact .plain

theorem bodyCueStart_aside : Aside s (bodyCueStart rq data s) := by
  unfold bodyCueStart
  split
  · exact .plain
  · split <;> exact .plain

theorem bodyTableRead_aside : Aside s (bodyTableRead rq data s) := by
  unfold bodyTableRead startRead
  split
  · exact .plain
  next op _ =>
    have counted : Aside s (countLive op.table op.step s) := .ofSame (countLive_same _ _ s)
    split
    · exact .plain
    · dsimp only
      split <;> exact counted

theorem bodyDigest_aside : Aside s (bodyDigest rq data s) := by
  unfold bodyDigest
  split
  · exact .plain
  · split
    · exact .plain
    · split <;> exact .plain

end

/-! ### The taking of a packet -/

theorem takePacket_rampsKept {row : Option Request} {body : Context → State → State} (hb : ∀ c s, RampsKept s (body c s)) (s : State) :
    RampsKept s (takePacket row body s) := by
  unfold takePacket
  split
  next o _ =>
    split
    · exact RampsKept.trans (Aside.trans (.ofSame (queueNotices_same s)) (takeOffer_aside o _)).kept (hb o.packet _)
    · exact .refl s
  · exact .refl s

theorem decodeThen_rampsKept {q : Request} {body : Requester → List Byte → State → State}
    (hb : ∀ rq data s, RampsKept s (body rq data s)) (c : Context) (s : State) : RampsKept s (decodeThen q body c s) := by
  unfold decodeThen
  split
  · exact answer_rampsKept _ _ _ s
  · exact hb _ _ s

theorem takeRequest_rampsKept {q : Request} {body : Requester → List Byte → State → State}
    (hb : ∀ rq data s, RampsKept s (body rq data s)) {s t : State} (h : takeRequest q body s = .next t) : RampsKept s t := by
  cases h
  exact takePacket_rampsKept (decodeThen_rampsKept hb) s

theorem takeRequest_aside {q : Request} {body : Requester → List Byte → State → State}
    (hb : ∀ rq data s, Aside s (body rq data s)) {s t : State} (h : takeRequest q body s = .next t) : RampsKept s t :=
  takeRequest_rampsKept (fun rq data s => (hb rq data s).kept) h

/-! ### The requests that reach the ramp table -/

section
variable (on : Bool) (s : State)

theorem enableEq_rampsKept : RampsKept s (enableEq on s) := by
  unfold enableEq
  dsimp only
  split
  · exact RampsKept.trans .ofFields (.ofSame (abortSectionWrite_same _))
  · exact .ofFields

theorem enableSdv_rampsKept : RampsKept s (enableSdv on s) := by
  unfold enableSdv
  dsimp only
  split
  · exact .ofFields
  · split
    · exact RampsKept.trans .ofFields (sdvEnable_rampsKept _)
    · exact RampsKept.trans .ofFields (stateThenManual_rampsKept 0 .off none _)

theorem enableCue_rampsKept : RampsKept s (enableCue on s) := by
  unfold enableCue
  dsimp only
  split
  · exact RampsKept.trans .ofFields (cueDisable_rampsKept _)
  · exact .ofFields

theorem enableTable_rampsKept : RampsKept s (enableTable on s) := by
  unfold enableTable
  dsimp only
  split
  · exact RampsKept.trans .ofFields (.ofSame (abortTableOp_same _))
  · exact .ofFields

end

theorem resetUnit_rampsKept (u : UnitId) (s : State) : RampsKept s (resetUnit u s) := by
  cases u with
  | ctrl => exact .refl s
  | stage => exact .ofSame (stageReset_same s)
  | eq => exact .ofSame (eqReset_same s)
  | sdv => exact sdvReset_rampsKept s
  | cue => exact cueReset_rampsKept s
  | table => exact .ofSame (abortTableOp_same s)

/-- R10, R49: a mode other than STANDBY asks nothing of the table. -/
theorem mode_rampsKept {m : Mode} (running : m ≠ .standby) (s : State) : RampsKept s { s with core := { s.core with mode := m } } where
  table h := ⟨h.pools, h.keysOnce⟩
  link _ h := ⟨fun i r entry => (h.targets i r entry).trans (keyTarget_congr (k := r.key)).symm, fun standby => absurd standby running⟩

section
variable (rq : Requester) (data : List Byte) (s : State)

theorem bodyUnitEnable_rampsKept : RampsKept s (bodyUnitEnable rq data s) := by
  unfold bodyUnitEnable
  split
  · exact answer_rampsKept _ _ _ s
  · split
    · exact answer_rampsKept _ _ _ s
    · exact ((((enableEq_rampsKept _ s).trans (enableSdv_rampsKept _ _)).trans (enableCue_rampsKept _ _)).trans
        (enableTable_rampsKept _ _)).answer _ _ _

theorem bodyUnitReset_rampsKept : RampsKept s (bodyUnitReset rq data s) := by
  unfold bodyUnitReset
  split
  · exact answer_rampsKept _ _ _ s
  · split
    · exact answer_rampsKept _ _ _ s
    · split
      · exact answer_rampsKept _ _ _ s
      · exact (resetUnit_rampsKept _ s).answer _ _ _

theorem bodyMode_rampsKept : RampsKept s (bodyMode rq data s) := by
  unfold bodyMode
  split
  · exact answer_rampsKept _ _ _ s
  · exact (mode_rampsKept (by decide) s).answer _ _ _
  · split
    · unfold leaveRun
      dsimp only
      split
      · exact RampsKept.trans (.ofSame (reserve_same .ctrl s)) (mode_rampsKept (by decide) _)
      · exact RampsKept.trans (.ofSame (reserve_same .ctrl s)) (enterStandby_rampsKept _)
    · exact answer_rampsKept _ _ _ s

theorem takeReport_rampsKept (c : Context) : RampsKept s (takeReport c s) := by
  unfold takeReport
  split
  · exact (speedReport_rampsKept _ _ s).release
  · exact decodeThen_rampsKept (fun rq data s => (speedReport_rampsKept _ _ s).answer _ _ _) c s

theorem bodySdvConfig_rampsKept : RampsKept s (bodySdvConfig rq data s) := by
  unfold bodySdvConfig
  split
  · exact answer_rampsKept _ _ _ s
  · exact RampsKept.answer (RampsKept.trans .sdvFields (compareAge_rampsKept _)) _ _ _

theorem bodySdvManual_rampsKept : RampsKept s (bodySdvManual rq data s) := by
  unfold bodySdvManual
  dsimp only
  split
  · exact answer_rampsKept _ _ _ s
  · split
    · exact answer_rampsKept _ _ _ s
    · exact (stateThenManual_rampsKept _ .manual (some _) s).answer _ _ _

theorem bodySdvAuto_rampsKept : RampsKept s (bodySdvAuto rq data s) := by
  unfold bodySdvAuto
  split
  · exact RampsKept.answer (RampsKept.trans .sdvFields (takeStateByAge_rampsKept _)) _ _ _
  · exact answer_rampsKept _ _ _ s

theorem latchRelease_rampsKept (r : RunnerNo) : RampsKept s (latchRelease rq r s) := by
  unfold latchRelease
  split
  · exact answer_rampsKept _ _ _ s
  · exact (onRunner_rampsKept r _ s).answer _ _ _

theorem bodyCueRelease_rampsKept : RampsKept s (bodyCueRelease rq data s) := by
  unfold bodyCueRelease releaseRunner
  split
  · exact answer_rampsKept _ _ _ s
  · split
    · exact (completeWait_rampsKept _ _ s).answer _ _ _
    · exact latchRelease_rampsKept rq s _
    · exact latchRelease_rampsKept rq s _
    · exact answer_rampsKept _ _ _ s
    · exact answer_rampsKept _ _ _ s

theorem bodyCueHalt_rampsKept : RampsKept s (bodyCueHalt rq data s) := by
  unfold bodyCueHalt
  split
  · exact answer_rampsKept _ _ _ s
  · exact (haltRunner_rampsKept _ s).answer _ _ _

end

/-! ### All commands -/

theorem execFrameBoundary_rampsKept {up : Vector Sample 32} {examine batch : Bool} {s t : State}
    (h : execFrameBoundary up examine batch s = .next t) : RampsKept s t := by
  cases due : s.frame.boundaryDue with
  | true =>
    have taken := exec_frameBoundary up batch s examine due
    cases h.symm.trans taken
    exact (boundaryTaken_rampsKept up examine batch s).trans (closeIfSettled_rampsKept _)
  | false =>
    cases h
    rw [due]
    exact .ofSame (repeatSlots_same up s)

theorem execSyncReceived_rampsKept {spacing : Spacing} {s t : State} (h : execSyncReceived spacing s = .next t) : RampsKept s t := by
  cases h
  split
  · exact syncHunting_rampsKept spacing s
  · cases spacing
    · exact nextFrame_rampsKept 0 s
    · exact .refl s

theorem execSyncMissing_rampsKept {s t : State} (h : execSyncMissing s = .next t) : RampsKept s t := by
  cases h
  split
  · exact .ofFields
  · split
    · exact nextFrame_rampsKept 1 s
    · exact (finishBoundary_rampsKept s).trans (lockLoss_rampsKept _)

theorem execCueFetchGrant_rampsKept {r : RunnerNo} {s t : State} (h : execCueFetchGrant r s = .next t) : RampsKept s t := by
  cases h
  split
  · exact RampsKept.trans .ofFields (fetchWindow_rampsKept r _)
  · exact .refl s

theorem execSectionWriteGrant_aside {s t : State} (h : execSectionWriteGrant s = .next t) : Aside s t := by
  cases h
  split
  · split
    · exact Aside.after (.ofSame (completeSectionWrite_same _ (spendGrant s)))
    · exact .plain
  · exact .plain

theorem execCueWriteGrant_aside {s t : State} (h : execCueWriteGrant s = .next t) : Aside s t := by
  cases h
  split
  · split
    · exact (completeCueWrite_aside _ (spendGrant s)).after
    · exact .plain
  · exact .plain

theorem execTableAccessGrant_aside {s t : State} (h : execTableAccessGrant s = .next t) : Aside s t := by
  cases h
  split
  · exact tableAccess_aside s
  · exact .plain

theorem endTableStep_rampsKept (k : TableOpKind) (s : State) : RampsKept s (endTableStep k s) := by
  unfold endTableStep
  split
  · split
    · exact RampsKept.trans (.ofSame (takeBatch_same s)) (closeIfSettled_rampsKept _)
    · split
      · exact (tableAccess_aside s).kept
      · exact .refl s
  · exact .refl s

theorem execControlCell_aside {c : Cell} {s t : State} (h : execControlCell c s = .next t) : Aside s t := by
  cases h
  split
  · exact .plain
  · split
    · exact (lockedCell_aside c _).after
    · exact .plain

theorem execTableRead_rampsKept {s t : State} (h : execTableRead s = .next t) : RampsKept s t := by
  cases h
  split
  · exact .refl s
  · exact takePacket_rampsKept (decodeThen_rampsKept fun rq data s => (bodyTableRead_aside rq data s).kept) s

theorem exec_rampsKept {c : Instr} {s t : State} (h : exec c s = .next t) : RampsKept s t := by
  cases c with
  | powerOn strap => cases h; exact .ofEmpty fun i => by simp [powerOn, State.powerOn, RampUnit.reset]
  | syncReceived spacing => exact execSyncReceived_rampsKept h
  | syncMissing => exact execSyncMissing_rampsKept h
  | frameBoundary up examine batch => exact execFrameBoundary_rampsKept h
  | rampComplete i => cases h; exact .dueThenClose (takeRampEnd_rampsKept i s)
  | crossfadeEnd i => cases h; exact .dueThenClose (.ofSame (takeFadeEnd_same i s))
  | leavingEnd => cases h; exact .dueThenClose (enterStandby_rampsKept s)
  | setApplication => cases h; exact .dueThenClose (takeExam_rampsKept s)
  | sdvTick => cases h; exact .dueThenClose (takeTick_rampsKept s)
  | cueFetchGrant r => exact execCueFetchGrant_rampsKept h
  | stepComplete r => cases h; exact .dueThenClose (completeEntry_rampsKept r s)
  | waitTimeout r => cases h; exact .dueThenClose (completeWait_rampsKept r true s)
  | sectionWriteGrant => exact (execSectionWriteGrant_aside h).kept
  | cueWriteGrant => exact (execCueWriteGrant_aside h).kept
  | tableAccessGrant => exact (execTableAccessGrant_aside h).kept
  | tableReadComplete => cases h; exact endTableStep_rampsKept .read s
  | digestEnd => cases h; exact endTableStep_rampsKept .digest s
  | controlCell cell => exact (execControlCell_aside h).kept
  | outgoingPacketTake => cases h; exact (takeOutgoing_aside (queueNotices s)).after.kept
  | noticeQueue => cases h; exact (queueOneNotice_aside s).kept
  | unknownRequest => cases h; exact takePacket_rampsKept (fun c s => (judgeUnknown_aside c s).kept) s
  | identify => exact takeRequest_aside (body := bodyIdentify) (fun _ _ _ => .plain) h
  | readStatus => exact takeRequest_aside bodyReadStatus_aside h
  | unitEnable => exact takeRequest_rampsKept bodyUnitEnable_rampsKept h
  | unitReset => exact takeRequest_rampsKept bodyUnitReset_rampsKept h
  | partReset =>
    exact takeRequest_rampsKept (fun _ _ s => .ofEmpty fun i => by simp [bodyPartReset, partReset, State.powerOn, RampUnit.reset]) h
  | noticeEnable => exact takeRequest_aside bodyNoticeEnable_aside h
  | mode => exact takeRequest_rampsKept bodyMode_rampsKept h
  | slotMap => exact takeRequest_aside bodySlotMap_aside h
  | stageRecord => exact takeRequest_aside bodyStageRecord_aside h
  | abortOpen => exact takeRequest_aside (body := bodyAbortOpen) (fun _ _ _ => .plain) h
  | flushQueue => exact takeRequest_aside (fun rq _ s => Aside.answer (.ofSame (flushQueue_same s)) rq _ _) h
  | setStatus => exact takeRequest_aside (body := bodySetStatus) (fun _ _ _ => .plain) h
  | sectionLoad => exact takeRequest_aside bodySectionLoad_aside h
  | sectionWrite => exact takeRequest_aside bodySectionWrite_aside h
  | sectionRelease => exact takeRequest_aside bodySectionRelease_aside h
  | poolStatus => exact takeRequest_aside (body := bodyPoolStatus) (fun _ _ _ => .plain) h
  | speedReport => cases h; exact takePacket_rampsKept (fun c s => takeReport_rampsKept s c) s
  | sdvConfig => exact takeRequest_rampsKept bodySdvConfig_rampsKept h
  | sdvManual => exact takeRequest_rampsKept bodySdvManual_rampsKept h
  | sdvAuto => exact takeRequest_rampsKept bodySdvAuto_rampsKept h
  | sdvStatus => exact takeRequest_aside (body := bodySdvStatus) (fun _ _ _ => .plain) h
  | cueWrite => exact takeRequest_aside bodyCueWrite_aside h
  | cueStart => exact takeRequest_aside bodyCueStart_aside h
  | cueRelease => exact takeRequest_rampsKept bodyCueRelease_rampsKept h
  | cueHalt => exact takeRequest_rampsKept bodyCueHalt_rampsKept h
  | cueStatus => exact takeRequest_aside (body := bodyCueStatus) (fun _ _ _ => .plain) h
  | tableRead => exact execTableRead_rampsKept h
  | digest => exact takeRequest_aside bodyDigest_aside h

theorem step_rampsKept {s t : State} (h : step s = .next t) : RampsKept s t := by
  unfold step at h
  split at h
  · cases h; exact .refl s
  · exact RampsKept.trans .ofFields (exec_rampsKept h)

/-- Settles O8: each command keeps the table and its tie to the targets (`RampsKept`): a target changes by a retarget of its key
alone, or of the set's keys in an application, and the entry into STANDBY and each reset leave the table empty. -/
theorem stepKeepsRampTable : Obligations.StepKeepsRampTable :=
  ⟨fun _ _ table h => (step_rampsKept h).table table, fun _ _ table link h => (step_rampsKept h).link table link⟩

end Sys2Proof.Machine

namespace Sys2Proof.Machine
-- One proof at a time: side by side the proofs start more threads than the memory limit allows.
set_option Elab.async false

/-! ## Writes between the taking of a request and its answer (R161, R164) -/

/-- The state with a place held for a requester's answer at the queue's end. -/
def withHeld (rq : Requester) (s : State) : State := { s with ctl := { s.ctl with queue := s.ctl.queue ++ [.held rq] } }

theorem heldTake_withHeld (c : Context) (i : Fin 2) (s : State) : heldTake c i s = withHeld c.requester (afterTake i s) := rfl

/-- A held place is no reservation, and the filling of reservations passes it by. -/
theorem fillReservation_withHeld (u : UnitId) (res : Result) (data : List Byte) (rq : Requester) (s : State) :
    fillReservation u res data (withHeld rq s) = withHeld rq (fillReservation u res data s) := by
  have found : reservationOf u (withHeld rq s).ctl.queue = reservationOf u s.ctl.queue := by
    simp [withHeld, reservationOf_eq, List.findSome?_append, Place.heldFor]
  have places : (withHeld rq s).ctl.queue.map (Place.filled u res data) = s.ctl.queue.map (Place.filled u res data) ++ [.held rq] :=
    List.map_append
  unfold fillReservation
  rw [found, places]
  rfl

/-- R149: the TABLE unit hears of writes the same way while a request is judged. -/
theorem reportWrites_withHeld (d : TableId) (is : List Nat) (rq : Requester) (s : State) :
    reportWrites d is (withHeld rq s) = withHeld rq (reportWrites d is s) := by
  have table : (withHeld rq s).table = s.table := rfl
  unfold reportWrites
  rw [table]
  split
  · rfl
  · split
    · unfold endTableOp
      rw [fillReservation_withHeld]
      rfl
    · rfl

/-- R164: the answer to a request, given after effects outside the reply queue. -/
theorem answer_withHeld (c : Context) (res : Result) (data : List Byte) {t : State} (held : NoHeld t) :
    answer c.requester res data (withHeld c.requester t) = replied c res data t := answer_last res data rfl held

/-- The frame of a taken request, from what its effects change after the taking. -/
theorem TakenBut.ofSame {ps : List Part} {i : Fin 2} {s t : State} (same : SameBut (.ctl :: ps) (afterTake i s) t)
    (calm : Calm (afterTake i s) t) (port : Part.port ∉ Part.ctl :: ps := by decide) : TakenBut ps i s t :=
  ⟨((afterTake_same i s).mono (by simp)).trans (same.mono fun _ => List.mem_cons_of_mem _), same .port port,
    (afterTake_calm i s).settings.trans calm.settings⟩

/-! ## Sections put into a state, and the report of it (R61, R75, R88) -/

/-- What claiming or unclaiming sections makes of the EQ unit and of what the TABLE unit and the control unit hold. -/
structure StatesPut (is : List SectionNo) (st : SectionState) (s t : State) : Prop where
  eq : t.eq = { s.eq with sections := t.eq.sections }
  sections : ∀ n : SectionNo, t.eq.sections[n] = { s.eq.sections[n] with state := if n ∈ is then st else (s.eq.sections[n]).state }
  heard : WritesHeard (sectionEntries is) [] s t
  quiet : NoNotice s t
  calm : Calm s t

/-- `s` and `v` differ outside what is spoken of. -/
theorem putStates_put (is : List SectionNo) (st : SectionState) {s v : State} (ctl : v.ctl = s.ctl := by rfl)
    (eq : v.eq = s.eq := by rfl) (table : v.table = s.table := by rfl) :
    StatesPut is st s (reportSections is { v with eq := v.eq.putStates is st }) where
  eq := by rw [reportSections_eq, EqUnit.putStates_eq, eq]
  sections n := by rw [reportSections_eq, ← eq]; exact EqUnit.putStates_at st n is v.eq
  heard := reportSections_heard is ctl table
  quiet := (NoNotice.ofCtl ctl).trans (reportWrites_noNotice _ _ { v with eq := v.eq.putStates is st })
  calm := .after (eqThenReport_calm _ is v) ctl table

/-! ## ABORT_OPEN, FLUSH_QUEUE and SET_STATUS (R74 to R76) -/

/-- Settles O25: R74. -/
theorem abortOpenEmptiesStaging : Obligations.AbortOpenEmptiesStaging := by
  intro c i s held takes
  refine (takeRequest_takes takes bodyAbortOpen).trans ?_
  exact congrArg _ (answer_heldTake_of_ctl (t := { afterTake i s with commit := { s.commit with staging := [] } }) c i .ok _ held)

/-- R75: the queue is flushed the same way while the request is judged. -/
theorem flushQueue_withHeld (rq : Requester) (s : State) : flushQueue (withHeld rq s) = withHeld rq (flushQueue s) :=
  reportWrites_withHeld .sections _ rq { s with eq := s.eq.putStates (queuedSections s.commit) .loaded, commit := { s.commit with queue := [] } }

/-- Settles O26: R75, R88 and R149, by what the return of the queued sections to LOADED does. -/
theorem flushQueueDiscards : Obligations.FlushQueueDiscards := by
  intro c i s held takes
  have put : StatesPut (queuedSections s.commit) .loaded (afterTake i s) (flushQueue (afterTake i s)) := putStates_put _ _
  have same := flushQueue_same (afterTake i s)
  refine ⟨flushQueue (afterTake i s), ?exec, ?commit, put.eq, put.sections, put.heard, put.quiet, .ofSame same put.calm⟩
  case exec =>
    refine (takeRequest_takes takes bodyFlushQueue).trans (congrArg _ ?_)
    unfold bodyFlushQueue
    rw [heldTake_withHeld, flushQueue_withHeld, answer_withHeld c _ _ (put.calm.noHeld (afterTake_noHeld i held))]
    rfl
  case commit => exact unclaimSections_same _ _ .commit (by decide)

/-- Settles O27: R76, from the state when the request is taken. -/
theorem setStatusReports : Obligations.SetStatusReports := by
  refine ⟨rfl, fun c i s held takes => ?_⟩
  refine (takeRequest_takes takes bodySetStatus).trans (congrArg _ ?_)
  refine (answer_heldTake c i .ok (setStatusData s.commit) held).trans ?_
  have data : setStatusData s.commit = [byteOf s.commit.staging.length, byteOf s.commit.queue.length] ++
      headData s.commit.queue ++ lastAppliedData s.commit.lastApplied := rfl
  rw [data]
  cases s.commit.queue <;> cases s.commit.lastApplied <;> rfl

end Sys2Proof.Machine

namespace Sys2Proof.Machine
-- One proof at a time: side by side the proofs start more threads than the memory limit allows.
set_option Elab.async false

/-! ## The checks of a set (R59, R60) -/

theorem mem_filterMap_pair {rs : List ChangeRecord} {p : Output × Source} :
    p ∈ rs.filterMap ChangeRecord.pair? ↔ ∃ g ms, .cell p.1 p.2 g ms ∈ rs := by
  rw [List.mem_filterMap]
  constructor
  · rintro ⟨r, mem, pair⟩
    cases r <;> cases pair
    exact ⟨_, _, mem⟩
  · rintro ⟨g, ms, mem⟩
    exact ⟨_, mem, rfl⟩

theorem ChangeRecord.movesLevels_iff (r : ChangeRecord) : r.movesLevels = true ↔ r.kindByte ∈ [1, 3, 4, 6] := by
  cases r <;> simp [movesLevels, kindByte]

/-- R60: the worst-case count, over the set of pairs itself. -/
theorem worstCase_eq (rs : List ChangeRecord) : worstCase rs = worstCount rs := by
  have pairs : {p : Output × Source | ∃ g ms, .cell p.1 p.2 g ms ∈ rs} = ((rs.filterMap ChangeRecord.pair?).toFinset : Set _) := by
    ext p
    simp only [Set.mem_ofPred_eq, List.coe_toFinset]
    exact mem_filterMap_pair.symm
  have moves : rs.any ChangeRecord.movesLevels = true ↔ ∃ r ∈ rs, r.kindByte ∈ [1, 3, 4, 6] := by
    simp only [List.any_eq_true, ChangeRecord.movesLevels_iff]
  unfold worstCase worstCount
  rw [pairs, Set.ncard_coe_finset, List.card_toFinset, add_comm]
  simp only [moves]

theorem EqUnit.allLoaded_iff (e : EqUnit) (is : List SectionNo) : e.allLoaded is = true ↔ ∀ n ∈ is, (e.sections[n]).state = .loaded := by
  simp [allLoaded]

/-- R59 checks 1 to 4, over the conditions the rule names. -/
theorem chainFailure_eq (e : EqUnit) (before : List ChangeRecord) (o : Output) (list : List SectionNo) :
    chainFailure e before o list =
      if 4 ≤ (chainOutputs before).length then some .tooManyChains
      else if o ∈ chainOutputs before then some .duplicateOutput
      else if ¬ list.Nodup ∨ ∃ n ∈ list, n ∈ namedSections before then some .sectionRepeated
      else if ∃ n ∈ list, (e.sections[n]).state ≠ .loaded then some .sectionUnavailable
      else none := by
  have count : 4 < (before.filterMap ChangeRecord.chain?).length + 1 ↔ 4 ≤ (chainOutputs before).length := by
    simp [chainOutputs]
  have output : ((before.filterMap ChangeRecord.chain?).map Prod.fst).contains o = true ↔ o ∈ chainOutputs before := List.contains_iff_mem
  have fresh : ¬ (list.Nodup ∧ ∀ n ∈ list, n ∉ namedSections before) ↔ ¬ list.Nodup ∨ ∃ n ∈ list, n ∈ namedSections before := by
    simp [imp_iff_not_or]
  have loaded : ¬ e.allLoaded list = true ↔ ∃ n ∈ list, (e.sections[n]).state ≠ .loaded := by simp [EqUnit.allLoaded]
  simp only [chainFailure, count, output, fresh, loaded]

/-- A chain of conditions, the first that holds deciding, said case by case. -/
theorem eq_firstOf_iff {α : Type} {p q r u : Prop} [Decidable p] [Decidable q] [Decidable r] [Decidable u] {x a b c d e : α} :
    x = (if p then a else if q then b else if r then c else if u then d else e) ↔
      (p → x = a) ∧ (¬ p → q → x = b) ∧ (¬ p → ¬ q → r → x = c) ∧ (¬ p → ¬ q → ¬ r → u → x = d) ∧
        (¬ p → ¬ q → ¬ r → ¬ u → x = e) := by
  by_cases hp : p
  · simp [hp]
  by_cases hq : q
  · simp [hp, hq]
  by_cases hr : r
  · simp [hp, hq, hr]
  by_cases hu : u <;> simp [hp, hq, hr, hu]

/-- R59 checks 1 to 4: what the rule says of a CHAIN record is what the model computes. -/
theorem chainJudged_iff {e : EqUnit} {before : List ChangeRecord} {o : Output} {list : List SectionNo} {reason : Option RejectReason} :
    ChainJudged e before o list reason ↔ reason = chainFailure e before o list := by
  rw [chainFailure_eq, eq_firstOf_iff]
  unfold ChainJudged
  simp only [not_le]

/-- R59: what the rule says of a record is what the model computes. -/
theorem recordJudged_iff {e : EqUnit} {before : List ChangeRecord} {r : ChangeRecord} {reason : Option RejectReason} :
    RecordJudged e before r reason ↔ recordFailure e before r = reason := by
  have first : RecordJudged e before r reason ↔ ∃ x, x = (r.chain?.bind fun c => chainFailure e before c.1 c.2) ∧
      reason = if x.isSome then x else if 48 < worstCount (before ++ [r]) then some .tooManyRamps else none := by
    refine exists_congr fun x => and_congr_left fun _ => ?_
    cases r with
    | chain o list => exact chainJudged_iff
    | _ => rfl
  rw [first, exists_eq_left]
  unfold recordFailure
  rw [worstCase_eq]
  cases r.chain?.bind fun c => chainFailure e before c.1 c.2 <;> exact eq_comm

section
variable {e : EqUnit} {reason : RejectReason}

/-- R59: record `k` of a group is the first at which a condition fails, `before` being the records before the group. -/
def FailsFirst (e : EqUnit) (before rs : List ChangeRecord) (k : Nat) (reason : RejectReason) : Prop :=
  (∃ r, rs[k]? = some r ∧ recordFailure e (before ++ rs.take k) r = some reason) ∧
  ∀ j r, j < k → rs[j]? = some r → recordFailure e (before ++ rs.take j) r = none

theorem failsFirst_zero {before rs : List ChangeRecord} {r : ChangeRecord} :
    FailsFirst e before (r :: rs) 0 reason ↔ recordFailure e before r = some reason := by
  simp [FailsFirst]

theorem failsFirst_succ {before rs : List ChangeRecord} {r : ChangeRecord} {k : Nat} :
    FailsFirst e before (r :: rs) (k + 1) reason ↔ recordFailure e before r = none ∧ FailsFirst e (before ++ [r]) rs k reason := by
  have shift : ∀ j, before ++ (r :: rs).take (j + 1) = before ++ [r] ++ rs.take j := by simp
  unfold FailsFirst
  simp only [List.getElem?_cons_succ, shift]
  refine ⟨fun ⟨fails, pass⟩ => ⟨?_, fails, fun j x less at_ => ?_⟩, fun ⟨head, fails, pass⟩ => ⟨fails, fun j x less at_ => ?_⟩⟩
  · simpa using pass 0 r (Nat.succ_pos k) rfl
  · rw [← shift]
    exact pass (j + 1) x (Nat.succ_lt_succ less) at_
  · cases j with
    | zero => cases at_; simpa using head
    | succ j => rw [shift]; exact pass j x (Nat.lt_of_succ_lt_succ less) at_

/-- The index the model answers counts from the first of the records before. -/
theorem firstFailure_eq_some_iff {m : Nat} : ∀ {rs before : List ChangeRecord},
    firstFailure e before rs = some (m, reason) ↔ ∃ k, m = before.length + k ∧ FailsFirst e before rs k reason
  | [], before => by simp [firstFailure, FailsFirst]
  | r :: rs, before => by
    rw [← Nat.or_exists_add_one, failsFirst_zero]
    simp only [failsFirst_succ]
    unfold firstFailure
    cases h : recordFailure e before r with
    | some x => simp [eq_comm]
    | none =>
      dsimp only
      rw [firstFailure_eq_some_iff]
      simp [Nat.add_assoc, Nat.add_comm 1]

theorem firstFailure_eq_none_iff : ∀ {rs before : List ChangeRecord},
    firstFailure e before rs = none ↔ ∀ j r, rs[j]? = some r → recordFailure e (before ++ rs.take j) r = none
  | [], before => by simp [firstFailure]
  | p :: rs, before => by
    have split : (∀ j r, (p :: rs)[j]? = some r → recordFailure e (before ++ (p :: rs).take j) r = none) ↔
        recordFailure e before p = none ∧ ∀ j r, rs[j]? = some r → recordFailure e (before ++ [p] ++ rs.take j) r = none := by
      rw [← Nat.and_forall_add_one]
      simp
    rw [split]
    unfold firstFailure
    cases h : recordFailure e before p with
    | some x => simp
    | none =>
      dsimp only
      rw [firstFailure_eq_none_iff]
      simp
end

/-! ## The close of a set (R59 to R63) -/

theorem acceptSet_withHeld (rs : List ChangeRecord) (notify : Bool) (rq : Requester) (s : State) :
    acceptSet rs notify (withHeld rq s) = withHeld rq (acceptSet rs notify s) :=
  reportWrites_withHeld .sections _ rq
    { s with eq := s.eq.putStates (namedSections rs) .claimed, commit := { s.commit with
        staging := []
        queue := s.commit.queue ++ [{ number := s.commit.counter, records := rs, notify := notify, wait := .none }]
        counter := s.commit.counter + 1 } }

section
variable {c : Context} {i : Fin 2} {control kind : Byte} {body : List Byte} {s : State}

/-- R57: STAGE_RECORD reads its control byte, kind and body. -/
theorem stageRecord_taken (takes : Takes .stageRecord c i s) (data : c.data = control :: kind :: body) :
    exec .stageRecord s = .next (match checkRecord kind body with
      | .badValue => answer c.requester .badValue [] (heldTake c i s)
      | .badLength => answer c.requester .badLength [] (heldTake c i s)
      | .good r => if control.getLsbD 0 then stageClose c.requester r (control.getLsbD 1) (heldTake c i s)
          else stageOpen c.requester r (heldTake c i s)) := by
  refine (takeRequest_takes takes bodyStageRecord).trans ?_
  rw [data]
  rfl

theorem stageRecord_closes (takes : Takes .stageRecord c i s) (data : c.data = control :: kind :: body) {r : ChangeRecord}
    (good : checkRecord kind body = .good r) (close : control.getLsbD 0 = true) :
    exec .stageRecord s = .next (stageClose c.requester r (control.getLsbD 1) (heldTake c i s)) := by
  rw [stageRecord_taken takes data, good]
  dsimp only
  rw [if_pos close]
end

/-- Settles O24: R59 to R61, R63, R88 and R149, by the order of the checks of a close and by what the claims of an accepted set do. -/
theorem setClosed : Obligations.SetClosed := by
  refine ⟨fun c i control kind body r s held takes data good close => ?_, fun e rs => ⟨fun k reason => ?_, ?_⟩, rfl⟩
  · have closes := stageRecord_closes takes data good close
    have commit : (heldTake c i s).commit = s.commit := rfl
    have eq : (heldTake c i s).eq = s.eq := rfl
    unfold stageClose stagingLimit queueLimit at closes
    rw [commit, eq] at closes
    refine ⟨fun full => ?_, fun room full => ?_, fun room free => ⟨fun k reason fails => ?_, fun pass => ?_⟩⟩
    · rw [closes, if_pos full, answer_heldTake c i _ _ held]
    · rw [closes, if_neg (not_le.mpr room), if_pos full, answer_heldTake c i _ _ held]
    · rw [closes, if_neg (not_le.mpr room), if_neg (not_le.mpr free), fails]
      exact congrArg _ (answer_heldTake_of_ctl (t := { afterTake i s with commit := { s.commit with staging := [] } }) c i .rejected _ held)
    · rw [if_neg (not_le.mpr room), if_neg (not_le.mpr free), pass] at closes
      dsimp only at closes
      generalize hrs : s.commit.staging ++ [r] = rs at closes
      have put : StatesPut (namedSections rs) .claimed (afterTake i s) (acceptSet rs (control.getLsbD 1) (afterTake i s)) :=
        putStates_put _ _
      rw [heldTake_withHeld, acceptSet_withHeld, answer_withHeld c _ _ (put.calm.noHeld (afterTake_noHeld i held))] at closes
      exact ⟨_, closes, claimSections_same _ _ .commit (by decide), put.eq, put.sections, put.heard, put.quiet,
        .ofSame (acceptSet_same _ _ _) put.calm⟩
  · simp only [recordJudged_iff, firstFailure_eq_some_iff, List.length_nil, Nat.zero_add, exists_eq_left']
    rfl
  · simp only [recordJudged_iff, firstFailure_eq_none_iff, List.nil_append]

end Sys2Proof.Machine

namespace Sys2Proof.Machine
-- One proof at a time: side by side the proofs start more threads than the memory limit allows.
set_option Elab.async false

/-! ## The examination of the head set (R65, R66) -/

theorem RampUnit.rampOf_isNone (u : RampUnit) (k : Key) : (u.rampOf k).isNone = (u.find k).isNone := by
  unfold rampOf
  cases h : u.find k with
  | none => rfl
  | some i =>
    obtain ⟨r, entry, -⟩ := RampUnit.find_holds h
    simp only [Option.bind_some, entry, Option.isNone_some]

/-- R65: the conditions of the examination, in their order. -/
theorem examine_eq (s : State) (q : QueuedSet) : examine s q =
    if s.core.mode = .leaving then .mode
    else if ∃ o ∈ chainOutputs q.records, (s.eq.slotOf o).isSome = true then .outputBusy
    else if s.core.mode = .run ∧ s.ctl.enabled.eq = true ∧ s.eq.freeSlots < (chainOutputs q.records).length then .crossfade
    else if s.ramp.freeGeneral < entriesNeeded s q.records then .ramps
    else .none := by
  have count : (q.records.filterMap ChangeRecord.chain?).length = (chainOutputs q.records).length := (List.length_map _).symm
  have busy : ((q.records.filterMap ChangeRecord.chain?).any fun c => (s.eq.slotOf c.1).isSome) = true ↔
      ∃ o ∈ chainOutputs q.records, (s.eq.slotOf o).isSome = true := by
    rw [List.any_eq_true]
    simp [chainOutputs]
  unfold examine
  dsimp only
  rw [count]
  simp only [busy]

/-- How many of the moves that a table's entries give have a property. -/
theorem countP_moves {α : Type} {f : α → Move} {q : α → Prop} [DecidablePred q] {p : Move → Bool} (l : List α) :
    (l.filterMap fun a => if q a then none else some (f a)).countP p = l.countP fun a => decide (¬ q a) && p (f a) := by
  rw [List.countP_filterMap]
  refine List.countP_congr fun a _ => ?_
  by_cases h : q a <;> simp [h]

/-- R66: the entries a set needs, over the tables themselves. -/
theorem entriesNeeded_eq (s : State) (rs : List ChangeRecord) : entriesNeeded s rs =
    ((List.finRange 24).countP fun o => decide ((s.core.live.writeAll rs).levelTarget o ≠ s.core.levelTargets[o]) &&
      (s.ramp.rampOf (.level o)).isNone) +
    ((List.finRange 288).countP fun i => decide ((s.core.live.writeAll rs).cells[i] ≠ s.core.live.cells[i]) &&
      (s.ramp.rampOf (.cell (cellPair i).1 (cellPair i).2)).isNone) := by
  unfold entriesNeeded setMoves
  rw [List.countP_append]
  simp only [RampUnit.rampOf_isNone]
  exact congrArg₂ _ (countP_moves _) (countP_moves _)

theorem finRange_pools : List.finRange 64 =
    (List.finRange 48).map (Fin.castLE (by decide)) ++ (List.finRange 16).map (Fin.natAdd 48) := by decide

/-- R34, R42: of the 48 general entries each is free or active. -/
theorem RampUnit.freeGeneral_add (u : RampUnit) :
    u.freeGeneral + ((List.finRange 48).countP fun i => (u.entries[i.val]).isSome) = 48 := by
  have dedicated : (List.finRange 16).countP ((fun i : Fin 64 => decide (i.val < 48) && (u.entries[i]).isNone) ∘ Fin.natAdd 48) = 0 :=
    List.countP_eq_zero.mpr (by simp)
  have general : u.freeGeneral = (List.finRange 48).countP fun i => decide (¬ (u.entries[i.val]).isSome = true) := by
    unfold freeGeneral
    rw [finRange_pools, List.countP_append, List.countP_map, List.countP_map, dedicated, Nat.add_zero]
    exact List.countP_congr fun i _ => by simp
  rw [general, add_comm]
  exact (List.length_eq_countP_add_countP _).symm.trans (List.length_finRange)

/-- Settles O28: R65 and R66. -/
theorem examinationOrder : Obligations.ExaminationOrder := by
  intro s q
  obtain ⟨mode, busy, crossfade, ramps, none⟩ := eq_firstOf_iff.mp (examine_eq s q)
  exact ⟨mode, busy, crossfade, ramps, none, entriesNeeded_eq s q.records, s.ramp.freeGeneral_add⟩

end Sys2Proof.Machine

namespace Sys2Proof.Machine
-- One proof at a time: side by side the proofs start more threads than the memory limit allows.
set_option Elab.async false

/-! ## The fields of a change record on the wire (11.4) -/

section
variable {b h l p : Byte}

theorem eq_byteOf_iff {v : Int} : b = byteOf v ↔ (b.toNat : Int) = v % 256 := by
  rw [← byteOf_toNat, Int.natCast_inj]
  exact BitVec.toNat_inj.symm

theorem below_eq_some_iff {n : Nat} (small : n ≤ 256) {x : Fin n} : below n b = some x ↔ b = byteOf x.val := by
  have := x.isLt
  rw [eq_byteOf_iff, Int.emod_eq_of_lt (by omega) (by omega), Int.natCast_inj]
  unfold below
  split
  · rw [Option.some_inj, Fin.ext_iff]
  · constructor
    · intro e; cases e
    · omega

theorem eq_bytes16_iff {v : Int} : [h, l] = bytes16 v ↔ (u16 h l : Int) = v % 65536 := by
  have := l.isLt
  unfold bytes16 u16
  rw [List.cons.injEq, List.cons.injEq, eq_byteOf_iff, eq_byteOf_iff]
  simp only [and_true]
  omega

theorem s16_eq_iff {v : Int} (lo : -32768 ≤ v) (hi : v ≤ 32767) : s16 h l = v ↔ [h, l] = bytes16 v := by
  have := h.isLt
  have := l.isLt
  rw [eq_bytes16_iff]
  unfold s16 u16
  rw [BitVec.toInt_eq_toNat_cond, BitVec.toNat_ofNat]
  split <;> omega

theorem within_s16_iff {lo hi v : Int} (least : -32768 ≤ lo) (greatest : hi ≤ 32767) :
    within lo hi (s16 h l) = some v ↔ [h, l] = bytes16 v ∧ lo ≤ v ∧ v ≤ hi := by
  unfold within
  constructor
  · intro e
    split at e
    next range => cases e; exact ⟨(s16_eq_iff (by omega) (by omega)).mp rfl, range⟩
    next => cases e
  · rintro ⟨bytes, range⟩
    rw [(s16_eq_iff (by omega) (by omega)).mpr bytes, if_pos range]

theorem bit01_eq_some_iff {x : Bool} : bit01 b = some x ↔ b = bitByte x := by
  unfold bit01
  by_cases zero : b = 0
  · subst zero; cases x <;> simp [bitByte]
  · by_cases one : b = 1
    · subst one; cases x <;> simp [bitByte]
    · rw [if_neg zero, if_neg one]
      cases x <;> simpa [bitByte]

/-- 11.4: the optional ramp. -/
theorem parseRamp_eq_some_iff {ms : Option Nat} :
    parseRamp p h l = some ms ↔ (∀ n, ms = some n → n ≤ 65535) ∧ ∃ x y, [p, h, l] = rampOnWire ms x y := by
  have := u16_le h l
  have wire : (∃ x y, [p, h, l] = rampOnWire ms x y) ↔ bit01 p = some ms.isSome ∧ ∀ n, ms = some n → (u16 h l : Int) = n % 65536 := by
    rw [bit01_eq_some_iff]
    cases ms with
    | none => simp [rampOnWire, bitByte]
    | some n => simp [rampOnWire, bitByte, eq_bytes16_iff]
  rw [wire]
  unfold parseRamp
  cases bit01 p with
  | none => simp
  | some x =>
    cases x <;> cases ms <;> simp
    omega

/-- The bytes of a ZONE record's field and value. -/
def ZoneChange.onWire : ZoneChange → List Byte
  | .volume v => 0 :: bytes16 v
  | .balance v => 1 :: bytes16 v
  | .fade v => 2 :: bytes16 v
  | .mute b => [3, 0, bitByte b]

/-- R53: the range of a ZONE record's value. -/
def ZoneChange.inRange : ZoneChange → Prop
  | .volume v => -480 ≤ v ∧ v ≤ 0
  | .balance v => -15 ≤ v ∧ v ≤ 15
  | .fade v => -15 ≤ v ∧ v ≤ 15
  | .mute _ => True

theorem eq_byte_iff {n : Nat} (small : n < 256) : p = BitVec.ofNat 8 n ↔ p.toNat = n := by
  rw [← BitVec.toNat_inj, BitVec.toNat_ofNat, Nat.mod_eq_of_lt small]

/-- R53, 11.4: the field of a ZONE record and its value. -/
theorem parseZoneChange_eq_some_iff {c : ZoneChange} : parseZoneChange p h l = some c ↔ c.inRange ∧ [p, h, l] = c.onWire := by
  have field : ∀ n : Nat, n < 256 → ∀ bs : List Byte, [p, h, l] = BitVec.ofNat 8 n :: bs ↔ p.toNat = n ∧ [h, l] = bs :=
    fun n small bs => by rw [List.cons.injEq, eq_byte_iff small]
  have wire : [p, h, l] = c.onWire ↔ match c with
      | .volume v => p.toNat = 0 ∧ [h, l] = bytes16 v
      | .balance v => p.toNat = 1 ∧ [h, l] = bytes16 v
      | .fade v => p.toNat = 2 ∧ [h, l] = bytes16 v
      | .mute b => p.toNat = 3 ∧ u16 h l = if b then 1 else 0 := by
    cases c with
    | volume v => exact field 0 (by decide) _
    | balance v => exact field 1 (by decide) _
    | fade v => exact field 2 (by decide) _
    | mute b =>
      refine (field 3 (by decide) _).trans (and_congr_right fun _ => ?_)
      have value : [0, bitByte b] = bytes16 (if b then 1 else 0) := by cases b <;> rfl
      rw [value, eq_bytes16_iff]
      cases b <;> simp
  rw [wire]
  unfold parseZoneChange
  split
  next f => cases c <;> simp [f, ZoneChange.inRange, within_s16_iff, and_comm]
  next f => cases c <;> simp [f, ZoneChange.inRange, within_s16_iff, and_comm]
  next f => cases c <;> simp [f, ZoneChange.inRange, within_s16_iff, and_comm]
  next f =>
    by_cases zero : u16 h l = 0
    · cases c <;> simp [f, ZoneChange.inRange, zero]
    · by_cases one : u16 h l = 1
      · cases c <;> simp [f, ZoneChange.inRange, one]
      · cases c <;> simp [f, ZoneChange.inRange, zero, one]
        split <;> assumption
  next f0 f1 f2 f3 =>
    refine ⟨(nomatch ·), ?_⟩
    cases c with
    | volume v => exact fun ⟨_, k, _⟩ => absurd k f0
    | balance v => exact fun ⟨_, k, _⟩ => absurd k f1
    | fade v => exact fun ⟨_, k, _⟩ => absurd k f2
    | mute b => exact fun ⟨_, k, _⟩ => absurd k f3

/-- R53, 11.4: a cell gain. -/
theorem parseGain_eq_some_iff {g : Gain} :
    parseGain h l = some g ↔ (∀ v, g = .level v → -480 ≤ v ∧ v ≤ 24) ∧ [h, l] = gainBytes g := by
  have off : [h, l] = gainBytes .off ↔ u16 h l = 0x8000 := by
    rw [show gainBytes .off = bytes16 0x8000 from rfl, eq_bytes16_iff]
    have := u16_le h l
    omega
  have apart : ∀ v, -480 ≤ v → v ≤ 24 → [h, l] = bytes16 v → u16 h l ≠ 0x8000 := fun v lo hi e => by
    have := eq_bytes16_iff.mp e
    omega
  unfold parseGain
  split
  next o =>
    cases g with
    | off => simp [off, o]
    | level v => simpa [gainBytes] using fun lo hi e => apart v lo hi e o
  next o =>
    cases g with
    | off => simp [off, o]
    | level v => simp [gainBytes, within_s16_iff, and_comm, and_assoc]

theorem Side.ofByte_eq_some_iff {x : Side} : Side.ofByte b = some x ↔ b = x.code := by
  refine ⟨fun e => ?_, fun e => by rw [e]; cases x <;> rfl⟩
  unfold Side.ofByte at e
  apply BitVec.eq_of_toNat_eq
  split at e <;> cases e <;> assumption

theorem Row.ofByte_eq_some_iff {x : Row} : Row.ofByte b = some x ↔ b = x.code := by
  refine ⟨fun e => ?_, fun e => by rw [e]; cases x <;> rfl⟩
  unfold Row.ofByte at e
  apply BitVec.eq_of_toNat_eq
  split at e <;> cases e <;> assumption

theorem CurveId.ofByte_eq_some_iff {x : CurveId} : CurveId.ofByte b = some x ↔ b = byteOf x.idx.val := by
  refine ⟨fun e => ?_, fun e => by rw [e]; cases x <;> rfl⟩
  unfold CurveId.ofByte at e
  apply BitVec.eq_of_toNat_eq
  split at e <;> cases e <;> assumption

theorem groupOfByte_eq_some_iff {g : Option Group} : groupOfByte b = some g ↔ b = groupCode g := by
  unfold groupOfByte
  split
  next none =>
    subst none
    cases g with
    | none => simp [groupCode]
    | some g => revert g; decide
  next other =>
    cases g with
    | none => simpa [groupCode] using other
    | some g => simpa [groupCode] using below_eq_some_iff (x := g) (by decide)
end
end Sys2Proof.Machine

namespace Sys2Proof.Machine
-- One proof at a time: side by side the proofs start more threads than the memory limit allows.
set_option Elab.async false

/-! ## The lists of a change record on the wire (11.4) -/

theorem byteOf_toNat_self (b : Byte) : byteOf b.toNat = b := by
  have := b.isLt
  exact (eq_byteOf_iff.mpr (by omega)).symm

theorem toNat_byteOf {n : Nat} (small : n < 256) : (byteOf n).toNat = n := by
  have := byteOf_toNat n
  omega

theorem map_byteFin_eq_iff {list : List Byte} {is : List SectionNo} : list.map byteFin = is ↔ list = is.map fun n => byteOf n.val := by
  have there : ∀ n : SectionNo, byteFin (byteOf n.val) = n := fun n => Fin.ext (toNat_byteOf n.isLt)
  have back : ∀ b : Byte, byteOf (byteFin b).val = b := byteOf_toNat_self
  constructor
  · rintro rfl
    simp [Function.comp_def, back]
  · rintro rfl
    simp [Function.comp_def, there]

/-- The values of a CURVE record: two bytes each, every one in its range. -/
theorem parseValues_eq_some_iff {lo hi : Int} (least : -32768 ≤ lo) (greatest : hi ≤ 32767) : ∀ {list : List Byte} {vs : List Int},
    Even list.length → (parseValues lo hi list = some vs ↔ (∀ v ∈ vs, lo ≤ v ∧ v ≤ hi) ∧ list = (vs.map bytes16).flatten)
  | [], vs, _ => by cases vs <;> simp [parseValues, bytes16]
  | [b], vs, even => by simp at even
  | h :: l :: rest, [], _ => by simp [parseValues, Option.bind_eq_some_iff]
  | h :: l :: rest, v :: vs, even => by
    have evenRest : Even rest.length := by simpa [Nat.even_add_one] using even
    have bytes : h :: l :: rest = ((v :: vs).map bytes16).flatten ↔ [h, l] = bytes16 v ∧ rest = (vs.map bytes16).flatten := by
      simp [bytes16, and_assoc]
    rw [bytes]
    simp only [parseValues, Option.bind_eq_bind, Option.bind_eq_some_iff, Option.pure_def, Option.some.injEq, List.cons.injEq,
      within_s16_iff least greatest, parseValues_eq_some_iff least greatest evenRest, List.forall_mem_cons]
    constructor
    · rintro ⟨_, ⟨wire, range⟩, _, ⟨ranges, tail⟩, rfl, rfl⟩
      exact ⟨⟨range, ranges⟩, wire, tail⟩
    · rintro ⟨⟨range, ranges⟩, wire, tail⟩
      exact ⟨_, ⟨wire, range⟩, _, ⟨ranges, tail⟩, rfl, rfl⟩

/-- The bytes of breakpoints: the speed above the low seven bits, the boost in them. -/
def pointsOnWire (ps : List (Nat × Int)) : List Byte := (ps.map fun p => bytes16 (p.1 * 128 + p.2)).flatten

theorem pointsOnWire_cons (p : Nat × Int) (ps : List (Nat × Int)) : pointsOnWire (p :: ps) = bytes16 (p.1 * 128 + p.2) ++ pointsOnWire ps := rfl

theorem pointsOnWire_length (ps : List (Nat × Int)) : (pointsOnWire ps).length = 2 * ps.length := by
  induction ps with
  | nil => rfl
  | cons p ps ih => rw [pointsOnWire_cons, List.length_append, ih, List.length_cons, Nat.mul_succ, Nat.add_comm]; rfl

theorem pointsOnWire_parsePoints : ∀ {list : List Byte}, Even list.length → pointsOnWire (parsePoints list) = list
  | [], _ => rfl
  | [b], even => by simp at even
  | h :: l :: rest, even => by
    have evenRest : Even rest.length := by simpa [Nat.even_add_one] using even
    have := u16_le h l
    have wire : [h, l] = bytes16 ((u16 h l / 128 : Nat) * 128 + (u16 h l % 128 : Nat)) := eq_bytes16_iff.mpr (by omega)
    rw [parsePoints, pointsOnWire_cons, pointsOnWire_parsePoints evenRest, ← wire]
    rfl

theorem parsePoints_pointsOnWire : ∀ {ps : List (Nat × Int)}, (∀ p ∈ ps, p.1 ≤ 511 ∧ 0 ≤ p.2 ∧ p.2 ≤ 127) →
    parsePoints (pointsOnWire ps) = ps
  | [], _ => rfl
  | p :: ps, range => by
    obtain ⟨⟨speed, least, greatest⟩, ranges⟩ := List.forall_mem_cons.mp range
    have read : ((u16 (byteOf ((p.1 * 128 + p.2) / 256)) (byteOf (p.1 * 128 + p.2)) : Nat) : Int) = (p.1 * 128 + p.2) % 65536 :=
      eq_bytes16_iff.mp rfl
    rw [pointsOnWire_cons, bytes16, List.cons_append, List.cons_append, List.nil_append, parsePoints, parsePoints_pointsOnWire ranges]
    congr 1
    exact Prod.ext (by dsimp only; omega) (by dsimp only; omega)

theorem rising_iff : ∀ {ps : List (Nat × Int)}, rising ps = true ↔ ps.Pairwise fun p q => p.1 < q.1
  | [] => by simp [rising]
  | [p] => by simp [rising]
  | p :: q :: rest => by
    rw [rising, Bool.and_eq_true, decide_eq_true_iff, rising_iff, List.pairwise_cons (a := p)]
    refine ⟨fun ⟨head, tail⟩ => ⟨fun x mem => ?_, tail⟩, fun ⟨head, tail⟩ => ⟨head q (by simp), tail⟩⟩
    rcases List.mem_cons.mp mem with rfl | mem
    · exact head
    · exact head.trans ((List.pairwise_cons.mp tail).1 x mem)

/-- R56: a boost curve is valid when its breakpoints are in range. -/
theorem curveValid_iff {ps : List (Nat × Int)} : curveValid ps = true ↔ (ChangeRecord.boostCurve ps).inRange := by
  simp [curveValid, ChangeRecord.inRange, rising_iff, and_assoc]

/-! ## Change records on the wire (R53 to R57, 11.4) -/

/-- A body spells a record whose fields and lists are in range. -/
def ChangeRecord.Spelt (r : ChangeRecord) (body : List Byte) : Prop := r.inRange ∧ ∃ h l, body = r.body h l

theorem ChangeRecord.body_zone (z : Zone) (c : ZoneChange) (ms : Option Nat) (h l : Byte) :
    (ChangeRecord.zone z c ms).body h l = byteOf z.val :: (c.onWire ++ rampOnWire ms h l) := by cases c <;> rfl

theorem ChangeRecord.inRange_zone (z : Zone) (c : ZoneChange) (ms : Option Nat) :
    (ChangeRecord.zone z c ms).inRange ↔ (∀ n, ms = some n → n ≤ 65535) ∧ c.inRange := by cases c <;> rfl

theorem append_eq_three {bs cs : List Byte} {f h l p x y : Byte} (length : bs.length = 3) :
    [f, h, l, p, x, y] = bs ++ cs ↔ [f, h, l] = bs ∧ [p, x, y] = cs :=
  ⟨fun e => List.append_inj (s₁ := [f, h, l]) (t₁ := [p, x, y]) e length.symm, fun ⟨e, e'⟩ => by rw [← e, ← e']; rfl⟩

theorem parseZone_eq_some_iff {body : List Byte} {r : ChangeRecord} : parseZone body = some r ↔ r.kindByte = 1 ∧ r.Spelt body := by
  constructor
  · intro parsed
    unfold parseZone at parsed
    split at parsed
    · simp only [Option.bind_eq_bind, Option.bind_eq_some_iff, Option.pure_def, Option.some.injEq, parseRamp_eq_some_iff,
        parseZoneChange_eq_some_iff, below_eq_some_iff (show 4 ≤ 256 by decide)] at parsed
      obtain ⟨z, rfl, c, ⟨range, value⟩, ms, ⟨ms_le, h, l, ramp⟩, rfl⟩ := parsed
      refine ⟨rfl, (ChangeRecord.inRange_zone z c ms).mpr ⟨ms_le, range⟩, h, l, ?_⟩
      rw [ChangeRecord.body_zone, ← value, ← ramp]
      rfl
    · cases parsed
  · rintro ⟨kind, range, h, l, rfl⟩
    cases r <;> cases kind
    next z c ms =>
    obtain ⟨ms_le, range⟩ := (ChangeRecord.inRange_zone z c ms).mp range
    obtain ⟨f, a, b, value⟩ : ∃ f a b, [f, a, b] = c.onWire := by cases c <;> exact ⟨_, _, _, rfl⟩
    obtain ⟨p, x, y, ramp⟩ : ∃ p x y, [p, x, y] = rampOnWire ms h l := by cases ms <;> exact ⟨_, _, _, rfl⟩
    rw [ChangeRecord.body_zone, ← value, ← ramp]
    unfold parseZone
    simp [(below_eq_some_iff (show 4 ≤ 256 by decide)).mpr rfl, parseZoneChange_eq_some_iff.mpr ⟨range, value⟩,
      parseRamp_eq_some_iff.mpr ⟨ms_le, h, l, ramp⟩]

theorem parseCell_eq_some_iff {body : List Byte} {r : ChangeRecord} : parseCell body = some r ↔ r.kindByte = 2 ∧ r.Spelt body := by
  constructor
  · intro parsed
    unfold parseCell at parsed
    split at parsed
    · simp only [Option.bind_eq_bind, Option.bind_eq_some_iff, Option.pure_def, Option.some.injEq, parseRamp_eq_some_iff,
        parseGain_eq_some_iff, below_eq_some_iff (show 24 ≤ 256 by decide), below_eq_some_iff (show 12 ≤ 256 by decide)] at parsed
      obtain ⟨o, rfl, src, rfl, g, ⟨range, value⟩, ms, ⟨ms_le, h, l, ramp⟩, rfl⟩ := parsed
      refine ⟨rfl, ⟨ms_le, range⟩, h, l, ?_⟩
      rw [ChangeRecord.body, ← value, ← ramp]
      rfl
    · cases parsed
  · rintro ⟨kind, range, h, l, rfl⟩
    cases r <;> cases kind
    next o src g ms =>
    obtain ⟨ms_le, range⟩ := range
    obtain ⟨a, b, value⟩ : ∃ a b, [a, b] = gainBytes g := by cases g <;> exact ⟨_, _, rfl⟩
    obtain ⟨p, x, y, ramp⟩ : ∃ p x y, [p, x, y] = rampOnWire ms h l := by cases ms <;> exact ⟨_, _, _, rfl⟩
    rw [ChangeRecord.body, ← value, ← ramp]
    unfold parseCell
    simp [(below_eq_some_iff (show 24 ≤ 256 by decide)).mpr rfl, (below_eq_some_iff (show 12 ≤ 256 by decide)).mpr rfl,
      parseGain_eq_some_iff.mpr ⟨range, value⟩, parseRamp_eq_some_iff.mpr ⟨ms_le, h, l, ramp⟩]

theorem parseOutput_eq_some_iff {body : List Byte} {r : ChangeRecord} : parseOutput body = some r ↔ r.kindByte = 3 ∧ r.Spelt body := by
  constructor
  · intro parsed
    unfold parseOutput at parsed
    split at parsed
    · simp only [Option.bind_eq_bind, Option.bind_eq_some_iff, Option.pure_def, Option.some.injEq, Side.ofByte_eq_some_iff,
        Row.ofByte_eq_some_iff, groupOfByte_eq_some_iff, within_s16_iff (show -32768 ≤ -96 by decide) (show 24 ≤ 32767 by decide),
        within_s16_iff (show -32768 ≤ -240 by decide) (show 48 ≤ 32767 by decide),
        below_eq_some_iff (show 24 ≤ 256 by decide), below_eq_some_iff (show 4 ≤ 256 by decide)] at parsed
      obtain ⟨o, rfl, z, rfl, side, rfl, row, rfl, g, rfl, trim, ⟨trimBytes, trimRange⟩, ceiling, ⟨bytes, range⟩, rfl⟩ := parsed
      refine ⟨rfl, ⟨trimRange.1, trimRange.2, range⟩, 0, 0, ?_⟩
      rw [ChangeRecord.body, ← trimBytes, ← bytes]
      rfl
    · cases parsed
  · rintro ⟨kind, range, h, l, rfl⟩
    cases r <;> cases kind
    next o z side row g trim ceiling =>
    obtain ⟨least, greatest, range⟩ := range
    unfold parseOutput
    simp [ChangeRecord.body, bytes16, Side.ofByte_eq_some_iff.mpr rfl, Row.ofByte_eq_some_iff.mpr rfl, groupOfByte_eq_some_iff.mpr rfl,
      (below_eq_some_iff (show 24 ≤ 256 by decide)).mpr rfl, (below_eq_some_iff (show 4 ≤ 256 by decide)).mpr rfl,
      (within_s16_iff (show -32768 ≤ -96 by decide) (show 24 ≤ 32767 by decide)).mpr ⟨rfl, least, greatest⟩,
      (within_s16_iff (show -32768 ≤ -240 by decide) (show 48 ≤ 32767 by decide)).mpr ⟨rfl, range⟩]

theorem parseGroup_eq_some_iff {body : List Byte} {r : ChangeRecord} : parseGroup body = some r ↔ r.kindByte = 8 ∧ r.Spelt body := by
  constructor
  · intro parsed
    unfold parseGroup at parsed
    split at parsed
    · simp only [Option.bind_eq_bind, Option.bind_eq_some_iff, below_eq_some_iff (show 4 ≤ 256 by decide)] at parsed
      obtain ⟨g, rfl, parsed⟩ := parsed
      split at parsed
      next w light =>
        cases parsed
        refine ⟨rfl, light, 0, 0, ?_⟩
        rw [ChangeRecord.body, byteOf_toNat_self]
      next => cases parsed
    · cases parsed
  · rintro ⟨kind, range, h, l, rfl⟩
    cases r <;> cases kind
    next g w =>
    have small : (byteOf w).toNat = w := toNat_byteOf (lt_of_le_of_lt range (by decide))
    unfold parseGroup
    simp only [ChangeRecord.body, Option.bind_eq_bind, (below_eq_some_iff (show 4 ≤ 256 by decide)).mpr rfl, Option.bind_some, small]
    exact if_pos range

/-- 11.4: the three bytes of a mask. -/
theorem eq_bytes24_iff {m2 m1 m0 : Byte} {mask : BitVec 24} :
    [m2, m1, m0] = bytes24 mask.toNat ↔ BitVec.ofNat 24 (u16 m2 m1 * 256 + m0.toNat) = mask := by
  have := mask.isLt
  have := m2.isLt
  have := m1.isLt
  have := m0.isLt
  rw [← BitVec.toNat_inj, BitVec.toNat_ofNat]
  unfold bytes24 u16
  simp only [List.cons.injEq, eq_byteOf_iff, and_true]
  omega

theorem parseFlags_eq_some_iff {body : List Byte} {r : ChangeRecord} : parseFlags body = some r ↔ r.kindByte = 4 ∧ r.Spelt body := by
  constructor
  · intro parsed
    unfold parseFlags at parsed
    split at parsed
    next op flag m2 m1 m0 =>
      have mask := eq_bytes24_iff (m2 := m2) (m1 := m1) (m0 := m0).mpr rfl
      have code : ∀ {b : Byte} {n : Nat}, b.toNat = n → b = BitVec.ofNat 8 n := fun e => by simp [← e]
      split at parsed
      case h_3 => split at parsed <;> cases parsed
      all_goals
        rename_i flagCode
        split at parsed
        case h_4 => cases parsed
        all_goals
          rename_i opCode
          cases parsed
          refine ⟨rfl, trivial, 0, 0, ?_⟩
          rw [ChangeRecord.body, ← mask, code opCode, code flagCode]
          rfl
    next => cases parsed
  · rintro ⟨kind, range, h, l, rfl⟩
    cases r <;> cases kind
    next op f mask =>
    have read := eq_bytes24_iff (mask := mask).mp rfl
    cases op <;> cases f <;> simp [ChangeRecord.body, bytes24, parseFlags, read]

/-! ## The checks of a record (R57) -/

theorem ofFields_eq_good_iff {x : Option ChangeRecord} {r : ChangeRecord} : RecordCheck.ofFields x = .good r ↔ x = some r := by
  cases x <;> simp [RecordCheck.ofFields]

theorem ofFields_ne_badLength (x : Option ChangeRecord) : RecordCheck.ofFields x ≠ .badLength := by
  cases x <;> simp [RecordCheck.ofFields]

/-- Two bytes for each value. -/
theorem flatten_bytes16_length (vs : List Int) : ((vs.map bytes16).flatten).length = 2 * vs.length := by
  induction vs with
  | nil => rfl
  | cons v vs ih => rw [List.map_cons, List.flatten_cons, List.length_append, ih, List.length_cons, Nat.mul_succ, Nat.add_comm]; rfl

/-- R57: the body of a record in range has the length its kind and its declared count require. -/
theorem ChangeRecord.body_length {r : ChangeRecord} (range : r.inRange) (h l : Byte) :
    (r.body h l).length = recordLength r.kindByte (r.body h l) := by
  have ramp : ∀ ms, (rampOnWire ms h l).length = 3 := fun ms => by cases ms <;> rfl
  cases r with
  | zone z c ms => rw [body_zone]; cases c <;> simp [ZoneChange.onWire, bytes16, ramp, recordLength, kindByte]
  | cell o s g ms => cases g <;> simp [body, gainBytes, bytes16, ramp, recordLength, kindByte]
  | output o z side row g trim ceiling => rfl
  | flags op f mask => rfl
  | chain o list =>
    have short : list.length < 256 := lt_of_le_of_lt range (by decide)
    simp [body, recordLength, kindByte, toNat_byteOf short]
    omega
  | curve c first vs =>
    obtain ⟨-, short, -⟩ := range
    have count : (byteOf vs.length).toNat = vs.length := toNat_byteOf (by omega)
    simp only [body, recordLength, kindByte, List.length_cons, flatten_bytes16_length]
    simp [count]
    omega
  | boostCurve ps =>
    obtain ⟨-, short, -⟩ := range
    have count : (byteOf ps.length).toNat = ps.length := toNat_byteOf (by omega)
    have list := pointsOnWire_length ps
    unfold pointsOnWire at list
    simp only [body, recordLength, kindByte, List.length_cons, list]
    simp [count, Nat.add_comm]
  | group g w => rfl

theorem ChangeRecord.Spelt.length {r : ChangeRecord} {body : List Byte} (spelt : r.Spelt body) :
    body.length = recordLength r.kindByte body := by
  obtain ⟨range, h, l, rfl⟩ := spelt
  exact body_length range h l

theorem checkFixed_eq_good_iff {n : Nat} {parse : List Byte → Option ChangeRecord} {body : List Byte} {r : ChangeRecord} :
    checkFixed n parse body = .good r ↔ body.length = n ∧ parse body = some r := by
  unfold checkFixed
  split
  next length => rw [ofFields_eq_good_iff, and_iff_right length]
  next length => exact ⟨(nomatch ·), fun ⟨k, _⟩ => absurd k length⟩

section
variable {list : List Byte} {r : ChangeRecord}

/-- R55: the body of a CHAIN record. -/
theorem parseChain_eq_some_iff {o n : Byte} (count : list.length = n.toNat) :
    parseChain o list = some r ↔ r.kindByte = 5 ∧ r.Spelt (o :: n :: list) := by
  constructor
  · intro parsed
    unfold parseChain at parsed
    simp only [Option.bind_eq_bind, Option.bind_eq_some_iff, below_eq_some_iff (show 24 ≤ 256 by decide)] at parsed
    obtain ⟨o, rfl, parsed⟩ := parsed
    split at parsed
    next short =>
      cases parsed
      refine ⟨rfl, by simpa [ChangeRecord.inRange] using short, 0, 0, ?_⟩
      rw [ChangeRecord.body, ← map_byteFin_eq_iff.mp rfl, List.length_map, count, byteOf_toNat_self]
    next => cases parsed
  · rintro ⟨kind, range, h, l, wire⟩
    cases r <;> cases kind
    next p is =>
    obtain ⟨rfl, -, rfl⟩ : o = byteOf p.val ∧ n = byteOf is.length ∧ list = is.map fun n => byteOf n.val := by
      simpa [ChangeRecord.body] using wire
    have short : (is.map fun n => byteOf n.val).length ≤ 10 := by simpa [ChangeRecord.inRange] using range
    unfold parseChain
    rw [(below_eq_some_iff (show 24 ≤ 256 by decide)).mpr rfl, map_byteFin_eq_iff.mpr rfl]
    exact if_pos short

/-- R55: the body of a CURVE record. -/
theorem parseCurve_eq_some_iff {c first n : Byte} (count : list.length = 2 * n.toNat) :
    parseCurve c first list = some r ↔ r.kindByte = 6 ∧ r.Spelt (c :: first :: n :: list) := by
  have values : ∀ vs, parseValues (-480) 0 list = some vs ↔ (∀ v ∈ vs, -480 ≤ v ∧ v ≤ 0) ∧ list = (vs.map bytes16).flatten :=
    fun vs => parseValues_eq_some_iff (by decide) (by decide) (count ▸ even_two_mul _)
  constructor
  · intro parsed
    unfold parseCurve at parsed
    simp only [Option.bind_eq_bind, Option.bind_eq_some_iff, below_eq_some_iff (show 31 ≤ 256 by decide),
      CurveId.ofByte_eq_some_iff, values] at parsed
    obtain ⟨c, rfl, first, rfl, vs, ⟨range, rfl⟩, parsed⟩ := parsed
    split at parsed
    next bounds =>
      cases parsed
      obtain ⟨least, greatest, run⟩ := bounds
      rw [flatten_bytes16_length] at count
      refine ⟨rfl, ⟨least, greatest, run, range⟩, 0, 0, ?_⟩
      rw [ChangeRecord.body, Nat.eq_of_mul_eq_mul_left (by decide) count, byteOf_toNat_self]
    next => cases parsed
  · rintro ⟨kind, range, h, l, wire⟩
    cases r <;> cases kind
    next d start vs =>
    obtain ⟨least, greatest, run, range⟩ := range
    obtain ⟨rfl, rfl, -, bytes⟩ : c = byteOf d.idx.val ∧ first = byteOf start.val ∧ n = byteOf vs.length ∧
        list = (vs.map bytes16).flatten := by simpa [ChangeRecord.body] using wire
    unfold parseCurve
    rw [CurveId.ofByte_eq_some_iff.mpr rfl, (below_eq_some_iff (show 31 ≤ 256 by decide)).mpr rfl, (values vs).mpr ⟨range, bytes⟩]
    exact if_pos ⟨least, greatest, run⟩

/-- R56: the body of a BOOST_CURVE record. -/
theorem boostCurve_spelt_iff {m : Byte} (count : list.length = 2 * m.toNat) :
    (curveValid (parsePoints list) = true ∧ .boostCurve (parsePoints list) = r) ↔ r.kindByte = 7 ∧ r.Spelt (m :: list) := by
  constructor
  · rintro ⟨valid, rfl⟩
    have wire := pointsOnWire_parsePoints (list := list) (count ▸ even_two_mul _)
    have length : (parsePoints list).length = m.toNat := by
      have := pointsOnWire_length (parsePoints list)
      rw [wire, count] at this
      omega
    refine ⟨rfl, curveValid_iff.mp valid, 0, 0, ?_⟩
    rw [ChangeRecord.body, length, byteOf_toNat_self]
    exact congrArg _ wire.symm
  · rintro ⟨kind, range, h, l, wire⟩
    cases r <;> cases kind
    next ps =>
    obtain ⟨-, bytes⟩ : m = byteOf ps.length ∧ list = pointsOnWire ps := by
      simpa [ChangeRecord.body, pointsOnWire] using wire
    have read : parsePoints list = ps := by
      obtain ⟨-, -, -, bounds⟩ := range
      rw [bytes]
      refine parsePoints_pointsOnWire fun p mem => ?_
      have := bounds p mem
      omega
    rw [read, curveValid_iff]
    exact ⟨range, rfl⟩

variable {body : List Byte}

theorem checkFixed_spelt {n : Nat} {parse : List Byte → Option ChangeRecord} {code : Byte}
    (parses : parse body = some r ↔ r.kindByte = code ∧ r.Spelt body) (required : recordLength code body = n) :
    checkFixed n parse body = .good r ↔ r.kindByte = code ∧ r.Spelt body := by
  rw [checkFixed_eq_good_iff, parses, and_iff_right_iff_imp]
  rintro ⟨rfl, spelt⟩
  exact spelt.length.trans required

/-- R57: a body of another length than its kind requires spells no record of the kind. -/
theorem not_spelt_of_length {code : Byte} (other : body.length ≠ recordLength code body) : ¬ (r.kindByte = code ∧ r.Spelt body) := by
  rintro ⟨rfl, spelt⟩
  exact other spelt.length

/-- R57: a record passes its checks exactly when the body spells it in range. -/
theorem checkRecord_eq_good_iff {kind : Byte} : checkRecord kind body = .good r ↔ r.kindByte = kind ∧ r.Spelt body := by
  have code : ∀ {n : Nat}, kind.toNat = n → kind = BitVec.ofNat 8 n := fun e => by simp [← e]
  unfold checkRecord
  split
  next k => exact code k ▸ checkFixed_spelt parseZone_eq_some_iff rfl
  next k => exact code k ▸ checkFixed_spelt parseCell_eq_some_iff rfl
  next k => exact code k ▸ checkFixed_spelt parseOutput_eq_some_iff rfl
  next k => exact code k ▸ checkFixed_spelt parseFlags_eq_some_iff rfl
  next k =>
    rw [code k]
    split
    next o n list =>
      split
      next count => exact ofFields_eq_good_iff.trans (parseChain_eq_some_iff count)
      next count => exact iff_of_false (nomatch ·) (not_spelt_of_length (by simp [recordLength]; omega))
    next short =>
      refine iff_of_false (nomatch ·) (not_spelt_of_length ?_)
      match body, short with
      | [], _ => simp [recordLength]
      | [_], _ => simp [recordLength]
      | o :: n :: list, short => exact absurd rfl (short o n list)
  next k =>
    rw [code k]
    split
    next c first n list =>
      split
      next count => exact ofFields_eq_good_iff.trans (parseCurve_eq_some_iff count)
      next count => exact iff_of_false (nomatch ·) (not_spelt_of_length (by simp [recordLength]; omega))
    next short =>
      refine iff_of_false (nomatch ·) (not_spelt_of_length ?_)
      match body, short with
      | [], _ => simp [recordLength]
      | [_], _ => simp [recordLength]
      | [_, _], _ => simp [recordLength]
      | c :: first :: n :: list, short => exact absurd rfl (short c first n list)
  next k =>
    rw [code k]
    split
    next m list =>
      split
      next count =>
        refine Iff.trans ?_ (boostCurve_spelt_iff count)
        split
        next valid => simp [valid]
        next invalid => simp [invalid]
      next count => exact iff_of_false (nomatch ·) (not_spelt_of_length (by simp [recordLength]; omega))
    next short =>
      refine iff_of_false (nomatch ·) (not_spelt_of_length ?_)
      match body, short with
      | [], _ => simp [recordLength]
      | m :: list, short => exact absurd rfl (short m list)
  next k => exact code k ▸ checkFixed_spelt parseGroup_eq_some_iff rfl
  next k1 k2 k3 k4 k5 k6 k7 k8 =>
    refine iff_of_false (nomatch ·) ?_
    rintro ⟨rfl, -⟩
    cases r with
    | zone => exact k1 rfl
    | cell => exact k2 rfl
    | output => exact k3 rfl
    | flags => exact k4 rfl
    | chain => exact k5 rfl
    | curve => exact k6 rfl
    | boostCurve => exact k7 rfl
    | group => exact k8 rfl

theorem checkFixed_eq_badLength_iff {n : Nat} {parse : List Byte → Option ChangeRecord} :
    checkFixed n parse body = .badLength ↔ body.length ≠ n := by
  unfold checkFixed
  split
  next length => simp [length, ofFields_ne_badLength]
  next length => simp [length]

/-- R57: the length a kind requires. -/
theorem checkRecord_eq_badLength_iff {kind : Byte} (least : 1 ≤ kind.toNat) (greatest : kind.toNat ≤ 8) :
    checkRecord kind body = .badLength ↔ body.length ≠ recordLength kind body := by
  unfold checkRecord
  split
  next k => simpa only [recordLength, k] using checkFixed_eq_badLength_iff
  next k => simpa only [recordLength, k] using checkFixed_eq_badLength_iff
  next k => simpa only [recordLength, k] using checkFixed_eq_badLength_iff
  next k => simpa only [recordLength, k] using checkFixed_eq_badLength_iff
  next k =>
    simp only [recordLength, k]
    split
    next o n list =>
      split
      next count => simp [count, ofFields_ne_badLength]; omega
      next count => simp; omega
    next short =>
      match body, short with
      | [], _ => simp
      | [_], _ => simp
      | o :: n :: list, short => exact absurd rfl (short o n list)
  next k =>
    simp only [recordLength, k]
    split
    next c first n list =>
      split
      next count => simp [count, ofFields_ne_badLength]; omega
      next count => simp; omega
    next short =>
      match body, short with
      | [], _ => simp
      | [_], _ => simp
      | [_, _], _ => simp
      | c :: first :: n :: list, short => exact absurd rfl (short c first n list)
  next k =>
    simp only [recordLength, k]
    split
    next m list =>
      split
      next count =>
        split <;> simp [count, Nat.add_comm]
      next count => simp; omega
    next short =>
      match body, short with
      | [], _ => simp
      | m :: list, short => exact absurd rfl (short m list)
  next k => simpa only [recordLength, k] using checkFixed_eq_badLength_iff
  next k1 k2 k3 k4 k5 k6 k7 k8 =>
    simp only [imp_false] at k1 k2 k3 k4 k5 k6 k7 k8
    omega

/-- R57: a kind outside the eight. -/
theorem checkRecord_of_kind {kind : Byte} (out : kind.toNat < 1 ∨ 8 < kind.toNat) : checkRecord kind body = .badValue := by
  unfold checkRecord
  split <;> first | rfl | omega
end

/-- Settles O23: R53 to R58, by what each kind's checks make of a body. -/
theorem recordStaged : Obligations.RecordStaged := by
  refine ⟨fun c i control kind body s held takes data => ?_, fun kind body => ⟨checkRecord_of_kind, fun least greatest => ?_,
    fun least greatest length => ⟨fun r => ?_, fun spells => ?_⟩⟩, fieldsSpelt, gainSpelt_eq, rfl, rfl, rfl, rfl, by decide, rfl⟩
  · have taken := stageRecord_taken takes data
    refine ⟨fun bad => ?_, fun bad => ?_, fun r good opened => ?_⟩
    · rw [taken, bad]
      exact congrArg _ (answer_heldTake c i .badValue [] held)
    · rw [taken, bad]
      exact congrArg _ (answer_heldTake c i .badLength [] held)
    · have commit : (heldTake c i s).commit = s.commit := rfl
      rw [taken, good, opened]
      dsimp only
      rw [if_neg (by decide)]
      unfold stageOpen stagingLimit
      rw [commit]
      refine ⟨fun room => ?_, fun full => ?_⟩
      · rw [if_pos room]
        exact congrArg _ (answer_heldTake_of_ctl
          (t := { afterTake i s with commit := { s.commit with staging := s.commit.staging ++ [r] } }) c i .ok _ held)
      · rw [if_neg (not_lt.mpr full), answer_heldTake c i _ _ held]
  · exact (checkRecord_eq_badLength_iff least greatest).mpr
  · rw [checkRecord_eq_good_iff, ChangeRecord.Spelt, eq_comm, and_left_comm]
  · cases outcome : checkRecord kind body with
    | badValue => rfl
    | badLength => exact absurd length ((checkRecord_eq_badLength_iff least greatest).mp outcome)
    | good r =>
      obtain ⟨code, range, h, l, wire⟩ := checkRecord_eq_good_iff.mp outcome
      exact absurd wire (spells r h l range code.symm)

end Sys2Proof.Machine

namespace Sys2Proof.Machine
-- One proof at a time: side by side the proofs start more threads than the memory limit allows.
set_option Elab.async false

/-! ## The causes of a set's retargets and the least duration (R29, R30, R44) -/

theorem shortest_eq (default : Nat) (ds : List Nat) : shortest default ds = ds.min?.getD default := by
  cases ds <;> rfl

/-- The durations a set's records give, each record taken at its point in record order. -/
def durations (cause : Live → ChangeRecord → Option Nat) : Live → List ChangeRecord → List Nat
  | _, [] => []
  | l, r :: rs => (cause l r).toList ++ durations cause (l.write r) rs

theorem causes_eq (after : Live) (o : Output) : ∀ (l : Live) (rs : List ChangeRecord),
    causes after o l rs = durations (fun l r => causeMs l after o r) l rs
  | _, [] => rfl
  | l, r :: rs => by rw [causes, durations, causes_eq after o (l.write r) rs]

theorem cellCauses_eq (o : Output) (src : Source) : ∀ (l : Live) (rs : List ChangeRecord),
    cellCauses o src l rs = durations (fun l r => cellCauseMs l o src r) l rs
  | _, [] => rfl
  | l, r :: rs => by rw [cellCauses, durations, cellCauses_eq o src (l.write r) rs]

theorem mem_durations {cause : Live → ChangeRecord → Option Nat} {d : Nat} : ∀ {l : Live} {rs : List ChangeRecord},
    d ∈ durations cause l rs ↔ ∃ a r b, rs = a ++ r :: b ∧ cause (l.writeAll a) r = some d
  | l, [] => by simp [durations]
  | l, p :: rs => by
    rw [durations, List.mem_append, Option.mem_toList, mem_durations]
    constructor
    · rintro (here | ⟨a, r, b, rfl, later⟩)
      · exact ⟨[], p, rs, rfl, here⟩
      · exact ⟨p :: a, r, b, rfl, later⟩
    · rintro ⟨a, r, b, split, there⟩
      cases a with
      | nil => cases split; exact .inl there
      | cons q a => cases split; exact .inr ⟨a, r, b, rfl, there⟩

/-- R30: the duration taken is the least of the causes'. -/
theorem leastCause_shortest {cause : Live → ChangeRecord → Option Nat} {holds : Live → Nat → ChangeRecord → Prop}
    (spec : ∀ l r d, cause l r = some d ↔ holds l d r) (default : Nat) (l : Live) (rs : List ChangeRecord) :
    LeastCause holds default l rs (shortest default (durations cause l rs)) := by
  have mem : ∀ {d}, d ∈ durations cause l rs ↔ ∃ a r b, rs = a ++ r :: b ∧ holds (l.writeAll a) d r := by
    simp only [mem_durations, spec, implies_true]
  rw [shortest_eq]
  cases least : (durations cause l rs).min? with
  | none =>
    have empty : durations cause l rs = [] := List.min?_eq_none_iff.mp least
    have no : ∀ a r b d, rs = a ++ r :: b → ¬ holds (l.writeAll a) d r := fun a r b d split holds => by
      have := mem.mpr ⟨a, r, b, split, holds⟩
      rw [empty] at this
      exact absurd this List.not_mem_nil
    exact ⟨fun a r b d split holds => absurd holds (no a r b d split), .inr ⟨rfl, no⟩⟩
  | some ms =>
    obtain ⟨taken, lower⟩ := List.min?_eq_some_iff.mp least
    exact ⟨fun a r b d split holds => lower d (mem.mpr ⟨a, r, b, split, holds⟩), .inl (mem.mp taken)⟩

theorem ite_some_eq_some_iff {p : Prop} [Decidable p] {x d : Nat} : (if p then some x else none) = some d ↔ p ∧ d = x := by
  rw [Option.ite_none_right_eq_some, Option.some_inj, eq_comm (a := x)]

/-- R29, R30: the model's causes of a LEVEL key are the rule's. -/
theorem causeMs_eq_some_iff {l after : Live} {o : Output} {r : ChangeRecord} {d : Nat} :
    causeMs l after o r = some d ↔ LevelCause l after o d r := by
  cases r with
  | zone z c ms =>
    simp only [causeMs, LevelCause]
    rw [Live.write_zone_self, ite_some_eq_some_iff, and_assoc]
    cases c <;> rfl
  | output p z side row g trim ceiling =>
    simp only [causeMs, LevelCause]
    rw [ite_some_eq_some_iff, and_right_comm, and_assoc]
  | flags op f mask =>
    cases f with
    | mute =>
      have written : ((l.write (.flags op .mute mask)).outputs[o]).mute ≠ (l.outputs[o]).mute ↔
          mask.getLsbD o.val = true ∧ op.on (l.outputs[o]).mute ≠ (l.outputs[o]).mute := by
        rw [Live.write_flags_at]
        by_cases hit : mask.getLsbD o.val = true
        · rw [if_pos hit, and_iff_right hit]
          rfl
        · rw [if_neg hit]
          exact iff_of_false (fun h => h rfl) fun h => hit h.1
      simp only [causeMs, LevelCause]
      rw [written, ite_some_eq_some_iff, and_comm, true_and]
    | invert => simp [causeMs, LevelCause]
  | curve c first vs =>
    simp only [causeMs, LevelCause]
    by_cases lateral : (l.write (.curve c first vs)).curves[after.lateralEntry o] ≠ l.curves[after.lateralEntry o]
    · rw [if_pos lateral, Option.some_inj]
      exact ⟨fun e => ⟨e.symm, .inl lateral⟩, fun ⟨e, _⟩ => e.symm⟩
    · rw [if_neg lateral, or_iff_right lateral]
      cases after.longEntry o with
      | none => simp
      | some i =>
        dsimp only
        rw [ite_some_eq_some_iff, and_comm]
        simp
  | cell o src g ms => simp [causeMs, LevelCause]
  | chain o list => simp [causeMs, LevelCause]
  | boostCurve ps => simp [causeMs, LevelCause]
  | group g w => simp [causeMs, LevelCause]

/-- R44: the model's causes of a CELL key are the rule's. -/
theorem cellCauseMs_eq_some_iff {l : Live} {o : Output} {src : Source} {r : ChangeRecord} {d : Nat} :
    cellCauseMs l o src r = some d ↔ CellCause l o src d r := by
  cases r with
  | cell p q g ms =>
    simp only [cellCauseMs, CellCause]
    rw [ite_some_eq_some_iff, and_assoc, and_assoc]
  | _ => simp [cellCauseMs, CellCause]

/-- R29, R30: the duration of a LEVEL key's move. -/
theorem levelDuration (s : State) (rs : List ChangeRecord) (o : Output) :
    LeastCause (fun l => LevelCause l (s.core.live.writeAll rs) o) 200 s.core.live rs
      (shortest 200 (causes (s.core.live.writeAll rs) o s.core.live rs)) := by
  rw [causes_eq]
  exact leastCause_shortest (fun _ _ _ => causeMs_eq_some_iff) _ _ _

/-- R44: the duration of a CELL key's move. -/
theorem cellDuration (s : State) (rs : List ChangeRecord) (o : Output) (src : Source) :
    LeastCause (fun l => CellCause l o src) 50 s.core.live rs (shortest 50 (cellCauses o src s.core.live rs)) := by
  rw [cellCauses_eq]
  exact leastCause_shortest (fun _ _ _ => cellCauseMs_eq_some_iff) _ _ _

end Sys2Proof.Machine

namespace Sys2Proof.Machine
-- One proof at a time: side by side the proofs start more threads than the memory limit allows.
set_option Elab.async false

/-! ## Keys a retarget leaves alone (R38, R42) -/

/-- Between two ramp tables the entries of a key stand. -/
def RampUnit.KeyKept (k : Key) (u v : RampUnit) : Prop :=
  ∀ (i : Fin 64) (r : Ramp), r.key = k → (v.entries[i] = some r ↔ u.entries[i] = some r)

section
variable {u v w : RampUnit} {k : Key} {m : Mode} {old new : Gain} {ms : Nat}

theorem RampUnit.KeyKept.refl (k : Key) (u : RampUnit) : u.KeyKept k u := fun _ _ _ => Iff.rfl

theorem RampUnit.KeyKept.trans (h : RampUnit.KeyKept k u v) (g : RampUnit.KeyKept k v w) : RampUnit.KeyKept k u w :=
  fun i r key => (g i r key).trans (h i r key)

theorem RampUnit.Good.find_eq_some_iff (h : u.Good) {i : Fin 64} : u.find k = some i ↔ ∃ r, u.entries[i] = some r ∧ r.key = k := by
  refine ⟨RampUnit.find_holds, ?_⟩
  rintro ⟨r, entry, rfl⟩
  exact h.find_eq entry

theorem RampUnit.KeyKept.find (h : RampUnit.KeyKept k u v) (hu : u.Good) (hv : v.Good) : v.find k = u.find k := by
  refine Option.ext fun i => ?_
  rw [hv.find_eq_some_iff, hu.find_eq_some_iff]
  exact exists_congr fun r => and_congr_left fun key => h i r key

theorem RampUnit.Good.rampOf_eq_some_iff (h : u.Good) {r : Ramp} : u.rampOf k = some r ↔ r.key = k ∧ ∃ i : Fin 64, u.entries[i] = some r := by
  unfold rampOf
  rw [Option.bind_eq_some_iff]
  constructor
  · rintro ⟨i, found, entry⟩
    obtain ⟨r', entry', key⟩ := RampUnit.find_holds found
    rw [entry] at entry'
    cases entry'
    exact ⟨key, i, entry⟩
  · rintro ⟨key, i, entry⟩
    exact ⟨i, h.find_eq_some_iff.mpr ⟨r, entry, key⟩, entry⟩

theorem RampUnit.KeyKept.rampOf (h : RampUnit.KeyKept k u v) (hu : u.Good) (hv : v.Good) : v.rampOf k = u.rampOf k := by
  refine Option.ext fun r => ?_
  rw [hv.rampOf_eq_some_iff, hu.rampOf_eq_some_iff]
  exact and_congr_right fun key => exists_congr fun i => h i r key

theorem RampUnit.KeyKept.present (h : RampUnit.KeyKept k u v) (hu : u.Good) (hv : v.Good) (old : Gain) : v.present k old = u.present k old := by
  rw [RampUnit.present_eq, RampUnit.present_eq, h.rampOf hu hv]

/-- The entry a key's ramp takes holds no other key. -/
theorem RampUnit.Good.takes_entry (h : u.Good) {i : Fin 64} (takes : u.Takes k i) {r : Ramp} (entry : u.entries[i] = some r) : r.key = k := by
  rcases takes with found | ⟨-, given⟩
  · obtain ⟨r', entry', key⟩ := RampUnit.find_holds found
    rw [entry] at entry'
    cases entry'
    exact key
  · have pool := (h.pools i r entry).1
    have place := (u.entryFor_eq_some_iff k i).mp given
    cases k with
    | level o => simp [entry] at place
    | cell o src => simp [entry] at place
    | duck src => exact ((Dedicated.duck src).own i r.key pool).mp (Fin.ext place)
    | boost g => exact ((Dedicated.boost g).own i r.key pool).mp (Fin.ext place)

/-- R38: a retarget leaves the entries of the other keys alone. -/
theorem RampUnit.Good.retarget_kept (h : u.Good) {k' : Key} (other : k' ≠ k) : RampUnit.KeyKept k' u (u.retarget m k old new ms) := by
  have put : ∀ (i : Fin 64) (x : Option Ramp), (∀ r, x = some r → r.key = k) → (∀ r, u.entries[i] = some r → r.key = k) →
      RampUnit.KeyKept k' u (u.put i x) := fun i x new before j r key => by
    rw [RampUnit.put_at]
    split
    next here =>
      subst here
      exact iff_of_false (fun e => other (key.symm.trans (new r e))) fun e => other (key.symm.trans (before r e))
    next => rfl
  rcases u.retarget_cases m k old new ms with ⟨-, same⟩ | ⟨i, -, found, freed⟩ | ⟨i, -, -, takes, ramps⟩
  · rw [same]
    exact .refl k' u
  · rw [freed]
    exact put i none (fun _ e => nomatch e) fun r => h.takes_entry (.inl found)
  · rw [ramps]
    exact put i _ (fun r e => by cases e; rfl) fun r => h.takes_entry takes

/-- R34: a key with a dedicated entry that is left alone keeps it. -/
theorem RampUnit.KeyKept.dedicated {i : Fin 64} (h : RampUnit.KeyKept k u v) (hu : u.Good) (hv : v.Good) (d : Dedicated k i) :
    v.entries[i] = u.entries[i] := by
  rw [← hv.rampOf_dedicated d, ← hu.rampOf_dedicated d, h.rampOf hu hv]

/-! ## One retarget among others -/

/-- R38 to R40: a retarget, where its key gets an entry if it needs one. -/
theorem RampUnit.Good.retarget_retargeted (h : u.Good)
    (room : u.find k = none → new ≠ old → ¬ u.Jump m k old new ms → u.entryFor k ≠ none) :
    Retargeted m u (u.retarget m k old new ms) k old new ms := by
  unfold Retargeted retargetedEntry
  by_cases moved : new = old
  · rw [if_pos moved, RampUnit.retarget_equal moved]
    exact ⟨rfl, fun i found _ => found⟩
  rw [if_neg moved]
  by_cases jump : u.Jump m k old new ms
  · rw [if_pos (show m = .standby ∨ _ from jump), RampUnit.retarget_jump moved jump]
    cases found : u.find k with
    | none =>
      rw [RampUnit.freeKey_absent found, RampUnit.rampOf, found]
      exact ⟨rfl, fun i e => nomatch e⟩
    | some i =>
      rw [RampUnit.freeKey_found found, RampUnit.rampOf, h.find_freed found]
      exact ⟨rfl, fun _ _ held => absurd rfl held⟩
  · rw [if_neg (show ¬ (m = .standby ∨ _) from jump)]
    obtain ⟨i, takes⟩ : ∃ i, u.Takes k i := by
      cases found : u.find k with
      | some i => exact ⟨i, .inl found⟩
      | none =>
        obtain ⟨i, given⟩ := Option.ne_none_iff_exists'.mp (room found moved jump)
        exact ⟨i, .inr ⟨found, given⟩⟩
    have good := h.retarget m k old new ms
    rw [RampUnit.retarget_ramp moved jump takes] at good ⊢
    have found : (u.put i (some (u.newRamp k old new ms))).find k = some i :=
      good.find_eq_some_iff.mpr ⟨_, RampUnit.put_self _ _ _, rfl⟩
    refine ⟨by rw [RampUnit.rampOf, found]; exact RampUnit.put_self _ _ _, fun j before _ => ?_⟩
    rcases takes with here | ⟨absent, -⟩
    · rw [found, ← here, before]
    · rw [absent] at before
      cases before

/-- Steps before and after that leave the key alone. -/
theorem Retargeted.within {u₀ v₁ : RampUnit} (h : Retargeted m u v k old new ms) (before : RampUnit.KeyKept k u₀ u)
    (after : RampUnit.KeyKept k v v₁) (hu₀ : u₀.Good) (hu : u.Good) (hv : v.Good) (hv₁ : v₁.Good) : Retargeted m u₀ v₁ k old new ms := by
  obtain ⟨ramp, entry⟩ := h
  unfold Retargeted
  rw [after.rampOf hv hv₁, after.find hv hv₁, ← before.find hu₀ hu, ramp, before.rampOf hu₀ hu,
    retargetedEntry_congr (before.present hu₀ hu old)]
  exact ⟨rfl, entry⟩

/-- A key whose target stays and that is left alone. -/
theorem RampUnit.KeyKept.retargeted (h : RampUnit.KeyKept k u v) (hu : u.Good) (hv : v.Good) (g : Gain) (ms : Nat) :
    Retargeted m u v k g g ms := by
  unfold Retargeted
  rw [retargetedEntry_equal, h.rampOf hu hv, h.find hu hv]
  exact ⟨rfl, fun i found _ => found⟩
end

/-! ## Free general entries (R38, R42) -/

/-- A key of the general pool. -/
def Key.General : Key → Prop
  | .level _ => True
  | .cell _ _ => True
  | .duck _ => False
  | .boost _ => False

/-- R42: a general key's ramp takes the lowest-numbered free general entry. -/
theorem Key.General.entryFor {u : RampUnit} : ∀ {k : Key}, k.General → u.entryFor k = u.lowestFree
  | .level _, _ => rfl
  | .cell _ _, _ => rfl

/-- R34: the general pool is the entries 0 to 47. -/
theorem Key.General.poolHolds_lt {i : Fin 64} : ∀ {k : Key}, k.General → poolHolds i k → i.val < 48
  | .level _, _, pool => pool
  | .cell _ _, _, pool => pool

/-- R42: a move of the second pass whose key has no entry: it takes one. -/
def RampUnit.needs (u : RampUnit) (m : Mode) (v : Move) : Bool := (u.find v.key).isNone && !u.firstPass m v

section
variable {u : RampUnit} {k : Key} {m : Mode}

theorem RampUnit.lowestFree_ne_none (free : 0 < u.freeGeneral) : u.lowestFree ≠ none := by
  unfold freeGeneral at free
  obtain ⟨i, mem, here⟩ := List.countP_pos_iff.mp free
  intro none
  exact List.find?_eq_none.mp none i mem here

theorem RampUnit.firstPass_iff (v : Move) : u.firstPass m v = true ↔ v.new = v.old ∨ u.Jump m v.key v.old v.new v.ms := by
  unfold firstPass
  rw [Bool.or_eq_true, decide_eq_true_iff, RampUnit.jumps_iff]

theorem countP_le_add {α : Type} {p q r : α → Bool} (either : ∀ a, p a = true → q a = true ∨ r a = true) (l : List α) :
    l.countP p ≤ l.countP q + l.countP r := by
  induction l with
  | nil => simp
  | cons a l ih =>
    have here := either a
    simp only [List.countP_cons]
    by_cases taken : p a = true
    · rcases here taken with hq | hr
      · rw [if_pos taken, if_pos hq]
        omega
      · rw [if_pos taken, if_pos hr]
        omega
    · rw [if_neg taken]
      omega

/-- R42: an entry put takes at most one free general entry, and none where it was active. -/
theorem RampUnit.put_freeGeneral (u : RampUnit) (i : Fin 64) (x : Option Ramp) :
    u.freeGeneral ≤ (u.put i x).freeGeneral + 1 ∧ (u.entries[i] ≠ none → u.freeGeneral ≤ (u.put i x).freeGeneral) := by
  have other : ∀ j : Fin 64, j ≠ i → (u.put i x).entries[j] = u.entries[j] := fun j => RampUnit.put_other u x
  have once : (List.finRange 64).countP (· == i) = 1 := List.count_eq_one_of_mem (List.nodup_finRange 64) (List.mem_finRange i)
  unfold freeGeneral
  refine ⟨?_, fun active => List.countP_mono_left fun j _ free => ?_⟩
  · rw [← once]
    refine countP_le_add (fun j free => ?_) _
    by_cases here : j = i
    · exact .inr (by simpa using here)
    · rw [other j here]
      exact .inl free
  · have away : j ≠ i := by
      rintro rfl
      rw [Bool.and_eq_true, Option.isNone_iff_eq_none] at free
      exact active free.2
    rw [other j away]
    exact free

/-- R42: a move takes at most one free general entry, and that only where it needs one. -/
theorem RampUnit.retarget_freeGeneral (u : RampUnit) (v : Move) :
    u.freeGeneral ≤ (u.retarget m v.key v.old v.new v.ms).freeGeneral + if u.needs m v then 1 else 0 := by
  have held : ∀ i : Fin 64, u.find v.key = some i → u.entries[i] ≠ none := fun i found => by
    obtain ⟨r, entry, -⟩ := RampUnit.find_holds found
    simp [entry]
  by_cases moved : v.new = v.old
  · rw [RampUnit.retarget_equal moved]
    exact Nat.le_add_right _ _
  by_cases jump : u.Jump m v.key v.old v.new v.ms
  · rw [RampUnit.retarget_jump moved jump]
    cases found : u.find v.key with
    | none => rw [RampUnit.freeKey_absent found]; exact Nat.le_add_right _ _
    | some i => rw [RampUnit.freeKey_found found]; exact ((u.put_freeGeneral i none).2 (held i found)).trans (Nat.le_add_right _ _)
  · have second : u.firstPass m v = false := by
      rw [Bool.eq_false_iff, ne_eq, RampUnit.firstPass_iff]
      exact not_or.mpr ⟨moved, jump⟩
    rcases u.retarget_cases m v.key v.old v.new v.ms with ⟨-, same⟩ | ⟨i, -, found, freed⟩ | ⟨i, -, -, takes, ramps⟩
    · rw [same]; exact Nat.le_add_right _ _
    · rw [freed]; exact ((u.put_freeGeneral i _).2 (held i found)).trans (Nat.le_add_right _ _)
    · rw [ramps]
      rcases takes with found | ⟨absent, -⟩
      · exact ((u.put_freeGeneral i _).2 (held i found)).trans (Nat.le_add_right _ _)
      · have need : u.needs m v = true := by simp [needs, absent, second]
        rw [if_pos need]
        exact (u.put_freeGeneral i _).1

theorem RampUnit.KeyKept.needs {v : RampUnit} {w : Move} (h : RampUnit.KeyKept w.key u v) (hu : u.Good) (hv : v.Good) :
    v.needs m w = u.needs m w := by
  unfold RampUnit.needs RampUnit.firstPass RampUnit.jumps
  rw [h.find hu hv, h.present hu hv]

end

/-! ## The two passes of an application (R42, R70) -/

section
variable {m : Mode}

/-- Moves leave the keys alone that they do not name. -/
theorem RampUnit.Good.takeMoves_kept {k : Key} : ∀ {vs : List Move} {u : RampUnit}, u.Good → (∀ v ∈ vs, v.key ≠ k) →
    RampUnit.KeyKept k u (u.takeMoves m vs)
  | [], u, _, _ => .refl k u
  | v :: _, _, h, others =>
    (h.retarget_kept (others v List.mem_cons_self).symm).trans
      (RampUnit.Good.takeMoves_kept (h.retarget m v.key v.old v.new v.ms) fun w mem => others w (List.mem_cons_of_mem v mem))

/-- R38, R42: moves of different general keys, with free entries for all that need one, each retarget their key. -/
theorem RampUnit.Good.takeMoves_retargeted : ∀ {vs : List Move} {u : RampUnit}, u.Good → (vs.map Move.key).Nodup →
    (∀ v ∈ vs, v.key.General) → vs.countP (u.needs m) ≤ u.freeGeneral →
    ∀ v ∈ vs, Retargeted m u (u.takeMoves m vs) v.key v.old v.new v.ms
  | [], _, _, _, _, _, _, mem => absurd mem List.not_mem_nil
  | v :: vs, u, h, once, general, room, w, mem => by
    have good := h.retarget m v.key v.old v.new v.ms
    rw [List.map_cons, List.nodup_cons] at once
    obtain ⟨alone, once⟩ := once
    have apart : ∀ w ∈ vs, w.key ≠ v.key := fun w mem same => alone (same ▸ List.mem_map_of_mem mem)
    have kept : ∀ w ∈ vs, RampUnit.KeyKept w.key u (u.retarget m v.key v.old v.new v.ms) := fun w mem => h.retarget_kept (apart w mem)
    rcases List.mem_cons.mp mem with rfl | mem
    · have own : Retargeted m u (u.retarget m w.key w.old w.new w.ms) w.key w.old w.new w.ms := by
        refine h.retarget_retargeted fun absent moved far => ?_
        have need : u.needs m w = true := by
          have second : u.firstPass m w = false := by
            rw [Bool.eq_false_iff, ne_eq, RampUnit.firstPass_iff]
            exact not_or.mpr ⟨moved, far⟩
          simp [RampUnit.needs, absent, second]
        have free : 0 < u.freeGeneral := by
          rw [List.countP_cons_of_pos need] at room
          omega
        rw [(general w List.mem_cons_self).entryFor]
        exact RampUnit.lowestFree_ne_none free
      exact own.within (.refl _ _) (good.takeMoves_kept apart) h h good (good.takeMoves m vs)
    · have rest : vs.countP ((u.retarget m v.key v.old v.new v.ms).needs m) = vs.countP (u.needs m) :=
        List.countP_congr fun w mem => by rw [(kept w mem).needs h good]
      have left := u.retarget_freeGeneral (m := m) v
      rw [List.countP_cons] at room
      have later := good.takeMoves_retargeted once (fun w mem => general w (List.mem_cons_of_mem v mem)) (by omega) w mem
      exact later.within (kept w mem) (.refl _ _) h good (good.takeMoves m vs) (good.takeMoves m vs)

/-- R42: the two passes retarget each key moved, where the table has an entry for each that needs one. -/
theorem RampUnit.Good.applyMoves_retargeted {u : RampUnit} (h : u.Good) {vs : List Move} (once : (vs.map Move.key).Nodup)
    (general : ∀ v ∈ vs, v.key.General) (room : (vs.countP fun v => (u.find v.key).isNone) ≤ u.freeGeneral) :
    ∀ v ∈ vs, Retargeted m u (u.applyMoves m vs) v.key v.old v.new v.ms := by
  have passes := List.filter_append_perm (u.firstPass m) vs
  rw [RampUnit.applyMoves_eq]
  refine fun v mem => h.takeMoves_retargeted ((passes.map _).nodup_iff.mpr once) (fun w mem => general w (passes.mem_iff.mp mem)) ?_ v
    (passes.mem_iff.mpr mem)
  rw [passes.countP_eq]
  exact (List.countP_mono_left fun w _ need => (Bool.and_eq_true _ _ ▸ need).1).trans room

theorem RampUnit.Good.applyMoves {u : RampUnit} (h : u.Good) (vs : List Move) : (u.applyMoves m vs).Good := by
  rw [RampUnit.applyMoves_eq]
  exact RampUnit.Good.takeMoves m _ h

theorem RampUnit.Good.applyMoves_kept {u : RampUnit} (h : u.Good) {vs : List Move} {k : Key} (others : ∀ v ∈ vs, v.key ≠ k) :
    RampUnit.KeyKept k u (u.applyMoves m vs) := by
  rw [RampUnit.applyMoves_eq]
  exact h.takeMoves_kept fun v mem => others v ((mem_passes _ _ v).mp mem)
end

end Sys2Proof.Machine

namespace Sys2Proof.Machine
-- One proof at a time: side by side the proofs start more threads than the memory limit allows.
set_option Elab.async false

/-! ## The general keys of an applied set (R42, R70) -/

theorem moveKeys_nodup {α : Type} {f : α → Move} {q : α → Prop} [DecidablePred q] {l : List α}
    (apart : ∀ a b, (f a).key = (f b).key → a = b) (once : l.Nodup) :
    ((l.filterMap fun a => if q a then none else some (f a)).map Move.key).Nodup := by
  rw [List.map_filterMap]
  refine once.filterMap fun a b k ha hb => apart a b ?_
  have key : ∀ a, k ∈ (if q a then none else some (f a)).map Move.key → (f a).key = k := fun a h => by
    split at h
    · exact nomatch h
    · exact Option.some_inj.mp h
  rw [key a ha, key b hb]

theorem levelMoves_key {held : Vector Int 24} {l : Live} {rs : List ChangeRecord} {v : Move} (h : v ∈ levelMoves held l rs) :
    ∃ o : Output, v.key = .level o := by
  obtain ⟨o, -, rfl⟩ := mem_levelMoves.mp h
  exact ⟨o, rfl⟩

theorem cellMoves_key {l : Live} {rs : List ChangeRecord} {v : Move} (h : v ∈ cellMoves l rs) :
    ∃ (o : Output) (src : Source), v.key = .cell o src := by
  obtain ⟨i, -, rfl⟩ := mem_cellMoves.mp h
  exact ⟨_, _, rfl⟩

/-- R42: a set moves each key once. -/
theorem setMoves_nodup (s : State) (rs : List ChangeRecord) : ((setMoves s rs).map Move.key).Nodup := by
  unfold setMoves
  rw [List.map_append]
  refine (moveKeys_nodup (fun a b same => Key.level.inj same) (List.nodup_finRange 24)).append
    (moveKeys_nodup (fun a b same => ?_) (List.nodup_finRange 288)) fun k level cell => ?_
  · obtain ⟨output, source⟩ := Key.cell.inj same
    rw [← cellIndex_cellPair a, ← cellIndex_cellPair b, output, source]
  · obtain ⟨v, mem, rfl⟩ := List.mem_map.mp level
    obtain ⟨w, mem', same⟩ := List.mem_map.mp cell
    obtain ⟨o, key⟩ := levelMoves_key mem
    obtain ⟨p, src, key'⟩ := cellMoves_key mem'
    rw [key, key'] at same
    cases same

theorem setMoves_general {s : State} {rs : List ChangeRecord} {v : Move} (h : v ∈ setMoves s rs) : v.key.General := by
  rcases List.mem_append.mp h with level | cell
  · obtain ⟨o, key⟩ := levelMoves_key level
    rw [key]
    trivial
  · obtain ⟨o, src, key⟩ := cellMoves_key cell
    rw [key]
    trivial

/-- R65: a set whose examination finds every condition holding. -/
theorem examine_none {s : State} {q : QueuedSet} (ready : examine s q = .none) :
    s.core.mode ≠ .leaving ∧ (∀ o ∈ chainOutputs q.records, s.eq.slotOf o = none) ∧
    (s.core.mode = .run → s.ctl.enabled.eq = true → (chainOutputs q.records).length ≤ s.eq.freeSlots) ∧
    entriesNeeded s q.records ≤ s.ramp.freeGeneral := by
  rw [examine_eq] at ready
  split_ifs at ready with mode busy crossfade ramps
  refine ⟨mode, fun o mem => ?_, fun run on => ?_, Nat.le_of_not_lt ramps⟩
  · by_contra carried
    exact busy ⟨o, mem, Option.isSome_iff_ne_none.mpr carried⟩
  · by_contra few
    exact crossfade ⟨run, on, Nat.lt_of_not_le few⟩

section
variable {q : QueuedSet} {s : State} (good : s.ramp.Good) (ready : examine s q = .none)
include good

theorem rewritten_good : (rewritten q s).ramp.Good := by
  rw [rewritten_ramp]
  exact good.applyMoves _

theorem rewritten_keyKept {k : Key} (out : ∀ v ∈ setMoves s q.records, v.key ≠ k) : RampUnit.KeyKept k s.ramp (rewritten q s).ramp := by
  rw [rewritten_ramp]
  exact good.applyMoves_kept out

/-- R34, R70: a set's own moves leave the keys with dedicated entries alone. -/
theorem rewritten_dedicated {k : Key} {i : Fin 64} (d : Dedicated k i) (other : ¬ k.General) :
    (rewritten q s).ramp.entries[i] = s.ramp.entries[i] :=
  (rewritten_keyKept (k := k) good fun _ mem same => other (same ▸ setMoves_general mem)).dedicated good (rewritten_good good) d

include ready

/-- R70: each move of an applied set retargets its key. -/
theorem rewritten_retargeted {v : Move} (mem : v ∈ setMoves s q.records) :
    Retargeted s.core.mode s.ramp (rewritten q s).ramp v.key v.old v.new v.ms := by
  obtain ⟨-, -, -, room⟩ := examine_none ready
  rw [rewritten_ramp]
  exact good.applyMoves_retargeted (setMoves_nodup s q.records) (fun v => setMoves_general) room v mem

/-- R70: a general key that a set has a move for where its target changes. -/
theorem rewritten_key {k : Key} {old new : Gain} {ms : Nat} (move : new ≠ old → Move.mk k old new ms ∈ setMoves s q.records)
    (out : new = old → ∀ v ∈ setMoves s q.records, v.key ≠ k) : Retargeted s.core.mode s.ramp (rewritten q s).ramp k old new ms := by
  by_cases moved : new = old
  · rw [moved]
    exact (rewritten_keyKept good (out moved)).retargeted good (rewritten_good good) old ms
  · exact rewritten_retargeted good ready (move moved)

/-- R27, R29, R30, R70: an output's LEVEL key. -/
theorem rewritten_level (o : Output) : ∃ ms : Nat,
    LeastCause (fun l => LevelCause l (s.core.live.writeAll q.records) o) 200 s.core.live q.records ms ∧
    Retargeted s.core.mode s.ramp (rewritten q s).ramp (.level o) (.level s.core.levelTargets[o])
      (.level ((s.core.live.writeAll q.records).levelTarget o)) ms ∧
    ((s.core.live.writeAll q.records).levelTarget o ≠ s.core.levelTargets[o] → Move.mk (.level o) (.level s.core.levelTargets[o])
      (.level ((s.core.live.writeAll q.records).levelTarget o)) ms ∈ setMoves s q.records) := by
  have move : (s.core.live.writeAll q.records).levelTarget o ≠ s.core.levelTargets[o] → Move.mk (.level o) (.level s.core.levelTargets[o])
      (.level ((s.core.live.writeAll q.records).levelTarget o)) (shortest 200 (causes (s.core.live.writeAll q.records) o s.core.live q.records)) ∈
      setMoves s q.records := fun moved => List.mem_append_left _ (mem_levelMoves.mpr ⟨o, moved, rfl⟩)
  refine ⟨_, levelDuration s q.records o, rewritten_key good ready (fun moved => move fun same => moved (congrArg Gain.level same))
    fun same v mem key => ?_, move⟩
  obtain ⟨moved, -⟩ := setMoves_moved mem
  rcases List.mem_append.mp mem with level | cell
  · obtain ⟨p, -, rfl⟩ := mem_levelMoves.mp level
    cases key
    exact moved same
  · obtain ⟨p, src, other⟩ := cellMoves_key cell
    rw [key] at other
    cases other

/-- R44, R70: a pair's CELL key. -/
theorem rewritten_cell (o : Output) (src : Source) : ∃ ms : Nat,
    LeastCause (fun l => CellCause l o src) 50 s.core.live q.records ms ∧
    Retargeted s.core.mode s.ramp (rewritten q s).ramp (.cell o src) s.core.live.cells[cellIndex o src]
      (s.core.live.writeAll q.records).cells[cellIndex o src] ms ∧
    ((s.core.live.writeAll q.records).cells[cellIndex o src] ≠ s.core.live.cells[cellIndex o src] → Move.mk (.cell o src)
      s.core.live.cells[cellIndex o src] (s.core.live.writeAll q.records).cells[cellIndex o src] ms ∈ setMoves s q.records) := by
  have move : (s.core.live.writeAll q.records).cells[cellIndex o src] ≠ s.core.live.cells[cellIndex o src] → Move.mk (.cell o src)
      s.core.live.cells[cellIndex o src] (s.core.live.writeAll q.records).cells[cellIndex o src]
      (shortest 50 (cellCauses o src s.core.live q.records)) ∈ setMoves s q.records := fun moved =>
    List.mem_append_right _ (mem_cellMoves.mpr ⟨cellIndex o src, moved, by rw [cellPair_cellIndex]⟩)
  refine ⟨_, cellDuration s q.records o src, rewritten_key good ready move fun same v mem key => ?_, move⟩
  obtain ⟨moved, -⟩ := setMoves_moved mem
  rcases List.mem_append.mp mem with level | cell
  · obtain ⟨p, other⟩ := levelMoves_key level
    rw [key] at other
    cases other
  · obtain ⟨i, -, rfl⟩ := mem_cellMoves.mp cell
    have here : i = cellIndex o src := by
      rw [← (Key.cell.inj key).1, ← (Key.cell.inj key).2, cellIndex_cellPair]
    subst here
    exact moved same

end

end Sys2Proof.Machine

namespace Sys2Proof.Machine
-- One proof at a time: side by side the proofs start more threads than the memory limit allows.
set_option Elab.async false

/-! ## What a set makes of the SDV unit (R72, R106, R109 to R111) -/

/-- The SDV unit's state taken, raising SDV_STATE when it changes, with a manual speed and an adopted boost; no group follows yet. -/
def sdvSet (st : SdvState) (m : Option Nat) (b : Int) (s : State) : State :=
  { setSdvState st s with sdv := { s.sdv with state := st, manual := m, boost := b } }

/-- Groups follow the boost one after the other. -/
def followGroups (gs : List Group) (s : State) : State := gs.foldl (fun s g => followGroup g s) s

section
variable (st : SdvState) (m : Option Nat) (b : Int) (s : State)

theorem setSdvState_same_state : setSdvState s.sdv.state s = s := if_pos rfl

theorem sdvSet_unchanged : sdvSet s.sdv.state s.sdv.manual s.sdv.boost s = s := by
  unfold sdvSet
  rw [setSdvState_same_state]

theorem sdvSet_same : SameBut [.ctl, .sdv] s (sdvSet st m b s) :=
  (setSdvState_same st s).trans (SameBut.ofParts fun p => by cases p <;> first | exact Or.inr rfl | exact Or.inl (by decide))

theorem stateThenManual_eq : adoptBoost b { setSdvState st s with sdv := { (setSdvState st s).sdv with manual := m } } =
    followGroups (List.finRange 4) (sdvSet st m b s) := by
  unfold adoptBoost sdvSet
  rw [setSdvState_sdv]
  rfl

theorem adoptAfterState_eq : adoptBoost b (setSdvState st s) = followGroups (List.finRange 4) (sdvSet st s.sdv.manual b s) := by
  unfold adoptBoost sdvSet
  rw [setSdvState_sdv]
  rfl

theorem adoptBoost_eq : adoptBoost b s = followGroups (List.finRange 4) (sdvSet s.sdv.state s.sdv.manual b s) := by
  rw [← adoptAfterState_eq, setSdvState_same_state]

end

/-- R106: the state by age is taken with the boost it requires. -/
theorem takeStateByAge_eq (s : State) : ∃ st b, takeStateByAge s = followGroups (List.finRange 4) (sdvSet st s.sdv.manual b s) ∧
    TookStateByAge s.sdv s.core.live.boostCurve { s.sdv with state := st, boost := b } := by
  have last : ∀ x, s.sdv.lastSpeed = some x → lastBoost s = boostAt s.core.live.boostCurve x := fun x speed => by
    rw [lastBoost, speed]
    rfl
  unfold takeStateByAge
  split
  next h => exact ⟨_, _, adoptAfterState_eq .fallback 0 s, h.symm, fun _ => rfl, fun _ far => absurd rfl far⟩
  next h => exact ⟨_, _, adoptAfterState_eq .tracking _ s, h.symm, (nomatch ·), fun x _ => last x⟩
  next h => exact ⟨_, _, adoptAfterState_eq .holding _ s, h.symm, (nomatch ·), fun x _ => last x⟩
  next h => have := stateByAge_cases s.sdv; simp [h] at this
  next h => have := stateByAge_cases s.sdv; simp [h] at this

/-- R110: a new curve leaves the unit as it is, or all groups follow a boost adopted. -/
theorem curveChange_eq (s : State) :
    (curveChange s = s ∧ CurveTaken s.ctl.enabled.sdv s.sdv s.core.live.boostCurve s.sdv) ∨
    ∃ st m b, curveChange s = followGroups (List.finRange 4) (sdvSet st m b s) ∧
      CurveTaken s.ctl.enabled.sdv s.sdv s.core.live.boostCurve { s.sdv with state := st, manual := m, boost := b } := by
  unfold curveChange CurveTaken
  by_cases empty : s.core.live.boostCurve = []
  · simp only [if_pos empty]
    by_cases off : s.sdv.state = .off
    · simp only [if_pos off]
      exact .inl ⟨trivial, off, trivial, trivial⟩
    · simp only [if_neg off]
      exact .inr ⟨_, _, _, stateThenManual_eq .off none 0 s, rfl, rfl, rfl⟩
  · simp only [if_neg empty]
    have last : ∀ x, s.sdv.lastSpeed = some x → lastBoost s = boostAt s.core.live.boostCurve x := fun x speed => by
      rw [lastBoost, speed]
      rfl
    cases state : s.sdv.state with
    | off =>
      by_cases on : s.ctl.enabled.sdv = true
      · simp only [if_pos on]
        obtain ⟨st, b, eq, took⟩ := takeStateByAge_eq s
        exact .inr ⟨st, _, b, eq, rfl, took⟩
      · simp only [if_neg on]
        exact .inl ⟨trivial, trivial, trivial, trivial⟩
    | fallback => exact .inl ⟨rfl, trivial, rfl, trivial⟩
    | manual => exact .inr ⟨_, _, _, adoptBoost_eq _ s, rfl, state, fun x speed => by rw [speed]; rfl⟩
    | tracking => exact .inr ⟨_, _, _, adoptBoost_eq _ s, rfl, state, last⟩
    | holding => exact .inr ⟨_, _, _, adoptBoost_eq _ s, rfl, state, last⟩

theorem followGroups_core : ∀ (gs : List Group) (s : State), (followGroups gs s).core = s.core
  | [], _ => rfl
  | g :: gs, s => followGroups_core gs (followGroup g s)

theorem followGroups_ctl : ∀ (gs : List Group) (s : State), (followGroups gs s).ctl = s.ctl
  | [], _ => rfl
  | g :: gs, s => followGroups_ctl gs (followGroup g s)

theorem followGroups_ducks : ∀ (gs : List Group) (s : State), (followGroups gs s).ramp.duckTargets = s.ramp.duckTargets
  | [], _ => rfl
  | g :: gs, s => (followGroups_ducks gs (followGroup g s)).trans (setGroupTarget_ducks g _ s)

theorem followGroups_sdv : ∀ (gs : List Group) (s : State),
    (followGroups gs s).sdv = { s.sdv with targets := (followGroups gs s).sdv.targets }
  | [], _ => rfl
  | g :: gs, s => (followGroups_sdv gs (followGroup g s)).trans rfl

/-- R111: the groups followed are those whose weights changed. -/
theorem foldl_followChanged (before : Live) : ∀ (gs : List Group) (s : State), gs.foldl (followChanged before) s =
    followGroups (gs.filter fun g => decide (s.core.live.weights[g] ≠ before.weights[g])) s
  | [], _ => rfl
  | g :: gs, s => by
    rw [List.foldl_cons, foldl_followChanged before gs, followChanged_core]
    unfold followChanged
    by_cases same : s.core.live.weights[g] = before.weights[g]
    · rw [if_pos same, List.filter_cons_of_neg (by simpa using same)]
    · rw [if_neg same, List.filter_cons_of_pos (by simpa using same)]
      rfl

/-- R109: a group whose target is in step is left alone. -/
theorem followGroup_inStep_self {g : Group} {s : State} (h : InStep s.core.live s.sdv g) : followGroup g s = s := by
  unfold followGroup setGroupTarget
  unfold InStep at h
  rw [← h, RampUnit.retarget_equal rfl]
  simp

theorem followGroups_inStep_self : ∀ {gs : List Group} {s : State}, (∀ g, InStep s.core.live s.sdv g) → followGroups gs s = s
  | [], _, _ => rfl
  | g :: gs, s, h => by
    have rest := followGroups_inStep_self (gs := gs) h
    unfold followGroups at rest ⊢
    rw [List.foldl_cons, followGroup_inStep_self (h g), rest]

theorem any_isBoostCurve {rs : List ChangeRecord} : rs.any ChangeRecord.isBoostCurve = true ↔ ∃ ps, .boostCurve ps ∈ rs := by
  rw [List.any_eq_true]
  constructor
  · rintro ⟨r, mem, curve⟩
    cases r <;> simp only [ChangeRecord.isBoostCurve, Bool.false_eq_true] at curve
    exact ⟨_, mem⟩
  · rintro ⟨ps, mem⟩
    exact ⟨_, mem, rfl⟩

/-- R72, R110, R111: told of a set, the SDV unit takes a state, a manual speed and a boost, by the curve where the set carries one;
then groups follow, each once. -/
theorem tellSdv_follows (before : Live) (rs : List ChangeRecord) (s : State) : ∃ st m b gs, gs.Nodup ∧
    tellSdv before rs s = followGroups gs (sdvSet st m b s) ∧
    ((∀ ps, .boostCurve ps ∉ rs) → st = s.sdv.state ∧ b = s.sdv.boost ∧ m = s.sdv.manual) ∧
    ((∃ ps, .boostCurve ps ∈ rs) →
      CurveTaken s.ctl.enabled.sdv s.sdv s.core.live.boostCurve { s.sdv with state := st, manual := m, boost := b }) := by
  have unadopted : ∃ gs, gs.Nodup ∧ (List.finRange 4).foldl (followChanged before) s =
      followGroups gs (sdvSet s.sdv.state s.sdv.manual s.sdv.boost s) :=
    ⟨_, (List.nodup_finRange 4).filter _, by rw [sdvSet_unchanged, foldl_followChanged]⟩
  rw [tellSdv_eq]
  by_cases curve : rs.any ChangeRecord.isBoostCurve = true
  · rw [if_pos curve]
    have carried : ¬ ∀ ps, .boostCurve ps ∉ rs := by simpa using any_isBoostCurve.mp curve
    rcases curveChange_eq s with ⟨same, taken⟩ | ⟨st, m, b, adopted, taken⟩
    · obtain ⟨gs, once, eq⟩ := unadopted
      rw [same]
      exact ⟨_, _, _, gs, once, eq, fun none => absurd none carried, fun _ => taken⟩
    · refine ⟨st, m, b, _, List.nodup_finRange 4, ?_, fun none => absurd none carried, fun _ => taken⟩
      rw [adopted, foldl_followChanged, followGroups_inStep_self]
      rw [followGroups_core]
      exact followBoost_inStep (sdvSet st m b s)
  · rw [if_neg curve]
    obtain ⟨gs, once, eq⟩ := unadopted
    exact ⟨_, _, _, gs, once, eq, fun _ => ⟨rfl, rfl, rfl⟩, fun carried => absurd (any_isBoostCurve.mpr carried) curve⟩

/-! ## BOOST keys (R46, R109) -/

/-- R46: of the ramp table the BOOST keys of `gs` were retargeted, and nothing else changed. -/
structure BoostsMoved (gs : List Group) (s t : State) : Prop where
  retargeted : BoostsRetargeted s.sdv.rampMs s t
  others : ∀ i : Fin 64, (∀ g ∈ gs, i.val ≠ 60 + g.val) → t.ramp.entries[i] = s.ramp.entries[i]
  targets : ∀ g : Group, g ∉ gs → t.sdv.targets[g] = s.sdv.targets[g]
  good : t.ramp.Good

theorem BoostsMoved.refl (gs : List Group) {s : State} (good : s.ramp.Good) : BoostsMoved gs s s where
  retargeted _ := (retargetedEntry_equal _ _ _ _ _ _).symm
  others _ _ := rfl
  targets _ _ := rfl
  good := good

theorem BoostsMoved.entry {gs : List Group} {s t : State} (h : BoostsMoved gs s t) {p : Group} (out : p ∉ gs) :
    t.ramp.entries[60 + p.val] = s.ramp.entries[60 + p.val] :=
  h.others ⟨60 + p.val, by omega⟩ fun g mem here => out (by
    have : p = g := Fin.ext (by simpa using here)
    rwa [this])

theorem followGroup_moved (g : Group) {s : State} (good : s.ramp.Good) : BoostsMoved [g] s (followGroup g s) where
  retargeted := (setGroupTarget_boosts g _ good).1
  others i out := (setGroupTarget_boosts g _ good).2 i (out g (List.mem_singleton.mpr rfl))
  targets p out := by rw [followGroup_target, if_neg fun here => out (List.mem_singleton.mpr here)]
  good := (good.retarget _ _ _ _ _).congr rfl

/-- Different groups' retargets one after the other are those of all. -/
theorem BoostsMoved.trans {gs more : List Group} {s t u : State} (good : s.ramp.Good) (h : BoostsMoved gs s t)
    (k : BoostsMoved more t u) (mode : t.core.mode = s.core.mode) (ms : t.sdv.rampMs = s.sdv.rampMs) (apart : ∀ p ∈ gs, p ∉ more) :
    BoostsMoved (gs ++ more) s u where
  retargeted p := by
    by_cases late : p ∈ more
    · have early : p ∉ gs := fun mem => apart p mem late
      have entry := h.entry early
      have present := good.present_dedicated h.good (Dedicated.boost p) entry (.level s.sdv.targets[p])
      have moved := k.retargeted p
      rw [entry, h.targets p early, mode, ms, retargetedEntry_congr present] at moved
      exact moved
    · rw [k.entry late, k.targets p late]
      exact h.retargeted p
  others i out := (k.others i fun g mem => out g (List.mem_append_right _ mem)).trans
    (h.others i fun g mem => out g (List.mem_append_left _ mem))
  targets p out := (k.targets p fun mem => out (List.mem_append_right _ mem)).trans
    (h.targets p fun mem => out (List.mem_append_left _ mem))
  good := k.good

theorem followGroups_moved : ∀ {gs : List Group} {s : State}, gs.Nodup → s.ramp.Good → BoostsMoved gs s (followGroups gs s)
  | [], _, _, good => .refl [] good
  | g :: gs, _, once, good => by
    obtain ⟨out, rest⟩ := List.nodup_cons.mp once
    have first := followGroup_moved g good
    exact first.trans good (followGroups_moved rest first.good) rfl rfl fun p mem => by
      rw [List.mem_singleton.mp mem]
      exact out

/-- A step before that leaves the table, the mode and what the groups hold. -/
theorem BoostsMoved.after {gs : List Group} {s s' t : State} (h : BoostsMoved gs s' t) (ramp : s'.ramp = s.ramp)
    (mode : s'.core.mode = s.core.mode) (targets : s'.sdv.targets = s.sdv.targets) (ms : s'.sdv.rampMs = s.sdv.rampMs) :
    BoostsMoved gs s t := by
  obtain ⟨retargeted, others, kept, good⟩ := h
  unfold BoostsRetargeted at retargeted
  rw [ramp, mode, targets, ms] at retargeted
  rw [ramp] at others
  rw [targets] at kept
  exact ⟨retargeted, others, kept, good⟩

/-- A step after that leaves the table and what the groups hold. -/
theorem BoostsMoved.before {gs : List Group} {s t u : State} (h : BoostsMoved gs s t) (ramp : u.ramp = t.ramp)
    (targets : u.sdv.targets = t.sdv.targets) : BoostsMoved gs s u := by
  obtain ⟨retargeted, others, kept, good⟩ := h
  unfold BoostsRetargeted at retargeted
  rw [← ramp, ← targets] at retargeted
  rw [← ramp] at others good
  rw [← targets] at kept
  exact ⟨retargeted, others, kept, good⟩

/-- R34: BOOST keys' retargets leave the general keys alone. -/
theorem BoostsMoved.kept {gs : List Group} {s t : State} (h : BoostsMoved gs s t) (good : s.ramp.Good) {k : Key} (general : k.General) :
    RampUnit.KeyKept k s.ramp t.ramp := fun i r key => by
  by_cases low : i.val < 60
  · rw [h.others i fun g _ => by omega]
  · have away : ∀ u : RampUnit, u.Good → u.entries[i] ≠ some r := fun u hu entry => by
      have pool := (hu.pools i r entry).1
      rw [key] at pool
      have := general.poolHolds_lt pool
      omega
    exact iff_of_false (away _ h.good) (away _ good)

end Sys2Proof.Machine

namespace Sys2Proof.Machine
-- One proof at a time: side by side the proofs start more threads than the memory limit allows.
set_option Elab.async false

/-! ## One swap (R71, R90 to R93, R95) -/

/-- Sections made LIVE with zero history; all else of the pool stands. -/
theorem EqUnit.makeLive_at (n : SectionNo) : ∀ (is : List SectionNo) (e : EqUnit), (e.makeLive is).sections[n] =
    if n ∈ is then { e.sections[n] with state := .live, hist := History.zero } else e.sections[n]
  | [], _ => rfl
  | i :: is, e => by
    refine (EqUnit.makeLive_at n is _).trans ?_
    by_cases here : n = i
    · subst here
      simp
    · have apart : ¬ i.val = n.val := fun same => here (Fin.ext same.symm)
      simp [apart, here]

/-- The slots free, lowest-numbered first. -/
def EqUnit.free (e : EqUnit) : List (Fin 4) := (List.finRange 4).filter fun i => (e.slots[i]).isNone

theorem EqUnit.freeSlots_eq (e : EqUnit) : e.freeSlots = e.free.length := List.countP_eq_length_filter

theorem EqUnit.lowestSlot_eq (e : EqUnit) : e.lowestSlot = e.free.head? := List.head?_filter.symm

/-- R93: the slot a swap takes. -/
def EqUnit.swapSlot (fade : Bool) (e : EqUnit) : Option (Fin 4) := if fade then e.free.head? else none

/-- R93: a swap's crossfade. -/
def EqUnit.fadeOf (e : EqUnit) (o : Output) : Crossfade := { output := o, old := e.chains[o], k := 0, due := false }

/-- R71, R92: a section out of a chain by a swap. -/
def leavingState (faded : Bool) : SectionState := if faded then .retiring else .loaded

/-- What a CHAIN record's swap makes of the EQ unit, with crossfades or without. -/
def EqUnit.swap (fade : Bool) (e : EqUnit) (c : Output × List SectionNo) : EqUnit :=
  { (e.putStates e.chains[c.1] (leavingState (e.swapSlot fade).isSome)).makeLive c.2 with
      chains := e.chains.set c.1 c.2
      slots := match e.swapSlot fade with
        | some i => e.slots.set i (some (e.fadeOf c.1))
        | none => e.slots }

/-- R93: whether swaps run with crossfades. -/
def fades (s : State) : Bool := decide (s.core.mode = .run ∧ s.ctl.enabled.eq = true)

theorem swapChain_eq (o : Output) (l : List SectionNo) (s : State) : (swapChain o l s).eq = s.eq.swap (fades s) (o, l) := by
  have unreported : ∀ v : State, (reportWrites .chains [o.val] (reportSections (s.eq.chains[o] ++ l) v)).eq = v.eq := fun v => by simp
  have slots : ∀ st, ((s.eq.putStates s.eq.chains[o] st).makeLive l).slots = s.eq.slots := fun st => by simp
  have lowest := s.eq.lowestSlot_eq
  unfold swapChain EqUnit.swap EqUnit.swapSlot fades
  by_cases fade : s.core.mode = .run ∧ s.ctl.enabled.eq = true
  · rw [if_pos fade, if_pos (decide_eq_true fade), ← lowest]
    cases slot : s.eq.lowestSlot with
    | none =>
      refine (unreported _).trans ?_
      dsimp only
      rw [← slots .loaded]
      rfl
    | some i => exact unreported _
  · rw [if_neg fade, if_neg (by simpa using fade)]
    refine (unreported _).trans ?_
    dsimp only
    rw [← slots .loaded]
    rfl

theorem swapChain_fades (o : Output) (l : List SectionNo) (s : State) : fades (swapChain o l s) = fades s := by
  obtain ⟨-, -, enabled, -⟩ := (swapChain_calm o l s).settings
  unfold fades
  rw [enabled, (swapChain_same o l s) .core (by decide)]

theorem swapChains_eq (rs : List ChangeRecord) (s : State) :
    (swapChains rs s).eq = (rs.filterMap ChangeRecord.chain?).foldl (EqUnit.swap (fades s)) s.eq := by
  unfold swapChains
  generalize rs.filterMap ChangeRecord.chain? = cs
  induction cs generalizing s with
  | nil => rfl
  | cons c cs ih => rw [List.foldl_cons, ih, swapChain_fades, swapChain_eq, List.foldl_cons]

/-- R71: the CHAIN records are swapped as the EQ unit stands before the set. -/
theorem rewritten_eq (q : QueuedSet) (s : State) :
    (rewritten q s).eq = (q.records.filterMap ChangeRecord.chain?).foldl (EqUnit.swap (fades s)) s.eq := by
  have before : SameBut [.ctl, .core, .ramp, .table] s (retargetSet (setMoves s q.records) (writeRecords q.records s)) :=
    ((writeRecords_same q.records s).mono (by decide)).trans ((retargetSet_same _ _).mono (by decide))
  have calm : Calm s (retargetSet (setMoves s q.records) (writeRecords q.records s)) :=
    (writeRecords_calm q.records s).trans (.ofSame (retargetSet_same _ _))
  obtain ⟨-, -, enabled, -⟩ := calm.settings
  have mode : (retargetSet (setMoves s q.records) (writeRecords q.records s)).core.mode = s.core.mode := by
    rw [(retargetSet_changes _ _).1, writeRecords_core]
  have same : fades (retargetSet (setMoves s q.records) (writeRecords q.records s)) = fades s := by
    unfold fades
    rw [enabled, mode]
  unfold rewritten
  rw [swapChains_eq, same, before .eq (by decide)]

/-! ## What a set's swaps leave of the EQ unit -/

/-- The sections of the outputs' chains. -/
def chainsOf (e : EqUnit) (os : List Output) : List SectionNo := (os.map fun o => e.chains[o]).flatten

/-- The sections a list of chains names. -/
def listed (cs : List (Output × List SectionNo)) : List SectionNo := (cs.map Prod.snd).flatten

/-- R71: a section of new chains is LIVE with zero history; one of old chains alone goes out. -/
def swappedSection (x : EqSection) (named old : Prop) [Decidable named] [Decidable old] (out : SectionState) : EqSection :=
  if named then { x with state := .live, hist := History.zero } else if old then { x with state := out } else x

/-- R71: swaps one after the other, where no new chain takes a section of a later old one. -/
theorem swappedSection_twice (x : EqSection) {a b p q : Prop} [Decidable a] [Decidable b] [Decidable p] [Decidable q] (out : SectionState)
    (apart : a → ¬ q) : swappedSection (swappedSection x a b out) p q out = swappedSection x (a ∨ p) (b ∨ q) out := by
  have coeffs : (swappedSection x a b out).coeffs = x.coeffs := by
    unfold swappedSection
    split
    · rfl
    · split <;> rfl
  by_cases last : p
  · generalize swappedSection x a b out = y at coeffs ⊢
    unfold swappedSection
    rw [if_pos last, if_pos (Or.inr last), coeffs]
  by_cases first : a
  · unfold swappedSection
    rw [if_neg last, if_neg (apart first), if_pos first, if_pos (Or.inl first)]
  · unfold swappedSection
    rw [if_neg last, if_neg first, if_neg (not_or.mpr ⟨first, last⟩)]
    by_cases mine : b
    · rw [if_pos mine, if_pos (Or.inl mine), ite_self]
    · rw [if_neg mine]
      simp only [mine, false_or]

section
variable {fade : Bool} {e : EqUnit} {c : Output × List SectionNo}

theorem EqUnit.swap_chain (o : Output) : (e.swap fade c).chains[o] = if o = c.1 then c.2 else e.chains[o] := by
  simp [swap, Vector.getElem_set, Fin.val_inj, eq_comm]

theorem EqUnit.swap_kept : e.swap fade c =
    { e with sections := (e.swap fade c).sections, chains := (e.swap fade c).chains, slots := (e.swap fade c).slots } := by
  unfold swap
  rw [EqUnit.makeLive_eq, EqUnit.putStates_eq]

theorem EqUnit.swap_section (n : SectionNo) : (e.swap fade c).sections[n] =
    swappedSection e.sections[n] (n ∈ c.2) (n ∈ e.chains[c.1]) (leavingState (e.swapSlot fade).isSome) := by
  refine (EqUnit.makeLive_at n c.2 _).trans ?_
  rw [EqUnit.putStates_at]
  unfold swappedSection
  split
  · rfl
  · split <;> rfl

theorem mem_chainsOf {os : List Output} {n : SectionNo} : n ∈ chainsOf e os ↔ ∃ o ∈ os, n ∈ e.chains[o] := by
  simp [chainsOf]

/-- Other outputs' chains stand. -/
theorem EqUnit.swap_others {os : List Output} (out : c.1 ∉ os) : ∀ o ∈ os, (e.swap fade c).chains[o] = e.chains[o] := fun o mem => by
  rw [EqUnit.swap_chain, if_neg fun same : o = c.1 => out (same ▸ mem)]

theorem chainsOf_congr {f : EqUnit} {os : List Output} (same : ∀ o ∈ os, f.chains[o] = e.chains[o]) : chainsOf f os = chainsOf e os :=
  congrArg List.flatten (List.map_congr_left same)

/-! ### The chains -/

theorem foldl_swap_chain_other (fade : Bool) : ∀ (cs : List (Output × List SectionNo)) (e : EqUnit) (o : Output),
    o ∉ cs.map Prod.fst → (cs.foldl (EqUnit.swap fade) e).chains[o] = e.chains[o]
  | [], _, _, _ => rfl
  | c :: cs, e, o, out => by
    rw [List.map_cons, List.mem_cons, not_or] at out
    obtain ⟨here, later⟩ := out
    rw [List.foldl_cons, foldl_swap_chain_other fade cs _ o later, EqUnit.swap_chain, if_neg here]

theorem foldl_swap_chain (fade : Bool) : ∀ {cs : List (Output × List SectionNo)} (e : EqUnit), (cs.map Prod.fst).Nodup →
    ∀ c ∈ cs, (cs.foldl (EqUnit.swap fade) e).chains[c.1] = c.2
  | [], _, _, _, mem => absurd mem List.not_mem_nil
  | d :: cs, e, once, c, mem => by
    rw [List.map_cons, List.nodup_cons] at once
    obtain ⟨out, once⟩ := once
    rw [List.foldl_cons]
    rcases List.mem_cons.mp mem with rfl | later
    · rw [foldl_swap_chain_other fade cs _ _ out, EqUnit.swap_chain, if_pos rfl]
    · exact foldl_swap_chain fade _ once c later

theorem foldl_swap_kept (fade : Bool) : ∀ (cs : List (Output × List SectionNo)) (e : EqUnit), cs.foldl (EqUnit.swap fade) e =
    { e with
        sections := (cs.foldl (EqUnit.swap fade) e).sections
        chains := (cs.foldl (EqUnit.swap fade) e).chains
        slots := (cs.foldl (EqUnit.swap fade) e).slots }
  | [], _ => rfl
  | c :: cs, e => by
    rw [List.foldl_cons]
    refine (foldl_swap_kept fade cs (e.swap fade c)).trans ?_
    rw [EqUnit.swap_kept]

/-! ### The slots -/

/-- R93: while a slot is free a swap with a crossfade takes the lowest-numbered one. -/
theorem EqUnit.swap_slots {i : Fin 4} {is : List (Fin 4)} (free : e.free = i :: is) :
    (e.swap true c).slots = e.slots.set i (some (e.fadeOf c.1)) ∧ (e.swap true c).free = is := by
  have slot : e.swapSlot true = some i := by rw [swapSlot, if_pos rfl, free]; rfl
  have slots : (e.swap true c).slots = e.slots.set i (some (e.fadeOf c.1)) := by rw [swap, slot]
  refine ⟨slots, ?_⟩
  have once : (i :: is).Nodup := free ▸ (List.nodup_finRange 4).filter _
  have taken : (e.swap true c).free = e.free.filter fun j => decide (j ≠ i) := by
    unfold EqUnit.free
    rw [List.filter_filter, slots]
    refine List.filter_congr fun j _ => ?_
    by_cases here : j = i
    · simp [here]
    · have apart : ¬ i.val = j.val := fun same => here (Fin.ext same.symm)
      simp [apart, here]
  rw [taken, free, List.filter_cons_of_neg (by simp)]
  exact List.filter_eq_self.mpr fun j mem => decide_eq_true fun same => (List.nodup_cons.mp once).1 (same ▸ mem)

theorem EqUnit.mem_free {i : Fin 4} : i ∈ e.free ↔ e.slots[i] = none := by
  simp [EqUnit.free]

/-- R93: each swap takes the next free slot. -/
theorem foldl_swap_slots : ∀ {cs : List (Output × List SectionNo)} {e : EqUnit}, (cs.map Prod.fst).Nodup → cs.length ≤ e.free.length →
    ∀ i : Fin 4, (e.slots[i] ≠ none → (cs.foldl (EqUnit.swap true) e).slots[i] = e.slots[i]) ∧
      ∀ j : Nat, e.free[j]? = some i → (cs.foldl (EqUnit.swap true) e).slots[i] = (cs.map Prod.fst)[j]?.map e.fadeOf
  | [], e, _, _, i => ⟨fun _ => rfl, fun j here => EqUnit.mem_free.mp (List.mem_of_getElem? here)⟩
  | c :: cs, e, once, room, i => by
    rw [List.map_cons, List.nodup_cons] at once
    obtain ⟨out, once⟩ := once
    cases free : e.free with
    | nil => rw [free] at room; cases room
    | cons k ks =>
      obtain ⟨slots, left⟩ := EqUnit.swap_slots (c := c) free
      rw [free, List.length_cons, List.length_cons] at room
      obtain ⟨used, taken⟩ := foldl_swap_slots (e := e.swap true c) once (by rw [left]; omega) i
      rw [left] at taken
      rw [List.foldl_cons]
      have empty : e.slots[k] = none := EqUnit.mem_free.mp (free ▸ List.mem_cons_self)
      refine ⟨fun held => ?_, fun j here => ?_⟩
      · have apart : ¬ k.val = i.val := fun same => held (Fin.ext same ▸ empty)
        have kept : (e.swap true c).slots[i] = e.slots[i] := by rw [slots]; simp [apart]
        rw [used (kept ▸ held), kept]
      · cases j with
        | zero =>
          obtain rfl : k = i := Option.some_inj.mp here
          have now : (e.swap true c).slots[k] = some (e.fadeOf c.1) := by rw [slots]; simp
          rw [used (by rw [now]; exact Option.some_ne_none _), now]
          rfl
        | succ j =>
          rw [taken j here, List.map_cons, List.getElem?_cons_succ]
          refine Option.map_congr fun o mem => ?_
          rw [EqUnit.fadeOf, EqUnit.fadeOf, EqUnit.swap_others out o (List.mem_of_getElem? mem)]

/-- R95: swaps at once leave the slots alone. -/
theorem foldl_swap_slots_none : ∀ (cs : List (Output × List SectionNo)) (e : EqUnit), (cs.foldl (EqUnit.swap false) e).slots = e.slots
  | [], _ => rfl
  | c :: cs, e => foldl_swap_slots_none cs (e.swap false c)

/-! ### The sections -/

theorem foldl_swap_section {fade : Bool} (n : SectionNo) : ∀ {cs : List (Output × List SectionNo)} {e : EqUnit},
    (cs.map Prod.fst).Nodup → (fade = true → cs.length ≤ e.free.length) → (∀ m ∈ listed cs, m ∉ chainsOf e (cs.map Prod.fst)) →
    (cs.foldl (EqUnit.swap fade) e).sections[n] =
      swappedSection e.sections[n] (n ∈ listed cs) (n ∈ chainsOf e (cs.map Prod.fst)) (leavingState fade)
  | [], _, _, _, _ => by simp [swappedSection, listed, chainsOf]
  | c :: cs, e, once, room, apart => by
    rw [List.map_cons, List.nodup_cons] at once
    obtain ⟨out, once⟩ := once
    have old : chainsOf (e.swap fade c) (cs.map Prod.fst) = chainsOf e (cs.map Prod.fst) := chainsOf_congr (EqUnit.swap_others out)
    have memOld : ∀ m, m ∈ chainsOf e ((c :: cs).map Prod.fst) ↔ m ∈ e.chains[c.1] ∨ m ∈ chainsOf e (cs.map Prod.fst) := fun m =>
      List.mem_append
    have memListed : ∀ m, m ∈ listed (c :: cs) ↔ m ∈ c.2 ∨ m ∈ listed cs := fun m => List.mem_append
    have slot : (e.swapSlot fade).isSome = fade ∧ (fade = true → cs.length ≤ (e.swap fade c).free.length) := by
      cases fade with
      | false => exact ⟨rfl, (nomatch ·)⟩
      | true =>
        have enough := room rfl
        cases free : e.free with
        | nil => rw [free] at enough; cases enough
        | cons k ks =>
          rw [free, List.length_cons, List.length_cons] at enough
          refine ⟨by rw [EqUnit.swapSlot, if_pos rfl, free]; rfl, fun _ => ?_⟩
          rw [(EqUnit.swap_slots free).2]
          omega
    rw [List.foldl_cons, foldl_swap_section n once slot.2 fun m mem => by
      rw [old]
      exact fun held => apart m ((memListed m).mpr (.inr mem)) ((memOld m).mpr (.inr held))]
    have split : swappedSection e.sections[n] (n ∈ listed (c :: cs)) (n ∈ chainsOf e ((c :: cs).map Prod.fst)) (leavingState fade) =
        swappedSection e.sections[n] (n ∈ c.2 ∨ n ∈ listed cs) (n ∈ e.chains[c.1] ∨ n ∈ chainsOf e (cs.map Prod.fst))
          (leavingState fade) := by
      simp only [memListed, memOld]
    rw [split, ← swappedSection_twice, ← slot.1, ← EqUnit.swap_section]
    · simp only [old, slot.1]
    · exact fun mine later => apart n ((memListed n).mpr (.inl mine)) ((memOld n).mpr (.inr later))

end

end Sys2Proof.Machine

namespace Sys2Proof.Machine
-- One proof at a time: side by side the proofs start more threads than the memory limit allows.
set_option Elab.async false

/-! ## What the TABLE unit hears of a set's records and swaps (R73, R88, R149) -/

/-- R73: of a record other than a CHAIN record the entries it carries are reported. -/
theorem reportRecord_heard (r : ChangeRecord) (s : State) :
    WritesHeard (fun d n => r.chain? = none ∧ r.carries d n) [] s (reportRecord r s) := by
  cases r with
  | zone z c ms => exact (reportWrites_heard .zones [z.val] s).congr fun d n => by simp [ChangeRecord.chain?, ChangeRecord.carries]
  | cell o src g ms =>
    exact (reportWrites_heard .cells [(cellIndex o src).val] s).congr fun d n => by
      simp [ChangeRecord.chain?, ChangeRecord.carries, cellIndex]
  | output o z side row g trim ceiling =>
    exact (reportWrites_heard .outputs [o.val] s).congr fun d n => by simp [ChangeRecord.chain?, ChangeRecord.carries]
  | flags op f mask =>
    refine (reportWrites_heard .outputs ((List.range 24).filter fun o => mask.getLsbD o) s).congr fun d n => ?_
    rw [List.mem_filter, List.mem_range]
    simp only [ChangeRecord.chain?, ChangeRecord.carries, true_and]
    refine and_congr_right fun _ => ⟨fun ⟨small, set⟩ => ⟨⟨n, small⟩, set, rfl⟩, ?_⟩
    rintro ⟨o, set, rfl⟩
    exact ⟨o.isLt, set⟩
  | chain o l => exact .refl (fun d n written => nomatch written.1) s
  | curve c first vs =>
    refine (reportWrites_heard .curves ((List.range vs.length).map fun i => c.base + first.val + i) s).congr fun d n => ?_
    simp only [ChangeRecord.chain?, ChangeRecord.carries, List.mem_map, List.mem_range, true_and]
    unfold CurveId.base
    refine and_congr_right fun _ => ⟨?_, fun ⟨low, high⟩ => ⟨n - (c.idx.val * 31 + first.val), by omega, by omega⟩⟩
    rintro ⟨i, small, rfl⟩
    omega
  | boostCurve ps =>
    exact (reportWrites_heard .boostCurve (List.range 16) s).congr fun d n => by
      simp [ChangeRecord.chain?, ChangeRecord.carries]
  | group g w => exact (reportWrites_heard .groups [g.val] s).congr fun d n => by simp [ChangeRecord.chain?, ChangeRecord.carries]

theorem reportRecords_heard : ∀ (rs : List ChangeRecord) (s : State),
    WritesHeard (fun d n => ∃ r ∈ rs, r.chain? = none ∧ r.carries d n) [] s (rs.foldl (fun s r => reportRecord r s) s)
  | [], s => .refl (by simp) s
  | r :: rs, s => ((reportRecord_heard r s).trans (reportRecords_heard rs (reportRecord r s))).congr fun d n => by simp

theorem reportRecord_noNotice (r : ChangeRecord) (s : State) : NoNotice s (reportRecord r s) := by
  cases r with
  | chain o l => exact .refl s
  | _ => exact reportWrites_noNotice _ _ s

/-- R71, R88: a swap's chain and sections are reported. -/
theorem swapChain_heard (o : Output) (l : List SectionNo) (s : State) :
    WritesHeard (fun d n => sectionEntries (s.eq.chains[o] ++ l) d n ∨ (d = .chains ∧ n = o.val)) [] s (swapChain o l s) ∧
    NoNotice s (swapChain o l s) := by
  have told : ∀ e : EqUnit, WritesHeard (fun d n => sectionEntries (s.eq.chains[o] ++ l) d n ∨ (d = .chains ∧ n = o.val)) [] s
      (reportWrites .chains [o.val] (reportSections (s.eq.chains[o] ++ l) { s with eq := e })) ∧
      NoNotice s (reportWrites .chains [o.val] (reportSections (s.eq.chains[o] ++ l) { s with eq := e })) := fun e => by
    have sections := reportSections_heard (s.eq.chains[o] ++ l) (s := s) (t := { s with eq := e }) rfl rfl
    refine ⟨(sections.trans (reportWrites_heard .chains [o.val] _)).congr fun d n => by simp, ?_⟩
    exact (reportWrites_noNotice .sections _ { s with eq := e }).trans (reportWrites_noNotice .chains [o.val] _)
  unfold swapChain
  split
  · split
    · exact told _
    · exact told _
  · exact told _

/-- R71: the sections that the swaps report, from the chains before any of them. -/
theorem swapped_sections (fade : Bool) (e : EqUnit) (c : Output × List SectionNo) (cs : List (Output × List SectionNo)) (n : SectionNo) :
    n ∈ e.chains[c.1] ++ c.2 ∨ n ∈ chainsOf (e.swap fade c) (cs.map Prod.fst) ++ listed cs ↔
    n ∈ chainsOf e ((c :: cs).map Prod.fst) ++ listed (c :: cs) := by
  have named : n ∈ listed (c :: cs) ↔ n ∈ c.2 ∨ n ∈ listed cs := List.mem_append
  have before : n ∈ chainsOf e ((c :: cs).map Prod.fst) ↔ n ∈ e.chains[c.1] ∨ n ∈ chainsOf e (cs.map Prod.fst) := List.mem_append
  have later : n ∈ chainsOf (e.swap fade c) (cs.map Prod.fst) → n ∈ c.2 ∨ n ∈ chainsOf e (cs.map Prod.fst) := fun mem => by
    obtain ⟨o, out, mem⟩ := mem_chainsOf.mp mem
    rw [EqUnit.swap_chain] at mem
    split at mem
    · exact .inl mem
    · exact .inr (mem_chainsOf.mpr ⟨o, out, mem⟩)
  have kept : n ∈ chainsOf e (cs.map Prod.fst) → n ∈ e.chains[c.1] ∨ n ∈ chainsOf (e.swap fade c) (cs.map Prod.fst) := fun mem => by
    obtain ⟨o, out, mem⟩ := mem_chainsOf.mp mem
    by_cases here : o = c.1
    · exact .inl (here ▸ mem)
    · exact .inr (mem_chainsOf.mpr ⟨o, out, by rw [EqUnit.swap_chain, if_neg here]; exact mem⟩)
  simp only [List.mem_append, named, before]
  constructor
  · rintro ((old | new) | (old | new))
    · exact .inl (.inl old)
    · exact .inr (.inl new)
    · exact (later old).elim (fun new => .inr (.inl new)) fun old => .inl (.inr old)
    · exact .inr (.inr new)
  · rintro ((old | old) | (new | new))
    · exact .inl (.inl old)
    · exact (kept old).imp .inl .inl
    · exact .inl (.inr new)
    · exact .inr (.inr new)

theorem swaps_heard : ∀ (cs : List (Output × List SectionNo)) (s : State),
    WritesHeard (fun d n => sectionEntries (chainsOf s.eq (cs.map Prod.fst) ++ listed cs) d n ∨
      (d = .chains ∧ ∃ c ∈ cs, n = c.1.val)) [] s (cs.foldl (fun s c => swapChain c.1 c.2 s) s) ∧
    NoNotice s (cs.foldl (fun s c => swapChain c.1 c.2 s) s)
  | [], s => ⟨.refl (by simp [sectionEntries, chainsOf, listed]) s, .refl s⟩
  | c :: cs, s => by
    obtain ⟨first, quiet⟩ := swapChain_heard c.1 c.2 s
    obtain ⟨rest, still⟩ := swaps_heard cs (swapChain c.1 c.2 s)
    rw [swapChain_eq] at rest
    refine ⟨(first.trans rest).congr fun d n => ?_, quiet.trans still⟩
    have sections : sectionEntries (s.eq.chains[c.1] ++ c.2) d n ∨
        sectionEntries (chainsOf (s.eq.swap (fades s) c) (cs.map Prod.fst) ++ listed cs) d n ↔
        sectionEntries (chainsOf s.eq ((c :: cs).map Prod.fst) ++ listed (c :: cs)) d n := by
      unfold sectionEntries
      simp only [← swapped_sections (fades s), or_and_right, exists_or, and_or_left]
    rw [← sections, or_or_or_comm, ← and_or_left]
    simp only [List.mem_cons, exists_eq_or_imp]

theorem chain_eq_some_iff {r : ChangeRecord} {c : Output × List SectionNo} : r.chain? = some c ↔ r = .chain c.1 c.2 := by
  obtain ⟨o, l⟩ := c
  cases r <;> simp [ChangeRecord.chain?]

/-- R73: what the records carry, CHAIN records apart, and the chains of those. -/
theorem carries_iff (rs : List ChangeRecord) (d : TableId) (n : Nat) : (∃ r ∈ rs, r.carries d n) ↔
    (∃ r ∈ rs, r.chain? = none ∧ r.carries d n) ∨ (d = .chains ∧ ∃ c ∈ rs.filterMap ChangeRecord.chain?, n = c.1.val) := by
  constructor
  · rintro ⟨r, mem, carried⟩
    cases chain : r.chain? with
    | none => exact .inl ⟨r, mem, chain, carried⟩
    | some c =>
      rw [chain_eq_some_iff.mp chain] at carried
      exact .inr ⟨carried.1, c, List.mem_filterMap.mpr ⟨r, mem, chain⟩, carried.2⟩
  · rintro (⟨r, mem, -, carried⟩ | ⟨table, c, mem, entry⟩)
    · exact ⟨r, mem, carried⟩
    · obtain ⟨r, mem, chain⟩ := List.mem_filterMap.mp mem
      exact ⟨r, mem, by rw [chain_eq_some_iff.mp chain]; exact ⟨table, entry⟩⟩

theorem writeRecords_heard (rs : List ChangeRecord) (s : State) :
    WritesHeard (fun d n => ∃ r ∈ rs, r.chain? = none ∧ r.carries d n) [] s (writeRecords rs s) ∧ NoNotice s (writeRecords rs s) := by
  have heard := reportRecords_heard rs { s with core := { s.core with live := s.core.live.writeAll rs } }
  have quiet := NoNotice.foldl (fun s r => reportRecord_noNotice r s) rs { s with core := { s.core with live := s.core.live.writeAll rs } }
  exact ⟨heard.of_ctl ⟨rfl, rfl⟩ ⟨rfl, rfl⟩, .trans (.ofCtl rfl) quiet⟩

/-- R73, R88, R149: what the TABLE unit hears of a set's records and swaps; no notice is raised by them. -/
theorem rewritten_heard (q : QueuedSet) (s : State) :
    WritesHeard (fun d n => (∃ r ∈ q.records, r.carries d n) ∨
      sectionEntries (chainsOf s.eq (chainOutputs q.records) ++ namedSections q.records) d n) [] s (rewritten q s) ∧
    NoNotice s (rewritten q s) := by
  obtain ⟨records, still⟩ := writeRecords_heard q.records s
  have same := retargetSet_same (setMoves s q.records) (writeRecords q.records s)
  have ctl := same .ctl (by decide)
  have eq := (same .eq (by decide)).trans ((writeRecords_same q.records s) .eq (by decide))
  obtain ⟨swaps, quiet⟩ := swaps_heard (q.records.filterMap ChangeRecord.chain?) (retargetSet (setMoves s q.records) (writeRecords q.records s))
  rw [eq] at swaps
  refine ⟨((records.of_ctl ⟨rfl, rfl⟩ ⟨ctl, same .table (by decide)⟩).trans swaps).congr fun d n => ?_,
    (still.trans (.ofCtl ctl)).trans quiet⟩
  rw [carries_iff]
  exact (or_congr_right or_comm).trans or_assoc.symm

end Sys2Proof.Machine

namespace Sys2Proof.Machine
-- One proof at a time: side by side the proofs start more threads than the memory limit allows.
set_option Elab.async false

/-! ## Notices raised on the way (R166) -/

/-- The oldest pending notices go to the queue's end, the others stay pending. -/
theorem enqueueNotices_split : ∀ (ns : List Notice) (q : List Place), ∃ queued : List Notice,
    (enqueueNotices ns q).1 = q ++ queued.map (fun n => .packet (noticePacket n)) ∧ ns = queued ++ (enqueueNotices ns q).2
  | [], q => ⟨[], by simp [enqueueNotices]⟩
  | n :: ns, q => by
    unfold enqueueNotices
    split
    · obtain ⟨queued, places, pending⟩ := enqueueNotices_split ns (q ++ [.packet (noticePacket n)])
      exact ⟨n :: queued, by rw [places]; simp, by rw [List.cons_append, ← pending]⟩
    · exact ⟨[], by simp⟩

/-- R166: between two states notices of `raised` were raised, and of the pending ones some were queued or replaced; the packets that
stood in the reply queue stand. -/
structure NoticesMoved (raised : Notice → Prop) (s t : State) : Prop where
  pending : ∀ n ∈ t.ctl.notices, raised n ∨ n ∈ s.ctl.notices
  queued : ∀ (i : Nat) (p : Place), s.ctl.queue.length ≤ i → t.ctl.queue[i]? = some p →
    ∃ n : Notice, p = .packet (noticePacket n) ∧ (raised n ∨ n ∈ s.ctl.notices)
  others : ∀ n ∈ s.ctl.notices, (∀ m, raised m → n.sameInstance m = false) → Raised n t
  packets : ∀ (i : Nat) (p : OutPacket), s.ctl.queue[i]? = some (.packet p) → t.ctl.queue[i]? = some (.packet p)

section
variable {raised : Notice → Prop} {s t u : State}

/-- A notice stays raised while none of its kind is raised after it. -/
theorem NoticesMoved.stays (h : NoticesMoved raised s t) {n : Notice} (up : Raised n s) (other : ∀ m, raised m → n.sameInstance m = false) :
    Raised n t := by
  rcases up with pending | packet
  · exact h.others n pending other
  · obtain ⟨i, place⟩ := List.getElem?_of_mem packet
    exact .inr (List.mem_of_getElem? (h.packets i _ place))

theorem NoticesMoved.trans (h : NoticesMoved raised s t) (k : NoticesMoved raised t u) : NoticesMoved raised s u where
  pending n mem := (k.pending n mem).elim .inl (h.pending n)
  queued i p late place := by
    by_cases early : i < t.ctl.queue.length
    · obtain ⟨n, packet, source⟩ := h.queued i _ late (List.getElem?_eq_getElem early)
      have stands := k.packets i (noticePacket n) (by rw [List.getElem?_eq_getElem early, packet])
      rw [place] at stands
      exact ⟨n, Option.some_inj.mp stands, source⟩
    · obtain ⟨n, packet, source⟩ := k.queued i p (by omega) place
      exact ⟨n, packet, source.elim .inl (h.pending n)⟩
  others n mem other := k.stays (h.others n mem other) other
  packets i p place := k.packets i p (h.packets i p place)

theorem NoticesMoved.mono {more : Notice → Prop} (h : NoticesMoved raised s t) (sub : ∀ n, raised n → more n) : NoticesMoved more s t where
  pending n mem := (h.pending n mem).imp_left (sub n)
  queued i p late place := by
    obtain ⟨n, packet, source⟩ := h.queued i p late place
    exact ⟨n, packet, source.imp_left (sub n)⟩
  others n mem other := h.others n mem fun m up => other m (sub m up)
  packets := h.packets

theorem NoticesMoved.congr {s' t' : State} (h : NoticesMoved raised s t) (hs : s'.ctl = s.ctl) (ht : t'.ctl = t.ctl) :
    NoticesMoved raised s' t' := by
  obtain ⟨pending, queued, others, packets⟩ := h
  unfold Raised at others
  rw [← ht] at pending queued others packets
  rw [← hs] at pending queued others packets
  exact ⟨pending, queued, others, packets⟩

/-- Answers that come with no notice. -/
theorem NoticesMoved.ofAnswered {as : List Answer} (h : Answered as s t) (quiet : NoNotice s t) : NoticesMoved raised s t where
  pending n mem := .inr (quiet.1 ▸ mem)
  queued i p late place := by
    obtain ⟨inside, -⟩ := List.getElem?_eq_some_iff.mp place
    have := quiet.2
    omega
  others n mem _ := .inl (quiet.1.symm ▸ mem)
  packets i p place := h.kept i _ place fun rq held => nomatch held

theorem NoticesMoved.refl (raised : Notice → Prop) (s : State) : NoticesMoved raised s s := .ofAnswered (.refl s) (.refl s)

/-- R166: the raising of a notice. -/
theorem raiseNotice_moved (n : Notice) (s : State) :
    NoticesMoved (fun m => s.ctl.noticeOn.allows n = true ∧ m = n) s (raiseNotice n s) ∧ Answered [] s (raiseNotice n s) := by
  unfold raiseNotice
  split
  next allowed =>
    obtain ⟨queued, places, pending⟩ := enqueueNotices_split s.ctl.notices s.ctl.queue
    have late : ∀ (i : Nat) (p : Place), s.ctl.queue.length ≤ i → (enqueueNotices s.ctl.notices s.ctl.queue).1[i]? = some p →
        ∃ n ∈ s.ctl.notices, p = .packet (noticePacket n) := fun i p late place => by
      rw [places, List.getElem?_append_right late] at place
      obtain ⟨n, mem, packet⟩ := List.mem_map.mp (List.mem_of_getElem? place)
      exact ⟨n, by rw [pending]; exact List.mem_append_left _ mem, packet.symm⟩
    have early : ∀ (i : Nat) (p : Place), s.ctl.queue[i]? = some p → (enqueueNotices s.ctl.notices s.ctl.queue).1[i]? = some p :=
      fun i p place => by
        rw [places]
        exact List.getElem?_append_left (List.getElem?_eq_some_iff.mp place).1 ▸ place
    refine ⟨⟨fun m mem => ?_, fun i p out place => ?_, fun m mem other => ?_, fun i p => early i _⟩, ⟨?_, fun i p place _ => early i p place,
      fun p mem => ?_, fun u => ?_, rfl⟩⟩
    · refine (of_mem_addNotice mem).imp (fun same => ⟨allowed, same⟩) fun left => ?_
      rw [pending]
      exact List.mem_append_right _ left
    · obtain ⟨m, mem, packet⟩ := late i p out place
      exact ⟨m, packet, .inr mem⟩
    · rw [pending] at mem
      rcases List.mem_append.mp mem with gone | left
      · refine .inr ?_
        show _ ∈ (enqueueNotices s.ctl.notices s.ctl.queue).1
        rw [places]
        exact List.mem_append_right _ (List.mem_map.mpr ⟨m, gone, rfl⟩)
      · exact .inl (addNotice_keeps (other n ⟨allowed, rfl⟩) left)
    · exact fun _ _ _ _ none => absurd none List.not_mem_nil
    · obtain ⟨i, place⟩ := List.getElem?_of_mem mem
      rw [List.getElem?_drop] at place
      obtain ⟨m, -, packet⟩ := late _ p (Nat.le_add_right _ _) place
      exact ⟨m, packet⟩
    · simp [inExecution, queueNotices]
  next => exact ⟨.refl _ s, .refl s⟩

/-- R166: an enabled notice raised is pending. -/
theorem raiseNotice_mem {n : Notice} {s : State} (allowed : s.ctl.noticeOn.allows n = true) : n ∈ (raiseNotice n s).ctl.notices := by
  unfold raiseNotice
  rw [if_pos allowed]
  exact mem_addNotice n _

end

end Sys2Proof.Machine

namespace Sys2Proof.Machine
-- One proof at a time: side by side the proofs start more threads than the memory limit allows.
set_option Elab.async false

/-! ## The notices of an applied set (R73, R106, R166) -/

/-- R166: where `cause` holds one notice was raised; else the control unit stands. -/
structure NoticeTold (cause : Prop) (n : Notice) (s t : State) : Prop where
  moved : NoticesMoved (fun m => cause ∧ m = n) s t
  answered : Answered [] s t
  quiet : ¬ cause → t.ctl = s.ctl
  pending : cause → n ∈ t.ctl.notices

section
variable {cause : Prop} {n : Notice} {s t : State}

theorem raiseNotice_told (n : Notice) (s : State) : NoticeTold (s.ctl.noticeOn.allows n = true) n s (raiseNotice n s) where
  moved := (raiseNotice_moved n s).1
  answered := (raiseNotice_moved n s).2
  quiet off := by rw [raiseNotice, if_neg off]
  pending := raiseNotice_mem

theorem NoticeTold.untold (off : ¬ cause) (ctl : t.ctl = s.ctl) : NoticeTold cause n s t where
  moved := (NoticesMoved.refl _ s).congr rfl ctl
  answered := (Answered.refl s).of_ctl rfl ctl
  quiet _ := ctl
  pending on := absurd on off

theorem NoticeTold.congr {other : Prop} {s' t' : State} (h : NoticeTold cause n s t) (same : other ↔ cause) (hs : s'.ctl = s.ctl)
    (ht : t'.ctl = t.ctl) : NoticeTold other n s' t' := by
  obtain rfl := propext same
  exact ⟨h.moved.congr hs ht, h.answered.of_ctl hs ht, fun off => by rw [hs, ht]; exact h.quiet off, fun on => by rw [ht]; exact h.pending on⟩
end

/-- R106: a change of the SDV unit's state raises SDV_STATE, where its kind is enabled. -/
theorem setSdvState_told (st : SdvState) (s : State) :
    NoticeTold (st ≠ s.sdv.state ∧ s.ctl.noticeOn.sdvState = true) (.sdvState st) s (setSdvState st s) := by
  unfold setSdvState
  by_cases same : s.sdv.state = st
  · rw [if_pos same]
    exact .untold (fun told => told.1 same.symm) rfl
  · rw [if_neg same]
    exact (raiseNotice_told (.sdvState st) { s with sdv := { s.sdv with state := st } }).congr
      (and_iff_right (Ne.symm same)) rfl rfl

/-- R73: a marked set raises SET_APPLIED, where its kind is enabled. -/
theorem finishSet_told (q : QueuedSet) (s : State) :
    NoticeTold (q.notify = true ∧ s.ctl.noticeOn.setApplied = true) (.setApplied q.number) s (finishSet q s) := by
  unfold finishSet
  by_cases marked : q.notify = true
  · rw [if_pos marked]
    exact (raiseNotice_told (.setApplied q.number)
      { s with commit := { s.commit with queue := s.commit.queue.tail, lastApplied := some q.number } }).congr (and_iff_right marked) rfl rfl
  · rw [if_neg marked]
    exact .untold (fun applied => marked applied.1) rfl

/-! ## A set applied, in its three parts (R69 to R73) -/

/-- The records written and the chains swapped, the SDV unit with what it takes of the set and the groups `gs` following it, and the
set out of the queue. -/
def appliedWith (st : SdvState) (m : Option Nat) (b : Int) (gs : List Group) (q : QueuedSet) (s : State) : State :=
  finishSet q (followGroups gs (sdvSet st m b (rewritten q s)))

theorem applySet_eq (q : QueuedSet) (s : State) : ∃ st m b gs, gs.Nodup ∧ applySet q s = appliedWith st m b gs q s ∧
    ((∀ ps, .boostCurve ps ∉ q.records) → st = s.sdv.state ∧ b = s.sdv.boost ∧ m = s.sdv.manual) ∧
    ((∃ ps, .boostCurve ps ∈ q.records) → CurveTaken s.ctl.enabled.sdv s.sdv (s.core.live.writeAll q.records).boostCurve
      { s.sdv with state := st, manual := m, boost := b }) := by
  have calm : Calm s (rewritten q s) := ((writeRecords_calm q.records s).trans (.ofSame (retargetSet_same _ _))).trans (swapChains_calm _ _)
  obtain ⟨-, -, enabled, -⟩ := calm.settings
  have sdv : (rewritten q s).sdv = s.sdv := (rewritten_same q s) .sdv (by decide)
  obtain ⟨st, m, b, gs, once, told, unchanged, taken⟩ := tellSdv_follows s.core.live q.records (rewritten q s)
  rw [sdv] at unchanged taken
  rw [enabled, rewritten_live] at taken
  exact ⟨st, m, b, gs, once, congrArg (finishSet q) told, unchanged, taken⟩

section
variable (st : SdvState) (m : Option Nat) (b : Int) (gs : List Group) (q : QueuedSet) (s : State)

theorem followGroups_same (s : State) : SameBut [.ramp, .sdv] s (followGroups gs s) :=
  SameBut.foldl (fun s g => setGroupTarget_same g _ s) _ s

theorem appliedWith_same : SameBut [.ctl, .ramp, .commit, .sdv] (rewritten q s) (appliedWith st m b gs q s) :=
  (((sdvSet_same st m b _).mono (by decide)).trans ((followGroups_same gs _).mono (by decide))).trans ((finishSet_same q _).mono (by decide))

/-- R69, R27: of the core the live tables and the LEVEL targets change. -/
theorem appliedWith_core : (appliedWith st m b gs q s).core = { s.core with
    live := s.core.live.writeAll q.records, levelTargets := (appliedWith st m b gs q s).core.levelTargets } := by
  have core : (appliedWith st m b gs q s).core = (rewritten q s).core := (appliedWith_same st m b gs q s) .core (by decide)
  rw [core, rewritten_core, (retargetSet_changes _ _).1, writeRecords_core]

theorem appliedWith_levelTargets (o : Output) :
    (appliedWith st m b gs q s).core.levelTargets[o] = (s.core.live.writeAll q.records).levelTarget o := by
  have core : (appliedWith st m b gs q s).core = (rewritten q s).core := (appliedWith_same st m b gs q s) .core (by decide)
  rw [core, rewritten_levelInv q s o, rewritten_live]

theorem appliedWith_eq : (appliedWith st m b gs q s).eq = (q.records.filterMap ChangeRecord.chain?).foldl (EqUnit.swap (fades s)) s.eq := by
  rw [← rewritten_eq]
  exact (appliedWith_same st m b gs q s) .eq (by decide)

/-- R73: the set leaves the queue. -/
theorem appliedWith_commit : (appliedWith st m b gs q s).commit =
    { s.commit with queue := s.commit.queue.tail, lastApplied := some q.number } := by
  have kept : (followGroups gs (sdvSet st m b (rewritten q s))).commit = s.commit :=
    ((followGroups_same gs _) .commit (by decide)).trans
      (((sdvSet_same st m b _) .commit (by decide)).trans ((rewritten_same q s) .commit (by decide)))
  unfold appliedWith
  rw [finishSet_commit, kept]

theorem appliedWith_ramp : (appliedWith st m b gs q s).ramp = (followGroups gs (sdvSet st m b (rewritten q s))).ramp :=
  (finishSet_same q _) .ramp (by decide)

/-- R45: DUCK keys are left alone. -/
theorem appliedWith_ducks : (appliedWith st m b gs q s).ramp.duckTargets = s.ramp.duckTargets := by
  rw [appliedWith_ramp, followGroups_ducks, (sdvSet_same st m b _) .ramp (by decide), rewritten_ramp, RampUnit.applyMoves_ducks]

/-- R106, R109: of the SDV unit the state, the manual speed, the boost and the targets change. -/
theorem appliedWith_sdv : (appliedWith st m b gs q s).sdv =
    { s.sdv with state := st, manual := m, boost := b, targets := (appliedWith st m b gs q s).sdv.targets } := by
  have sdv : (appliedWith st m b gs q s).sdv = (followGroups gs (sdvSet st m b (rewritten q s))).sdv := (finishSet_same q _) .sdv (by decide)
  have before : (rewritten q s).sdv = s.sdv := (rewritten_same q s) .sdv (by decide)
  have followed := followGroups_sdv gs (sdvSet st m b (rewritten q s))
  rw [← sdv] at followed
  rw [followed]
  unfold sdvSet
  rw [before]

theorem appliedWith_sdvFields : let u := appliedWith st m b gs q s
    u.sdv.state = st ∧ u.sdv.boost = b ∧ u.sdv.manual = m ∧
    u.sdv = { s.sdv with state := u.sdv.state, boost := u.sdv.boost, manual := u.sdv.manual, targets := u.sdv.targets } := by
  intro u
  have sdv : u.sdv = _ := appliedWith_sdv st m b gs q s
  have state : u.sdv.state = st := congrArg Sdv.state sdv
  have boost : u.sdv.boost = b := congrArg Sdv.boost sdv
  have manual : u.sdv.manual = m := congrArg Sdv.manual sdv
  refine ⟨state, boost, manual, ?_⟩
  rw [state, boost, manual]
  exact sdv

/-! ### Its notices and what the TABLE unit hears -/

/-- R73, R106: an applied set tells of its own and of the SDV unit's state. -/
structure SetTold (applied told : Prop) (number : SetNo) (st : SdvState) (s u : State) : Prop where
  moved : NoticesMoved (fun n => (applied ∧ n = .setApplied number) ∨ (told ∧ n = .sdvState st)) s u
  setPending : applied → .setApplied number ∈ u.ctl.notices
  stateRaised : told → Raised (.sdvState st) u
  quiet : ¬ applied → ¬ told → NoNotice s u

theorem appliedWith_told : SetTold (q.notify = true ∧ s.ctl.noticeOn.setApplied = true)
    ((appliedWith st m b gs q s).sdv.state ≠ s.sdv.state ∧ s.ctl.noticeOn.sdvState = true)
    q.number (appliedWith st m b gs q s).sdv.state s (appliedWith st m b gs q s) ∧
    WritesHeard (fun d n => (∃ r ∈ q.records, r.carries d n) ∨
      sectionEntries (chainsOf s.eq (chainOutputs q.records) ++ namedSections q.records) d n) [] s (appliedWith st m b gs q s) := by
  rw [(appliedWith_sdvFields st m b gs q s).1]
  obtain ⟨heard, still⟩ := rewritten_heard q s
  obtain ⟨as, written, -⟩ := heard.answered
  have before : (rewritten q s).sdv = s.sdv := (rewritten_same q s) .sdv (by decide)
  have calm : Calm s (rewritten q s) := ((writeRecords_calm q.records s).trans (.ofSame (retargetSet_same _ _))).trans (swapChains_calm _ _)
  have calm' : Calm (rewritten q s) (setSdvState st (rewritten q s)) := setSdvState_calm st _
  obtain ⟨-, -, -, on⟩ := calm.settings
  obtain ⟨-, -, -, on'⟩ := (calm.trans calm').settings
  have ctl : (followGroups gs (sdvSet st m b (rewritten q s))).ctl = (setSdvState st (rewritten q s)).ctl := followGroups_ctl gs _
  have state : NoticeTold (st ≠ s.sdv.state ∧ s.ctl.noticeOn.sdvState = true) (.sdvState st) (rewritten q s)
      (followGroups gs (sdvSet st m b (rewritten q s))) := (setSdvState_told st (rewritten q s)).congr (by rw [before, on]) rfl ctl
  have finished : NoticeTold (q.notify = true ∧ s.ctl.noticeOn.setApplied = true) (.setApplied q.number)
      (followGroups gs (sdvSet st m b (rewritten q s))) (appliedWith st m b gs q s) :=
    (finishSet_told q _).congr (by rw [ctl, on']) rfl rfl
  refine ⟨⟨?_, finished.pending, fun told => ?_, fun unmarked untold => ?_⟩, ?_⟩
  · exact ((NoticesMoved.ofAnswered written still).trans (state.moved.mono fun n => .inr)).trans (finished.moved.mono fun n => .inl)
  · exact finished.moved.stays (.inl (state.pending told)) fun n ⟨_, same⟩ => by rw [same]; rfl
  · exact (still.trans (.ofCtl (state.quiet untold))).trans (.ofCtl (finished.quiet unmarked))
  · have table : (appliedWith st m b gs q s).table = (rewritten q s).table := (appliedWith_same st m b gs q s) .table (by decide)
    exact heard.thenAnswered (by simpa using state.answered.trans finished.answered fun a mem => absurd mem List.not_mem_nil) table
      fun a mem => absurd mem List.not_mem_nil

/-! ### Its ramps -/

/-- R46, R70: after the set's own moves the BOOST keys of `gs` are retargeted. -/
theorem appliedWith_boosts (once : gs.Nodup) (good : s.ramp.Good) :
    BoostsMoved gs (rewritten q s) (appliedWith st m b gs q s) := by
  have ramp : (sdvSet st m b (rewritten q s)).ramp = (rewritten q s).ramp := (sdvSet_same st m b _) .ramp (by decide)
  have core : (sdvSet st m b (rewritten q s)).core = (rewritten q s).core := (sdvSet_same st m b _) .core (by decide)
  have moved := (followGroups_moved once (s := sdvSet st m b (rewritten q s)) (by rw [ramp]; exact rewritten_good good)).after
    ramp (congrArg Core.mode core) rfl rfl
  have sdv : (appliedWith st m b gs q s).sdv = (followGroups gs (sdvSet st m b (rewritten q s))).sdv := (finishSet_same q _) .sdv (by decide)
  exact moved.before (appliedWith_ramp st m b gs q s) (congrArg Sdv.targets sdv)

end

end Sys2Proof.Machine

namespace Sys2Proof.Machine
-- One proof at a time: side by side the proofs start more threads than the memory limit allows.
set_option Elab.async false

/-! ## What an applied set leaves of the ramp table and of the EQ unit (R70, R71) -/

section
variable {st : SdvState} {m : Option Nat} {b : Int} {gs : List Group} {q : QueuedSet} {s : State}

/-- R70: general keys hold what the set's own moves made of them, DUCK keys what stood. -/
theorem appliedWith_entries (once : gs.Nodup) (good : s.ramp.Good) :
    (∀ i : Fin 64, i.val < 48 →
      (appliedWith st m b gs q s).ramp.entries[i] = (s.ramp.applyMoves s.core.mode (setMoves s q.records)).entries[i]) ∧
    ∀ src : Source, (appliedWith st m b gs q s).ramp.entries[48 + src.val] = s.ramp.entries[48 + src.val] := by
  have others := (appliedWith_boosts st m b gs q s once good).others
  refine ⟨fun i low => ?_, fun src => ?_⟩
  · rw [others i fun g _ => by omega, rewritten_ramp]
  · exact (others ⟨48 + src.val, by omega⟩ fun g _ => by dsimp only; omega).trans (rewritten_dedicated good (Dedicated.duck src) id)

/-- R70: after the set's own moves nothing more is done to a general key. -/
theorem appliedWith_general (once : gs.Nodup) (good : s.ramp.Good) {k : Key} (general : k.General) {old new : Gain} {ms : Nat}
    (h : Retargeted s.core.mode s.ramp (rewritten q s).ramp k old new ms) :
    Retargeted s.core.mode s.ramp (appliedWith st m b gs q s).ramp k old new ms := by
  have moved := appliedWith_boosts st m b gs q s once good
  have rewrote : (rewritten q s).ramp.Good := rewritten_good good
  exact h.within (.refl k s.ramp) (moved.kept rewrote general) good good rewrote moved.good

/-- R27, R29, R30, R70: an output's LEVEL key. -/
theorem appliedWith_level (once : gs.Nodup) (good : s.ramp.Good) (ready : examine s q = .none) (o : Output) : ∃ ms : Nat,
    LeastCause (fun l => LevelCause l (s.core.live.writeAll q.records) o) 200 s.core.live q.records ms ∧
    Retargeted s.core.mode s.ramp (appliedWith st m b gs q s).ramp (.level o) (.level s.core.levelTargets[o])
      (.level ((s.core.live.writeAll q.records).levelTarget o)) ms ∧
    ((s.core.live.writeAll q.records).levelTarget o ≠ s.core.levelTargets[o] → Move.mk (.level o) (.level s.core.levelTargets[o])
      (.level ((s.core.live.writeAll q.records).levelTarget o)) ms ∈ setMoves s q.records) := by
  obtain ⟨ms, least, retargeted, moves⟩ := rewritten_level good ready o
  exact ⟨ms, least, appliedWith_general (k := .level o) once good trivial retargeted, moves⟩

/-- R44, R70: a pair's CELL key. -/
theorem appliedWith_cell (once : gs.Nodup) (good : s.ramp.Good) (ready : examine s q = .none) (o : Output) (src : Source) : ∃ ms : Nat,
    LeastCause (fun l => CellCause l o src) 50 s.core.live q.records ms ∧
    Retargeted s.core.mode s.ramp (appliedWith st m b gs q s).ramp (.cell o src) s.core.live.cells[cellIndex o src]
      (s.core.live.writeAll q.records).cells[cellIndex o src] ms ∧
    ((s.core.live.writeAll q.records).cells[cellIndex o src] ≠ s.core.live.cells[cellIndex o src] → Move.mk (.cell o src)
      s.core.live.cells[cellIndex o src] (s.core.live.writeAll q.records).cells[cellIndex o src] ms ∈ setMoves s q.records) := by
  obtain ⟨ms, least, retargeted, moves⟩ := rewritten_cell good ready o src
  exact ⟨ms, least, appliedWith_general (k := .cell o src) once good trivial retargeted, moves⟩

/-- R46, R109: each BOOST key is retargeted from the group's old target to the new one. -/
theorem appliedWith_boostsRetargeted (once : gs.Nodup) (good : s.ramp.Good) :
    BoostsRetargeted s.sdv.rampMs s (appliedWith st m b gs q s) := fun g => by
  have sdv : (rewritten q s).sdv = s.sdv := (rewritten_same q s) .sdv (by decide)
  have entry : (rewritten q s).ramp.entries[60 + g.val] = s.ramp.entries[60 + g.val] := rewritten_dedicated good (Dedicated.boost g) id
  have present := good.present_dedicated (rewritten_good (q := q) good) (Dedicated.boost g) entry (.level s.sdv.targets[g])
  have moved := (appliedWith_boosts st m b gs q s once good).retargeted g
  rw [sdv, entry, rewritten_mode, retargetedEntry_congr present] at moved
  exact moved

/-- R80: a queued set's sections stand in no chain. -/
theorem queued_apart (queued : q ∈ s.commit.queue)
    (once : (chainSections s.eq ++ oldSections s.eq ++ queuedSections s.commit).Nodup) :
    ∀ n ∈ namedSections q.records, n ∉ chainsOf s.eq (chainOutputs q.records) := fun n named chained => by
  obtain ⟨o, -, chained⟩ := mem_chainsOf.mp chained
  have live : n ∈ chainSections s.eq := mem_chainSections chained
  have claimed : n ∈ queuedSections s.commit := List.mem_flatten.mpr ⟨_, List.mem_map.mpr ⟨q, queued, rfl⟩, named⟩
  exact List.disjoint_of_nodup_append once (List.mem_append_left _ live) claimed

/-- R92 to R95: sections and slots after a set's swaps. -/
theorem appliedWith_pool (outputs : (chainOutputs q.records).Nodup)
    (apart : ∀ n ∈ namedSections q.records, n ∉ chainsOf s.eq (chainOutputs q.records)) (ready : examine s q = .none) :
    let u := appliedWith st m b gs q s
    let fade := s.core.mode = .run ∧ s.ctl.enabled.eq = true
    let free := (List.finRange 4).filter fun i => (s.eq.slots[i]).isNone
    let old := ((chainOutputs q.records).map fun o => s.eq.chains[o]).flatten
    u.eq = { s.eq with sections := u.eq.sections, chains := u.eq.chains, slots := u.eq.slots } ∧
    (∀ n : SectionNo, u.eq.sections[n] =
      if n ∈ namedSections q.records then
        { s.eq.sections[n] with state := .live, hist := { x1 := 0, x2 := 0, y1 := 0, y2 := 0 } }
      else if n ∈ old then { s.eq.sections[n] with state := if fade then .retiring else .loaded }
      else s.eq.sections[n]) ∧
    (¬ fade → u.eq.slots = s.eq.slots) ∧
    (fade → ∀ i : Fin 4, (s.eq.slots[i] ≠ none → u.eq.slots[i] = s.eq.slots[i]) ∧
      ∀ j : Nat, free[j]? = some i → u.eq.slots[i] = (chainOutputs q.records)[j]?.map fun o =>
        { output := o, old := s.eq.chains[o], k := 0, due := false }) := by
  intro u fade free old
  have eq : u.eq = (q.records.filterMap ChangeRecord.chain?).foldl (EqUnit.swap (fades s)) s.eq := appliedWith_eq st m b gs q s
  obtain ⟨-, -, crossfade, -⟩ := examine_none ready
  have room : fades s = true → (q.records.filterMap ChangeRecord.chain?).length ≤ s.eq.free.length := fun fade => by
    obtain ⟨run, on⟩ := of_decide_eq_true fade
    have enough := crossfade run on
    rwa [chainOutputs, List.length_map, EqUnit.freeSlots_eq] at enough
  rw [eq]
  have leaving : leavingState (fades s) = if fade then .retiring else .loaded := by simp only [leavingState, fades, decide_eq_true_eq, fade]
  refine ⟨foldl_swap_kept _ _ _, fun n => ?_, fun unfaded => ?_, fun faded => ?_⟩
  · rw [foldl_swap_section n outputs room apart, swappedSection, leaving]
    rfl
  · have still : fades s = false := decide_eq_false unfaded
    rw [still]
    exact foldl_swap_slots_none _ _
  · have fading : fades s = true := decide_eq_true faded
    rw [fading]
    exact foldl_swap_slots outputs (room fading)

end

end Sys2Proof.Machine

namespace Sys2Proof.Machine
-- One proof at a time: side by side the proofs start more threads than the memory limit allows.
set_option Elab.async false

/-! ## SET_APPLICATION (R65, R69 to R73) -/

/-- The state in which the owed examination is taken. -/
def examTaken (s : State) : State := { s with frame := { s.frame with examDue := false } }

theorem examTaken_same (s : State) : SameBut [.ctl, .core, .ramp, .commit, .eq, .sdv, .table, .frame] s (examTaken s) :=
  SameBut.ofParts fun p => by cases p <;> first | exact Or.inr rfl | exact Or.inl (by decide)

theorem exec_setApplication {s : State} (due : s.frame.examDue = true) :
    exec .setApplication s = .next (closeIfSettled (examineHead (examTaken s))) := by
  have exam : takeExam s = examineHead (examTaken s) := if_pos due
  refine Eq.trans (b := .next (if s.frame.examDue then closeIfSettled (takeExam s) else s)) rfl ?_
  rw [if_pos due, exam]

theorem examineHead_head {q : QueuedSet} {rest : List QueuedSet} {s : State} (queue : s.commit.queue = q :: rest) :
    (examine s q = .none → examineHead s = applySet q s) ∧
    (examine s q ≠ .none → examineHead s =
      { s with commit := { s.commit with queue := { q with wait := examine s q } :: rest } }) := by
  unfold examineHead
  rw [queue]
  dsimp only
  cases reason : examine s q <;> simp

/-- R110: of the unit told of a curve the state, the boost and the manual speed count. -/
theorem CurveTaken.congr {on : Bool} {u v w : Sdv} {curve : List (Nat × Int)} (h : CurveTaken on u curve v) (state : w.state = v.state)
    (boost : w.boost = v.boost) (manual : w.manual = v.manual) : CurveTaken on u curve w := by
  unfold CurveTaken TookStateByAge at h ⊢
  rw [state, boost, manual]
  exact h

theorem NoticesMoved.dropped {raised : Notice → Prop} {s t : State} (h : NoticesMoved raised s t) :
    ∀ p ∈ t.ctl.queue.drop s.ctl.queue.length, ∃ n : Notice, p = .packet (noticePacket n) ∧ (raised n ∨ n ∈ s.ctl.notices) := by
  intro p mem
  obtain ⟨i, place⟩ := List.getElem?_of_mem mem
  rw [List.getElem?_drop] at place
  exact h.queued _ p (Nat.le_add_right _ _) place

/-- Settles O29: the set is applied in three parts: the records, moves and swaps; what the SDV unit is told; the set's end. Each clause
is the law of the part that it speaks of. -/
theorem headSetTaken : Obligations.HeadSetTaken := by
  refine ⟨fun s due empty => ?empty, fun q rest s due queue => ⟨fun wait => ?waits, fun ready => ?applied⟩⟩
  case empty =>
    rw [exec_setApplication due, examineHead, show (examTaken s).commit.queue = [] from empty]
    rfl
  case waits =>
    rw [exec_setApplication due, (examineHead_head (s := examTaken s) queue).2 wait]
    rfl
  case applied =>
    obtain ⟨st, m, b, gs, once, eq, unchanged, taken⟩ := applySet_eq q (examTaken s)
    have same := applySet_same q (examTaken s)
    have settings := (applySet_calm q (examTaken s)).settings
    have chains : (appliedWith st m b gs q (examTaken s)).eq = _ := appliedWith_eq st m b gs q (examTaken s)
    obtain ⟨state, boost, manual, sdv⟩ := appliedWith_sdvFields st m b gs q (examTaken s)
    have queued : q ∈ s.commit.queue := by rw [queue]; exact List.mem_cons_self
    obtain ⟨told, heard⟩ := appliedWith_told st m b gs q (examTaken s)
    refine ⟨applySet q (examTaken s), ?exec, ?_⟩
    case exec => rw [exec_setApplication due, (examineHead_head (s := examTaken s) queue).1 ready]
    rw [eq] at same settings ⊢
    refine ⟨appliedWith_core st m b gs q (examTaken s), appliedWith_levelTargets st m b gs q (examTaken s),
      appliedWith_ducks st m b gs q (examTaken s), ?dequeued, ?otherChains, ?ownChains, ?_⟩
    case dequeued =>
      rw [appliedWith_commit, show (examTaken s).commit = s.commit from rfl, queue, List.tail_cons]
    case otherChains =>
      intro o out
      rw [chains]
      exact foldl_swap_chain_other _ _ _ o out
    case ownChains =>
      intro outputs o l mem
      rw [chains]
      exact foldl_swap_chain _ _ outputs (o, l) (List.mem_filterMap.mpr ⟨_, mem, rfl⟩)
    refine ⟨told.setPending, told.quiet, told.moved.pending, told.moved.dropped, told.moved.others, settings,
      same .frame (by decide), (examTaken_same s).trans (same.mono (by decide)), ?heard, ?ramps, ?pool, ?sdv⟩
    case heard => exact heard.of_ctl ⟨rfl, rfl⟩ ⟨rfl, rfl⟩
    case ramps =>
      intro inv
      have good : s.ramp.Good := (rampInv_iff s).mp inv
      obtain ⟨general, ducks⟩ := appliedWith_entries (st := st) (m := m) (b := b) (q := q) (s := examTaken s) once good
      exact ⟨general, ducks, appliedWith_level (s := examTaken s) once good ready, appliedWith_cell (s := examTaken s) once good ready,
        fun _ => appliedWith_boostsRetargeted (s := examTaken s) once good⟩
    case pool =>
      intro pool
      exact appliedWith_pool (s := examTaken s) (pool.setOutputs q queued) (queued_apart queued pool.once) ready
    case sdv =>
      intro inv
      have after : BoostInv (examTaken s) := (Follows.ofFields : Follows s (examTaken s)).boost inv
      have followed := (applySet_follows (s := examTaken s) queued).boost after
      rw [eq] at followed
      have live := congrArg Core.live (appliedWith_core st m b gs q (examTaken s))
      refine ⟨sdv, fun g => ?_, fun none => ?_, fun ps mem => (taken ⟨ps, mem⟩).congr state boost manual,
        fun moved on => told.stateRaised ⟨moved, on⟩⟩
      · have target := followed.targets g
        rw [live] at target
        exact target
      · rw [state, boost, manual]
        exact unchanged none

end Sys2Proof.Machine

namespace Sys2Proof.Machine
-- One proof at a time: side by side the proofs start more threads than the memory limit allows.
set_option Elab.async false

/-! ## The free map (R80, R81) -/

/-- R80: the markers mark exactly the FREE sections, and a group's marker stands while its word has one. -/
structure FreeMap (e : EqUnit) : Prop where
  marked : ∀ n : SectionNo, e.marked n = true ↔ (e.sections[n]).state = .free
  groups : ∀ g : Fin 4, e.free0.getLsbD g.val = true ↔ ∃ n : SectionNo, sectionGroup n = g ∧ e.marked n = true

theorem section_eq_iff {n m : SectionNo} : n = m ↔ sectionGroup n = sectionGroup m ∧ sectionMarker n = sectionMarker m := by
  unfold sectionGroup sectionMarker
  simp only [Fin.ext_iff]
  omega

theorem EqUnit.marked_markFree (e : EqUnit) (n m : SectionNo) : (e.markFree n).marked m = (decide (m = n) || e.marked m) := by
  have bound : sectionMarker n < 64 := Nat.mod_lt _ (by decide)
  simp only [section_eq_iff (n := m)]
  unfold marked markFree
  by_cases group : sectionGroup m = sectionGroup n
  · simp [group, BitVec.getLsbD_twoPow, bound, Bool.or_comm, eq_comm]
  · have apart : ¬ (sectionGroup n).val = (sectionGroup m).val := fun same => group (Fin.ext same.symm)
    simp [group, apart]

theorem EqUnit.marked_markUsed (e : EqUnit) (n m : SectionNo) : (e.markUsed n).marked m = (e.marked m && decide (m ≠ n)) := by
  have below : sectionMarker m < 64 := Nat.mod_lt _ (by decide)
  simp only [ne_eq, section_eq_iff (n := m)]
  unfold marked markUsed
  by_cases group : sectionGroup m = sectionGroup n
  · simp [group, below, eq_comm]
  · have apart : ¬ (sectionGroup n).val = (sectionGroup m).val := fun same => group (Fin.ext same.symm)
    simp [group, apart]

/-- R81: a group's marker is cleared when its word has none left. -/
theorem EqUnit.groupBit_markUsed (e : EqUnit) (n : SectionNo) (g : Fin 4) : (e.markUsed n).free0.getLsbD g.val =
    (e.free0.getLsbD g.val && decide ¬ (g = sectionGroup n ∧ (e.markUsed n).free1[g] = 0)) := by
  have word : (e.markUsed n).free1[sectionGroup n] = e.free1[sectionGroup n] &&& ~~~BitVec.twoPow 64 (sectionMarker n) := by
    simp [markUsed]
  have bits : (e.markUsed n).free0 = if e.free1[sectionGroup n] &&& ~~~BitVec.twoPow 64 (sectionMarker n) = 0 then
      e.free0 &&& ~~~BitVec.twoPow 4 (sectionGroup n).val else e.free0 := rfl
  rw [bits]
  by_cases group : g = sectionGroup n
  · subst group
    rw [word]
    split
    next empty => simp [empty, -Fin.getElem_fin]
    next rest => simp only [rest, and_false, not_false_eq_true, decide_true, Bool.and_true]
  · split <;> simp [group, Fin.val_inj]

/-- R80: a group's word is not zero while one of its sections is marked. -/
theorem EqUnit.word_ne_zero (e : EqUnit) (g : Fin 4) : e.free1[g] ≠ 0 ↔ ∃ n : SectionNo, sectionGroup n = g ∧ e.marked n = true := by
  constructor
  · intro ne
    obtain ⟨i, bit⟩ : ∃ i, (e.free1[g]).getLsbD i = true := by
      by_contra none
      simp only [not_exists, Bool.not_eq_true] at none
      exact ne (BitVec.eq_of_getLsbD_eq fun i _ => (none i).trans BitVec.getLsbD_zero.symm)
    have bound : i < 64 := by
      by_contra high
      rw [BitVec.getLsbD_of_ge _ _ (not_lt.mp high)] at bit
      cases bit
    have group : sectionGroup ⟨64 * g.val + i, by omega⟩ = g := Fin.ext (by unfold sectionGroup; dsimp only; omega)
    have marker : sectionMarker ⟨64 * g.val + i, by omega⟩ = i := by unfold sectionMarker; dsimp only; omega
    refine ⟨⟨64 * g.val + i, by omega⟩, group, ?_⟩
    unfold marked
    rw [marker]
    simpa [group] using bit
  · rintro ⟨n, rfl, bit⟩ zero
    simp [marked] at bit zero
    simp [zero] at bit

theorem FreeMap.congr {e d : EqUnit} (h : FreeMap e) (free1 : d.free1 = e.free1 := by rfl) (free0 : d.free0 = e.free0 := by rfl)
    (states : ∀ n : SectionNo, (d.sections[n]).state = .free ↔ (e.sections[n]).state = .free) : FreeMap d := by
  have marked : ∀ n, d.marked n = e.marked n := fun n => by unfold EqUnit.marked; rw [free1]
  refine ⟨fun n => ?_, fun g => ?_⟩
  · rw [marked, states]
    exact h.marked n
  · simp only [marked, free0]
    exact h.groups g

/-- R81: a section becomes FREE. -/
theorem FreeMap.markFree {e d : EqUnit} {n : SectionNo} (h : FreeMap e) (free1 : d.free1 = (e.markFree n).free1 := by rfl)
    (free0 : d.free0 = (e.markFree n).free0 := by rfl)
    (states : ∀ m : SectionNo, (d.sections[m]).state = .free ↔ m = n ∨ (e.sections[m]).state = .free) : FreeMap d := by
  have marked : ∀ m, d.marked m = (decide (m = n) || e.marked m) := fun m => by
    rw [← EqUnit.marked_markFree]
    unfold EqUnit.marked
    rw [free1]
  refine ⟨fun m => ?_, fun g => ?_⟩
  · rw [marked, states, ← h.marked m]
    simp
  · have bit : d.free0.getLsbD g.val = true ↔ sectionGroup n = g ∨ e.free0.getLsbD g.val = true := by
      rw [free0]
      simp only [EqUnit.markFree, BitVec.getLsbD_or, BitVec.getLsbD_twoPow, Bool.or_eq_true, Bool.and_eq_true, decide_eq_true_eq,
        (sectionGroup n).isLt, true_and, Fin.val_inj, or_comm]
    rw [bit, h.groups]
    simp only [marked, Bool.or_eq_true, decide_eq_true_eq]
    constructor
    · rintro (rfl | ⟨m, group, mark⟩)
      · exact ⟨n, rfl, .inl rfl⟩
      · exact ⟨m, group, .inr mark⟩
    · rintro ⟨m, rfl, rfl | mark⟩
      · exact .inl rfl
      · exact .inr ⟨m, rfl, mark⟩

/-- R81: a FREE section is allocated. -/
theorem FreeMap.markUsed {e d : EqUnit} {n : SectionNo} (h : FreeMap e) (free : (e.sections[n]).state = .free)
    (free1 : d.free1 = (e.markUsed n).free1 := by rfl) (free0 : d.free0 = (e.markUsed n).free0 := by rfl)
    (states : ∀ m : SectionNo, (d.sections[m]).state = .free ↔ m ≠ n ∧ (e.sections[m]).state = .free) : FreeMap d := by
  have marked : ∀ m, d.marked m = (e.marked m && decide (m ≠ n)) := fun m => by
    rw [← EqUnit.marked_markUsed]
    unfold EqUnit.marked
    rw [free1]
  refine ⟨fun m => ?_, fun g => ?_⟩
  · rw [marked, states, ← h.marked m]
    simp [and_comm]
  · rw [← EqUnit.word_ne_zero, free1, free0, EqUnit.groupBit_markUsed]
    by_cases group : g = sectionGroup n
    · subst group
      have before : e.free0.getLsbD (sectionGroup n).val = true := (h.groups _).mpr ⟨n, rfl, (h.marked n).mpr free⟩
      rw [before]
      simp
    · have word : (e.markUsed n).free1[g] = e.free1[g] := by
        have apart : ¬ (sectionGroup n).val = g.val := fun same => group (Fin.ext same.symm)
        simp [EqUnit.markUsed, apart]
      rw [word, e.word_ne_zero, ← h.groups]
      simp [group]

/-! ### The lowest-numbered FREE section (R81) -/

theorem find_finRange_some {k : Nat} {p : Fin k → Bool} {i : Fin k} (h : (List.finRange k).find? p = some i) :
    p i = true ∧ ∀ j : Fin k, j < i → p j = false := by
  obtain ⟨holds, n, bound, rfl, below⟩ := List.find?_eq_some_iff_getElem.mp h
  refine ⟨holds, fun j less => ?_⟩
  have less : j.val < n := by simpa [Fin.lt_def] using less
  simpa using below j.val less

theorem find_finRange_none {k : Nat} {p : Fin k → Bool} (h : (List.finRange k).find? p = none) (j : Fin k) : p j = false := by
  simpa using List.find?_eq_none.mp h j (List.mem_finRange j)

theorem FreeMap.lowestFree_none {e : EqUnit} (h : FreeMap e) (none : e.lowestFree = none) (n : SectionNo) : (e.sections[n]).state ≠ .free := by
  intro free
  have marked := (h.marked n).mpr free
  unfold EqUnit.lowestFree at none
  split at none
  next clear => exact absurd ((find_finRange_none clear (sectionGroup n)).symm.trans ((h.groups _).mpr ⟨n, rfl, marked⟩)) (by decide)
  next g found =>
    obtain ⟨bit, -⟩ := find_finRange_some found
    obtain ⟨m, rfl, mark⟩ := (h.groups g).mp bit
    split at none
    next clear =>
      have unmarked := find_finRange_none clear ⟨sectionMarker m, Nat.mod_lt _ (by decide)⟩
      exact absurd (unmarked.symm.trans mark) (by decide)
    next => cases none

theorem FreeMap.lowestFree_some {e : EqUnit} (h : FreeMap e) {n : SectionNo} (found : e.lowestFree = some n) :
    (e.sections[n]).state = .free ∧ ∀ m : SectionNo, m < n → (e.sections[m]).state ≠ .free := by
  unfold EqUnit.lowestFree at found
  split at found
  next => cases found
  next g group =>
    obtain ⟨-, lower⟩ := find_finRange_some group
    split at found
    next => cases found
    next k marker =>
      obtain ⟨bit, below⟩ := find_finRange_some marker
      cases found
      have here : sectionGroup ⟨64 * g.val + k.val, by omega⟩ = g := Fin.ext (by unfold sectionGroup; dsimp only; omega)
      have place : sectionMarker ⟨64 * g.val + k.val, by omega⟩ = k := by unfold sectionMarker; dsimp only; omega
      refine ⟨(h.marked _).mp ?_, fun m less free => ?_⟩
      · unfold EqUnit.marked
        rw [place]
        simpa [here] using bit
      · have mark := (h.marked m).mpr free
        have order : m.val < 64 * g.val + k.val := less
        rcases lt_trichotomy (sectionGroup m) g with earlier | same | later
        · exact absurd ((lower _ earlier).symm.trans ((h.groups _).mpr ⟨m, rfl, mark⟩)) (by decide)
        · have smaller : sectionMarker m < k.val := by
            have : m.val / 64 = g.val := congrArg Fin.val same
            unfold sectionMarker
            omega
          have clear := below ⟨sectionMarker m, by omega⟩ smaller
          subst same
          exact absurd (clear.symm.trans mark) (by decide)
        · have : g.val < m.val / 64 := later
          omega

/-- R81: an allocation takes the lowest-numbered FREE section. -/
theorem FreeMap.lowestFree_eq {e : EqUnit} (h : FreeMap e) {n : SectionNo} (free : (e.sections[n]).state = .free)
    (lowest : ∀ m : SectionNo, m < n → (e.sections[m]).state ≠ .free) : e.lowestFree = some n := by
  cases found : e.lowestFree with
  | none => exact absurd free (h.lowestFree_none found n)
  | some k =>
    obtain ⟨freeK, lowestK⟩ := h.lowestFree_some found
    rcases lt_trichotomy k n with less | rfl | less
    · exact absurd freeK (lowest k less)
    · rfl
    · exact absurd free (lowestK n less)

/-- R80, R81: the allocation of a FREE section lowers the free count by one. -/
theorem EqUnit.freeCount_markUsed {e : EqUnit} {n : SectionNo} (mark : e.marked n = true) : (e.markUsed n).freeCount + 1 = e.freeCount := by
  have split : (List.finRange 256).countP e.marked =
      (List.finRange 256).countP (e.markUsed n).marked + (List.finRange 256).countP (fun m => decide (m = n)) := by
    induction List.finRange 256 with
    | nil => rfl
    | cons m ms ih =>
      simp only [List.countP_cons, EqUnit.marked_markUsed] at ih ⊢
      by_cases here : m = n
      · subst here
        simp [mark] at ih ⊢
        omega
      · simp [here] at ih ⊢
        omega
  have one : (List.finRange 256).countP (fun m => decide (m = n)) = 1 := by
    have := List.count_eq_one_of_mem (List.nodup_finRange 256) (List.mem_finRange n)
    rw [← this, List.count]
    congr 1
  unfold EqUnit.freeCount
  omega

end Sys2Proof.Machine

namespace Sys2Proof.Machine
-- One proof at a time: side by side the proofs start more threads than the memory limit allows.
set_option Elab.async false

/-! ## Who names a section (R78, R80, R89, R92) -/

/-- A state whose sections are named: by a chain, an old chain, a queued set or the pending write. -/
def SectionState.named : SectionState → Bool
  | .free | .loaded => false
  | .loading | .claimed | .live | .retiring => true

/-- The sections named as being in a state, `queued` being those of the queued sets. -/
def EqUnit.namers (e : EqUnit) (queued : List SectionNo) : SectionState → List SectionNo
  | .live => chainSections e
  | .retiring => oldSections e
  | .claimed => queued
  | .loading => pendingSections e
  | .free => []
  | .loaded => []

/-- R78, R80, R89, R92: each section of a named state is named once, and no other section is. -/
def Owned (e : EqUnit) (queued : List SectionNo) : Prop :=
  ∀ x : SectionState, x.named = true → ∀ n : SectionNo, (e.namers queued x).count n = if (e.sections[n]).state = x then 1 else 0

theorem pendingSections_nodup (e : EqUnit) : (pendingSections e).Nodup := by
  unfold pendingSections
  cases e.pendingWrite <;> simp

section
variable {e d : EqUnit} {queued waiting : List SectionNo}

theorem Owned.mem (h : Owned e queued) {x : SectionState} (named : x.named = true) (n : SectionNo) :
    n ∈ e.namers queued x ↔ (e.sections[n]).state = x := by
  rw [← List.count_pos_iff, h x named n]
  split <;> simp_all

theorem owned_iff : Owned e queued ↔
    (∀ n : SectionNo, n ∈ chainSections e ↔ (e.sections[n]).state = .live) ∧
    (∀ n : SectionNo, n ∈ oldSections e ↔ (e.sections[n]).state = .retiring) ∧
    (∀ n : SectionNo, n ∈ queued ↔ (e.sections[n]).state = .claimed) ∧
    (∀ n : SectionNo, n ∈ pendingSections e ↔ (e.sections[n]).state = .loading) ∧
    (chainSections e ++ oldSections e ++ queued).Nodup := by
  constructor
  · intro h
    refine ⟨h.mem (x := .live) rfl, h.mem (x := .retiring) rfl, h.mem (x := .claimed) rfl, h.mem (x := .loading) rfl, ?_⟩
    rw [List.nodup_iff_count_le_one]
    intro n
    have live := h .live rfl n
    have retiring := h .retiring rfl n
    have claimed := h .claimed rfl n
    simp only [EqUnit.namers] at live retiring claimed
    rw [List.count_append, List.count_append, live, retiring, claimed]
    cases (e.sections[n]).state <;> decide
  · rintro ⟨live, retiring, claimed, loading, once⟩ x named n
    obtain ⟨both, queuedOnce, -⟩ := List.nodup_append.mp once
    obtain ⟨chainOnce, oldOnce, -⟩ := List.nodup_append.mp both
    cases x with
    | free => cases named
    | loaded => cases named
    | live => simp only [EqUnit.namers, chainOnce.count, live]
    | retiring => simp only [EqUnit.namers, oldOnce.count, retiring]
    | claimed => simp only [EqUnit.namers, queuedOnce.count, claimed]
    | loading => simp only [EqUnit.namers, (pendingSections_nodup e).count, loading]

/-- Sections that one list gives up, or that nothing names, are in the state they leave, each once. -/
structure Leaving (e : EqUnit) (a : SectionState) (is : List SectionNo) : Prop where
  once : is.Nodup
  state : ∀ n ∈ is, (e.sections[n]).state = a

theorem Owned.leaving (h : Owned e queued) {a : SectionState} (named : a.named = true) {rest is : List SectionNo}
    (split : ∀ n, rest.count n + is.count n = (e.namers queued a).count n) : Leaving e a is := by
  have counts : ∀ n, is.count n ≤ if (e.sections[n]).state = a then 1 else 0 := fun n => by
    have := split n
    rw [h a named n] at this
    omega
  refine ⟨List.nodup_iff_count_le_one.mpr fun n => (counts n).trans (by split <;> decide), fun n mem => ?_⟩
  have := counts n
  have positive := List.count_pos_iff.mpr mem
  by_contra other
  rw [if_neg other] at this
  omega

/-- Sections go from state `a` to state `b`: the list that names those of `a` gives them up, the one of `b` takes them. -/
theorem Owned.move (h : Owned e queued) {a b : SectionState} {is : List SectionNo} (leaving : Leaving e a is) (apart : a ≠ b)
    (source : a.named = true → ∀ n, (d.namers waiting a).count n + is.count n = (e.namers queued a).count n)
    (target : b.named = true → ∀ n, (d.namers waiting b).count n = (e.namers queued b).count n + is.count n)
    (others : ∀ x, x.named = true → x ≠ a → x ≠ b → d.namers waiting x = e.namers queued x)
    (states : ∀ n : SectionNo, (d.sections[n]).state = if n ∈ is then b else (e.sections[n]).state) : Owned d waiting := by
  intro x named n
  have before := h x named n
  have count : is.count n = if n ∈ is then 1 else 0 := leaving.once.count
  have state := leaving.state n
  rw [states n]
  by_cases here : n ∈ is
  · rw [if_pos here] at count ⊢
    rw [state here] at before
    by_cases fromHere : x = a
    · subst fromHere
      have := source named n
      simp only [if_true] at before
      rw [if_neg apart.symm]
      omega
    · by_cases toHere : x = b
      · subst toHere
        rw [if_neg (Ne.symm fromHere)] at before
        rw [target named n, if_pos rfl]
        omega
      · rw [others x named fromHere toHere, before, if_neg (Ne.symm fromHere), if_neg (Ne.symm toHere)]
  · rw [if_neg here] at count ⊢
    rw [← before]
    by_cases fromHere : x = a
    · subst fromHere
      have := source named n
      omega
    · by_cases toHere : x = b
      · subst toHere
        rw [target named n]
        omega
      · rw [others x named fromHere toHere]

theorem Owned.congr (h : Owned e queued) (namers : ∀ x, x.named = true → d.namers waiting x = e.namers queued x)
    (states : ∀ n : SectionNo, (d.sections[n]).state = (e.sections[n]).state) : Owned d waiting := fun x named n => by
  rw [namers x named, states, h x named n]

end

/-! ### The lists after a chain or a slot changes -/

theorem count_flatten_set {α : Type} {k : Nat} (f : α → List SectionNo) (v : Vector α k) (i : Fin k) (x : α) (n : SectionNo) :
    (((v.set i x).toList.map f).flatten).count n + (f v[i]).count n = ((v.toList.map f).flatten).count n + (f x).count n := by
  have bound : i.val < v.toList.length := by simp
  have here : v.toList[i.val] = v[i] := by simp
  have split : v.toList = v.toList.take i.val ++ v[i] :: v.toList.drop (i.val + 1) := by
    rw [← here, List.getElem_cons_drop, List.take_append_drop]
  have changed : (v.set i x).toList = v.toList.take i.val ++ x :: v.toList.drop (i.val + 1) := by
    rw [Vector.toList_set, List.set_eq_take_append_cons_drop, if_pos bound]
  rw [changed]
  conv_rhs => rw [split]
  simp only [List.map_append, List.map_cons, List.flatten_append, List.flatten_cons, List.count_append]
  omega

theorem count_chainSections_set {e d : EqUnit} {o : Output} {l : List SectionNo} (chains : d.chains = e.chains.set o l) (n : SectionNo) :
    (chainSections d).count n + (e.chains[o]).count n = (chainSections e).count n + l.count n := by
  have := count_flatten_set id e.chains o l n
  simpa [chainSections, chains] using this

/-- The sections a slot holds of an old chain. -/
def slotOld : Option Crossfade → List SectionNo
  | some f => f.old
  | none => []

theorem oldSections_eq (e : EqUnit) : oldSections e = (e.slots.toList.map slotOld).flatten :=
  congrArg List.flatten (List.map_congr_left fun x _ => by cases x <;> rfl)

theorem count_oldSections_set {e d : EqUnit} {i : Fin 4} {x : Option Crossfade} (slots : d.slots = e.slots.set i x) (n : SectionNo) :
    (oldSections d).count n + (slotOld e.slots[i]).count n = (oldSections e).count n + (slotOld x).count n := by
  rw [oldSections_eq, oldSections_eq, slots]
  exact count_flatten_set slotOld e.slots i x n

end Sys2Proof.Machine

namespace Sys2Proof.Machine
-- One proof at a time: side by side the proofs start more threads than the memory limit allows.
set_option Elab.async false

/-! ## The pool of the EQ unit (R78, R80, R81, R92) -/

/-- No two slots in use carry one output. -/
def OutputsOnce (e : EqUnit) : Prop :=
  ∀ (i j : Fin 4) (f g : Crossfade), e.slots[i] = some f → e.slots[j] = some g → f.output = g.output → i = j

/-- What the pool invariant says of the EQ unit's fields, `queued` being the sections of the queued sets. -/
structure PoolGood (e : EqUnit) (queued : List SectionNo) : Prop where
  map : FreeMap e
  owned : Owned e queued
  outputs : OutputsOnce e

section
variable {e d : EqUnit} {queued waiting : List SectionNo}

theorem OutputsOnce.congr (h : OutputsOnce e) (slots : d.slots = e.slots) : OutputsOnce d := by
  unfold OutputsOnce
  rw [slots]
  exact h

/-- A slot is freed. -/
theorem OutputsOnce.freed (h : OutputsOnce e) {i : Fin 4} (slots : d.slots = e.slots.set i none) : OutputsOnce d := by
  have stood : ∀ {j : Fin 4} {f : Crossfade}, d.slots[j] = some f → e.slots[j] = some f := fun {j f} used => by
    rw [slots] at used
    by_cases here : i.val = j.val <;> simp_all
  exact fun i j f g atI atJ => h i j f g (stood atI) (stood atJ)

/-- A slot is taken for an output that no slot carries. -/
theorem OutputsOnce.taken (h : OutputsOnce e) {i : Fin 4} {x : Crossfade} (slots : d.slots = e.slots.set i (some x))
    (fresh : ∀ (j : Fin 4) (f : Crossfade), e.slots[j] = some f → f.output ≠ x.output) : OutputsOnce d := by
  have used : ∀ {j : Fin 4} {f : Crossfade}, d.slots[j] = some f → (j = i ∧ f = x) ∨ e.slots[j] = some f := fun {j f} used => by
    rw [slots] at used
    by_cases here : i.val = j.val
    · simp only [Fin.getElem_fin, here, Vector.getElem_set_self, Option.some.injEq] at used
      exact .inl ⟨Fin.ext here.symm, used.symm⟩
    · exact .inr (by simpa [here] using used)
  intro j k f g atJ atK same
  rcases used atJ with ⟨rfl, rfl⟩ | oldJ <;> rcases used atK with ⟨rfl, rfl⟩ | oldK
  · rfl
  · exact absurd same.symm (fresh k g oldK)
  · exact absurd same (fresh j f oldJ)
  · exact h j k f g oldJ oldK same

theorem Leaving.free_iff {a b : SectionState} {is : List SectionNo} (h : Leaving e a is) (a_ne : a ≠ .free) (b_ne : b ≠ .free)
    (states : ∀ n : SectionNo, (d.sections[n]).state = if n ∈ is then b else (e.sections[n]).state) (n : SectionNo) :
    (d.sections[n]).state = .free ↔ (e.sections[n]).state = .free := by
  rw [states n]
  split
  next mem => rw [h.state n mem]; exact ⟨fun x => absurd x b_ne, fun x => absurd x a_ne⟩
  · rfl

/-- Sections go from state to state, none of them FREE before or after. -/
theorem PoolGood.move (h : PoolGood e queued) {a b : SectionState} {is : List SectionNo} (leaving : Leaving e a is) (apart : a ≠ b)
    (source : a.named = true → ∀ n, (d.namers waiting a).count n + is.count n = (e.namers queued a).count n)
    (target : b.named = true → ∀ n, (d.namers waiting b).count n = (e.namers queued b).count n + is.count n)
    (others : ∀ x, x.named = true → x ≠ a → x ≠ b → d.namers waiting x = e.namers queued x)
    (states : ∀ n : SectionNo, (d.sections[n]).state = if n ∈ is then b else (e.sections[n]).state) (outputs : OutputsOnce d)
    (free1 : d.free1 = e.free1 := by rfl) (free0 : d.free0 = e.free0 := by rfl)
    (a_ne : a ≠ .free := by decide) (b_ne : b ≠ .free := by decide) : PoolGood d waiting where
  map := h.map.congr free1 free0 (leaving.free_iff a_ne b_ne states)
  owned := h.owned.move leaving apart source target others states
  outputs := outputs

theorem PoolGood.congr (h : PoolGood e queued) (namers : ∀ x, x.named = true → d.namers waiting x = e.namers queued x)
    (states : ∀ n : SectionNo, (d.sections[n]).state = (e.sections[n]).state) (outputs : OutputsOnce d)
    (free1 : d.free1 = e.free1 := by rfl) (free0 : d.free0 = e.free0 := by rfl) : PoolGood d waiting where
  map := h.map.congr free1 free0 fun n => by rw [states]
  owned := h.owned.congr namers states
  outputs := outputs

/-- What names a section depends on the chains, the slots, the queued sets and the pending write. -/
theorem EqUnit.namers_congr {x : SectionState} (live : x = .live → d.chains = e.chains) (retiring : x = .retiring → d.slots = e.slots)
    (claimed : x = .claimed → waiting = queued) (loading : x = .loading → d.pendingWrite = e.pendingWrite) :
    d.namers waiting x = e.namers queued x := by
  cases x with
  | live => exact chainSections_congr (live rfl)
  | retiring => exact oldSections_congr (retiring rfl)
  | claimed => exact claimed rfl
  | loading => simp only [namers, pendingSections, loading rfl]
  | free => rfl
  | loaded => rfl

/-- The free map stands, and the sections `is` are in state `st`. -/
structure StatesMoved (is : List SectionNo) (st : SectionState) (e d : EqUnit) : Prop where
  free1 : d.free1 = e.free1
  free0 : d.free0 = e.free0
  states : ∀ n : SectionNo, (d.sections[n]).state = if n ∈ is then st else (e.sections[n]).state

theorem EqUnit.putStates_moved (is : List SectionNo) (st : SectionState) (sections : d.sections = (e.putStates is st).sections := by rfl)
    (free1 : d.free1 = (e.putStates is st).free1 := by rfl) (free0 : d.free0 = (e.putStates is st).free0 := by rfl) :
    StatesMoved is st e d := by
  refine ⟨?_, ?_, fun n => ?_⟩
  · rw [free1, EqUnit.putStates_eq]
  · rw [free0, EqUnit.putStates_eq]
  · rw [sections, EqUnit.putStates_at]

theorem Leaving.single {a : SectionState} {n : SectionNo} (state : (e.sections[n]).state = a) : Leaving e a [n] :=
  ⟨List.nodup_singleton n, fun m mem => by rw [List.mem_singleton.mp mem]; exact state⟩

/-! ### Queued sets (R61, R75) -/

/-- R61: the sections of an accepted set are claimed. -/
theorem PoolGood.claim (h : PoolGood e queued) {is : List SectionNo} (leaving : Leaving e .loaded is)
    (moved : StatesMoved is .claimed e d) (chains : d.chains = e.chains) (slots : d.slots = e.slots)
    (pending : d.pendingWrite = e.pendingWrite) : PoolGood d (queued ++ is) :=
  h.move leaving (by decide) (fun named => by cases named) (fun _ n => List.count_append)
    (fun _ _ _ other => EqUnit.namers_congr (fun _ => chains) (fun _ => slots) (fun x => absurd x other) fun _ => pending)
    moved.states (h.outputs.congr slots) moved.free1 moved.free0

/-- R75: the sections of the queued sets return to LOADED. -/
theorem PoolGood.unclaim (h : PoolGood e queued) (moved : StatesMoved queued .loaded e d) (chains : d.chains = e.chains)
    (slots : d.slots = e.slots) (pending : d.pendingWrite = e.pendingWrite) : PoolGood d [] :=
  h.move (h.owned.leaving (a := .claimed) (rest := []) rfl fun n => by simp [EqUnit.namers]) (by decide)
    (fun _ n => by simp [EqUnit.namers]) (fun named => by cases named)
    (fun _ _ other _ => EqUnit.namers_congr (fun _ => chains) (fun _ => slots) (fun x => absurd x other) fun _ => pending)
    moved.states (h.outputs.congr slots) moved.free1 moved.free0

/-! ### Writes, allocation and release (R82 to R85, R87) -/

/-- Chains and slots stand. -/
structure NamesKept (e d : EqUnit) : Prop where
  chains : d.chains = e.chains
  slots : d.slots = e.slots

/-- The only list to change is that of the pending write. -/
theorem NamesKept.others (h : NamesKept e d) {x : SectionState} (other : x ≠ .loading) : d.namers queued x = e.namers queued x :=
  EqUnit.namers_congr (fun _ => h.chains) (fun _ => h.slots) (fun _ => rfl) fun x => absurd x other

theorem pendingSections_some {w : SectionWrite} (h : e.pendingWrite = some w) : pendingSections e = [w.sec] := by
  simp [pendingSections, h]

theorem pendingSections_none (h : e.pendingWrite = none) : pendingSections e = [] := by
  simp [pendingSections, h]

/-- R82: a section becomes LOADING and the pending write's. -/
theorem Owned.begin (h : Owned e queued) {a : SectionState} {w : SectionWrite} (state : (e.sections[w.sec]).state = a)
    (unnamed : a.named = false) (idle : e.pendingWrite = none) (pending : d.pendingWrite = some w) (kept : NamesKept e d)
    (states : ∀ n : SectionNo, (d.sections[n]).state = if n ∈ [w.sec] then .loading else (e.sections[n]).state) : Owned d queued := by
  refine h.move (.single state) (fun same => ?_) (fun named => ?_) (fun _ n => ?_) (fun _ _ _ other => kept.others other) states
  · subst same; cases unnamed
  · rw [unnamed] at named; cases named
  · simp only [EqUnit.namers, pendingSections_some pending, pendingSections_none idle, List.count_nil, Nat.zero_add]

/-- R82, R87: the pending write's section goes to a state in which nothing names it. -/
theorem Owned.finish (h : Owned e queued) {b : SectionState} {w : SectionWrite} (pending : e.pendingWrite = some w)
    (unnamed : b.named = false) (ended : d.pendingWrite = none) (kept : NamesKept e d)
    (states : ∀ n : SectionNo, (d.sections[n]).state = if n ∈ [w.sec] then b else (e.sections[n]).state) : Owned d queued := by
  have leaving : Leaving e .loading [w.sec] := h.leaving (rest := []) rfl fun n => by simp [EqUnit.namers, pendingSections_some pending]
  refine h.move leaving (fun same => ?_) (fun _ n => ?_) (fun named => ?_) (fun _ _ other _ => kept.others other) states
  · subst same; cases unnamed
  · simp [EqUnit.namers, pendingSections_some pending, pendingSections_none ended]
  · rw [unnamed] at named; cases named

/-- R84: a LOADED section is written again. -/
theorem PoolGood.rewrite (h : PoolGood e queued) {w : SectionWrite} (state : (e.sections[w.sec]).state = .loaded)
    (idle : e.pendingWrite = none) (pending : d.pendingWrite = some w) (kept : NamesKept e d)
    (moved : StatesMoved [w.sec] .loading e d) : PoolGood d queued where
  map := h.map.congr moved.free1 moved.free0 (Leaving.free_iff (.single state) (by decide) (by decide) moved.states)
  owned := h.owned.begin state rfl idle pending kept moved.states
  outputs := h.outputs.congr kept.slots

/-- R83: a FREE section is allocated and written. -/
theorem PoolGood.load (h : PoolGood e queued) {w : SectionWrite} (state : (e.sections[w.sec]).state = .free)
    (idle : e.pendingWrite = none) (pending : d.pendingWrite = some w) (kept : NamesKept e d)
    (moved : StatesMoved [w.sec] .loading (e.markUsed w.sec) d) : PoolGood d queued where
  map := h.map.markUsed state moved.free1 moved.free0 fun m => by
    rw [moved.states]
    by_cases here : m = w.sec <;> simp [here, EqUnit.markUsed]
  owned := h.owned.begin state rfl idle pending kept moved.states
  outputs := h.outputs.congr kept.slots

/-- R82, R87: a pending write ends with its section LOADED. -/
theorem PoolGood.finish (h : PoolGood e queued) {w : SectionWrite} (pending : e.pendingWrite = some w) (ended : d.pendingWrite = none)
    (kept : NamesKept e d) (moved : StatesMoved [w.sec] .loaded e d) : PoolGood d queued where
  map := by
    have leaving : Leaving e .loading [w.sec] :=
      h.owned.leaving (rest := []) rfl fun n => by simp [EqUnit.namers, pendingSections_some pending]
    exact h.map.congr moved.free1 moved.free0 (leaving.free_iff (by decide) (by decide) moved.states)
  owned := h.owned.finish pending rfl ended kept moved.states
  outputs := h.outputs.congr kept.slots

/-- R87: an abandoned LOAD frees its section. -/
theorem PoolGood.abandon (h : PoolGood e queued) {w : SectionWrite} (pending : e.pendingWrite = some w) (ended : d.pendingWrite = none)
    (kept : NamesKept e d) (free1 : d.free1 = (e.markFree w.sec).free1) (free0 : d.free0 = (e.markFree w.sec).free0)
    (states : ∀ n : SectionNo, (d.sections[n]).state = if n ∈ [w.sec] then .free else (e.sections[n]).state) : PoolGood d queued where
  map := h.map.markFree free1 free0 fun m => by
    rw [states]
    by_cases here : m = w.sec <;> simp [here]
  owned := h.owned.finish pending rfl ended kept states
  outputs := h.outputs.congr kept.slots

/-- R85: a LOADED section is released. -/
theorem PoolGood.release (h : PoolGood e queued) {i : SectionNo} (state : (e.sections[i]).state = .loaded)
    (pending : d.pendingWrite = e.pendingWrite) (kept : NamesKept e d) (free1 : d.free1 = (e.markFree i).free1)
    (free0 : d.free0 = (e.markFree i).free0)
    (states : ∀ n : SectionNo, (d.sections[n]).state = if n ∈ [i] then .free else (e.sections[n]).state) : PoolGood d queued where
  map := h.map.markFree free1 free0 fun m => by
    rw [states]
    by_cases here : m = i <;> simp [here]
  owned := h.owned.move (.single state) (by decide) (fun named => by cases named) (fun named => by cases named)
    (fun _ _ _ _ => EqUnit.namers_congr (fun _ => kept.chains) (fun _ => kept.slots) (fun _ => rfl) fun _ => pending) states
  outputs := h.outputs.congr kept.slots

/-! ### Crossfades and swaps (R71, R92 to R95) -/

/-- R94, R95: a slot ends, and the sections of its old chain return to LOADED. -/
theorem PoolGood.endSlot (h : PoolGood e queued) {i : Fin 4} {f : Crossfade} (used : e.slots[i] = some f)
    (slots : d.slots = e.slots.set i none) (chains : d.chains = e.chains) (pending : d.pendingWrite = e.pendingWrite)
    (moved : StatesMoved f.old .loaded e d) : PoolGood d queued := by
  have split : ∀ n, (oldSections d).count n + f.old.count n = (oldSections e).count n := fun n => by
    have := count_oldSections_set slots n
    rw [used] at this
    simpa [slotOld] using this
  exact h.move (h.owned.leaving (a := .retiring) rfl split) (by decide) (fun _ => split) (fun named => by cases named)
    (fun _ _ other _ => EqUnit.namers_congr (fun _ => chains) (fun x => absurd x other) (fun _ => rfl) fun _ => pending)
    moved.states (h.outputs.freed slots) moved.free1 moved.free0

/-- R71, R92: the sections of an output's chain leave it. -/
theorem PoolGood.unchain (h : PoolGood e queued) {o : Output} {faded : Bool} (chains : d.chains = e.chains.set o [])
    (pending : d.pendingWrite = e.pendingWrite)
    (old : ∀ n, (oldSections d).count n = (oldSections e).count n + if faded then (e.chains[o]).count n else 0)
    (still : faded = false → d.slots = e.slots) (outputs : OutputsOnce d)
    (moved : StatesMoved e.chains[o] (leavingState faded) e d) : PoolGood d queued := by
  have split : ∀ n, (chainSections d).count n + (e.chains[o]).count n = (chainSections e).count n := fun n => by
    simpa using count_chainSections_set chains n
  cases faded with
  | false =>
    exact h.move (h.owned.leaving (a := .live) rfl split) (b := .loaded) (by decide) (fun _ => split) (fun named => by cases named)
      (fun _ _ other _ => EqUnit.namers_congr (fun x => absurd x other) (fun _ => still rfl) (fun _ => rfl) fun _ => pending)
      moved.states outputs moved.free1 moved.free0
  | true =>
    exact h.move (h.owned.leaving (a := .live) rfl split) (b := .retiring) (by decide) (fun _ => split) (fun _ => old)
      (fun _ _ other out => EqUnit.namers_congr (fun x => absurd x other) (fun x => absurd x out) (fun _ => rfl) fun _ => pending)
      moved.states outputs moved.free1 moved.free0

/-- R71, R91: sections of a queued set become an output's chain. -/
theorem PoolGood.enchain (h : PoolGood e queued) {o : Output} {l : List SectionNo} (chains : d.chains = e.chains.set o l)
    (empty : e.chains[o] = []) (split : ∀ n, waiting.count n + l.count n = queued.count n) (slots : d.slots = e.slots)
    (pending : d.pendingWrite = e.pendingWrite) (moved : StatesMoved l .live e d) : PoolGood d waiting :=
  h.move (h.owned.leaving (a := .claimed) rfl split) (by decide) (fun _ => split)
    (fun _ n => by simpa [EqUnit.namers, empty] using count_chainSections_set chains n)
    (fun _ _ other out => EqUnit.namers_congr (fun x => absurd x out) (fun _ => slots) (fun x => absurd x other) fun _ => pending)
    moved.states (h.outputs.congr slots) moved.free1 moved.free0

/-- A swap half done: the old chain is out, the new one is not in. -/
def EqUnit.halfSwap (fade : Bool) (e : EqUnit) (c : Output × List SectionNo) : EqUnit :=
  { e.putStates e.chains[c.1] (leavingState (e.swapSlot fade).isSome) with
    chains := e.chains.set c.1 []
    slots := (e.swap fade c).slots }

/-- R71, R90 to R93, R95: a CHAIN record of a set is swapped in; `waiting` are the sections still to come. -/
theorem PoolGood.swap (h : PoolGood e queued) {fade : Bool} {c : Output × List SectionNo}
    (split : ∀ n, waiting.count n + c.2.count n = queued.count n)
    (fresh : ∀ (j : Fin 4) (f : Crossfade), e.slots[j] = some f → f.output ≠ c.1) : PoolGood (e.swap fade c) waiting := by
  have half : PoolGood (e.halfSwap fade c) queued := by
    have pending : (e.halfSwap fade c).pendingWrite = e.pendingWrite := by unfold EqUnit.halfSwap; rw [EqUnit.putStates_eq]
    have moved : StatesMoved e.chains[c.1] (leavingState (e.swapSlot fade).isSome) e (e.halfSwap fade c) := EqUnit.putStates_moved _ _
    cases slot : e.swapSlot fade with
    | none =>
      have slots : (e.halfSwap fade c).slots = e.slots := by simp only [EqUnit.halfSwap, EqUnit.swap, slot]
      rw [slot] at moved
      exact h.unchain (faded := false) rfl pending (fun n => by rw [oldSections_congr slots]; rfl) (fun _ => slots)
        (h.outputs.congr slots) moved
    | some i =>
      have slots : (e.halfSwap fade c).slots = e.slots.set i (some (e.fadeOf c.1)) := by simp only [EqUnit.halfSwap, EqUnit.swap, slot]
      have empty : e.slots[i] = none := by
        unfold EqUnit.swapSlot at slot
        split at slot
        · exact EqUnit.mem_free.mp (List.mem_of_head? slot)
        · cases slot
      rw [slot] at moved
      refine h.unchain (faded := true) rfl pending (fun n => ?_) (fun x => by cases x) (h.outputs.taken slots fresh) moved
      have := count_oldSections_set slots n
      rw [empty] at this
      simpa [slotOld, EqUnit.fadeOf] using this
  have halfKept := EqUnit.putStates_eq (leavingState (e.swapSlot fade).isSome) e.chains[c.1] e
  have kept : e.swap fade c = _ := EqUnit.swap_kept
  refine half.enchain (o := c.1) (l := c.2) ?_ (by simp [EqUnit.halfSwap]) split rfl ?_ ⟨?_, ?_, fun n => ?_⟩
  · simp [EqUnit.halfSwap, EqUnit.swap]
  · rw [kept, EqUnit.halfSwap, halfKept]
  · rw [kept, EqUnit.halfSwap, halfKept]
  · rw [kept, EqUnit.halfSwap, halfKept]
  · refine (congrArg EqSection.state (EqUnit.makeLive_at n c.2 (e.putStates e.chains[c.1] (leavingState (e.swapSlot fade).isSome)))).trans ?_
    split <;> rfl

/-- R93: a slot in use after a swap was in use before or carries the swap's output. -/
theorem EqUnit.swap_used {fade : Bool} {c : Output × List SectionNo} {j : Fin 4} {f : Crossfade} (used : (e.swap fade c).slots[j] = some f) :
    e.slots[j] = some f ∨ f.output = c.1 := by
  cases slot : e.swapSlot fade with
  | none =>
    simp only [EqUnit.swap, slot] at used
    exact .inl used
  | some i =>
    simp only [EqUnit.swap, slot] at used
    by_cases here : i.val = j.val
    · simp only [Fin.getElem_fin, here, Vector.getElem_set_self, Option.some.injEq] at used
      exact .inr (by rw [← used]; rfl)
    · exact .inl (by simpa [here] using used)

/-- R71: the CHAIN records of a set are swapped in, one after the other. -/
theorem PoolGood.swaps {fade : Bool} : ∀ {cs : List (Output × List SectionNo)} {e : EqUnit} {queued : List SectionNo}, PoolGood e queued →
    (cs.map Prod.fst).Nodup → (∀ n, queued.count n = (listed cs).count n + waiting.count n) →
    (∀ o ∈ cs.map Prod.fst, ∀ (j : Fin 4) (f : Crossfade), e.slots[j] = some f → f.output ≠ o) →
    PoolGood (cs.foldl (EqUnit.swap fade) e) waiting
  | [], e, queued, h, _, split, _ =>
    { map := h.map
      owned := h.owned.move (is := []) (a := .loaded) (b := .claimed) ⟨List.nodup_nil, by simp⟩ (by decide) (fun named => by cases named)
        (fun _ n => by simpa [EqUnit.namers, listed] using (split n).symm) (fun _ _ _ other => EqUnit.namers_congr (fun _ => rfl) (fun _ => rfl)
          (fun x => absurd x other) fun _ => rfl) (fun n => by simp)
      outputs := h.outputs }
  | c :: cs, e, queued, h, once, split, fresh => by
    rw [List.map_cons, List.nodup_cons] at once
    obtain ⟨out, once⟩ := once
    have swapped : PoolGood (e.swap fade c) (listed cs ++ waiting) := by
      refine h.swap (fun n => ?_) (fresh c.1 List.mem_cons_self)
      rw [split n]
      simp only [listed, List.map_cons, List.flatten_cons, List.count_append]
      omega
    rw [List.foldl_cons]
    refine PoolGood.swaps swapped once (fun n => List.count_append) fun o mem j f used => ?_
    rcases EqUnit.swap_used used with before | same
    · exact fresh o (List.mem_cons_of_mem _ mem) j f before
    · exact fun carries => out (same.symm.trans carries ▸ mem)

/-! ### The boundary and the resets (R90, R94, R99) -/

theorem slotOld_advance (x : Option Crossfade) : slotOld (x.map Crossfade.advance) = slotOld x := by
  cases x with
  | none => rfl
  | some f => simp only [Option.map_some, slotOld, Crossfade.advance]; split <;> rfl

/-- R94: an advance leaves each slot's output and old chain. -/
theorem PoolGood.advance (h : PoolGood e queued) : PoolGood e.advance queued := by
  have at_ : ∀ i : Fin 4, e.advance.slots[i] = (e.slots[i]).map Crossfade.advance := fun i => by simp [EqUnit.advance]
  have old : oldSections e.advance = oldSections e := by
    rw [oldSections_eq, oldSections_eq]
    rw [EqUnit.advance, Vector.toList_map, List.map_map]
    exact congrArg List.flatten (List.map_congr_left fun x _ => slotOld_advance x)
  refine h.congr (fun x named => ?_) (fun _ => rfl) fun i j f g atI atJ same => ?_
  · cases x with
    | retiring => exact old
    | live => rfl
    | claimed => rfl
    | loading => rfl
    | free => rfl
    | loaded => rfl
  · rw [at_] at atI atJ
    obtain ⟨p, usedI, rfl⟩ := Option.map_eq_some_iff.mp atI
    obtain ⟨q, usedJ, rfl⟩ := Option.map_eq_some_iff.mp atJ
    have output : ∀ y : Crossfade, y.advance.output = y.output := fun y => by unfold Crossfade.advance; split <;> rfl
    rw [output, output] at same
    exact h.outputs i j p q usedI usedJ same

/-- R90: the histories alone change. -/
theorem PoolGood.histories (h : PoolGood e queued) {names : List SectionNo} (rest : d = { e with sections := d.sections })
    (moved : HistoriesMoved names e.sections d.sections) : PoolGood d queued := by
  rw [rest]
  refine h.congr (fun x _ => EqUnit.namers_congr (fun _ => rfl) (fun _ => rfl) (fun _ => rfl) fun _ => rfl) (fun n => ?_)
    (h.outputs.congr rfl)
  exact (congrArg EqSection.state (moved n).1).trans rfl

/-- R99, R100: the whole pool is FREE and nothing names a section. -/
theorem PoolGood.empty (sections : d.sections = EqUnit.reset.sections) (free1 : d.free1 = EqUnit.reset.free1)
    (free0 : d.free0 = EqUnit.reset.free0) (chains : d.chains = EqUnit.reset.chains) (slots : ∀ i : Fin 4, d.slots[i] = none)
    (pending : d.pendingWrite = none) : PoolGood d [] where
  map := by
    have marked : ∀ n : SectionNo, d.marked n = true := fun n => by
      have below : sectionMarker n < 64 := Nat.mod_lt _ (by decide)
      rw [EqUnit.marked, free1]
      simp only [EqUnit.reset, Fin.getElem_fin, Vector.getElem_replicate, BitVec.getLsbD_allOnes, below, decide_true]
    refine ⟨fun n => ?_, fun g => ?_⟩
    · simp [marked n, sections, EqUnit.reset, EqSection.reset]
    · have witness : sectionGroup ⟨64 * g.val, by omega⟩ = g := Fin.ext (by unfold sectionGroup; dsimp only; omega)
      have bit : d.free0.getLsbD g.val = true := by
        rw [free0, EqUnit.reset, BitVec.getLsbD_allOnes, decide_eq_true g.isLt]
      exact ⟨fun _ => ⟨_, witness, marked _⟩, fun _ => bit⟩
  owned x named n := by
    have state : (d.sections[n]).state = .free := by simp [sections, EqUnit.reset, EqSection.reset]
    have chained : chainSections d = [] := by simp [chainSections, chains, EqUnit.reset]
    have old : oldSections d = [] := List.eq_nil_iff_forall_not_mem.mpr fun m mem => by
      obtain ⟨i, f, used, -⟩ := mem_oldSections.mp mem
      rw [slots i] at used
      cases used
    rw [state]
    cases x with
    | live => simp [EqUnit.namers, chained]
    | retiring => simp [EqUnit.namers, old]
    | claimed => simp [EqUnit.namers]
    | loading => simp [EqUnit.namers, pendingSections_none pending]
    | free => cases named
    | loaded => cases named
  outputs i j f g atI := by
    rw [slots i] at atI
    cases atI

end
end Sys2Proof.Machine

namespace Sys2Proof.Machine
-- One proof at a time: side by side the proofs start more threads than the memory limit allows.
set_option Elab.async false

/-! ## The pool invariant of a state (R78, R80, R89, R92) -/

theorem poolInv_iff (s : State) : PoolInv s ↔ PoolGood s.eq (queuedSections s.commit) ∧ s.eq.pendingWrite.isSome = inExecution .eq s ∧
    (∀ q ∈ s.commit.queue, (chainOutputs q.records).Nodup) ∧
    (s.core.mode = .standby ∨ s.ctl.enabled.eq = false → ∀ i : Fin 4, s.eq.slots[i] = none) := by
  constructor
  · intro h
    exact ⟨⟨⟨h.freeMarked, h.groupMarked⟩, owned_iff.mpr ⟨h.live, h.retiring, h.claimed, h.loading, h.once⟩, h.outputsOnce⟩, h.busy,
      h.setOutputs, h.slotsInUse⟩
  · rintro ⟨⟨⟨marked, groups⟩, owned, outputs⟩, busy, setOutputs, slots⟩
    obtain ⟨live, retiring, claimed, loading, once⟩ := owned_iff.mp owned
    exact ⟨marked, groups, live, retiring, claimed, loading, once, busy, outputs, setOutputs, slots⟩

theorem PoolInv.good {s : State} (h : PoolInv s) : PoolGood s.eq (queuedSections s.commit) := ((poolInv_iff s).mp h).1

/-- A step keeps the pool invariant. -/
def PoolKept (s t : State) : Prop := PoolInv s → PoolInv t

theorem PoolKept.refl (s : State) : PoolKept s s := id

theorem PoolKept.trans {s t u : State} (h : PoolKept s t) (k : PoolKept t u) : PoolKept s u := k ∘ h

theorem PoolKept.foldl {α : Type} {f : State → α → State} (h : ∀ s a, PoolKept s (f s a)) : ∀ (l : List α) (s : State),
    PoolKept s (l.foldl f s)
  | [], s => .refl s
  | a :: l, s => (h s a).trans (PoolKept.foldl h l (f s a))

/-! ### Steps that leave the pool alone -/

/-- EQ stays enabled or disabled, and in execution or not. -/
structure EqMarksKept (s t : State) : Prop where
  enabled : t.ctl.enabled.eq = s.ctl.enabled.eq
  executing : inExecution .eq t = inExecution .eq s

/-- Nothing the pool invariant speaks of changes, and STANDBY is not entered. -/
structure PoolStill (s t : State) : Prop where
  eq : t.eq = s.eq
  queue : t.commit.queue = s.commit.queue
  mode : t.core.mode = .standby → s.core.mode = .standby
  marks : EqMarksKept s t

theorem EqMarksKept.trans {s t u : State} (h : EqMarksKept s t) (k : EqMarksKept t u) : EqMarksKept s u :=
  ⟨k.enabled.trans h.enabled, k.executing.trans h.executing⟩

theorem EqMarksKept.ofCtl {s t : State} (h : t.ctl = s.ctl) : EqMarksKept s t := by
  exact ⟨by rw [h], by unfold inExecution; rw [h]⟩

theorem PoolStill.trans {s t u : State} (h : PoolStill s t) (k : PoolStill t u) : PoolStill s u :=
  ⟨k.eq.trans h.eq, k.queue.trans h.queue, h.mode ∘ k.mode, h.marks.trans k.marks⟩

/-- An update of fields the invariant does not speak of. -/
theorem PoolStill.plain {s t : State} (eq : t.eq = s.eq := by rfl) (queue : t.commit.queue = s.commit.queue := by rfl)
    (mode : t.core.mode = s.core.mode := by rfl) (enabled : t.ctl.enabled.eq = s.ctl.enabled.eq := by rfl)
    (executing : t.ctl.executing = s.ctl.executing := by rfl) : PoolStill s t :=
  ⟨eq, queue, mode.symm.trans, enabled, by unfold inExecution; rw [executing]⟩

theorem PoolStill.refl (s : State) : PoolStill s s := .plain

theorem PoolStill.after {s t u : State} (k : PoolStill t u) (h : PoolStill s t := by exact .plain) : PoolStill s u := h.trans k

theorem PoolStill.ofMarks {ps : List Part} {s t : State} (h : SameBut ps s t) (marks : EqMarksKept s t)
    (out : Part.core ∉ ps ∧ Part.commit ∉ ps ∧ Part.eq ∉ ps := by decide) : PoolStill s t := by
  obtain ⟨core, commit, eq⟩ := out
  exact ⟨h .eq eq, congrArg Commit.queue (h .commit commit), fun m => by rwa [h .core core] at m, marks⟩

theorem PoolStill.ofSame {ps : List Part} {s t : State} (h : SameBut ps s t)
    (out : Part.core ∉ ps ∧ Part.commit ∉ ps ∧ Part.eq ∉ ps := by decide) (ctl : Part.ctl ∉ ps := by decide) : PoolStill s t :=
  .ofMarks h (.ofCtl (h .ctl ctl)) out

theorem PoolStill.foldl {α : Type} {f : State → α → State} (h : ∀ s a, PoolStill s (f s a)) : ∀ (l : List α) (s : State),
    PoolStill s (l.foldl f s)
  | [], s => .refl s
  | a :: l, s => (h s a).trans (PoolStill.foldl h l (f s a))

theorem PoolStill.kept {s t : State} (h : PoolStill s t) : PoolKept s t := by
  unfold PoolKept
  rw [poolInv_iff, poolInv_iff, h.eq, h.marks.executing, h.marks.enabled]
  unfold queuedSections
  rw [h.queue]
  rintro ⟨good, busy, outputs, slots⟩
  exact ⟨good, busy, outputs, fun idle => slots (idle.imp_left h.mode)⟩

/-! ### The control unit and the TABLE unit -/

theorem answer_still (rq : Requester) (res : Result) (data : List Byte) (s : State) : PoolStill s (answer rq res data s) := .plain

theorem PoolStill.answer {s t : State} (h : PoolStill s t) (rq : Requester) (res : Result) (data : List Byte) :
    PoolStill s (answer rq res data t) := h.trans (answer_still rq res data t)

theorem PoolKept.answer {s t : State} (h : PoolKept s t) (rq : Requester) (res : Result) (data : List Byte) :
    PoolKept s (answer rq res data t) := h.trans (answer_still rq res data t).kept

theorem fillReservation_still {u : UnitId} (other : u ≠ .eq) (res : Result) (data : List Byte) (s : State) :
    PoolStill s (fillReservation u res data s) :=
  .ofMarks (fillReservation_same u res data s) ⟨rfl, by rw [inExecution_fillReservation, decide_eq_true other, Bool.and_true]⟩

/-- R164: another unit's reservation. -/
theorem reserve_still {u : UnitId} (other : u ≠ .eq) (s : State) : PoolStill s (reserve u s) := by
  refine .ofMarks (reserve_same u s) ⟨rfl, ?_⟩
  have apart : ¬ u.marker.val = UnitId.eq.marker.val := fun same => other (UnitId.marker_injective (Fin.ext same))
  simp [inExecution, reserve, apart]

theorem raiseNotice_still (n : Notice) (s : State) : PoolStill s (raiseNotice n s) := by
  unfold raiseNotice
  split <;> exact .plain

theorem endTableOp_still (res : Result) (data : List Byte) (s : State) : PoolStill s (endTableOp res data s) :=
  (fillReservation_still (u := .table) (by decide) res data s).trans .plain

theorem reportWrites_still (d : TableId) (is : List Nat) (s : State) : PoolStill s (reportWrites d is s) := by
  unfold reportWrites
  split
  · exact .refl s
  · split
    · exact endTableOp_still _ _ s
    · exact .refl s

theorem abortTableOp_still (s : State) : PoolStill s (abortTableOp s) := by
  unfold abortTableOp
  split
  · exact .refl s
  · split <;> exact endTableOp_still _ _ s

theorem stepTableOp_still (op : TableOp) (s : State) : PoolStill s (stepTableOp op s) := by
  have counted : PoolStill s (countLive op.table op.step s) := .ofSame (countLive_same _ _ s)
  unfold stepTableOp finishTableOp
  dsimp only
  split
  · split <;> exact counted.trans (endTableOp_still _ _ _)
  · exact counted.trans .plain

theorem takeBatch_still (s : State) : PoolStill s (takeBatch s) := by
  unfold takeBatch
  split
  · split
    · exact stepTableOp_still _ s
    · exact .refl s
  · exact .refl s

/-! ### Runners -/

theorem onRunner_still (r : RunnerNo) (f : Runner → Runner) (s : State) : PoolStill s (onRunner r f s) := .ofSame (onRunner_same r f s)

theorem startWindow_still (r : RunnerNo) (s : State) : PoolStill s (startWindow r s) :=
  startEntry_rel (R := PoolStill) r .trans (fun f s _ => onRunner_still r f s)
    (fun v ms srcs s => .ofSame (setRequests_same r v ms srcs s)) raiseNotice_still _ s

theorem completeEntry_still (r : RunnerNo) (s : State) : PoolStill s (completeEntry r s) :=
  (onRunner_still r _ s).trans (startWindow_still r _)

theorem completeWait_still (r : RunnerNo) (b : Bool) (s : State) : PoolStill s (completeWait r b s) :=
  (onRunner_still r _ s).trans (completeEntry_still r _)

theorem fetchWindow_still (r : RunnerNo) (s : State) : PoolStill s (fetchWindow r s) :=
  (onRunner_still r _ s).trans (startWindow_still r _)

theorem takeStep_still (r : RunnerNo) (s : State) : PoolStill s (takeStep r s) := by
  unfold takeStep
  split
  · exact completeEntry_still r s
  · exact .refl s

theorem takeTimeout_still (r : RunnerNo) (s : State) : PoolStill s (takeTimeout r s) := by
  unfold takeTimeout
  split
  · exact completeWait_still r true s
  · exact .refl s

theorem cueDisable_still (s : State) : PoolStill s (cueDisable s) := by
  refine PoolStill.trans ?_ (.ofSame (haltBoth_same _))
  unfold abortCueWrite
  split
  · exact .refl s
  · exact (fillReservation_still (by decide) _ _ _).after

theorem cueReset_still (s : State) : PoolStill s (cueReset s) :=
  (cueDisable_still s).trans ((onRunner_still 0 _ _).trans (onRunner_still 1 _ _))

/-! ### The SDV unit -/

theorem setSdvState_still (st : SdvState) (s : State) : PoolStill s (setSdvState st s) := by
  unfold setSdvState
  split
  · exact .refl s
  · exact (raiseNotice_still _ _).after

theorem adoptBoost_still (b : Int) (s : State) : PoolStill s (adoptBoost b s) := .ofSame (adoptBoost_same b s)

theorem adoptAfterState_still (b : Int) (st : SdvState) (s : State) : PoolStill s (adoptBoost b (setSdvState st s)) :=
  (setSdvState_still st s).trans (adoptBoost_still b _)

theorem stateThenManual_still (b : Int) (st : SdvState) (m : Option Nat) (s : State) :
    PoolStill s (adoptBoost b { setSdvState st s with sdv := { (setSdvState st s).sdv with manual := m } }) :=
  (setSdvState_still st s).trans (adoptBoost_still b _).after

theorem takeStateByAge_still (s : State) : PoolStill s (takeStateByAge s) := by
  unfold takeStateByAge
  split
  · exact adoptAfterState_still _ _ s
  · exact adoptAfterState_still _ _ s
  · exact adoptAfterState_still _ _ s
  · exact .refl s
  · exact .refl s

theorem compareAge_still (s : State) : PoolStill s (compareAge s) := by
  unfold compareAge
  split
  · exact .refl s
  · split
    · split
      · exact adoptAfterState_still _ _ s
      · split
        · exact setSdvState_still _ s
        · exact .refl s
    · split
      · exact adoptAfterState_still _ _ s
      · exact .refl s
    all_goals exact .refl s

theorem takeTick_still (s : State) : PoolStill s (takeTick s) := by
  unfold takeTick ageRise
  split
  · split
    · exact .plain
    · split
      · exact .plain
      · exact (compareAge_still _).after
  · exact .refl s

theorem speedReport_still (v : Nat) (valid : Bool) (s : State) : PoolStill s (speedReport v valid s) := by
  unfold speedReport acceptReport
  split
  · exact .plain
  · exact .refl s
  · dsimp only
    split
    · split
      · exact (adoptBoost_still _ _).after
      · exact .plain
    · exact (adoptAfterState_still _ _ _).after

theorem sdvEnable_still (s : State) : PoolStill s (sdvEnable s) := by
  unfold sdvEnable
  split
  · exact .refl s
  · exact takeStateByAge_still s

end Sys2Proof.Machine

namespace Sys2Proof.Machine
-- One proof at a time: side by side the proofs start more threads than the memory limit allows.
set_option Elab.async false

/-! ## What the EQ unit's operations keep of the pool -/

/-- Of the answers that writes give, none is of the EQ unit. -/
theorem WritesHeard.marks {written : TableId → Nat → Prop} {s t : State} (h : WritesHeard written [] s t) (calm : Calm s t) :
    EqMarksKept s t := by
  obtain ⟨-, -, enabled, -⟩ := calm.settings
  obtain ⟨as, answered, ofTable⟩ := h.answered
  have other : ∀ a ∈ as, a.unit ≠ .eq := fun a mem => by rw [ofTable a mem]; decide
  exact ⟨congrArg UnitEnables.eq enabled, by rw [answered.markers, decide_eq_true other, Bool.and_true]⟩

/-- The pool as the invariant has it, but for the EQ unit's execution marker. -/
structure PoolSettled (s : State) : Prop where
  good : PoolGood s.eq (queuedSections s.commit)
  outputs : ∀ q ∈ s.commit.queue, (chainOutputs q.records).Nodup
  slots : s.core.mode = .standby ∨ s.ctl.enabled.eq = false → ∀ i : Fin 4, s.eq.slots[i] = none

theorem poolInv_settled {s : State} : PoolInv s ↔ PoolSettled s ∧ s.eq.pendingWrite.isSome = inExecution .eq s := by
  rw [poolInv_iff]
  exact ⟨fun ⟨good, busy, outputs, slots⟩ => ⟨⟨good, outputs, slots⟩, busy⟩,
    fun ⟨⟨good, outputs, slots⟩, busy⟩ => ⟨good, busy, outputs, slots⟩⟩

theorem PoolInv.settled {s : State} (h : PoolInv s) : PoolSettled s := (poolInv_settled.mp h).1

theorem PoolInv.busy_iff {s : State} (h : PoolInv s) : s.eq.pendingWrite.isSome = inExecution .eq s := (poolInv_settled.mp h).2

/-- With EQ not in execution no write is pending. -/
theorem PoolInv.idle {s : State} (h : PoolInv s) (idle : inExecution .eq s = false) : s.eq.pendingWrite = none := by
  rw [← h.busy_iff] at idle
  simpa using idle

/-- The EQ unit and the commit queue change, the mode and EQ's enable state do not, and no slot is taken. -/
theorem PoolSettled.put {s t : State} (h : PoolSettled s) (good : PoolGood t.eq (queuedSections t.commit))
    (slots : ∀ i : Fin 4, s.eq.slots[i] = none → t.eq.slots[i] = none) (queue : ∀ q ∈ t.commit.queue, q ∈ s.commit.queue)
    (mode : t.core.mode = s.core.mode := by rfl) (enabled : t.ctl.enabled.eq = s.ctl.enabled.eq := by rfl) : PoolSettled t where
  good := good
  outputs q mem := h.outputs q (queue q mem)
  slots off i := slots i (h.slots (by rwa [mode, enabled] at off) i)

/-- Parts the pool does not lie in change. -/
theorem PoolSettled.still {s t : State} (h : PoolSettled s) (eq : t.eq = s.eq) (commit : t.commit = s.commit) (core : t.core = s.core)
    (enabled : t.ctl.enabled.eq = s.ctl.enabled.eq) : PoolSettled t :=
  h.put (by rw [eq, commit]; exact h.good) (by rw [eq]; exact fun _ => id) (by rw [commit]; exact fun _ => id) (by rw [core]) enabled

theorem PoolSettled.reported {s : State} (h : PoolSettled s) (is : List SectionNo) : PoolSettled (reportSections is s) := by
  have same := reportSections_same is s
  exact h.still (same .eq (by decide)) (same .commit (by decide)) (same .core (by decide)) (reportWrites_still _ _ _).marks.enabled

/-- The EQ unit changes but for its pending write, and the sections are reported. -/
theorem poolKept_of_reported {s v : State} {is : List SectionNo} (settled : PoolSettled s → PoolSettled v)
    (pending : v.eq.pendingWrite = s.eq.pendingWrite) (ctl : v.ctl = s.ctl := by rfl) : PoolKept s (reportSections is v) := fun h => by
  refine (reportWrites_still _ _ v).kept (poolInv_settled.mpr ⟨settled h.settled, ?_⟩)
  rw [pending, h.busy_iff, inExecution, inExecution, ctl]

theorem EqUnit.putStates_kept (e : EqUnit) (is : List SectionNo) (st : SectionState) :
    (e.putStates is st).chains = e.chains ∧ (e.putStates is st).slots = e.slots ∧ (e.putStates is st).pendingWrite = e.pendingWrite := by
  rw [EqUnit.putStates_eq]
  exact ⟨rfl, rfl, rfl⟩

theorem EqUnit.putState_state (e : EqUnit) (i : SectionNo) (st : SectionState) (n : SectionNo) :
    ((e.putState i st).sections[n]).state = if n ∈ [i] then st else (e.sections[n]).state :=
  (EqUnit.putStates_moved (e := e) [i] st).states n

/-! ### Crossfades -/

/-- R94, R95: what the end of a slot leaves of the pool. -/
theorem endSlot_good {queued : List SectionNo} (i : Fin 4) {s : State} (h : PoolGood s.eq queued) : PoolGood (endSlot i s).eq queued := by
  unfold endSlot
  split
  next f used =>
    rw [reportSections_eq]
    obtain ⟨chains, -, pending⟩ := s.eq.putStates_kept f.old .loaded
    exact h.endSlot used rfl chains pending (EqUnit.putStates_moved _ _)
  · exact h

theorem endSlots_good {queued : List SectionNo} : ∀ (is : List (Fin 4)) {s : State}, PoolGood s.eq queued →
    PoolGood (is.foldl (fun s i => endSlot i s) s).eq queued
  | [], _, h => h
  | i :: is, _, h => endSlots_good is (endSlot_good i h)

theorem endSlot_poolKept (i : Fin 4) (s : State) : PoolKept s (endSlot i s) := by
  intro h
  obtain ⟨rest, -⟩ := endSlot_eq i s
  have marks := (endSlot_heard i s).marks (endSlot_calm i s)
  have same := endSlot_same i s
  have commit : (endSlot i s).commit = s.commit := same .commit (by decide)
  have core : (endSlot i s).core = s.core := same .core (by decide)
  refine poolInv_settled.mpr ⟨h.settled.put ?_ (fun j free => ?_) (fun q => by rw [commit]; exact id) (by rw [core]) marks.enabled, ?_⟩
  · rw [commit]
    exact endSlot_good i h.good
  · rw [rest]
    simp only [Fin.getElem_fin, Vector.getElem_set]
    split
    · rfl
    · exact free
  · rw [marks.executing, ← h.busy_iff, rest]

theorem takeFadeEnd_poolKept (i : Fin 4) (s : State) : PoolKept s (takeFadeEnd i s) := by
  unfold takeFadeEnd
  split
  · exact endSlot_poolKept i s
  · exact .refl s

/-- R15, R95: the entry into STANDBY ends every slot in use. -/
theorem enterStandby_poolKept (s : State) : PoolKept s (enterStandby s) := by
  intro h
  have ended := endAllSlots_same (resting s)
  have commit : (endAllSlots (resting s)).commit = s.commit := ended .commit (by decide)
  obtain ⟨rest, empty, -⟩ := endAllSlots_eq (resting s)
  have marks := (endAllSlots_heard (resting s)).marks (endAllSlots_calm _)
  have emptied : PoolInv (endAllSlots (resting s)) := by
    refine poolInv_settled.mpr ⟨⟨?_, ?_, fun _ => empty⟩, ?_⟩
    · rw [commit]
      exact endSlots_good _ h.good
    · rw [commit]
      exact h.setOutputs
    · rw [marks.executing, rest]
      exact h.busy_iff
  have halted : PoolStill (endAllSlots (resting s)) (landed s) := .ofSame (haltBoth_same _)
  exact (halted.trans (fillReservation_still (by decide) .ok [Mode.standby.code] (landed s))).kept emptied

theorem takeLeavingEnd_poolKept (s : State) : PoolKept s (takeLeavingEnd s) := by
  unfold takeLeavingEnd
  split
  · exact enterStandby_poolKept s
  · exact .refl s

/-! ### Queued sets -/

/-- R75: the queued sets are discarded. -/
theorem flushQueue_poolKept (s : State) : PoolKept s (flushQueue s) := by
  obtain ⟨chains, slots, pending⟩ := s.eq.putStates_kept (queuedSections s.commit) .loaded
  refine poolKept_of_reported (v := { s with eq := s.eq.putStates (queuedSections s.commit) .loaded, commit := { s.commit with queue := [] } })
    (fun h => h.put ?_ (fun i free => ?_) fun q mem => absurd mem List.not_mem_nil) pending
  · exact h.good.unclaim (EqUnit.putStates_moved _ _) chains slots pending
  · simp only [slots]
    exact free

theorem flushQueue_commit (s : State) : (flushQueue s).commit.queue = [] :=
  congrArg Commit.queue (unclaimSections_same _ _ .commit (by decide))

/-- R59 checks 2 to 4 say of an accepted set that its outputs are named once, and its sections are LOADED and named once. -/
theorem recordFailure_none {e : EqUnit} {before : List ChangeRecord} {r : ChangeRecord} (pass : recordFailure e before r = none) :
    ∀ o l, r.chain? = some (o, l) → o ∉ chainOutputs before ∧ l.Nodup ∧ (∀ n ∈ l, n ∉ namedSections before) ∧
      ∀ n ∈ l, (e.sections[n]).state = .loaded := by
  intro o l chain
  unfold recordFailure at pass
  rw [chain] at pass
  cases failure : chainFailure e before o l with
  | some reason => simp [failure] at pass
  | none =>
    rw [chainFailure_eq] at failure
    split_ifs at failure with full duplicate repeated unavailable
    simp only [not_or, not_exists, not_and, not_not] at repeated unavailable
    exact ⟨duplicate, repeated.1, repeated.2, unavailable⟩

theorem chainOutputs_append (rs qs : List ChangeRecord) : chainOutputs (rs ++ qs) = chainOutputs rs ++ chainOutputs qs := by
  simp [chainOutputs, List.filterMap_append]

theorem namedSections_append (rs qs : List ChangeRecord) : namedSections (rs ++ qs) = namedSections rs ++ namedSections qs := by
  simp [namedSections, List.filterMap_append]

theorem firstFailure_none {e : EqUnit} : ∀ {rs before : List ChangeRecord}, firstFailure e before rs = none →
    (chainOutputs before).Nodup → Leaving e .loaded (namedSections before) →
    (chainOutputs (before ++ rs)).Nodup ∧ Leaving e .loaded (namedSections (before ++ rs))
  | [], before, _, outputs, leaving => by rw [List.append_nil]; exact ⟨outputs, leaving⟩
  | r :: rs, before, pass, outputs, leaving => by
    unfold firstFailure at pass
    cases failure : recordFailure e before r with
    | some reason => rw [failure] at pass; cases pass
    | none =>
      rw [failure] at pass
      rw [List.append_cons]
      refine firstFailure_none pass ?_ ?_
      · rw [chainOutputs_append]
        cases chain : r.chain? with
        | none => simpa [chainOutputs, chain] using outputs
        | some c =>
          obtain ⟨fresh, -⟩ := recordFailure_none failure c.1 c.2 chain
          have one : chainOutputs [r] = [c.1] := by simp [chainOutputs, chain]
          rw [one]
          exact outputs.append (List.nodup_singleton _) (by simpa using fresh)
      · rw [namedSections_append]
        cases chain : r.chain? with
        | none => simpa [namedSections, chain] using leaving
        | some c =>
          obtain ⟨-, once, fresh, loaded⟩ := recordFailure_none failure c.1 c.2 chain
          have one : namedSections [r] = c.2 := by simp [namedSections, chain]
          rw [one]
          refine ⟨leaving.once.append once fun n old new => fresh n new old, fun n mem => ?_⟩
          exact (List.mem_append.mp mem).elim (leaving.state n) (loaded n)

/-- R61: an accepted set claims its sections. -/
theorem acceptSet_poolKept {rs : List ChangeRecord} (notify : Bool) (s : State) (pass : firstFailure s.eq [] rs = none) :
    PoolKept s (acceptSet rs notify s) := by
  obtain ⟨outputs, leaving⟩ := firstFailure_none pass List.nodup_nil ⟨List.nodup_nil, by simp [namedSections]⟩
  rw [List.nil_append] at outputs leaving
  obtain ⟨chains, slots, pending⟩ := s.eq.putStates_kept (namedSections rs) .claimed
  refine poolKept_of_reported (v := { s with
    eq := s.eq.putStates (namedSections rs) .claimed
    commit := { s.commit with
      staging := []
      queue := s.commit.queue ++ [{ number := s.commit.counter, records := rs, notify := notify, wait := .none }]
      counter := s.commit.counter + 1 } }) (fun h => ⟨?_, fun q mem => ?_, fun off i => ?_⟩) pending
  · refine Eq.subst (motive := PoolGood _) ?_ (h.good.claim leaving (EqUnit.putStates_moved _ _) chains slots pending)
    simp [queuedSections]
  · rcases List.mem_append.mp mem with old | new
    · exact h.outputs q old
    · rw [List.mem_singleton.mp new]
      exact outputs
  · simp only [slots]
    exact h.slots off i

/-- R65: a slot that carries none of the set's outputs. -/
theorem slotOf_none {e : EqUnit} {o : Output} (free : e.slotOf o = none) (i : Fin 4) (f : Crossfade) (used : e.slots[i] = some f) :
    f.output ≠ o := by
  intro same
  have carried : e.carries o i = true := by simp [EqUnit.carries, used, same]
  unfold EqUnit.slotOf at free
  split at free
  next j found =>
    have here := List.find?_some found
    rw [EqUnit.carries, free] at here
    cases here
  next none => exact absurd carried (by simpa using List.find?_eq_none.mp none i (List.mem_finRange i))

/-- R69 to R73: the head set is applied. -/
theorem applySet_poolKept {q : QueuedSet} {rest : List QueuedSet} {s : State} (queue : s.commit.queue = q :: rest)
    (ready : examine s q = .none) : PoolKept s (applySet q s) := by
  intro h
  obtain ⟨st, m, b, gs, -, applied, -⟩ := applySet_eq q s
  obtain ⟨-, fresh, -⟩ := examine_none ready
  have calm := applySet_calm q s
  have marks : EqMarksKept s (applySet q s) := by
    obtain ⟨-, heard⟩ := appliedWith_told st m b gs q s
    rw [← applied] at heard
    exact heard.marks calm
  have commit : (applySet q s).commit.queue = rest := by
    rw [applied, appliedWith_commit, queue, List.tail_cons]
  have swapped : (applySet q s).eq = (q.records.filterMap ChangeRecord.chain?).foldl (EqUnit.swap (fades s)) s.eq := by
    rw [applied, appliedWith_eq]
  have mode : (applySet q s).core.mode = s.core.mode := by rw [applied, appliedWith_core]
  have inQueue : q ∈ s.commit.queue := by rw [queue]; exact List.mem_cons_self
  refine poolInv_settled.mpr ⟨⟨?_, fun p mem => ?_, fun off i => ?_⟩, ?_⟩
  · rw [swapped]
    refine h.good.swaps (h.setOutputs q inQueue) (fun n => ?_) fun o mem j f used => slotOf_none (fresh o mem) j f used
    have names : queuedSections s.commit = listed (q.records.filterMap ChangeRecord.chain?) ++ queuedSections (applySet q s).commit := by
      unfold queuedSections
      rw [queue, commit]
      rfl
    rw [names, List.count_append]
  · rw [commit] at mem
    exact h.setOutputs p (by rw [queue]; exact List.mem_cons_of_mem _ mem)
  · rw [mode, marks.enabled] at off
    have unfaded : fades s = false := decide_eq_false fun ⟨run, on⟩ => by
      rcases off with standby | disabled
      · rw [standby] at run; cases run
      · rw [disabled] at on; cases on
    rw [swapped, unfaded, foldl_swap_slots_none]
    exact h.slotsInUse off i
  · rw [marks.executing, ← h.busy_iff, swapped, foldl_swap_kept]

/-- R65: a set that waits keeps its records. -/
theorem waits_poolKept {q : QueuedSet} {rest : List QueuedSet} {s : State} (queue : s.commit.queue = q :: rest) (w : WaitReason) :
    PoolKept s { s with commit := { s.commit with queue := { q with wait := w } :: rest } } := fun h => by
  refine poolInv_settled.mpr ⟨⟨?_, fun p mem => ?_, h.slotsInUse⟩, h.busy_iff⟩
  · have same : queuedSections { s.commit with queue := { q with wait := w } :: rest } = queuedSections s.commit := by
      simp [queuedSections, queue]
    rw [same]
    exact h.good
  · rcases List.mem_cons.mp mem with rfl | old
    · exact h.setOutputs q (by rw [queue]; exact List.mem_cons_self)
    · exact h.setOutputs p (by rw [queue]; exact List.mem_cons_of_mem _ old)

theorem takeExam_poolKept (s : State) : PoolKept s (takeExam s) := by
  unfold takeExam
  split
  · refine PoolKept.trans (PoolStill.plain : PoolStill s (examTaken s)).kept ?_
    show PoolKept (examTaken s) (examineHead (examTaken s))
    cases queue : (examTaken s).commit.queue with
    | nil =>
      unfold examineHead
      rw [queue]
      exact .refl _
    | cons q rest =>
      obtain ⟨applied, waits⟩ := examineHead_head queue
      by_cases ready : examine (examTaken s) q = .none
      · rw [applied ready]
        exact applySet_poolKept queue ready
      · rw [waits ready]
        exact waits_poolKept queue _
  · exact .refl s

/-! ### Section writes (R82 to R85, R87) -/

/-- R82: a write begins where EQ is not in execution: its section is allocated or LOADED, and EQ is then in execution. -/
theorem startSectionWrite_pool {sec : SectionNo} {kind : WriteKind} {k : Coeffs} {s : State}
    (begun : PoolSettled { s with
      eq := { s.eq.putState sec .loading with pendingWrite := some { sec := sec, kind := kind, coeffs := k } }
      cue := { s.cue with cueFirst := s.cue.pendingWrite.isSome } }) : PoolInv (startSectionWrite sec kind k s) := by
  have reported := begun.reported [sec]
  refine poolInv_settled.mpr ⟨reported.still rfl rfl rfl rfl, ?_⟩
  have pending : (startSectionWrite sec kind k s).eq = _ := reportSections_eq [sec] _
  rw [pending]
  simp [inExecution, startSectionWrite, reserve]

section
variable {sec : SectionNo} {k : Coeffs} {s : State} (h : PoolInv s) (idle : inExecution .eq s = false)
include h idle

theorem rewrite_pool (loaded : (s.eq.sections[sec]).state = .loaded) : PoolInv (startSectionWrite sec .rewrite k s) :=
  startSectionWrite_pool (h.settled.put
    (h.good.rewrite (w := { sec := sec, kind := .rewrite, coeffs := k }) loaded (h.idle idle) rfl ⟨rfl, rfl⟩
      (EqUnit.putStates_moved [sec] .loading)) (fun _ => id) fun _ => id)

theorem load_pool (free : (s.eq.sections[sec]).state = .free) :
    PoolInv (startSectionWrite sec .load k { s with eq := s.eq.markUsed sec }) :=
  startSectionWrite_pool (h.settled.put
    (h.good.load (w := { sec := sec, kind := .load, coeffs := k }) free (h.idle idle) rfl ⟨rfl, rfl⟩
      (EqUnit.putStates_moved [sec] .loading)) (fun _ => id) fun _ => id)

end

/-- R85: a LOADED section is released. -/
theorem releaseSection_poolKept {sec : SectionNo} {s : State} (loaded : (s.eq.sections[sec]).state = .loaded) :
    PoolKept s (releaseSection sec s) :=
  poolKept_of_reported (v := { s with eq := (s.eq.putState sec .free).markFree sec })
    (fun h => h.put (h.good.release loaded rfl ⟨rfl, rfl⟩ rfl rfl (s.eq.putState_state sec .free))
      (fun _ => id) fun _ => id) rfl

/-- R82, R87: the pending write ends, and its reservation is filled. -/
theorem endSectionWrite_poolKept {s : State} {e : EqUnit} (is : List SectionNo) (res : Result) (data : List Byte)
    (ended : e.pendingWrite = none) (slots : e.slots = s.eq.slots)
    (good : PoolGood s.eq (queuedSections s.commit) → PoolGood e (queuedSections s.commit)) :
    PoolKept s (fillReservation .eq res data (reportSections is { s with eq := e })) := fun h => by
  have settled : PoolSettled { s with eq := e } := h.settled.put (good h.good) (fun i free => by simpa only [slots] using free) fun _ => id
  refine poolInv_settled.mpr ⟨(settled.reported is).still rfl rfl rfl rfl, ?_⟩
  rw [inExecution_fillReservation]
  have pending : (fillReservation .eq res data (reportSections is { s with eq := e })).eq = e := reportSections_eq is _
  rw [pending, ended]
  simp

theorem completeSectionWrite_poolKept {w : SectionWrite} {s : State} (pending : s.eq.pendingWrite = some w) :
    PoolKept s (completeSectionWrite w s) := by
  refine endSectionWrite_poolKept [w.sec] .ok _ rfl rfl fun good => good.finish pending rfl ⟨rfl, rfl⟩ ⟨rfl, rfl, fun n => ?_⟩
  by_cases here : n = w.sec
  · simp [here]
  · have apart : ¬ w.sec.val = n.val := fun same => here (Fin.ext same.symm)
    simp [here, apart]

theorem abortSectionWrite_poolKept (s : State) : PoolKept s (abortSectionWrite s) := by
  unfold abortSectionWrite
  split
  · exact .refl s
  next w pending =>
    have freed := s.eq.putState_state w.sec .free
    dsimp only
    split
    · exact endSectionWrite_poolKept [w.sec] .aborted _ rfl rfl fun good => good.abandon pending rfl ⟨rfl, rfl⟩ rfl rfl freed
    · exact endSectionWrite_poolKept [w.sec] .aborted _ rfl rfl fun good =>
        good.finish pending rfl ⟨rfl, rfl⟩ (EqUnit.putStates_moved [w.sec] .loaded)

theorem abortSectionWrite_pending (s : State) : (abortSectionWrite s).eq.pendingWrite = none := by
  unfold abortSectionWrite
  split
  next none => exact none
  next w _ => exact congrArg EqUnit.pendingWrite (reportSections_eq [w.sec] _)

/-! ### Reset of the unit and of the part (R99, R100) -/

/-- R99: in STANDBY, with nothing queued and no write pending, the whole pool becomes FREE. -/
theorem resetPool_pool {s : State} (h : PoolInv s) (standby : s.core.mode = .standby) (queue : s.commit.queue = [])
    (pending : s.eq.pendingWrite = none) : PoolInv (resetPool s) := by
  have reset : PoolInv { s with eq := { s.eq with
      sections := EqUnit.reset.sections, free1 := EqUnit.reset.free1, free0 := EqUnit.reset.free0, chains := EqUnit.reset.chains } } := by
    refine poolInv_settled.mpr ⟨h.settled.put ?_ (fun _ => id) fun _ => id, h.busy_iff⟩
    have none : queuedSections s.commit = [] := by simp [queuedSections, queue]
    rw [none]
    exact .empty rfl rfl rfl rfl (h.slotsInUse (.inl standby)) pending
  exact ((reportWrites_still _ _ _).trans (reportWrites_still _ _ _)).kept reset

theorem eqReset_poolKept {s : State} (standby : s.core.mode = .standby) : PoolKept s (eqReset s) := fun h => by
  have aborted := abortSectionWrite_same (flushQueue s)
  refine resetPool_pool (abortSectionWrite_poolKept _ (flushQueue_poolKept s h)) ?_ ?_ (abortSectionWrite_pending _)
  · rw [aborted .core (by decide), (flushQueue_same s) .core (by decide)]
    exact standby
  · rw [aborted .commit (by decide)]
    exact flushQueue_commit s

/-- R99, R100, R172: the reset values of the EQ unit, of the commit engine and of the control unit. -/
theorem poolInv_reset {s : State} (eq : s.eq = EqUnit.reset) (commit : s.commit = Commit.reset) (ctl : s.ctl = Control.reset) :
    PoolInv s := by
  have slots : ∀ i : Fin 4, s.eq.slots[i] = none := fun i => by simp [eq, EqUnit.reset]
  refine poolInv_settled.mpr ⟨⟨?_, ?_, fun _ => slots⟩, ?_⟩
  · rw [commit]
    refine .empty ?_ ?_ ?_ ?_ slots ?_ <;> rw [eq]
    rfl
  · simp [commit, Commit.reset]
  · simp [eq, EqUnit.reset, inExecution, ctl, Control.reset]

/-! ### The boundary (R90, R94) -/

theorem advanceGains_poolKept (s : State) : PoolKept s (advanceGains s) := fun h =>
  poolInv_settled.mpr ⟨h.settled.put h.good.advance (fun i free => by
    show (s.eq.slots.map (Option.map Crossfade.advance))[i] = none
    simp only [Fin.getElem_fin, Vector.getElem_map, Option.map_eq_none_iff]
    exact free) fun _ => id, h.busy_iff⟩

theorem closeBoundary_poolKept (s : State) : PoolKept s (closeBoundary s) := by
  intro h
  cases opened : s.frame.opened with
  | none =>
    unfold closeBoundary
    rw [opened]
    exact h
  | some f =>
    have same := closeBoundary_same s
    have composes : Composes f.eqOn (shut s) (composeAll f.eqOn (shut s)) := composeAll_composes f.eqOn (shut s)
    have core : (closeBoundary s).core.mode = s.core.mode := by rw [closeBoundary_core]
    have eq : (closeBoundary s).eq = (composeAll f.eqOn (shut s)).eq := by rw [closeBoundary_opened opened]; simp
    have ctl : (closeBoundary s).ctl = (composeAll f.eqOn (shut s)).ctl := by rw [closeBoundary_opened opened]; simp
    have marks : EqMarksKept s (closeBoundary s) := by
      refine ⟨?_, ?_⟩
      · rw [ctl, composes.ctl]; rfl
      · rw [inExecution, ctl, composes.ctl]; rfl
    have commit : (closeBoundary s).commit = s.commit := same .commit (by decide)
    refine poolInv_settled.mpr ⟨h.settled.put ?_ (fun i free => ?_) (by rw [commit]; exact fun _ => id) core marks.enabled, ?_⟩
    · rw [commit, eq]
      exact h.good.histories composes.eq composes.moved
    · rw [eq, composes.eq]
      exact free
    · rw [marks.executing, eq, composes.eq]
      exact h.busy_iff

theorem closeIfSettled_poolKept (s : State) : PoolKept s (closeIfSettled s) := by
  unfold closeIfSettled
  split
  · exact .refl s
  · exact closeBoundary_poolKept s

end Sys2Proof.Machine

namespace Sys2Proof.Machine
-- One proof at a time: side by side the proofs start more threads than the memory limit allows.
set_option Elab.async false

/-! ## Every command keeps the pool -/

/-! ### The boundary and the lock -/

theorem advanceAll_poolKept (s : State) : PoolKept s (advanceAll s) := by
  have still : PoolStill (advanceGains s) (advanceAll s) :=
    ((PoolStill.ofSame (advanceRunners_same _)).trans (.ofSame (ageAdvance_same _))).trans .plain
  exact (advanceGains_poolKept s).trans still.kept

theorem takeOwed_poolKept (s : State) : PoolKept s (takeOwed s) := by
  have ramps : PoolKept s ((List.finRange 64).foldl (fun s i => takeRampEnd i s) s) := (PoolStill.foldl (fun _ _ => .plain) _ s).kept
  have fades := ramps.trans (PoolKept.foldl (fun s i => takeFadeEnd_poolKept i s) (List.finRange 4) _)
  have first := fades.trans (((takeTick_still _).trans (takeStep_still 0 _)).trans (takeTimeout_still 0 _)).kept
  have runners := first.trans ((takeStep_still 1 _).trans (takeTimeout_still 1 _)).kept
  exact ((runners.trans (takeLeavingEnd_poolKept _)).trans (takeExam_poolKept _)).trans (takeBatch_still _).kept

theorem finishBoundary_poolKept (s : State) : PoolKept s (finishBoundary s) := by
  unfold finishBoundary
  split
  · exact (takeOwed_poolKept s).trans (closeBoundary_poolKept _)
  · exact .refl s

theorem boundaryTaken_poolKept (up : Vector Sample 32) (examine batch : Bool) (s : State) : PoolKept s (boundaryTaken up examine batch s) := by
  have advanced : PoolKept s (advanceAll (openFrame up s)) := (PoolStill.plain : PoolStill s (openFrame up s)).kept.trans (advanceAll_poolKept _)
  have batched : PoolKept s (boundaryTaken up false batch s) := by
    cases batch with
    | false => exact advanced
    | true => exact advanced.trans (takeBatch_still _).kept
  cases examine with
  | false => exact batched
  | true => exact batched.trans (takeExam_poolKept _)

theorem nextFrame_poolKept (missing : Nat) (s : State) : PoolKept s (nextFrame missing s) :=
  (finishBoundary_poolKept s).trans (PoolStill.plain : PoolStill _ _).kept

theorem syncHunting_still (spacing : Spacing) (s : State) : PoolStill s (syncHunting spacing s) := by
  unfold syncHunting gainLock
  split
  · split
    · exact .plain
    · dsimp only
      split
      · exact (raiseNotice_still _ _).after
      · exact .plain
  · exact .plain

theorem lockLoss_poolKept (s : State) : PoolKept s (lockLoss s) := by
  have dropped : PoolStill s (setFlag .lockLost (dropLock s)) := .plain
  have left : ∀ u, PoolKept u (lossInLeaving u) := fun u => by
    unfold lossInLeaving
    split
    · exact enterStandby_poolKept u
    · exact .refl u
  have aborted : ∀ u, PoolStill u (abortDigest u) := fun u => by
    unfold abortDigest
    split
    · split
      · exact abortTableOp_still u
      · exact .refl u
    · exact .refl u
  exact (dropped.kept.trans (left _)).trans (aborted _).kept

/-- A step of the boundary that is taken when it is due, and then the boundary's close. -/
theorem PoolKept.dueThenClose {s u : State} {p : Prop} [Decidable p] (h : PoolKept s u) :
    PoolKept s (if p then closeIfSettled u else s) := by
  split
  · exact h.trans (closeIfSettled_poolKept u)
  · exact .refl s

/-! ### The ring port and the grants -/

theorem openPacket_still (b k : Bool) (c : Cell) (s : State) : PoolStill s (openPacket b k c s) := by
  unfold openPacket
  split
  · exact .plain
  · split <;> exact .plain

theorem extendPacket_still (last : Bool) (c : Cell) (s : State) : PoolStill s (extendPacket last c s) := by
  unfold extendPacket
  split
  · exact .plain
  · split
    · exact .plain
    · split <;> exact .plain

theorem assemble_still (b : Bool) (c : Cell) (s : State) : PoolStill s (assemble b c s) := by
  unfold assemble
  split
  · exact openPacket_still b true c s
  · exact openPacket_still b false c s
  · exact extendPacket_still false c s
  · exact extendPacket_still true c s
  · exact .plain

theorem fillPosition_still (s : State) : PoolStill s (fillPosition s) := by
  unfold fillPosition
  split <;> exact .plain

theorem lockedCell_still (c : Cell) (s : State) : PoolStill s (lockedCell c s) := by
  unfold lockedCell
  split
  · exact fillPosition_still s
  · split
    · exact (assemble_still false c s).trans (fillPosition_still _)
    · split
      · exact (assemble_still true c s).trans .plain
      · split
        · exact (fillPosition_still _).after
        · exact .plain

theorem tableAccess_still (s : State) : PoolStill s (tableAccess s) := by
  unfold tableAccess
  split
  · exact (stepTableOp_still _ _).after
  · exact .refl s

theorem endTableStep_poolKept (k : TableOpKind) (s : State) : PoolKept s (endTableStep k s) := by
  unfold endTableStep
  split
  · split
    · exact (takeBatch_still s).kept.trans (closeIfSettled_poolKept _)
    · split
      · exact (tableAccess_still s).kept
      · exact .refl s
  · exact .refl s

/-! ### The taking of a packet -/

theorem takeOffer_still (o : Offer) (s : State) : PoolStill s (takeOffer o s) := by
  unfold takeOffer
  dsimp only
  split <;> exact .plain

theorem takePacket_poolKept {row : Option Request} {body : Context → State → State} (hb : ∀ c s, PoolKept s (body c s)) (s : State) :
    PoolKept s (takePacket row body s) := by
  unfold takePacket
  split
  next o _ =>
    split
    · have taken : PoolStill s (takeOffer o (queueNotices s)) := (takeOffer_still o (queueNotices s)).after
      exact taken.kept.trans (hb o.packet _)
    · exact .refl s
  · exact .refl s

/-- R163: what a request that passes the decode may build on. -/
def Passes (q : Request) (s : State) : Prop := q.passesBusy = true ∨ inExecution q.unit s = false

theorem decodeThen_poolKept {q : Request} {body : Requester → List Byte → State → State}
    (hb : ∀ rq data s, Passes q s → PoolKept s (body rq data s)) (c : Context) (s : State) : PoolKept s (decodeThen q body c s) := by
  unfold decodeThen
  split
  · exact (answer_still _ _ _ s).kept
  next pass =>
    refine hb _ _ s ?_
    unfold decodeRefusal at pass
    split_ifs at pass with off short busy
    unfold Passes
    cases passes : q.passesBusy with
    | true => exact .inl rfl
    | false => exact .inr (by simpa [passes] using busy)

theorem takeRequest_passes {q : Request} {body : Requester → List Byte → State → State}
    (hb : ∀ rq data s, Passes q s → PoolKept s (body rq data s)) {s t : State} (h : takeRequest q body s = .next t) : PoolKept s t := by
  cases h
  exact takePacket_poolKept (decodeThen_poolKept hb) s

theorem takeRequest_poolKept {q : Request} {body : Requester → List Byte → State → State}
    (hb : ∀ rq data s, PoolKept s (body rq data s)) {s t : State} (h : takeRequest q body s = .next t) : PoolKept s t :=
  takeRequest_passes (fun rq data s _ => hb rq data s) h

theorem takeRequest_still {q : Request} {body : Requester → List Byte → State → State}
    (hb : ∀ rq data s, PoolStill s (body rq data s)) {s t : State} (h : takeRequest q body s = .next t) : PoolKept s t :=
  takeRequest_poolKept (fun rq data s => (hb rq data s).kept) h

theorem judgeUnknown_still (c : Context) (s : State) : PoolStill s (judgeUnknown c s) := by
  unfold judgeUnknown refuseUnknown
  split
  · exact .plain
  · split
    · exact .plain
    · split
      · exact .plain
      · split <;> exact .plain

/-! ### The requests of CTRL -/

/-- R97, R98: EQ's enable state changes in STANDBY alone, where no slot is in use. -/
theorem enableEq_poolKept {on : Bool} {s : State} (allowed : on = s.ctl.enabled.eq ∨ s.core.mode = .standby) :
    PoolKept s (enableEq on s) := by
  have switched : PoolKept s { s with ctl := { s.ctl with enabled := { s.ctl.enabled with eq := on } } } := fun h =>
    poolInv_settled.mpr ⟨⟨h.good, h.setOutputs, fun off => h.slotsInUse (by
      rcases allowed with same | standby
      · rw [← same]; exact off
      · exact .inl standby)⟩, h.busy_iff⟩
  unfold enableEq
  dsimp only
  split
  · exact switched.trans (abortSectionWrite_poolKept _)
  · exact switched

section
variable (on : Bool) (s : State)

theorem enableSdv_still : PoolStill s (enableSdv on s) := by
  unfold enableSdv
  dsimp only
  split
  · exact .plain
  · split
    · exact (sdvEnable_still _).after
    · exact (stateThenManual_still 0 .off none _).after

theorem enableCue_still : PoolStill s (enableCue on s) := by
  unfold enableCue
  dsimp only
  split
  · exact (cueDisable_still _).after
  · exact .plain

theorem enableTable_still : PoolStill s (enableTable on s) := by
  unfold enableTable
  dsimp only
  split
  · exact (abortTableOp_still _).after
  · exact .plain

end

theorem resetUnit_poolKept {u : UnitId} {s : State} (allowed : u = .eq → s.core.mode = .standby) : PoolKept s (resetUnit u s) := by
  cases u with
  | ctrl => exact .refl s
  | stage => exact (PoolStill.plain : PoolStill s (abortOpen s)).kept.trans (flushQueue_poolKept _)
  | eq => exact eqReset_poolKept (allowed rfl)
  | sdv => exact ((adoptAfterState_still _ _ _).after : PoolStill s (sdvReset s)).kept
  | cue => exact (cueReset_still s).kept
  | table => exact (abortTableOp_still s).kept

section
variable (rq : Requester) (data : List Byte) (s : State)

theorem bodyReadStatus_still : PoolStill s (bodyReadStatus rq data s) := by
  unfold bodyReadStatus
  split
  · exact .plain
  · refine PoolStill.answer ?_ _ _ _
    split <;> exact .plain

theorem bodyUnitEnable_poolKept : PoolKept s (bodyUnitEnable rq data s) := by
  unfold bodyUnitEnable
  split
  · exact (answer_still _ _ _ s).kept
  next eq sdv cue table _ =>
    split
    · exact (answer_still _ _ _ s).kept
    next allowed =>
      have standby : eq = s.ctl.enabled.eq ∨ s.core.mode = .standby := by
        by_contra forbidden
        exact allowed (not_or.mp forbidden)
      have others := ((enableSdv_still sdv (enableEq eq s)).trans (enableCue_still cue _)).trans (enableTable_still table _)
      exact ((enableEq_poolKept standby).trans others.kept).answer _ _ _

theorem bodyUnitReset_poolKept : PoolKept s (bodyUnitReset rq data s) := by
  unfold bodyUnitReset
  split
  · exact (answer_still _ _ _ s).kept
  · split
    · exact (answer_still _ _ _ s).kept
    · split
      · exact (answer_still _ _ _ s).kept
      next allowed => exact (resetUnit_poolKept fun eq => by by_contra other; exact allowed ⟨eq, other⟩).answer _ _ _

theorem bodyNoticeEnable_still : PoolStill s (bodyNoticeEnable rq data s) := by
  unfold bodyNoticeEnable
  split <;> exact .plain

theorem bodyMode_poolKept : PoolKept s (bodyMode rq data s) := by
  have entered : ∀ m : Mode, m ≠ .standby → PoolStill s { s with core := { s.core with mode := m } } := fun m out =>
    ⟨rfl, rfl, fun standby => absurd standby out, rfl, rfl⟩
  unfold bodyMode
  split
  · exact (answer_still _ _ _ s).kept
  · exact ((entered .run (by decide)).answer _ _ _).kept
  · split
    · unfold leaveRun
      dsimp only
      have reserved : PoolStill s (reserve .ctrl s) := reserve_still (by decide) s
      split
      · exact ((reserve_still (u := .ctrl) (by decide) _).after (entered .leaving (by decide))).kept
      · exact reserved.kept.trans (enterStandby_poolKept _)
    · exact (answer_still _ _ _ s).kept

theorem bodySlotMap_still : PoolStill s (bodySlotMap rq data s) := by
  unfold bodySlotMap
  split
  · exact .plain
  · dsimp only
    split
    · exact .plain
    · split
      · exact .plain
      · split
        · exact .plain
        · split
          · exact .plain
          · split
            · exact .plain
            · refine PoolStill.answer ?_ _ _ _
              unfold setMap
              split <;> exact .plain

/-! ### The requests of STAGE, EQ, SDV, CUE and TABLE -/

theorem bodyStageRecord_poolKept : PoolKept s (bodyStageRecord rq data s) := by
  unfold bodyStageRecord stageClose stageOpen
  split
  · exact (answer_still _ _ _ s).kept
  · exact (answer_still _ _ _ s).kept
  · split
    · split
      · exact (answer_still _ _ _ s).kept
      · split
        · exact (answer_still _ _ _ s).kept
        · split
          · exact ((answer_still _ _ _ _).after : PoolStill s _).kept
          next pass => exact (acceptSet_poolKept _ s pass).answer _ _ _
    · split
      · exact ((answer_still _ _ _ _).after : PoolStill s _).kept
      · exact (answer_still _ _ _ s).kept

theorem bodySectionLoad_poolKept (passes : Passes .sectionLoad s) : PoolKept s (bodySectionLoad rq data s) := by
  have idle : inExecution .eq s = false := passes.resolve_left (by decide)
  unfold bodySectionLoad
  split
  · exact (answer_still _ _ _ s).kept
  · split
    · exact (answer_still _ _ _ s).kept
    next found => exact fun h => load_pool h idle (h.good.map.lowestFree_some found).1

theorem bodySectionWrite_poolKept (passes : Passes .sectionWrite s) : PoolKept s (bodySectionWrite rq data s) := by
  have idle : inExecution .eq s = false := passes.resolve_left (by decide)
  unfold bodySectionWrite
  split
  · exact (answer_still _ _ _ s).kept
  · dsimp only
    split
    next loaded => exact fun h => rewrite_pool h idle loaded
    · exact (answer_still _ _ _ s).kept

theorem bodySectionRelease_poolKept : PoolKept s (bodySectionRelease rq data s) := by
  unfold bodySectionRelease
  dsimp only
  split
  next loaded => exact (releaseSection_poolKept loaded).answer _ _ _
  · exact (answer_still _ _ _ s).kept

theorem takeReport_still (c : Context) : PoolStill s (takeReport c s) := by
  unfold takeReport
  split
  · exact (speedReport_still _ _ s).trans .plain
  · unfold decodeThen
    split
    · exact .plain
    · exact (speedReport_still _ _ s).answer _ _ _

theorem bodySdvConfig_still : PoolStill s (bodySdvConfig rq data s) := by
  unfold bodySdvConfig
  split
  · exact .plain
  · exact (PoolStill.after (compareAge_still _)).answer _ _ _

theorem bodySdvManual_still : PoolStill s (bodySdvManual rq data s) := by
  unfold bodySdvManual
  dsimp only
  split
  · exact .plain
  · split
    · exact .plain
    · exact (stateThenManual_still _ .manual (some _) s).answer _ _ _

theorem bodySdvAuto_still : PoolStill s (bodySdvAuto rq data s) := by
  unfold bodySdvAuto
  split
  · exact (PoolStill.after (takeStateByAge_still _)).answer _ _ _
  · exact .plain

theorem bodyCueWrite_still : PoolStill s (bodyCueWrite rq data s) := by
  unfold bodyCueWrite
  dsimp only
  split
  · exact .plain
  · exact (reserve_still (u := .cue) (by decide) _).after

theorem bodyCueStart_still : PoolStill s (bodyCueStart rq data s) := by
  unfold bodyCueStart
  split
  · exact .plain
  · split <;> exact .plain

theorem latchRelease_still (r : RunnerNo) : PoolStill s (latchRelease rq r s) := by
  unfold latchRelease
  split <;> exact .plain

theorem bodyCueRelease_still : PoolStill s (bodyCueRelease rq data s) := by
  unfold bodyCueRelease releaseRunner
  split
  · exact .plain
  · split
    · exact (completeWait_still _ _ s).answer _ _ _
    · exact latchRelease_still rq s _
    · exact latchRelease_still rq s _
    · exact .plain
    · exact .plain

theorem bodyCueHalt_still : PoolStill s (bodyCueHalt rq data s) := by
  unfold bodyCueHalt
  split
  · exact .plain
  · exact (PoolStill.ofSame (haltRunner_same _ s)).answer _ _ _

theorem bodyTableRead_still : PoolStill s (bodyTableRead rq data s) := by
  unfold bodyTableRead startRead
  split
  · exact .plain
  next op _ =>
    have counted : PoolStill s (countLive op.table op.step s) := .ofSame (countLive_same _ _ s)
    split
    · exact (reserve_still (u := .table) (by decide) _).after
    · dsimp only
      split
      · exact counted.answer _ _ _
      · exact (reserve_still (u := .table) (by decide) _).after (counted.trans .plain)

theorem bodyDigest_still : PoolStill s (bodyDigest rq data s) := by
  unfold bodyDigest
  split
  · exact .plain
  · split
    · exact .plain
    · split
      · exact .plain
      · exact (reserve_still (u := .table) (by decide) _).after

end

/-! ### All commands -/

theorem execFrameBoundary_poolKept {up : Vector Sample 32} {examine batch : Bool} {s t : State}
    (h : execFrameBoundary up examine batch s = .next t) : PoolKept s t := by
  cases due : s.frame.boundaryDue with
  | true =>
    have taken := exec_frameBoundary up batch s examine due
    cases h.symm.trans taken
    exact (boundaryTaken_poolKept up examine batch s).trans (closeIfSettled_poolKept _)
  | false =>
    cases h
    rw [due]
    exact (PoolStill.ofSame (repeatSlots_same up s)).kept

theorem execSyncReceived_poolKept {spacing : Spacing} {s t : State} (h : execSyncReceived spacing s = .next t) : PoolKept s t := by
  cases h
  split
  · exact (syncHunting_still spacing s).kept
  · cases spacing
    · exact nextFrame_poolKept 0 s
    · exact .refl s

theorem execSyncMissing_poolKept {s t : State} (h : execSyncMissing s = .next t) : PoolKept s t := by
  cases h
  split
  · exact (PoolStill.plain : PoolStill s _).kept
  · split
    · exact nextFrame_poolKept 1 s
    · exact (finishBoundary_poolKept s).trans (lockLoss_poolKept _)

theorem execCueFetchGrant_still {r : RunnerNo} {s t : State} (h : execCueFetchGrant r s = .next t) : PoolStill s t := by
  cases h
  split
  · exact (fetchWindow_still r _).after
  · exact .refl s

theorem execSectionWriteGrant_poolKept {s t : State} (h : execSectionWriteGrant s = .next t) : PoolKept s t := by
  cases h
  split
  · split
    next w pending => exact (PoolStill.plain : PoolStill s (spendGrant s)).kept.trans (completeSectionWrite_poolKept pending)
    · exact .refl s
  · exact .refl s

theorem execCueWriteGrant_still {s t : State} (h : execCueWriteGrant s = .next t) : PoolStill s t := by
  cases h
  split
  · split
    · exact ((reportWrites_still _ _ _).trans (fillReservation_still (u := .cue) (by decide) _ _ _)).after
    · exact .refl s
  · exact .refl s

theorem execTableAccessGrant_still {s t : State} (h : execTableAccessGrant s = .next t) : PoolStill s t := by
  cases h
  split
  · exact tableAccess_still s
  · exact .refl s

theorem execControlCell_still {c : Cell} {s t : State} (h : execControlCell c s = .next t) : PoolStill s t := by
  cases h
  split
  · exact .plain
  · split
    · exact (lockedCell_still c _).after
    · exact .refl s

theorem execOutgoingPacketTake_still {s t : State} (h : execOutgoingPacketTake s = .next t) : PoolStill s t := by
  cases h
  unfold takeOutgoing
  split <;> exact .plain

theorem execNoticeQueue_still {s t : State} (h : execNoticeQueue s = .next t) : PoolStill s t := by
  cases h
  unfold queueOneNotice
  split
  · split <;> exact .plain
  · exact .plain

theorem execTableRead_poolKept {s t : State} (h : execTableRead s = .next t) : PoolKept s t := by
  cases h
  split
  · exact .refl s
  · exact takePacket_poolKept (decodeThen_poolKept fun rq data s _ => (bodyTableRead_still rq data s).kept) s

theorem exec_poolKept {c : Instr} {s t : State} (h : exec c s = .next t) : PoolKept s t := by
  cases c with
  | powerOn strap => cases h; exact fun _ => poolInv_reset rfl rfl rfl
  | syncReceived spacing => exact execSyncReceived_poolKept h
  | syncMissing => exact execSyncMissing_poolKept h
  | frameBoundary up examine batch => exact execFrameBoundary_poolKept h
  | rampComplete i => cases h; exact .dueThenClose (PoolStill.plain : PoolStill s (takeRampEnd i s)).kept
  | crossfadeEnd i => cases h; exact .dueThenClose (takeFadeEnd_poolKept i s)
  | leavingEnd => cases h; exact .dueThenClose (enterStandby_poolKept s)
  | setApplication => cases h; exact .dueThenClose (takeExam_poolKept s)
  | sdvTick => cases h; exact .dueThenClose (takeTick_still s).kept
  | cueFetchGrant r => exact (execCueFetchGrant_still h).kept
  | stepComplete r => cases h; exact .dueThenClose (completeEntry_still r s).kept
  | waitTimeout r => cases h; exact .dueThenClose (completeWait_still r true s).kept
  | sectionWriteGrant => exact execSectionWriteGrant_poolKept h
  | cueWriteGrant => exact (execCueWriteGrant_still h).kept
  | tableAccessGrant => exact (execTableAccessGrant_still h).kept
  | tableReadComplete => cases h; exact endTableStep_poolKept .read s
  | digestEnd => cases h; exact endTableStep_poolKept .digest s
  | controlCell cell => exact (execControlCell_still h).kept
  | outgoingPacketTake => exact (execOutgoingPacketTake_still h).kept
  | noticeQueue => exact (execNoticeQueue_still h).kept
  | unknownRequest => cases h; exact takePacket_poolKept (fun c s => (judgeUnknown_still c s).kept) s
  | identify => exact takeRequest_still (body := bodyIdentify) (fun _ _ _ => .plain) h
  | readStatus => exact takeRequest_still bodyReadStatus_still h
  | unitEnable => exact takeRequest_poolKept bodyUnitEnable_poolKept h
  | unitReset => exact takeRequest_poolKept bodyUnitReset_poolKept h
  | partReset => exact takeRequest_poolKept (body := bodyPartReset) (fun _ _ _ _ => poolInv_reset rfl rfl rfl) h
  | noticeEnable => exact takeRequest_still bodyNoticeEnable_still h
  | mode => exact takeRequest_poolKept bodyMode_poolKept h
  | slotMap => exact takeRequest_still bodySlotMap_still h
  | stageRecord => exact takeRequest_poolKept bodyStageRecord_poolKept h
  | abortOpen => exact takeRequest_still (body := bodyAbortOpen) (fun _ _ _ => .plain) h
  | flushQueue => exact takeRequest_poolKept (fun _ _ s => (flushQueue_poolKept s).answer _ _ _) h
  | setStatus => exact takeRequest_still (body := bodySetStatus) (fun _ _ _ => .plain) h
  | sectionLoad => exact takeRequest_passes bodySectionLoad_poolKept h
  | sectionWrite => exact takeRequest_passes bodySectionWrite_poolKept h
  | sectionRelease => exact takeRequest_poolKept bodySectionRelease_poolKept h
  | poolStatus => exact takeRequest_still (body := bodyPoolStatus) (fun _ _ _ => .plain) h
  | speedReport => cases h; exact takePacket_poolKept (fun c s => (takeReport_still s c).kept) s
  | sdvConfig => exact takeRequest_still bodySdvConfig_still h
  | sdvManual => exact takeRequest_still bodySdvManual_still h
  | sdvAuto => exact takeRequest_still bodySdvAuto_still h
  | sdvStatus => exact takeRequest_still (body := bodySdvStatus) (fun _ _ _ => .plain) h
  | cueWrite => exact takeRequest_still bodyCueWrite_still h
  | cueStart => exact takeRequest_still bodyCueStart_still h
  | cueRelease => exact takeRequest_still bodyCueRelease_still h
  | cueHalt => exact takeRequest_still bodyCueHalt_still h
  | cueStatus => exact takeRequest_still (body := bodyCueStatus) (fun _ _ _ => .plain) h
  | tableRead => exact execTableRead_poolKept h
  | digest => exact takeRequest_still bodyDigest_still h

/-- Settles O9: each command keeps the pool (`PoolKept`). Sections go from state to state in lists (`PoolGood.move`): the list that
names those of the old state gives them up, the one of the new state takes them; the free map follows the FREE sections. -/
theorem stepKeepsSectionPool : Obligations.StepKeepsSectionPool := by
  intro s t pool h
  unfold step at h
  split at h
  · cases h; exact pool
  · exact exec_poolKept h ((PoolStill.plain : PoolStill s _).kept pool)

end Sys2Proof.Machine

namespace Sys2Proof.Machine
-- One proof at a time: side by side the proofs start more threads than the memory limit allows.
set_option Elab.async false

/-! ## The end of a crossfade (R88, R92, R94) -/

theorem exec_crossfadeEnd {i : Fin 4} {f : Crossfade} {s : State} (used : s.eq.slots[i] = some f) (due : f.due = true) :
    exec (.crossfadeEnd i) s = .next (closeIfSettled (endSlot i s)) := by
  have owed : s.eq.dueAt i = true := by simp only [EqUnit.dueAt, used, due]
  have taken : takeFadeEnd i s = endSlot i s := if_pos owed
  refine Eq.trans (b := .next (if s.eq.dueAt i then closeIfSettled (takeFadeEnd i s) else s)) rfl ?_
  rw [if_pos owed, taken]

theorem EqUnit.retires_iff {e : EqUnit} {i : Fin 4} {f : Crossfade} (used : e.slots[i] = some f) (n : SectionNo) :
    e.retires i n ↔ n ∈ f.old := by
  simp [retires, used]

/-- Settles O31: what the end of a slot does, where the slot is in use and its end is owed. -/
theorem crossfadeEndReturnsSections : Obligations.CrossfadeEndReturnsSections := by
  intro i f s used due
  obtain ⟨rest, sections⟩ := endSlot_eq i s
  have retires := EqUnit.retires_iff used
  refine ⟨endSlot i s, exec_crossfadeEnd used due, rest, fun n => ?_, ?_, endSlot_noNotice i s, (endSlot_calm i s).settings,
    (endSlot_same i s).mono (by decide)⟩
  · obtain ⟨returned, stands⟩ := sections n
    split
    next old => exact returned ((retires n).mpr old)
    next other => exact stands (other ∘ (retires n).mp)
  · refine (endSlot_heard i s).congr fun d n => and_congr_right fun _ => ?_
    simp only [retires]

end Sys2Proof.Machine

namespace Sys2Proof.Machine
-- One proof at a time: side by side the proofs start more threads than the memory limit allows.
set_option Elab.async false

/-! ## Entries of cue memory after a write (R119, R132) -/

theorem read_writeBytes : ∀ (bs : List Byte) {m : Memory} (at_ x : Nat), Memory.wf m = true →
    Memory.read (writeBytes m at_ bs) x = if h : at_ ≤ x ∧ x < at_ + bs.length then bs[x - at_] else Memory.read m x
  | [], m, at_, x, _ => by
    rw [dif_neg (by simp)]
    rfl
  | b :: bs, m, at_, x, wf => by
    refine (read_writeBytes bs (at_ + 1) x (Memory.wf_write at_ b wf)).trans ?_
    by_cases here : x = at_
    · subst here
      simp [Memory.read_write_same x b wf]
    · rw [Memory.read_write_other b here]
      by_cases inside : at_ + 1 ≤ x ∧ x < at_ + 1 + bs.length
      · have shift : x - at_ = x - (at_ + 1) + 1 := by omega
        rw [dif_pos inside, dif_pos (by simp; omega)]
        simp only [shift, List.getElem_cons_succ]
      · rw [dif_neg inside, dif_neg (by simp; omega)]

/-- The entry written reads back, every other stands. -/
theorem readEntry_writeBytes (e : CueEntry) {m : Memory} (a x : CueAddr) (wf : Memory.wf m = true) :
    readEntry (writeBytes m (8 * a.val) e.toList) x = if x = a then e else readEntry m x := by
  refine Vector.ext fun i bound => ?_
  simp only [readEntry, Vector.getElem_ofFn, read_writeBytes _ _ _ wf, Vector.length_toList]
  by_cases here : x = a
  · subst here
    simp [bound]
  · have apart : x.val ≠ a.val := fun same => here (Fin.ext same)
    rw [dif_neg (by omega)]
    simp [here]

theorem succ_addr (a : CueAddr) (j : Nat) : a + Fin.ofNat 256 (j + 1) = a + 1 + Fin.ofNat 256 j := by
  refine Fin.ext ?_
  simp only [Fin.val_add, Fin.ofNat]
  omega

/-- R132: an address no entry goes to. -/
theorem readEntry_writeEntries_other : ∀ (es : List CueEntry) {m : Memory} (a x : CueAddr), Memory.wf m = true →
    (∀ j : Nat, j < es.length → x ≠ a + Fin.ofNat 256 j) → readEntry (writeEntries m a es) x = readEntry m x
  | [], _, _, _, _, _ => rfl
  | e :: es, m, a, x, wf, out => by
    refine (readEntry_writeEntries_other es (a + 1) x (wf_writeBytes _ _ wf) fun j less => ?_).trans ?_
    · rw [← succ_addr]
      exact out (j + 1) (Nat.succ_lt_succ less)
    · have apart : x ≠ a := by simpa using out 0 (Nat.succ_pos _)
      rw [readEntry_writeBytes e a x wf, if_neg apart]

/-- R132: entries at consecutive addresses, wrapping from 255 to 0, are all there while they are at most 256. -/
theorem readEntry_writeEntries : ∀ (es : List CueEntry) {m : Memory} (a : CueAddr), Memory.wf m = true → es.length ≤ 256 →
    ∀ (j : Nat) (e : CueEntry), es[j]? = some e → readEntry (writeEntries m a es) (a + Fin.ofNat 256 j) = e
  | [], _, _, _, _, _, _, found => by simp at found
  | e :: es, m, a, wf, few, j, f, found => by
    have wf' := wf_writeBytes e.toList (8 * a.val) wf
    rw [List.length_cons] at few
    cases j with
    | zero =>
      obtain rfl : e = f := by simpa using found
      have start : a + Fin.ofNat 256 0 = a := by simp
      rw [start]
      refine (readEntry_writeEntries_other es (a + 1) a wf' fun k less same => ?_).trans ?_
      · have := congrArg Fin.val same
        simp only [Fin.val_add, Fin.ofNat] at this
        omega
      · rw [readEntry_writeBytes e a a wf, if_pos rfl]
    | succ j =>
      rw [succ_addr]
      exact readEntry_writeEntries es (a + 1) wf' (by omega) j f (by simpa using found)

/-! ## The granted writes (R82, R132, R140) -/

theorem spendGrant_same (s : State) : SameBut [.frame] s (spendGrant s) :=
  SameBut.ofParts fun p => by cases p <;> first | exact Or.inr rfl | exact Or.inl (by decide)

/-- R149, R164: a unit's writes are heard of, and then the unit is answered; `s` and `v` differ outside what is spoken of. -/
theorem reported_filled {u : UnitId} (res : Result) (data : List Byte) (d : TableId) (is : List Nat) {s v : State}
    (other : u ≠ .table := by decide) (ctl : v.ctl = s.ctl := by rfl) (table : v.table = s.table := by rfl) :
    WritesHeard (fun t n => t = d ∧ n ∈ is) [{ unit := u, res := res, data := data }] s (fillReservation u res data (reportWrites d is v)) ∧
      NoNotice s (fillReservation u res data (reportWrites d is v)) := by
  have heard := (reportWrites_heard d is v).of_ctl (s' := s) ⟨ctl.symm, table.symm⟩ ⟨rfl, rfl⟩
  have quiet : NoNotice s (reportWrites d is v) := (NoNotice.ofCtl ctl).trans (reportWrites_noNotice d is v)
  refine ⟨heard.thenAnswered (fillReservation_answered u res data _) rfl fun a mem => ?_, quiet.trans (fillReservation_noNotice u res data _)⟩
  rw [List.mem_singleton.mp mem]
  exact other

/-- R82: the granted section write. -/
theorem sectionWrite_granted {w : SectionWrite} {s : State} (granted : mayGrant .sectionWrite s = true) (pending : s.eq.pendingWrite = some w) :
    exec .sectionWriteGrant s = .next (completeSectionWrite w (spendGrant s)) := by
  show Host.Outcome.next _ = _
  rw [if_pos granted, pending]

/-- R132: the granted cue write. -/
theorem cueWrite_granted {w : CueWrite} {s : State} (granted : mayGrant .cueWrite s = true) (pending : s.cue.pendingWrite = some w) :
    exec .cueWriteGrant s = .next (completeCueWrite w (spendGrant s)) := by
  show Host.Outcome.next _ = _
  rw [if_pos granted, pending]

theorem completeCueWrite_same (w : CueWrite) (s : State) : SameBut [.ctl, .cue, .table] s (completeCueWrite w s) := by
  have stored : SameBut [.ctl, .cue, .table] s
      { s with cue := { s.cue with mem := writeEntries s.cue.mem w.addr w.entries, pendingWrite := none } } :=
    SameBut.ofParts fun p => by cases p <;> first | exact Or.inr rfl | exact Or.inl (by decide)
  exact (stored.trans ((reportWrites_same _ _ _).mono (by decide))).trans ((fillReservation_same _ _ _ _).mono (by decide))

theorem completeCueWrite_calm (w : CueWrite) (s : State) : Calm s (completeCueWrite w s) :=
  Calm.after ((reportWrites_calm _ _ _).trans (fillReservation_calm _ _ _ _))

theorem completeCueWrite_cue (w : CueWrite) (s : State) : (completeCueWrite w s).cue =
    { s.cue with mem := writeEntries s.cue.mem w.addr w.entries, pendingWrite := none } := by
  simp [completeCueWrite]

/-- R140: what spends the grant and leaves the frame otherwise. -/
theorem SameBut.afterGrant {ps qs : List Part} {s t : State} (h : SameBut ps (spendGrant s) t) (out : Part.frame ∉ ps := by decide)
    (sub : ∀ p ∈ ps ++ [.frame], p ∈ qs := by decide) : SameBut qs s t ∧ t.frame = { s.frame with grantFree := false } := by
  refine ⟨SameBut.trans ((spendGrant_same s).mono fun p mem => ?_) (h.mono fun p mem => ?_), h .frame out⟩
  · exact sub p (List.mem_append_right _ mem)
  · exact sub p (List.mem_append_left _ mem)

/-- Settles O34: each grant is spent, the write is stored and reported, and then its reservation is filled. -/
theorem writesGranted : Obligations.WritesGranted := by
  refine ⟨fun w s granted pending => ?eqWrite, fun w s memory granted pending few => ?cueWrite⟩
  case eqWrite =>
    obtain ⟨same, frame⟩ := (completeSectionWrite_same w (spendGrant s)).afterGrant (qs := [.ctl, .eq, .table, .frame])
    have told : WritesHeard _ _ s (completeSectionWrite w (spendGrant s)) ∧ NoNotice s (completeSectionWrite w (spendGrant s)) :=
      reported_filled (u := .eq) .ok [byteOf w.sec.val] .sections ([w.sec].map Fin.val)
    obtain ⟨heard, quiet⟩ := told
    exact ⟨_, sectionWrite_granted granted pending, reportSections_eq [w.sec] _,
      heard.congr fun d n => and_congr_right fun _ => List.mem_map, quiet, frame,
      (completeSectionWrite_calm w (spendGrant s)).settings, same⟩
  case cueWrite =>
    obtain ⟨same, frame⟩ := (completeCueWrite_same w (spendGrant s)).afterGrant (qs := [.ctl, .cue, .table, .frame])
    have cue := completeCueWrite_cue w (spendGrant s)
    have told : WritesHeard _ _ s (completeCueWrite w (spendGrant s)) ∧ NoNotice s (completeCueWrite w (spendGrant s)) :=
      reported_filled (u := .cue) .ok [byteOf w.addr.val, byteOf w.entries.length] .cueMemory
        ((List.range w.entries.length).map fun i => (w.addr.val + i) % 256)
    obtain ⟨heard, quiet⟩ := told
    refine ⟨_, cueWrite_granted granted pending, fun j e found => ?_, fun a out => ?_, ?_, ?_, heard.congr fun d n => and_congr_right fun _ => ?_, quiet, frame,
      (completeCueWrite_calm w (spendGrant s)).settings, same⟩
    · rw [cue, ← ofNat_val j]
      exact readEntry_writeEntries w.entries w.addr memory.1 (by omega) j.val e found
    · rw [cue]
      refine readEntry_writeEntries_other w.entries w.addr a memory.1 fun j less => ?_
      have index : (Fin.ofNat 256 j).val = j := Nat.mod_eq_of_lt (by omega)
      exact out (Fin.ofNat 256 j) (by rwa [index])
    · rw [cue]
      exact memoryGood_writeEntries w.entries w.addr memory
    · rw [cue]
      rfl
    · simp only [List.mem_map, List.mem_range, eq_comm]

end Sys2Proof.Machine

namespace Sys2Proof.Machine
-- One proof at a time: side by side the proofs start more threads than the memory limit allows.
set_option Elab.async false

/-! ## Section requests (R81 to R85) -/

/-- R82: what the beginning of a write does before the request's place becomes a reservation. -/
def beginWrite (w : SectionWrite) (s : State) : State :=
  reportSections [w.sec]
    { s with
        eq := { s.eq.putState w.sec .loading with pendingWrite := some w }
        cue := { s.cue with cueFirst := s.cue.pendingWrite.isSome } }

/-- What a write's beginning makes of a state in which the EQ unit is `e`. -/
structure WriteBegun (w : SectionWrite) (e : EqUnit) (s t : State) : Prop where
  eq : t.eq = { e with sections := e.sections.set w.sec { e.sections[w.sec] with state := .loading }, pendingWrite := some w }
  cue : t.cue = { s.cue with cueFirst := s.cue.pendingWrite.isSome }
  heard : WritesHeard (sectionEntries [w.sec]) [] s t
  quiet : NoNotice s t
  calm : Calm s t
  same : SameBut [.ctl, .eq, .cue, .table] s t

theorem beginWrite_begun (w : SectionWrite) (e : EqUnit) (s : State) : WriteBegun w e s (beginWrite w { s with eq := e }) where
  eq := reportSections_eq [w.sec] _
  cue := (reportSections_same [w.sec] _) .cue (by decide)
  heard := reportSections_heard [w.sec] rfl rfl
  quiet := reportWrites_noNotice .sections ([w.sec].map Fin.val) _
  calm := Calm.after (reportWrites_calm _ _ _)
  same := SameBut.trans (SameBut.ofParts fun p => by cases p <;> first | exact Or.inr rfl | exact Or.inl (by decide))
    ((reportSections_same [w.sec] _).mono (by decide))

/-- R82, R164: a write begins while its request is judged. -/
theorem startSectionWrite_heldTake {c : Context} {i : Fin 2} {s : State} (held : NoHeld s) (w : SectionWrite) (e : EqUnit) :
    startSectionWrite w.sec w.kind w.coeffs { heldTake c i s with eq := e } =
      reserved .eq c (beginWrite w { afterTake i s with eq := e }) := by
  have judged : startSectionWrite w.sec w.kind w.coeffs { heldTake c i s with eq := e } =
      reserve .eq (withHeld c.requester (beginWrite w { afterTake i s with eq := e })) :=
    congrArg (reserve .eq) (reportWrites_withHeld .sections _ c.requester
      { afterTake i s with
          eq := { e.putState w.sec .loading with pendingWrite := some w }
          cue := { s.cue with cueFirst := s.cue.pendingWrite.isSome } })
  rw [judged]
  exact reserve_last .eq rfl ((beginWrite_begun w e (afterTake i s)).calm.noHeld (afterTake_noHeld i held))

theorem WriteBegun.takenBut {w : SectionWrite} {e : EqUnit} {i : Fin 2} {s t : State} (h : WriteBegun w e (afterTake i s) t) :
    TakenBut [.eq, .cue, .table] i s t := .ofSame h.same h.calm

/-- Settles O32: by what the free map says of the lowest-numbered FREE section, and by what the beginning of a write does. -/
theorem sectionLoadAllocates : Obligations.SectionLoadAllocates := by
  refine ⟨coeffsDecoded, fun c i k s held pool takes coeffs => ?_⟩
  have map := pool.good.map
  have taken := takeRequest_takes takes bodySectionLoad
  have eq : (heldTake c i s).eq = s.eq := rfl
  unfold bodySectionLoad at taken
  rw [coeffs] at taken
  dsimp only at taken
  rw [eq] at taken
  refine ⟨fun full => ?_, fun n free lowest => ?_⟩
  · have none : s.eq.lowestFree = none := by
      cases found : s.eq.lowestFree with
      | none => rfl
      | some n => exact absurd (map.lowestFree_some found).1 (full n)
    rw [none, answer_heldTake c i _ _ held] at taken
    exact taken
  · have marked : s.eq.marked n = true := (map.marked n).mpr free
    have begun := beginWrite_begun { sec := n, kind := .load, coeffs := k } (s.eq.markUsed n) (afterTake i s)
    have started := startSectionWrite_heldTake (c := c) (i := i) held { sec := n, kind := .load, coeffs := k } (s.eq.markUsed n)
    rw [map.lowestFree_eq free lowest] at taken
    refine ⟨_, taken.trans (congrArg _ started), ?_, fun m other => ?_, fun m => ?_, ?_, ?_, ?_, ?_, begun.cue, begun.heard, begun.quiet,
      begun.takenBut⟩ <;> rw [begun.eq]
    · simp [EqUnit.markUsed]
    · have apart : ¬ n.val = m.val := fun same => other (Fin.ext same.symm)
      simp [EqUnit.markUsed, apart]
    · exact s.eq.marked_markUsed n m
    · exact EqUnit.freeCount_markUsed marked
    · rfl
    · rfl

section
variable {c : Context} {i : Fin 2} {s : State}

/-- R84, R85: a section that is not LOADED is refused with its state. -/
theorem section_refused (held : NoHeld s) {st : SectionState} {acts : State} {out : Host.Outcome State Fault Refusal}
    (taken : out = .next (if st = .loaded then acts else refuseSection c.requester st (heldTake c i s))) :
    (st = .free → out = .next (replied c .notLoaded [SectionState.free.code] (afterTake i s))) ∧
    (st ≠ .free → st ≠ .loaded → out = .next (replied c .inUse [st.code] (afterTake i s))) := by
  have refused : refuseSection c.requester st (heldTake c i s) =
      replied c (if st = .free then .notLoaded else .inUse) [st.code] (afterTake i s) := answer_heldTake c i _ _ held
  rw [refused] at taken
  refine ⟨fun free => ?_, fun notFree notLoaded => ?_⟩
  · rw [if_neg (by rw [free]; decide), if_pos free, free] at taken
    exact taken
  · rw [if_neg notLoaded, if_neg notFree] at taken
    exact taken

/-- R84: SECTION_WRITE reads the section's number and its coefficients. -/
theorem sectionWrite_taken {b : Byte} {bs : List Byte} {k : Coeffs} (takes : Takes .sectionWrite c i s) (data : c.data = b :: bs)
    (coeffs : parseCoeffs bs = some k) : exec .sectionWrite s = .next (if (s.eq.sections[byteFin b]).state = .loaded then
      startSectionWrite (byteFin b) .rewrite k (heldTake c i s)
      else refuseSection c.requester (s.eq.sections[byteFin b]).state (heldTake c i s)) := by
  refine (takeRequest_takes takes bodySectionWrite).trans (congrArg _ ?_)
  simp only [bodySectionWrite, data, List.drop_succ_cons, List.drop_zero, coeffs]
  rfl

/-- R85: SECTION_RELEASE reads the section's number. -/
theorem sectionRelease_taken {b : Byte} (takes : Takes .sectionRelease c i s) (data : c.data = [b]) :
    exec .sectionRelease s = .next (if (s.eq.sections[byteFin b]).state = .loaded then
      answer c.requester .ok (byteOf (byteFin b).val :: bytes16 (releaseSection (byteFin b) (heldTake c i s)).eq.freeCount)
        (releaseSection (byteFin b) (heldTake c i s))
      else refuseSection c.requester (s.eq.sections[byteFin b]).state (heldTake c i s)) := by
  refine (takeRequest_takes takes bodySectionRelease).trans (congrArg _ ?_)
  rw [data]
  rfl

theorem releaseSection_withHeld (n : SectionNo) (rq : Requester) (s : State) :
    releaseSection n (withHeld rq s) = withHeld rq (releaseSection n s) :=
  reportWrites_withHeld .sections _ rq { s with eq := (s.eq.putState n .free).markFree n }

theorem releaseSection_eq (n : SectionNo) (s : State) : (releaseSection n s).eq = (s.eq.putState n .free).markFree n :=
  reportSections_eq [n] _

theorem byteOf_byteFin (b : Byte) : byteOf (byteFin b).val = b := by
  simp [byteOf, byteFin]

end

/-- R81: a section that becomes FREE sets its group's marker. -/
theorem EqUnit.groupBit_markFree (e : EqUnit) (n : SectionNo) : (e.markFree n).free0.getLsbD (sectionGroup n).val = true := by
  rw [markFree, BitVec.getLsbD_or, BitVec.getLsbD_twoPow, decide_eq_true (sectionGroup n).isLt, decide_eq_true rfl]
  simp

/-- Settles O33: by the state of the named section. -/
theorem sectionRequestsByState : Obligations.SectionRequestsByState := by
  refine ⟨coeffsDecoded, rfl, fun c i b bs k s held takes data coeffs => ?write, fun c i b s held takes data => ?release⟩
  case write =>
    have taken := sectionWrite_taken takes data coeffs
    obtain ⟨notLoaded, inUse⟩ := section_refused held taken
    refine ⟨notLoaded, inUse, fun loaded => ?_⟩
    have begun := beginWrite_begun { sec := byteFin b, kind := .rewrite, coeffs := k } s.eq (afterTake i s)
    have started := startSectionWrite_heldTake (c := c) (i := i) held { sec := byteFin b, kind := .rewrite, coeffs := k } s.eq
    rw [if_pos loaded] at taken
    exact ⟨_, taken.trans (congrArg _ started), begun.eq, begun.cue, begun.heard, begun.quiet, begun.takenBut⟩
  case release =>
    have taken := sectionRelease_taken takes data
    obtain ⟨notLoaded, inUse⟩ := section_refused held taken
    refine ⟨notLoaded, inUse, fun loaded => ?_⟩
    have calm : Calm (afterTake i s) (releaseSection (byteFin b) (afterTake i s)) := eqThenReport_calm _ [byteFin b] _
    have eq := releaseSection_eq (byteFin b) (afterTake i s)
    rw [if_pos loaded, heldTake_withHeld, releaseSection_withHeld, byteOf_byteFin,
      answer_withHeld c _ _ (calm.noHeld (afterTake_noHeld i held))] at taken
    refine ⟨releaseSection (byteFin b) (afterTake i s), taken, ?_, fun m => ?_, ?_, ?_, ?_, ?_, reportSections_heard [byteFin b] rfl rfl,
      reportWrites_noNotice .sections ([byteFin b].map Fin.val) _, .ofSame (releaseSection_same _ _) calm⟩ <;> rw [eq]
    · rfl
    · exact (s.eq.putState (byteFin b) .free).marked_markFree (byteFin b) m
    · exact EqUnit.groupBit_markFree _ _
    · rfl
    · rfl
    · rfl

end Sys2Proof.Machine

namespace Sys2Proof.Machine
-- One proof at a time: side by side the proofs start more threads than the memory limit allows.
set_option Elab.async false

/-! ## A runner's packed requests (11.3) -/

/-- A number's lowest `k` bytes, most significant first, spell it modulo `256 ^ k`. -/
theorem foldl_bytes (k N : Nat) :
    (List.range k).foldl (fun n i => n * 256 + N / 256 ^ (k - 1 - i) % 256) 0 = N % 256 ^ k := by
  induction k generalizing N with
  | zero => simp [Nat.mod_one]
  | succ k ih =>
    have front : (List.range k).foldl (fun n i => n * 256 + N / 256 ^ (k + 1 - 1 - i) % 256) 0 =
        (List.range k).foldl (fun n i => n * 256 + N / 256 / 256 ^ (k - 1 - i) % 256) 0 := by
      refine List.foldl_ext _ _ _ fun n i member => ?_
      have place : k + 1 - 1 - i = (k - 1 - i) + 1 := by
        have := List.mem_range.mp member
        omega
      rw [place, Nat.div_div_eq_div_mul, Nat.pow_succ']
    rw [List.range_succ, List.foldl_append, front, ih]
    simp only [List.foldl_cons, List.foldl_nil, Nat.add_sub_cancel, Nat.sub_self, Nat.pow_zero, Nat.div_one]
    rw [Nat.pow_succ', Nat.mod_mul]
    omega

theorem foldl_requestBytes (x : Runner) :
    (requestBytes x).foldl (fun n b => n * 256 + b.toNat) 0 = (requestBits x).toNat := by
  have byte : ∀ i, ((requestBits x).extractLsb' (8 * (13 - i)) 8).toNat = (requestBits x).toNat / 256 ^ (14 - 1 - i) % 256 := by
    intro i
    rw [BitVec.extractLsb'_toNat, Nat.shiftRight_eq_div_pow, Nat.pow_mul]
  unfold requestBytes
  rw [List.foldl_map]
  simp only [byte]
  rw [foldl_bytes]
  exact Nat.mod_eq_of_lt (requestBits x).isLt

/-- One more 9-bit attenuation below the bits packed so far. -/
def packAttenuation (w : BitVec 112) (v : Int) : BitVec 112 := (w <<< 9) ||| BitVec.ofInt 112 (-v)

theorem packAttenuation_toNat {w : BitVec 112} {v : Int} {k : Nat} (room : k + 1 ≤ 12) (small : w.toNat < 512 ^ k)
    (range : -480 ≤ v ∧ v ≤ 0) :
    (packAttenuation w v).toNat = w.toNat * 512 + v.natAbs ∧ w.toNat * 512 + v.natAbs < 512 ^ (k + 1) := by
  have attenuation : (BitVec.ofInt 112 (-v)).toNat = v.natAbs := by
    rw [BitVec.toNat_ofInt]
    omega
  have bound : 512 ^ (k + 1) ≤ 512 ^ 12 := Nat.pow_le_pow_right (by decide) room
  have fits : w.toNat * 512 + v.natAbs < 512 ^ (k + 1) := by
    rw [Nat.pow_succ]
    omega
  have kept : w.toNat * 2 ^ 9 < 2 ^ 112 :=
    calc w.toNat * 2 ^ 9 ≤ w.toNat * 512 + v.natAbs := Nat.le_add_right _ _
      _ < 512 ^ 12 := fits.trans_le bound
      _ < 2 ^ 112 := by decide
  have shifted : (w <<< 9).toNat = w.toNat <<< 9 := by
    rw [BitVec.toNat_shiftLeft, Nat.shiftLeft_eq, Nat.mod_eq_of_lt kept]
  refine ⟨?_, fits⟩
  rw [packAttenuation, BitVec.toNat_or, shifted, attenuation, ← Nat.shiftLeft_add_eq_or_of_lt (by omega), Nat.shiftLeft_eq]

theorem foldl_packAttenuation_toNat (vs : List Int) (range : ∀ v ∈ vs, -480 ≤ v ∧ v ≤ 0) (w : BitVec 112) (k : Nat)
    (room : k + vs.length ≤ 12) (small : w.toNat < 512 ^ k) :
    (vs.foldl packAttenuation w).toNat = vs.foldl (fun n v => n * 512 + v.natAbs) w.toNat ∧
      (vs.foldl packAttenuation w).toNat < 512 ^ (k + vs.length) := by
  induction vs generalizing w k with
  | nil => exact ⟨rfl, small⟩
  | cons v vs ih =>
    rw [List.length_cons] at room ⊢
    obtain ⟨packed, fits⟩ := packAttenuation_toNat (by omega) small (range v List.mem_cons_self)
    rw [List.foldl_cons, List.foldl_cons, ← packed, show k + (vs.length + 1) = k + 1 + vs.length by omega]
    exact ih (fun u member => range u (List.mem_cons_of_mem _ member)) _ _ (by omega) (packed ▸ fits)

theorem requestBits_toNat {x : Runner} (range : ∀ src : Source, -480 ≤ x.requests[src] ∧ x.requests[src] ≤ 0) :
    (requestBits x).toNat = 16 * x.requests.toList.foldl (fun n v => n * 512 + v.natAbs) 0 := by
  have each : ∀ v ∈ x.requests.toList, -480 ≤ v ∧ v ≤ 0 := by
    intro v member
    obtain ⟨i, lt, rfl⟩ := Vector.mem_iff_getElem.mp (Vector.mem_toList_iff.mp member)
    exact range ⟨i, lt⟩
  have length : x.requests.toList.length = 12 := Vector.length_toList
  obtain ⟨packed, fits⟩ := foldl_packAttenuation_toNat _ each 0 0 (by omega) (by decide)
  rw [length] at fits
  have whole : requestBits x = x.requests.toList.foldl packAttenuation 0 <<< 4 := rfl
  rw [whole, BitVec.toNat_shiftLeft, Nat.shiftLeft_eq, Nat.mod_eq_of_lt (by omega), packed, Nat.mul_comm]
  rfl

/-! ## Status reports (R86, R115, R134) -/

theorem vector_toList_four {α : Type} (v : Vector α 4) : v.toList = [v[0], v[1], v[2], v[3]] := by
  refine List.ext_getElem (by simp) fun i low high => ?_
  rw [Vector.getElem_toList]
  match i, high with
  | 0, _ => rfl
  | 1, _ => rfl
  | 2, _ => rfl
  | 3, _ => rfl

theorem poolData_eq (free : Nat) (e : EqUnit) : poolData free e =
    bytes16 e.freeCount ++ [Config.freeLevel0 free ++ e.free0] ++ bytes16 (e.stateCount .loading) ++
      bytes16 (e.stateCount .loaded) ++ bytes16 (e.stateCount .claimed) ++ bytes16 (e.stateCount .live) ++
      bytes16 (e.stateCount .retiring) ++ slotData free e 0 ++ slotData free e 1 ++ slotData free e 2 ++ slotData free e 3 := by
  have slots : ((List.finRange 4).map (slotData free e)).flatten =
      slotData free e 0 ++ (slotData free e 1 ++ (slotData free e 2 ++ (slotData free e 3 ++ []))) := rfl
  rw [poolData, slots, List.append_nil]
  simp only [level0Byte, List.append_assoc]

theorem sdvData_eq (free : Nat) (u : Sdv) : sdvData free u =
    [u.state.code] ++ speedData u.lastSpeed ++ speedData u.manual ++ ageData free u.age ++
      [byteOf u.boost, byteOf u.targets[0], byteOf u.targets[1], byteOf u.targets[2], byteOf u.targets[3]] ++
      bytes16 u.hold ++ bytes16 u.fallback ++ [byteOf u.hyst] ++ bytes16 u.rampMs := by
  rw [sdvData, vector_toList_four, configData]
  simp

theorem requestBytes_length (x : Runner) : (requestBytes x).length = 14 := by
  simp [requestBytes]

/-- 11.3: the state's code leaves bits 4 and 5 to the latch and the timed-out flag. -/
theorem runnerFlags_eq (st : RunnerState) (latch timedOut : Bool) :
    st.code ||| (if latch then 0x10 else 0) ||| (if timedOut then 0x20 else 0) =
      BitVec.ofNat 8 (st.code.toNat + (if latch then 16 else 0) + (if timedOut then 32 else 0)) := by
  cases st <;> cases latch <;> cases timedOut <;> rfl

/-- The six bytes of a runner's record before its requests. -/
def runnerHead (x : Runner) : List Byte :=
  [BitVec.ofNat 8 (x.state.code.toNat + (if x.latch then 16 else 0) + (if x.timedOut then 32 else 0)),
    byteOf (x.nextFetch - Fin.ofNat 256 x.window.length).val, byteOf x.window.length] ++ bytes24 x.elapsed

theorem runnerRecord_eq (x : Runner) : runnerRecord x = runnerHead x ++ requestBytes x := by
  rw [runnerRecord, runnerFlags_eq]
  rfl

theorem runnerHead_length (x : Runner) : (runnerHead x).length = 6 := rfl

/-- Settles O55: the answers by the taking of a request, a runner's record by its two parts. -/
theorem statusReports : Obligations.StatusReports := by
  refine ⟨rfl, rfl, fun c i s held takes => ?pool, fun c i s held takes => ?sdv, fun c i s held takes => ?cue,
    fun f e i => rfl, fun v => ⟨rfl, rfl⟩, fun f a => ⟨rfl, rfl⟩, fun x => ⟨?length, ?head, fun range => ?requests⟩⟩
  case pool =>
    rw [← poolData_eq]
    exact (takeRequest_takes takes bodyPoolStatus).trans
      (congrArg _ (answer_heldTake_of_ctl (t := { afterTake i s with free := s.free + 1 }) c i .ok _ held))
  case sdv =>
    rw [← sdvData_eq]
    exact (takeRequest_takes takes bodySdvStatus).trans
      (congrArg _ (answer_heldTake_of_ctl (t := { afterTake i s with free := s.free + 1 }) c i .ok _ held))
  case cue => exact (takeRequest_takes takes bodyCueStatus).trans (congrArg _ (answer_heldTake c i .ok _ held))
  case length => rw [runnerRecord_eq, List.length_append, runnerHead_length, requestBytes_length]
  case head => rw [runnerRecord_eq, List.take_left' (runnerHead_length x), runnerHead]
  case requests => rw [runnerRecord_eq, List.drop_left' (runnerHead_length x), foldl_requestBytes, requestBits_toNat range]

end Sys2Proof.Machine

namespace Sys2Proof.Machine
-- One proof at a time: side by side the proofs start more threads than the memory limit allows.
set_option Elab.async false

/-! ## The boost for a speed (R108) -/

/-- R108: past a breakpoint whose speed is reached, what stands before it on the curve does not count. -/
theorem boostFrom_reached {v : Nat} {p : Nat × Int} {rest : List (Nat × Int)} (reached : p.1 ≤ v) :
    ∀ {before : List (Nat × Int)} {x : Nat × Int}, (∀ y ∈ before, y.1 < p.1) →
      boostFrom v x (before ++ p :: rest) = boostFrom v p rest
  | [], _, _ => if_neg (not_lt.mpr reached)
  | y :: before, _, slower => by
    obtain ⟨first, others⟩ := List.forall_mem_cons.mp slower
    rw [List.cons_append, boostFrom, if_neg (by omega)]
    exact boostFrom_reached reached others

/-- R108: at a breakpoint's own speed the boost is that breakpoint's. -/
theorem boostFrom_own {v : Nat} {p : Nat × Int} {rest : List (Nat × Int)} (own : v = p.1) (faster : ∀ q ∈ rest, p.1 < q.1) :
    boostFrom v p rest = p.2 := by
  cases rest with
  | nil => rfl
  | cons q rest =>
    have next : v < q.1 := own ▸ faster q List.mem_cons_self
    rw [boostFrom, if_pos next, own]
    simp

theorem boostAt_before {v : Nat} {p : Nat × Int} {rest : List (Nat × Int)} (before : v ≤ p.1) : boostAt (p :: rest) v = p.2 :=
  if_pos before

/-- R108: the boost is looked for from any breakpoint whose speed is reached. -/
theorem boostAt_reached {v : Nat} {before rest : List (Nat × Int)} {p : Nat × Int}
    (rises : (before ++ p :: rest).Pairwise fun p q => p.1 < q.1) (reached : p.1 ≤ v) :
    boostAt (before ++ p :: rest) v = boostFrom v p rest := by
  obtain ⟨-, later, apart⟩ := List.pairwise_append.mp rises
  have slower : ∀ y ∈ before, y.1 < p.1 := fun y mem => apart y mem p List.mem_cons_self
  cases before with
  | nil =>
    rw [List.nil_append, boostAt]
    split
    next own => exact (boostFrom_own (le_antisymm own reached) (List.pairwise_cons.mp later).1).symm
    next => rfl
  | cons x before =>
    obtain ⟨first, others⟩ := List.forall_mem_cons.mp slower
    rw [List.cons_append, boostAt, if_neg (by omega)]
    exact boostFrom_reached reached others

theorem curveValid_rises {ps : List (Nat × Int)} (h : curveValid ps = true) : ps.Pairwise fun p q => p.1 < q.1 := by
  obtain ⟨-, -, rises, -⟩ := curveValid_iff.mp h
  exact rises

/-- Settles O35: a curve's speeds rise, so the search for the boost may begin at any breakpoint reached (`boostAt_reached`): at the
last there is nothing more to find, at a breakpoint's own speed nothing to add, and before the next one the segment decides. -/
theorem boostForSpeed : Obligations.BoostForSpeed := by
  intro curve v valid _
  have rises := curveValid_rises valid
  obtain ⟨least, greatest⟩ := boostAt_good valid v
  refine ⟨least, greatest, ?first, ?last, ?own, ?segment⟩
  case first =>
    rintro p rest rfl before
    exact boostAt_before before
  case last =>
    intro p found reached
    obtain ⟨before, rfl⟩ := List.getLast?_eq_some_iff.mp found
    exact boostAt_reached rises reached
  case own =>
    intro p mem own
    obtain ⟨before, rest, rfl⟩ := List.append_of_mem mem
    obtain ⟨-, later, -⟩ := List.pairwise_append.mp rises
    rw [boostAt_reached rises own.le]
    exact boostFrom_own own.symm (List.pairwise_cons.mp later).1
  case segment =>
    rintro before p q rest rfl reached inside
    rw [boostAt_reached rises reached, boostFrom, if_pos inside]

end Sys2Proof.Machine

namespace Sys2Proof.Machine
-- One proof at a time: side by side the proofs start more threads than the memory limit allows.
set_option Elab.async false

/-! ## What an operation of the SDV unit does (R106, R109) -/

/-- The SDV unit takes the fields of `u`, telling of its state where that changes. -/
def fieldsTaken (u : Sdv) (s : State) : State := { setSdvState u.state s with sdv := u }

/-- The SDV unit takes the fields of `u`; then the groups of `gs` follow the boost. -/
def sdvTaken (u : Sdv) (gs : List Group) (s : State) : State := followGroups gs (fieldsTaken u s)

/-- What the taking of the fields of `u` makes of a state. -/
structure SdvMoved (u : Sdv) (s t : State) : Prop where
  state : t.sdv.state = u.state
  boost : t.sdv.boost = u.boost
  sdv : t.sdv = { u with targets := t.sdv.targets }
  boosts : s.ramp.Good → OnlyBoostsRetargeted u.rampMs s t
  told : SdvStateTold s t
  calm : Calm s t
  same : SameBut [.ctl, .ramp, .sdv] s t

/-- Every field but the three that operations compute is that of `u`. -/
theorem SdvMoved.fields {u : Sdv} {s t : State} (h : SdvMoved u s t) :
    t.sdv = { u with state := t.sdv.state, boost := t.sdv.boost, targets := t.sdv.targets } := by
  rw [h.state, h.boost]
  exact h.sdv

theorem SdvMoved.takenBut {u : Sdv} {i : Fin 2} {s t : State} (h : SdvMoved u (afterTake i s) t) : TakenBut [.ramp, .sdv] i s t :=
  .ofSame h.same h.calm

/-- R106: the notice of a state depends on the state the unit had alone. -/
theorem setSdvState_fields {v : Sdv} {s : State} (st : SdvState) (held : v.state = s.sdv.state) :
    setSdvState st { s with sdv := v } = { setSdvState st s with sdv := { v with state := st } } := by
  unfold setSdvState
  dsimp only
  rw [held]
  split
  next same => rw [← same, ← held]
  next =>
    unfold raiseNotice
    dsimp only
    split <;> rfl

section
variable {u : Sdv} {gs : List Group} {s : State}

theorem fieldsTaken_same : SameBut [.ctl, .sdv] s (fieldsTaken u s) :=
  (setSdvState_same u.state s).trans
    (SameBut.ofParts fun p => by cases p <;> first | exact Or.inr rfl | exact Or.inl (by decide))

theorem fieldsTaken_ramp : (fieldsTaken u s).ramp = s.ramp := fieldsTaken_same .ramp (by decide)

theorem fieldsTaken_core : (fieldsTaken u s).core = s.core := fieldsTaken_same .core (by decide)

theorem sdvTaken_same : SameBut [.ctl, .ramp, .sdv] s (sdvTaken u gs s) :=
  (fieldsTaken_same.mono (by decide)).trans ((followGroups_same gs (fieldsTaken u s)).mono (by decide))

theorem sdvTaken_calm : Calm s (sdvTaken u gs s) :=
  (setSdvState_calm u.state s).trans (Calm.after (t := fieldsTaken u s) (.ofSame (followGroups_same gs _)))

theorem sdvTaken_sdv : (sdvTaken u gs s).sdv = { u with targets := (sdvTaken u gs s).sdv.targets } :=
  followGroups_sdv gs (fieldsTaken u s)

theorem sdvTaken_state : (sdvTaken u gs s).sdv.state = u.state := by rw [sdvTaken_sdv]

theorem sdvTaken_boost : (sdvTaken u gs s).sdv.boost = u.boost := by rw [sdvTaken_sdv]

/-- R106: a change of state, and nothing else, is told. -/
theorem sdvTaken_told : SdvStateTold s (sdvTaken u gs s) := by
  have ctl : (sdvTaken u gs s).ctl = (setSdvState u.state s).ctl := followGroups_ctl gs _
  unfold SdvStateTold
  rw [sdvTaken_state]
  split
  next same => rw [ctl, same, setSdvState_same_state]
  next changed =>
    have raised := raiseNotice_raised (.sdvState u.state) { s with sdv := { s.sdv with state := u.state } }
    unfold NoticeRaised at raised ⊢
    rw [ctl, setSdvState, if_neg (Ne.symm changed)]
    exact raised

/-- R46: of the ramp table the BOOST keys of the groups that follow are retargeted. -/
theorem sdvTaken_boosts (held : u.targets = s.sdv.targets) (once : gs.Nodup) (good : s.ramp.Good) :
    OnlyBoostsRetargeted u.rampMs s (sdvTaken u gs s) := by
  obtain ⟨retargeted, others, -, -⟩ := followGroups_moved once (s := fieldsTaken u s) (by rwa [fieldsTaken_ramp])
  have targets : (fieldsTaken u s).sdv.targets = s.sdv.targets := held
  unfold BoostsRetargeted at retargeted
  rw [fieldsTaken_ramp, fieldsTaken_core, targets] at retargeted
  rw [fieldsTaken_ramp] at others
  exact ⟨retargeted, (followGroups_ducks gs _).trans (congrArg RampUnit.duckTargets fieldsTaken_ramp),
    fun i low => others i fun g _ => by omega⟩

theorem sdvTaken_moved (held : u.targets = s.sdv.targets) (once : gs.Nodup) : SdvMoved u s (sdvTaken u gs s) where
  state := sdvTaken_state
  boost := sdvTaken_boost
  sdv := sdvTaken_sdv
  boosts := sdvTaken_boosts held once
  told := sdvTaken_told
  calm := sdvTaken_calm
  same := sdvTaken_same

/-- R109: where all groups follow, every target is the one the boost gives. -/
theorem sdvTaken_inStep (g : Group) : InStep s.core.live (sdvTaken u (List.finRange 4) s).sdv g := by
  have followed := followBoost_inStep (fieldsTaken u s) g
  rw [fieldsTaken_core] at followed
  exact followed

/-- Where the state stands and no group follows, nothing but the fields is set. -/
theorem sdvTaken_nil (held : u.state = s.sdv.state) : sdvTaken u [] s = { s with sdv := u } := by
  unfold sdvTaken fieldsTaken
  rw [held, setSdvState_same_state]
  rfl

/-- R106, R109: a boost adopted after a change of state. -/
theorem adoptAfterState_taken {v : Sdv} (st : SdvState) (b : Int) (held : v.state = s.sdv.state) :
    adoptBoost b (setSdvState st { s with sdv := v }) = sdvTaken { v with state := st, boost := b } (List.finRange 4) s := by
  rw [setSdvState_fields st held]
  rfl

theorem followGroups_withHeld (rq : Requester) : ∀ (gs : List Group) (s : State),
    followGroups gs (withHeld rq s) = withHeld rq (followGroups gs s)
  | [], _ => rfl
  | g :: gs, s => followGroups_withHeld rq gs (followGroup g s)

/-- R166: with no notice pending, one raised while a request is judged leaves the held place the last. -/
theorem raiseNotice_withHeld (n : Notice) (rq : Requester) (settled : s.ctl.notices = []) :
    raiseNotice n (withHeld rq s) = withHeld rq (raiseNotice n s) := by
  have kept : queueNotices (withHeld rq s) = withHeld rq s := queueNotices_of_none settled
  have map : (withHeld rq s).ctl.noticeOn = s.ctl.noticeOn := rfl
  unfold raiseNotice
  rw [kept, queueNotices_of_none settled, map]
  split <;> rfl

theorem setSdvState_withHeld (st : SdvState) (rq : Requester) (settled : s.ctl.notices = []) :
    setSdvState st (withHeld rq s) = withHeld rq (setSdvState st s) := by
  have raised := raiseNotice_withHeld (s := { s with sdv := { s.sdv with state := st } }) (.sdvState st) rq settled
  by_cases same : s.sdv.state = st
  · exact (if_pos same).trans (congrArg (withHeld rq) (if_pos same).symm)
  · exact (if_neg same).trans (raised.trans (congrArg (withHeld rq) (if_neg same).symm))

theorem sdvTaken_withHeld (rq : Requester) (settled : s.ctl.notices = []) :
    sdvTaken u gs (withHeld rq s) = withHeld rq (sdvTaken u gs s) := by
  have fields : fieldsTaken u (withHeld rq s) = withHeld rq (fieldsTaken u s) := by
    unfold fieldsTaken
    rw [setSdvState_withHeld u.state rq settled]
    rfl
  rw [sdvTaken, fields]
  exact followGroups_withHeld rq gs _

end

/-! ## The operations as such takings -/

section
variable {s : State}

/-- R103, R108: the boost after a report accepted: in TRACKING the hysteresis may keep the one adopted. -/
def reportBoost (v : Nat) (s : State) : Int :=
  if s.sdv.state = .tracking ∧ (boostAt s.core.live.boostCurve v - s.sdv.boost).natAbs < s.sdv.hyst then s.sdv.boost
  else boostAt s.core.live.boostCurve v

/-- R109: the groups that follow it. -/
def reportGroups (v : Nat) (s : State) : List Group :=
  if s.sdv.state = .tracking ∧ (boostAt s.core.live.boostCurve v - s.sdv.boost).natAbs < s.sdv.hyst then [] else List.finRange 4

/-- R103, R108: a report accepted sets speed, age and phase, and is adopted but for the hysteresis. -/
theorem acceptReport_taken (v : Nat) (s : State) : acceptReport v s = sdvTaken
    { s.sdv with state := .tracking, lastSpeed := some v, age := some 0, phase := 0, boost := reportBoost v s } (reportGroups v s) s := by
  have beyond : beyondHysteresis s.sdv (boostAt s.core.live.boostCurve v) = true ↔
      s.sdv.hyst ≤ (boostAt s.core.live.boostCurve v - s.sdv.boost).natAbs := by
    rw [beyondHysteresis, decide_eq_true_iff, Int.ofNat_le]
  have adopted := adoptAfterState_taken (s := s) (v := { s.sdv with lastSpeed := some v, age := some 0, phase := 0 }) .tracking
    (boostAt s.core.live.boostCurve v) rfl
  unfold reportBoost reportGroups
  by_cases tracking : s.sdv.state = .tracking
  · refine (if_pos tracking).trans ?_
    by_cases near : (boostAt s.core.live.boostCurve v - s.sdv.boost).natAbs < s.sdv.hyst
    · have both := And.intro tracking near
      rw [if_pos both, if_pos both, ← tracking]
      exact (if_neg (mt beyond.mp (not_le.mpr near))).trans
        (sdvTaken_nil (u := { s.sdv with lastSpeed := some v, age := some 0, phase := 0 }) rfl).symm
    · have far := not_and_of_not_right (s.sdv.state = .tracking) near
      rw [if_neg far, if_neg far, ← adopted, setSdvState, if_pos tracking]
      exact if_pos (beyond.mpr (not_lt.mp near))
  · rw [if_neg (not_and_of_not_left _ tracking), if_neg (not_and_of_not_left _ tracking), ← adopted]
    exact if_neg tracking

theorem reportGroups_nodup (v : Nat) (s : State) : (reportGroups v s).Nodup := by
  unfold reportGroups
  split
  · exact List.nodup_nil
  · exact List.nodup_finRange 4

/-- R109: where the boost changes every group follows. -/
theorem reportGroups_all {v : Nat} {s : State} (changed : reportBoost v s ≠ s.sdv.boost) : reportGroups v s = List.finRange 4 := by
  unfold reportBoost at changed
  unfold reportGroups
  split
  next kept => exact absurd (if_pos kept) changed
  next => rfl

/-- R107: the comparison by its outcome. -/
theorem compareAge_eq {a : Nat} (age : s.sdv.age = some a) : compareAge s =
    if (s.sdv.state = .tracking ∨ s.sdv.state = .holding) ∧ s.sdv.fallback ≤ a then enterFallback s
    else if s.sdv.state = .tracking ∧ s.sdv.hold ≤ a then setSdvState .holding s else s := by
  unfold compareAge
  rw [age]
  cases s.sdv.state <;> simp

/-- R107: the age compared once the unit holds the fields of `v`; what it makes of them depends on them alone. -/
theorem compareAge_taken (v : Sdv) : ∃ st b gs, gs.Nodup ∧ ∀ s : State, v.state = s.sdv.state →
    compareAge { s with sdv := v } = sdvTaken { v with state := st, boost := b } gs s ∧
    (∀ a, v.age = some a → MovedForward v (sdvTaken { v with state := st, boost := b } gs s).sdv a) ∧
    (v.age = none → (sdvTaken { v with state := st, boost := b } gs s).sdv = v) := by
  rcases Option.eq_none_or_eq_some v.age with age | ⟨a, age⟩
  · refine ⟨v.state, v.boost, [], List.nodup_nil, fun s held => ⟨?_, fun a some => ?_, fun _ => rfl⟩⟩
    · refine Eq.trans ?_ (sdvTaken_nil held).symm
      rw [compareAge]
      dsimp only
      rw [age]
    · rw [age] at some
      cases some
  have aged : ∀ n, v.age = some n → n = a := fun n same => Option.some.inj (same.symm.trans age)
  have unaged : v.age ≠ none := by rw [age]; exact Option.some_ne_none a
  have compared := fun s : State => compareAge_eq (s := { s with sdv := v }) age
  unfold MovedForward
  by_cases falls : (v.state = .tracking ∨ v.state = .holding) ∧ v.fallback ≤ a
  · refine ⟨.fallback, 0, List.finRange 4, List.nodup_finRange 4, fun s held => ⟨?_, fun n same => ?_,
      fun none => absurd none unaged⟩⟩
    · exact ((compared s).trans (if_pos falls)).trans (adoptAfterState_taken .fallback 0 held)
    · rw [aged n same, if_pos falls]
      refine ⟨sdvTaken_state, sdvTaken_boost, fun g => ?_⟩
      have inStep := sdvTaken_inStep (u := { v with state := .fallback, boost := 0 }) (s := s) g
      rw [InStep, sdvTaken_boost] at inStep
      rw [inStep]
      simp [groupTarget]
  by_cases holds : v.state = .tracking ∧ v.hold ≤ a
  · refine ⟨.holding, v.boost, [], List.nodup_nil, fun s held => ⟨?_, fun n same => ?_, fun none => absurd none unaged⟩⟩
    · exact ((compared s).trans ((if_neg falls).trans (if_pos holds))).trans (setSdvState_fields .holding held)
    · rw [aged n same, if_neg falls, if_pos holds]
      exact ⟨rfl, rfl, rfl⟩
  · refine ⟨v.state, v.boost, [], List.nodup_nil, fun s held => ⟨?_, fun n same => ?_, fun none => absurd none unaged⟩⟩
    · exact ((compared s).trans ((if_neg falls).trans (if_neg holds))).trans (sdvTaken_nil held).symm
    · rw [aged n same, if_neg falls, if_neg holds]
      exact ⟨rfl, rfl, rfl⟩

/-- R112: the manual speed and its boost are taken. -/
theorem enterManual_taken (v : Nat) (s : State) : enterManual v s = sdvTaken { s.sdv with
    state := .manual, manual := some v, boost := boostAt s.core.live.boostCurve v } (List.finRange 4) s :=
  stateThenManual_eq .manual (some v) _ s

/-- R106: the boost the state by age requires. -/
def boostByAge (s : State) : Int := if stateByAge s.sdv = .fallback then 0 else lastBoost s

theorem takeStateByAge_adopts_boostByAge (s : State) :
    takeStateByAge s = adoptBoost (boostByAge s) (setSdvState (stateByAge s.sdv) s) := by
  unfold takeStateByAge boostByAge
  rcases stateByAge_cases s.sdv with state | state | state <;> rw [state] <;> rfl

/-- R113: the manual speed is cleared and the state by age taken. -/
theorem leaveManual_taken (s : State) : leaveManual s =
    sdvTaken { s.sdv with state := stateByAge s.sdv, manual := none, boost := boostByAge s } (List.finRange 4) s :=
  (takeStateByAge_adopts_boostByAge { s with sdv := { s.sdv with manual := none } }).trans
    (adoptAfterState_taken (v := { s.sdv with manual := none }) (stateByAge s.sdv) _ rfl)

end

end Sys2Proof.Machine

namespace Sys2Proof.Machine
-- One proof at a time: side by side the proofs start more threads than the memory limit allows.
set_option Elab.async false

/-! ## Reports (R103, R104, R162) -/

section
variable {v : Nat} {valid : Bool} {s : State}

/-- R103: a report marked invalid or beyond 320 km/h is not accepted. -/
theorem speedReport_invalid (bad : valid = false ∨ 320 < v) : speedReport v valid s = setFlag .speedRejected s := by
  have outcome : reportOutcome s.sdv.state v valid = .invalid := if_pos (by simpa using bad)
  rw [speedReport, outcome]

/-- R103: in OFF and MANUAL a report changes nothing. -/
theorem speedReport_ignored (good : valid = true) (range : v ≤ 320) (deaf : s.sdv.state = .off ∨ s.sdv.state = .manual) :
    speedReport v valid s = s := by
  have outcome : reportOutcome s.sdv.state v valid = .ignored := (if_neg (by simp [good, range])).trans (if_pos deaf)
  rw [speedReport, outcome]

theorem speedReport_accepted (good : valid = true) (range : v ≤ 320) (hears : ¬ (s.sdv.state = .off ∨ s.sdv.state = .manual)) :
    speedReport v valid s = acceptReport v s := by
  have outcome : reportOutcome s.sdv.state v valid = .accepted := (if_neg (by simp [good, range])).trans (if_neg hears)
  rw [speedReport, outcome]

/-- R103, R108, R109: what a report makes of any state. -/
theorem speedReport_reportTaken (v : Nat) (valid : Bool) (s : State) : ReportTaken v valid s (speedReport v valid s) := by
  refine ⟨speedReport_invalid, speedReport_ignored, fun good range on auto => ?_⟩
  have accepted := speedReport_accepted good range (not_or.mpr ⟨on, auto⟩)
  have inStep : BoostInv s → ∀ g : Group, InStep s.core.live (speedReport v valid s).sdv g := fun inv => by
    have core : (speedReport v valid s).core = s.core := speedReport_same v valid s .core (by decide)
    have targets := ((speedReport_follows v valid s).boost inv).targets
    rwa [core] at targets
  rw [accepted, acceptReport_taken] at inStep ⊢
  have moved : SdvMoved
      { s.sdv with state := .tracking, lastSpeed := some v, age := some 0, phase := 0, boost := reportBoost v s } s _ :=
    sdvTaken_moved rfl (reportGroups_nodup v s)
  refine ⟨?_, moved.boost, fun changed => ?_, inStep, fun table => moved.boosts ((rampInv_iff s).mp table), moved.told, moved.same⟩
  · rw [moved.boost]
    exact moved.sdv
  · rw [moved.boost] at changed
    rw [reportGroups_all changed]
    exact sdvTaken_inStep

/-- A report acts the same way while its packet is judged. -/
theorem speedReport_withHeld (v : Nat) (valid : Bool) (rq : Requester) (settled : s.ctl.notices = []) :
    speedReport v valid (withHeld rq s) = withHeld rq (speedReport v valid s) := by
  by_cases bad : valid = false ∨ 320 < v
  · rw [speedReport_invalid bad, speedReport_invalid bad]
    rfl
  obtain ⟨good, range⟩ := not_or.mp bad
  rw [Bool.not_eq_false] at good
  rw [not_lt] at range
  by_cases deaf : s.sdv.state = .off ∨ s.sdv.state = .manual
  · rw [speedReport_ignored (s := s) good range deaf]
    exact speedReport_ignored good range deaf
  have judged := speedReport_accepted (s := withHeld rq s) good range deaf
  rw [judged, acceptReport_taken, speedReport_accepted good range deaf, acceptReport_taken]
  exact sdvTaken_withHeld rq settled

/-- R104: the outcome byte of an addressed report. -/
theorem reportOutcome_code (st : SdvState) (v : Nat) (mark : Byte) : (reportOutcome st v (decide (mark = 1))).code =
    if mark ≠ 1 ∨ 320 < v then 2 else if st = .off ∨ st = .manual then 1 else 0 := by
  unfold reportOutcome
  by_cases bad : mark ≠ 1 ∨ 320 < v
  · rw [if_pos (by simpa using bad), if_pos bad]
    rfl
  · rw [if_neg (by simpa using bad), if_neg bad]
    split <;> rfl

end

/-- R161, R162: the place of a packet that is not answered is released after its effects. -/
theorem releasePlace_withHeld (rq : Requester) {t : State} (held : NoHeld t) : releasePlace (withHeld rq t) = t := by
  unfold releasePlace withHeld
  dsimp only
  rw [List.filter_append, filter_held held]
  simp [Place.isHeld]

/-- R161, R166: a packet taken with a place leaves no notice pending. -/
theorem Takes.settled {q : Request} {c : Context} {i : Fin 2} {s : State} (h : Takes q c i s) : (afterTake i s).ctl.notices = [] :=
  notices_of_offer h.offered.offered rfl

/-- R161: the packet offered is acted on where it is of the row. -/
theorem takePacket_offered {row : Option Request} {c : Context} {i : Fin 2} {s : State} {body : Context → State → State}
    (offered : nextOffer (queueNotices s) = some { ctx := i, packet := c, placed := true }) (named : c.row s.ctl.enabled = row) :
    takePacket row body s = body c (heldTake c i s) := by
  unfold takePacket
  rw [offered]
  exact if_pos named

/-- Settles O36: a report does the same while its packet is judged (`speedReport_withHeld`), so that addressed it is answered after
what it does to the state once its packet is taken, and broadcast its place is released after it. -/
theorem speedReportTaken : Obligations.SpeedReportTaken := by
  refine ⟨fun c i h l v s held takes data => ?addressed, fun c i s held offered broadcast row => ?broadcast, fun h l v => rfl⟩
  case addressed =>
    have request : c.broadcast = false := takes.offered.request
    have free := (speedReport_keepsInv (u16 h l) (decide (v = 1)) (afterTake i s)).noHeld (afterTake_noHeld i held)
    have sdv : (heldTake c i s).sdv = s.sdv := rfl
    refine ⟨speedReport (u16 h l) (decide (v = 1)) (afterTake i s), ?_, speedReport_reportTaken _ _ _⟩
    show Host.Outcome.next _ = _
    rw [takePacket_offered takes.offered.offered takes.offered.row, takeReport, request, if_neg Bool.false_ne_true,
      decodeThen, decodeRefusal_heldTake, takes.decodes]
    dsimp only
    rw [bodySpeedReport, data, parseReport, sdv, reportOutcome_code, heldTake_withHeld, speedReport_withHeld _ _ _ takes.settled,
      answer_withHeld c _ _ free]
  case broadcast =>
    have free := (speedReport_keepsInv (parseReport c.data).1 (parseReport c.data).2 (afterTake i s)).noHeld (afterTake_noHeld i held)
    have settled : (afterTake i s).ctl.notices = [] := notices_of_offer offered rfl
    refine ⟨_, ?_, speedReport_reportTaken _ _ _⟩
    show Host.Outcome.next _ = _
    rw [takePacket_offered offered row, takeReport, if_pos broadcast, heldTake_withHeld,
      speedReport_withHeld _ _ _ settled, releasePlace_withHeld _ free]

end Sys2Proof.Machine

namespace Sys2Proof.Machine
-- One proof at a time: side by side the proofs start more threads than the memory limit allows.
set_option Elab.async false

/-! ## The SDV tick (R105, R107) -/

/-- R105: what the tick sets before the age is compared. -/
def ticked (a : Nat) (u : Sdv) : Sdv := { u with phase := 0, age := some (min (a + 1) 65535), tickDue := false }

section
variable {s : State}

theorem execSdvTick_due {t : State} (due : s.sdv.tickDue = true)
    (risen : ageRise { s with sdv := { s.sdv with tickDue := false } } = t) : exec .sdvTick s = .next (closeIfSettled t) := by
  show Host.Outcome.next _ = _
  rw [if_pos due, takeTick, if_pos due, risen]

theorem ageRise_never (age : s.sdv.age = none) : ageRise s = s := by
  rw [ageRise, age]

theorem ageRise_within {a : Nat} (age : s.sdv.age = some a) (within : s.sdv.phase < 479) :
    ageRise s = { s with sdv := { s.sdv with phase := s.sdv.phase + 1 } } := by
  have early : s.sdv.phase + 1 < tickFrames := Nat.succ_lt_succ within
  rw [ageRise, age]
  exact if_pos early

theorem ageRise_tick {a : Nat} (age : s.sdv.age = some a) (last : s.sdv.phase = 479) :
    ageRise s = compareAge { s with sdv := { s.sdv with phase := 0, age := some (min (a + 1) 65535) } } := by
  have late : ¬ s.sdv.phase + 1 < tickFrames := by rw [last]; decide
  rw [ageRise, age]
  exact if_neg late

end

/-- Settles O37: by the age and the phase; the tick sets the phase and the age, and the comparison is then taken like any operation
of the unit (`compareAge_taken`). -/
theorem tickRaisesAge : Obligations.TickRaisesAge := by
  refine ⟨fun s due never => ?never, fun a s due age within => ?within, fun a s due age last => ?tick⟩
  case never => exact execSdvTick_due due (ageRise_never never)
  case within => exact execSdvTick_due due (ageRise_within age within)
  case tick =>
    obtain ⟨st, b, gs, once, compares⟩ := compareAge_taken (ticked a s.sdv)
    obtain ⟨compared, forward, -⟩ := compares s rfl
    have moved : SdvMoved { ticked a s.sdv with state := st, boost := b } s _ := sdvTaken_moved (gs := gs) rfl once
    have risen := ageRise_tick (s := { s with sdv := { s.sdv with tickDue := false } }) age last
    exact ⟨_, execSdvTick_due due (risen.trans compared), moved.fields, forward _ rfl,
      fun table => moved.boosts ((rampInv_iff s).mp table), moved.told, moved.same⟩

/-! ## SDV_CONFIG, SDV_MANUAL and SDV_AUTO (R112 to R114) -/

section
variable {q : Request} {c : Context} {i : Fin 2} {s : State}

/-- R164: the answer to a request that sets the unit is given after what it does to the state once its packet is taken. -/
theorem answer_sdvTaken (held : NoHeld s) (takes : Takes q c i s) (u : Sdv) (gs : List Group) (res : Result) (data : List Byte) :
    answer c.requester res data (sdvTaken u gs (heldTake c i s)) = replied c res data (sdvTaken u gs (afterTake i s)) := by
  rw [heldTake_withHeld, sdvTaken_withHeld _ takes.settled]
  exact answer_withHeld c _ _ (sdvTaken_calm.noHeld (afterTake_noHeld i held))

/-- R112: SDV_MANUAL reads its speed and makes its checks in order. -/
theorem sdvManual_taken {h l : Byte} (takes : Takes .sdvManual c i s) (data : c.data = [h, l]) : exec .sdvManual s = .next
    (if 320 < u16 h l then answer c.requester .badValue [] (heldTake c i s)
    else if s.sdv.state = .off then answer c.requester .wrongState [] (heldTake c i s)
    else answer c.requester .ok (boostData (enterManual (u16 h l) (heldTake c i s))) (enterManual (u16 h l) (heldTake c i s))) := by
  refine (takeRequest_takes takes bodySdvManual).trans (congrArg _ ?_)
  rw [data]
  rfl

/-- R113: SDV_AUTO is judged by the state. -/
theorem sdvAuto_taken (takes : Takes .sdvAuto c i s) : exec .sdvAuto s = .next
    (if s.sdv.state = .manual then answer c.requester .ok (boostData (leaveManual (heldTake c i s))) (leaveManual (heldTake c i s))
    else answer c.requester .wrongState [] (heldTake c i s)) :=
  takeRequest_takes takes bodySdvAuto

theorem boostData_sdvTaken (u : Sdv) (gs : List Group) (s : State) : boostData (sdvTaken u gs s) = [u.state.code, byteOf u.boost] := by
  rw [boostData, sdvTaken_state, sdvTaken_boost]

end

/-- 11.3: a field of two bytes is written as it was read. -/
theorem bytes16_u16 (h l : Byte) : bytes16 (u16 h l) = [h, l] := by
  have := u16_le h l
  exact (eq_bytes16_iff.mpr (by omega)).symm

/-- R114: what SDV_CONFIG sets before the age is compared. -/
def configured (hold fallback hyst rampMs : Nat) (u : Sdv) : Sdv :=
  { u with hold := hold, fallback := fallback, hyst := hyst, rampMs := rampMs }

/-- Settles O38: the values are replaced, and the comparison is then taken like any operation of the unit (`compareAge_taken`). -/
theorem sdvConfigReplaces : Obligations.SdvConfigReplaces := by
  intro c i hh hl fh fl y rh rl s held takes data
  have taken := takeRequest_takes takes bodySdvConfig
  unfold bodySdvConfig at taken
  rw [data, parseConfig] at taken
  refine ⟨fun bad => ?refused, fun low order small => ?replaced⟩
  case refused =>
    rw [if_neg (by omega)] at taken
    exact taken.trans (congrArg _ (answer_heldTake c i .badValue [] held))
  case replaced =>
    rw [if_pos ⟨low, order, small⟩] at taken
    dsimp only at taken
    obtain ⟨st, b, gs, once, compares⟩ := compareAge_taken (configured (u16 hh hl) (u16 fh fl) y.toNat (u16 rh rl) s.sdv)
    obtain ⟨-, forward, unaged⟩ := compares (afterTake i s) rfl
    obtain ⟨judged, -⟩ := compares (heldTake c i s) rfl
    have set : setConfig (u16 hh hl) (u16 fh fl) y.toNat (u16 rh rl) (heldTake c i s) = _ := judged
    have moved : SdvMoved { configured (u16 hh hl) (u16 fh fl) y.toNat (u16 rh rl) s.sdv with state := st, boost := b }
      (afterTake i s) _ := sdvTaken_moved (gs := gs) rfl once
    rw [set, answer_sdvTaken held takes, configData, sdvTaken_sdv] at taken
    refine ⟨_, taken.trans ?_, moved.fields, forward, fun never => ?_, fun table => moved.boosts ((rampInv_iff s).mp table), moved.told,
      moved.takenBut⟩
    · simp only [configured, bytes16_u16, byteOf_toNat_self]
      rfl
    · rw [unaged never]
      exact ⟨rfl, rfl, rfl⟩

/-- Settles O39: R112's checks in their order; an admitted speed is taken like any operation of the unit. -/
theorem sdvManualAdopts : Obligations.SdvManualAdopts := by
  intro c i h l s held takes data
  have taken := sdvManual_taken takes data
  refine ⟨fun fast => ?fast, fun range off => ?off, fun range on => ?adopted⟩
  case fast =>
    rw [if_pos fast] at taken
    exact taken.trans (congrArg _ (answer_heldTake c i .badValue [] held))
  case off =>
    rw [if_neg (not_lt.mpr range), if_pos off] at taken
    exact taken.trans (congrArg _ (answer_heldTake c i .wrongState [] held))
  case adopted =>
    rw [if_neg (not_lt.mpr range), if_neg on, enterManual_taken, boostData_sdvTaken, answer_sdvTaken held takes] at taken
    have moved : SdvMoved { s.sdv with
        state := .manual, manual := some (u16 h l), boost := boostAt s.core.live.boostCurve (u16 h l) } (afterTake i s) _ :=
      sdvTaken_moved (gs := List.finRange 4) rfl (List.nodup_finRange 4)
    refine ⟨_, taken.trans ?_, moved.sdv, sdvTaken_inStep, fun table => moved.boosts ((rampInv_iff s).mp table), moved.told,
      moved.takenBut⟩
    rw [moved.boost]
    rfl

/-- Settles O40: outside MANUAL the request is refused; in MANUAL the state by age is taken like any operation of the unit. -/
theorem sdvAutoTakesStateByAge : Obligations.SdvAutoTakesStateByAge := by
  intro c i s held takes
  have taken := sdvAuto_taken takes
  refine ⟨fun other => ?refused, fun manual => ?taken⟩
  case refused =>
    rw [if_neg other] at taken
    exact taken.trans (congrArg _ (answer_heldTake c i .wrongState [] held))
  case taken =>
    rw [if_pos manual, leaveManual_taken, boostData_sdvTaken, answer_sdvTaken held takes] at taken
    have moved : SdvMoved { s.sdv with state := stateByAge s.sdv, manual := none, boost := boostByAge s } (afterTake i s) _ :=
      sdvTaken_moved (gs := List.finRange 4) rfl (List.nodup_finRange 4)
    refine ⟨_, taken.trans ?_, moved.fields, moved.state, fun falls => ?_, fun v stays speed => ?_, sdvTaken_inStep,
      fun table => moved.boosts ((rampInv_iff s).mp table), moved.told, moved.takenBut⟩
    · rw [moved.state, moved.boost]
      rfl
    · rw [moved.state] at falls
      rw [moved.boost]
      exact if_pos falls
    · rw [moved.state] at stays
      rw [moved.boost]
      exact (if_neg stays).trans (by rw [lastBoost, speed]; rfl)

end Sys2Proof.Machine

namespace Sys2Proof.Machine
-- One proof at a time: side by side the proofs start more threads than the memory limit allows.
set_option Elab.async false

/-! ## What requests change, and what they take no notice of (R45, R124, R128) -/

section
variable {r : RunnerNo} {v : Int} {ms : Nat} {s : State}

/-- A step that leaves all but the ramp unit and the cue unit is told by these two. -/
theorem SameBut.eq_of_ramp_cue {t : State} (h : SameBut [.ramp, .cue] s t) : t = { s with ramp := t.ramp, cue := t.cue } := by
  cases t
  simp only [State.mk.injEq, true_and]
  exact ⟨h .port (by decide), h .frame (by decide), h .lane (by decide), h .ctl (by decide), h .core (by decide),
    h .commit (by decide), h .eq (by decide), h .sdv (by decide), h .table (by decide), h .free (by decide), h .pending (by decide)⟩

theorem mem_maskSources {mask : BitVec 12} {src : Source} : src ∈ maskSources mask ↔ mask.getLsbD src.val = true := by
  simp [maskSources]

theorem maskSources_nodup (mask : BitVec 12) : (maskSources mask).Nodup := (List.nodup_finRange 12).filter _

/-- R124: a runner's requests after new ones for the sources of a list. -/
theorem setRequests_request (srcs : List Source) (q : RunnerNo) (p : Source) :
    ((setRequests r v ms srcs s).cue.runners[q]).requests[p] =
      if q = r ∧ p ∈ srcs then v else (s.cue.runners[q]).requests[p] := by
  rw [setRequests_cue]
  by_cases own : q = r
  · subst own
    rw [onRunner_at, getElem_foldl_set]
    simp
  · rw [onRunner_other own, if_neg (not_and_of_not_left _ own)]

/-- The lower request for a source depends on the two requests alone. -/
theorem duckMin_congr {c d : CueUnit} {p : Source}
    (same : ∀ q : RunnerNo, (c.runners[q]).requests[p] = (d.runners[q]).requests[p]) : duckMin c p = duckMin d p := by
  rw [duckMin_eq, duckMin_eq, same 0, same 1]

/-- R45: one request's DUCK target. -/
theorem setRequest_target (src p : Source) : (setRequest r v ms src s).ramp.duckTargets[p] =
    if p = src ∧ (s.cue.runners[r]).requests[p] ≠ v then duckMin (setRequest r v ms src s).cue p else s.ramp.duckTargets[p] := by
  unfold setRequest
  split
  next held =>
    refine (if_neg ?_).symm
    rintro ⟨rfl, changed⟩
    exact changed held
  next changed =>
    rw [recomputeDuck_target]
    by_cases here : p = src
    · subst here
      rw [if_pos rfl, if_pos ⟨rfl, changed⟩]
      rfl
    · rw [if_neg here, if_neg (not_and_of_not_left _ here)]
      rfl

/-- R45: the DUCK targets of the sources whose request changes follow the lower request; the others stand. -/
theorem setRequests_target (p : Source) : ∀ (srcs : List Source) (s : State), (setRequests r v ms srcs s).ramp.duckTargets[p] =
    if p ∈ srcs ∧ (s.cue.runners[r]).requests[p] ≠ v then duckMin (setRequests r v ms srcs s).cue p else s.ramp.duckTargets[p]
  | [], _ => (if_neg fun h => List.not_mem_nil h.1).symm
  | src :: srcs, s => by
    have first : ∀ q : RunnerNo, ((setRequest r v ms src s).cue.runners[q]).requests[p] =
        if q = r ∧ p ∈ [src] then v else (s.cue.runners[q]).requests[p] := fun q => setRequests_request [src] q p
    refine (setRequests_target p srcs (setRequest r v ms src s)).trans ?_
    rw [setRequest_target, first r]
    by_cases here : p = src
    · have settled : duckMin (setRequest r v ms src s).cue p = duckMin (setRequests r v ms (src :: srcs) s).cue p :=
        duckMin_congr fun q => by rw [first q, setRequests_request]; simp [here]
      subst here
      simp [settled]
    · simp only [here, List.mem_cons, false_or, false_and, if_false]
      rfl

/-- R124, R128: of a state a STEP's or halt's requests change the runner's requests and the ramp unit alone. -/
theorem setRequests_eq (srcs : List Source) : setRequests r v ms srcs s =
    { withRunner r { s.cue.runners[r] with requests := Vector.ofFn fun src : Source =>
        if src ∈ srcs then v else (s.cue.runners[r]).requests[src] } s with ramp := (setRequests r v ms srcs s).ramp } := by
  have requests : srcs.foldl (fun q (src : Source) => q.set src v) (s.cue.runners[r]).requests =
      Vector.ofFn fun src : Source => if src ∈ srcs then v else (s.cue.runners[r]).requests[src] :=
    Vector.ext fun i lt => by
      have at_i := getElem_foldl_set v srcs (s.cue.runners[r]).requests ⟨i, lt⟩
      simpa using at_i
  have cue := setRequests_cue r v ms srcs s
  rw [onRunner_eq, requests] at cue
  refine (setRequests_same r v ms srcs s).eq_of_ramp_cue.trans ?_
  rw [cue]
  rfl

/-- R34: every entry outside the twelve dedicated ones stands where DUCK keys alone are retargeted. -/
theorem DucksMoved.only {srcs : List Source} {t : State} (h : DucksMoved ms srcs s t) : OnlyDucksRetargeted ms s t :=
  ⟨h.retargeted, fun i out => h.others i fun src _ => by omega⟩

/-- R124, R45: the requests of a STEP. -/
theorem setRequests_stepRequested (mask : BitVec 12) : StepRequested r mask v ms s (setRequests r v ms (maskSources mask) s) := by
  refine ⟨?_, fun src => ?_, fun table => ?_⟩
  · refine (setRequests_eq (maskSources mask)).trans ?_
    simp only [mem_maskSources]
  · refine (setRequests_target src (maskSources mask) s).trans ?_
    simp only [mem_maskSources]
  · have moved := setRequests_moved r v ms (maskSources_nodup mask) ((rampInv_iff s).mp table)
    exact ⟨moved.only, (rampInv_iff _).mpr moved.good⟩

/-- R45: a change of a runner that keeps its requests is nothing to the ramp unit. -/
theorem recomputeDuck_onRunner {f : Runner → Runner} (keeps : ∀ x, (f x).requests = x.requests) (src : Source) :
    recomputeDuck src ms (onRunner r f s) = onRunner r f (recomputeDuck src ms s) := by
  have same : duckMin (onRunner r f s).cue src = duckMin s.cue src := duckMin_congr fun q => by
    by_cases own : q = r
    · subst own
      rw [onRunner_at, keeps]
    · rw [onRunner_other own]
  unfold recomputeDuck
  rw [same]
  rfl

/-- A change of a runner that neither reads nor changes its requests commutes with new requests. -/
theorem setRequests_onRunner {f : Runner → Runner} (apart : ∀ x q, f { x with requests := q } = { f x with requests := q }) :
    ∀ (srcs : List Source) (s : State), setRequests r v ms srcs (onRunner r f s) = onRunner r f (setRequests r v ms srcs s)
  | [], _ => rfl
  | src :: srcs, s => by
    have keeps : ∀ x, (f x).requests = x.requests := fun x => by
      have kept := congrArg Runner.requests (apart x x.requests)
      exact kept
    have one : setRequest r v ms src (onRunner r f s) = onRunner r f (setRequest r v ms src s) := by
      unfold setRequest
      rw [onRunner_at, keeps]
      split
      · rfl
      · rw [← recomputeDuck_onRunner keeps, onRunner_twice, onRunner_twice]
        congr 2
        funext x
        show { f x with requests := (f x).requests.set src v } = f { x with requests := x.requests.set src v }
        rw [keeps]
        exact (apart x _).symm
    exact (congrArg (setRequests r v ms srcs) one).trans (setRequests_onRunner apart srcs (setRequest r v ms src s))

theorem withHeld_cue (rq : Requester) (s : State) : (withHeld rq s).cue = s.cue := rfl

/-- The cue unit and the ramp unit take no notice of the place held for a request. -/
theorem setRequests_withHeld (rq : Requester) : ∀ (srcs : List Source) (s : State),
    setRequests r v ms srcs (withHeld rq s) = withHeld rq (setRequests r v ms srcs s)
  | [], _ => rfl
  | src :: srcs, s => by
    have one : setRequest r v ms src (withHeld rq s) = withHeld rq (setRequest r v ms src s) := by
      unfold setRequest
      rw [withHeld_cue]
      split <;> rfl
    exact (congrArg (setRequests r v ms srcs) one).trans (setRequests_withHeld rq srcs (setRequest r v ms src s))

end
end Sys2Proof.Machine

namespace Sys2Proof.Machine
-- One proof at a time: side by side the proofs start more threads than the memory limit allows.
set_option Elab.async false

/-! ## The start of an entry, by its kind (R123 to R127) -/

section
variable {r : RunnerNo} {fuel : Nat} {s : State} {e : CueEntry} {rest : List CueEntry}

theorem startEntry_empty (held : (s.cue.runners[r]).window = []) : startEntry r fuel s = onRunner r Runner.fetching s := by
  cases fuel with
  | zero => rfl
  | succ n => rw [startEntry, held]

theorem startEntry_step {mask : BitVec 12} {offset : Int} {rampMs holdMs : Nat} (held : (s.cue.runners[r]).window = e :: rest)
    (kind : decodeEntry e = .step mask offset rampMs holdMs) : startEntry r (fuel + 1) s =
      if rampMs + holdMs = 0 then
        startEntry r fuel (onRunner r Runner.shift (setRequests r offset rampMs (maskSources mask) s))
      else onRunner r (fun x => { x with state := .stepping, elapsed := 0, due := false })
        (setRequests r offset rampMs (maskSources mask) s) := by
  simp only [startEntry, held, kind]

theorem startEntry_wait {ms : Nat} (held : (s.cue.runners[r]).window = e :: rest) (kind : decodeEntry e = .wait ms) :
    startEntry r (fuel + 1) s =
      if (s.cue.runners[r]).latch then
        startEntry r fuel (onRunner r (fun x => { x.shift with latch := false, timedOut := false }) s)
      else onRunner r (fun x => { x with state := .waiting, elapsed := 0, due := false }) s := by
  simp only [startEntry, held, kind]

theorem startEntry_jump {a : CueAddr} (held : (s.cue.runners[r]).window = e :: rest) (kind : decodeEntry e = .jump a) :
    startEntry r (fuel + 1) s = onRunner r (fun x => { x.fetching with nextFetch := a }) s := by
  simp only [startEntry, held, kind]

theorem startEntry_stop {notify : Bool} (held : (s.cue.runners[r]).window = e :: rest) (kind : decodeEntry e = .stop notify) :
    startEntry r (fuel + 1) s =
      if notify then raiseNotice (.cueStopped r .stop (s.cue.runners[r]).address) (onRunner r Runner.stopped s)
      else onRunner r Runner.stopped s := by
  simp only [startEntry, held, kind]

theorem startEntry_invalid (held : (s.cue.runners[r]).window = e :: rest) (kind : decodeEntry e = .invalid) :
    startEntry r (fuel + 1) s =
      raiseNotice (.cueStopped r .fault (s.cue.runners[r]).address) (onRunner r Runner.stopped s) := by
  simp only [startEntry, held, kind]

end

/-- The runner without the count of the entry before (R123). -/
def Runner.uncounted (x : Runner) : Runner := { x with elapsed := 0, due := false }

section
variable {r : RunnerNo} {s : State}

/-- R123: the start of an entry takes no notice of the count of the one before it. -/
theorem startEntry_uncounted : ∀ (fuel : Nat) (s : State), startEntry r fuel (onRunner r Runner.uncounted s) = startEntry r fuel s
  | 0, s => onRunner_twice r _ _ s
  | fuel + 1, s => by
    have window : ((onRunner r Runner.uncounted s).cue.runners[r]).window = (s.cue.runners[r]).window := by rw [onRunner_at]; rfl
    have latch : ((onRunner r Runner.uncounted s).cue.runners[r]).latch = (s.cue.runners[r]).latch := by rw [onRunner_at]; rfl
    have address : ((onRunner r Runner.uncounted s).cue.runners[r]).address = (s.cue.runners[r]).address := by rw [onRunner_at]; rfl
    cases held : (s.cue.runners[r]).window with
    | nil =>
      rw [startEntry_empty held, startEntry_empty (window.trans held), onRunner_twice]
      rfl
    | cons e rest =>
      have held' := window.trans held
      cases kind : decodeEntry e with
      | step mask offset rampMs holdMs =>
        rw [startEntry_step held kind, startEntry_step held' kind, setRequests_onRunner fun _ _ => rfl, onRunner_twice, onRunner_twice]
        rfl
      | wait ms =>
        rw [startEntry_wait held kind, startEntry_wait held' kind, latch, onRunner_twice, onRunner_twice]
        rfl
      | jump a =>
        rw [startEntry_jump held kind, startEntry_jump held' kind, onRunner_twice]
        rfl
      | stop notify =>
        rw [startEntry_stop held kind, startEntry_stop held' kind, address, onRunner_twice]
        rfl
      | invalid =>
        rw [startEntry_invalid held kind, startEntry_invalid held' kind, address, onRunner_twice]
        rfl

/-- R166: with no notice pending, an entry starts the same way while its request is judged. -/
theorem startEntry_withHeld (rq : Requester) : ∀ (fuel : Nat) (s : State), s.ctl.notices = [] →
    startEntry r fuel (withHeld rq s) = withHeld rq (startEntry r fuel s)
  | 0, _, _ => rfl
  | fuel + 1, s, settled => by
    cases held : (s.cue.runners[r]).window with
    | nil =>
      rw [startEntry_empty held]
      exact startEntry_empty (s := withHeld rq s) held
    | cons e rest =>
      have held' : ((withHeld rq s).cue.runners[r]).window = e :: rest := held
      cases kind : decodeEntry e with
      | step mask offset rampMs holdMs =>
        rw [startEntry_step held kind, startEntry_step held' kind, setRequests_withHeld]
        split
        · refine startEntry_withHeld rq fuel (onRunner r Runner.shift (setRequests r offset rampMs (maskSources mask) s)) ?_
          exact (congrArg Control.notices ((setRequests_same r offset rampMs _ s) .ctl (by decide))).trans settled
        · rfl
      | wait ms =>
        rw [startEntry_wait held kind, startEntry_wait held' kind]
        have latch : ((withHeld rq s).cue.runners[r]).latch = (s.cue.runners[r]).latch := rfl
        rw [latch]
        split
        · exact startEntry_withHeld rq fuel (onRunner r (fun x => { x.shift with latch := false, timedOut := false }) s) settled
        · rfl
      | jump a =>
        rw [startEntry_jump held kind, startEntry_jump held' kind]
        rfl
      | stop notify =>
        rw [startEntry_stop held kind, startEntry_stop held' kind]
        split
        · exact raiseNotice_withHeld (s := onRunner r Runner.stopped s) _ rq settled
        · rfl
      | invalid =>
        rw [startEntry_invalid held kind, startEntry_invalid held' kind]
        exact raiseNotice_withHeld (s := onRunner r Runner.stopped s) _ rq settled

/-- R127: of the parts of the state a raised notice changes the control unit alone. -/
theorem raiseNotice_eq (n : Notice) (s : State) : raiseNotice n s = { s with ctl := (raiseNotice n s).ctl } := by
  unfold raiseNotice
  split <;> rfl

/-- R123: where an entry starts, the count of the one before says nothing. -/
theorem startEntry_congr {f : Runner → Runner} {x : Runner} (same : (f s.cue.runners[r]).uncounted = x.uncounted) (fuel : Nat) :
    startEntry r fuel (onRunner r f s) = startEntry r fuel (withRunner r x s) := by
  rw [← startEntry_uncounted fuel (onRunner r f s), ← startEntry_uncounted fuel (withRunner r x s)]
  congr 1
  rw [onRunner_twice, onRunner_eq, onRunner_eq, withRunner_at, withRunner_twice, Function.comp_apply, same]

/-- R123 to R127: the entries of a window start as the statements say, while there is fuel for each. -/
theorem startEntry_started {window : List CueEntry} {fuel : Nat} (held : (s.cue.runners[r]).window = window)
    (enough : window.length < fuel) : EntryStarted r window s (startEntry r fuel s) := by
  induction window generalizing fuel s with
  | nil => exact startEntry_empty held
  | cons first rest ih =>
    obtain ⟨fuel, rfl⟩ := Nat.exists_eq_add_one_of_ne_zero (Nat.ne_zero_of_lt enough)
    have more : rest.length < fuel := Nat.lt_of_succ_lt_succ enough
    have address : (s.cue.runners[r]).address = (s.cue.runners[r]).nextFetch - Fin.ofNat 256 (rest.length + 1) := by
      rw [Runner.address, held]
      rfl
    rw [EntryStarted]
    cases kind : decodeEntry first with
    | step mask offset rampMs holdMs =>
      refine ⟨setRequests r offset rampMs (maskSources mask) s, setRequests_stepRequested mask, ?_⟩
      have asked : ((setRequests r offset rampMs (maskSources mask) s).cue.runners[r]).window = first :: rest := by
        rw [setRequests_cue, onRunner_at]
        exact held
      rw [startEntry_step held kind]
      split
      · rw [startEntry_congr (x := { (setRequests r offset rampMs (maskSources mask) s).cue.runners[r] with window := rest })
          (by rw [Runner.shift, asked]; rfl)]
        exact ih (by rw [withRunner_at]) more
      · rfl
    | wait ms =>
      rw [startEntry_wait held kind]
      dsimp only
      split
      · rw [startEntry_congr (x := { s.cue.runners[r] with window := rest, latch := false, timedOut := false })
          (by rw [Runner.shift, held]; rfl)]
        exact ih (by rw [withRunner_at]) more
      · rfl
    | jump a => exact startEntry_jump held kind
    | stop notify =>
      rw [startEntry_stop held kind, address]
      cases notify with
      | true => exact ⟨raiseNotice_eq _ _, raiseNotice_raised _ (onRunner r Runner.stopped s)⟩
      | false => exact ⟨rfl, rfl⟩
    | invalid =>
      rw [startEntry_invalid held kind, address]
      exact ⟨raiseNotice_eq _ _, raiseNotice_raised _ (onRunner r Runner.stopped s)⟩

/-- R123: the window of a runner that holds `x` but for the count starts. -/
theorem startWindow_started {f : Runner → Runner} {x : Runner} (same : (f s.cue.runners[r]).uncounted = x.uncounted) :
    EntryStarted r x.window (withRunner r x s) (startWindow r (onRunner r f s)) := by
  have window : (f s.cue.runners[r]).window = x.window := (congrArg Runner.window same :)
  rw [startWindow, onRunner_at, window, startEntry_congr same]
  exact startEntry_started (by rw [withRunner_at]) (Nat.lt_succ_self _)

/-- R123: the entry at position 0 completes, and the next starts. -/
theorem completeEntry_started (r : RunnerNo) (s : State) : EntryStarted r (s.cue.runners[r]).window.tail
    (withRunner r { s.cue.runners[r] with window := (s.cue.runners[r]).window.tail } s) (completeEntry r s) :=
  startWindow_started (f := Runner.shift) (x := { s.cue.runners[r] with window := (s.cue.runners[r]).window.tail }) rfl

/-- R125: the end of a WAIT is one change of its runner, and the start of the next entry. -/
theorem completeWait_eq (r : RunnerNo) (s : State) (timedOut : Bool) : completeWait r timedOut s =
    startWindow r (onRunner r (Runner.shift ∘ fun x => { x with timedOut := timedOut }) s) := by
  rw [completeWait, completeEntry, onRunner_twice]

/-- R125: a WAIT completes, and the next entry starts. -/
theorem completeWait_started (r : RunnerNo) (timedOut : Bool) (s : State) : EntryStarted r (s.cue.runners[r]).window.tail
    (withRunner r { s.cue.runners[r] with window := (s.cue.runners[r]).window.tail, timedOut := timedOut } s)
    (completeWait r timedOut s) := by
  rw [completeWait_eq]
  exact startWindow_started
    (x := { s.cue.runners[r] with window := (s.cue.runners[r]).window.tail, timedOut := timedOut }) rfl

end

/-! ## What the start of an entry leaves alone -/

/-- Of the cue unit a step changes runner `r` alone. -/
structure OnlyRunner (r : RunnerNo) (s t : State) : Prop where
  others : ∀ p : RunnerNo, p ≠ r → t.cue.runners[p] = s.cue.runners[p]
  rest : t.cue = { s.cue with runners := t.cue.runners }

section
variable {r : RunnerNo} {s t u : State}

theorem OnlyRunner.trans (h : OnlyRunner r s t) (k : OnlyRunner r t u) : OnlyRunner r s u where
  others p other := (k.others p other).trans (h.others p other)
  rest := by rw [k.rest, h.rest]

/-- What the cue unit is after a change of the runner. -/
theorem OnlyRunner.of_cue {f : Runner → Runner} (cue : t.cue = (onRunner r f s).cue) : OnlyRunner r s t where
  others p other := by rw [cue, onRunner_other other]
  rest := by rw [cue]; rfl

theorem OnlyRunner.ofSame (cue : t.cue = s.cue) : OnlyRunner r s t where
  others p _ := by rw [cue]
  rest := by rw [cue]

theorem startWindow_onlyRunner (r : RunnerNo) (s : State) : OnlyRunner r s (startWindow r s) :=
  startEntry_rel (R := OnlyRunner r) r .trans (fun _ _ _ => .of_cue rfl) (fun v ms srcs s => .of_cue (setRequests_cue r v ms srcs s))
    (fun n s => .ofSame ((raiseNotice_same n s) .cue (by decide))) _ s

end

end Sys2Proof.Machine

namespace Sys2Proof.Machine
-- One proof at a time: side by side the proofs start more threads than the memory limit allows.
set_option Elab.async false

/-! ## The grant of a fetch and the ends of entries (R122, R123, R125) -/

section
variable (r : RunnerNo) (s : State)

theorem onRunner_startWindow_onlyRunner (f : Runner → Runner) : OnlyRunner r s (startWindow r (onRunner r f s)) :=
  .trans (.of_cue (f := f) rfl) (startWindow_onlyRunner r _)

theorem onRunner_startWindow_calm (f : Runner → Runner) : Calm s (startWindow r (onRunner r f s)) :=
  .after (startWindow_calm r _)

theorem completeEntry_onlyRunner : OnlyRunner r s (completeEntry r s) := onRunner_startWindow_onlyRunner r s Runner.shift

theorem completeEntry_calm : Calm s (completeEntry r s) := onRunner_startWindow_calm r s Runner.shift

theorem completeWait_onlyRunner (timedOut : Bool) : OnlyRunner r s (completeWait r timedOut s) := by
  rw [completeWait_eq]
  exact onRunner_startWindow_onlyRunner r s _

theorem completeWait_calm (timedOut : Bool) : Calm s (completeWait r timedOut s) := by
  rw [completeWait_eq]
  exact onRunner_startWindow_calm r s _

/-- R122: the runner with the four entries at its next-fetch address. -/
def Runner.fetched (mem : Memory) (x : Runner) : Runner :=
  { x with
      window := [readEntry mem x.nextFetch, readEntry mem (x.nextFetch + 1), readEntry mem (x.nextFetch + 2),
        readEntry mem (x.nextFetch + 3)]
      nextFetch := x.nextFetch + 4 }

theorem fetchWindow_eq : fetchWindow r s = startWindow r (onRunner r (Runner.fetched s.cue.mem) s) := rfl

/-- R122: the copies at the next-fetch address start. -/
theorem fetchWindow_started : EntryStarted r ((s.cue.runners[r]).fetched s.cue.mem).window
    (withRunner r ((s.cue.runners[r]).fetched s.cue.mem) s) (fetchWindow r s) := by
  rw [fetchWindow_eq]
  exact startWindow_started rfl

theorem fetchWindow_onlyRunner : OnlyRunner r s (fetchWindow r s) := by
  rw [fetchWindow_eq]
  exact onRunner_startWindow_onlyRunner r s _

theorem fetchWindow_calm : Calm s (fetchWindow r s) := by
  rw [fetchWindow_eq]
  exact onRunner_startWindow_calm r s _

end

/-- Settles O42: the window is filled and its entries start; the grant is spent before. -/
theorem fetchGrantStartsEntry : Obligations.FetchGrantStartsEntry := by
  refine ⟨entriesDecoded, fun r s grant => ?_⟩
  have only := fetchWindow_onlyRunner r (spendGrant s)
  obtain ⟨same, spent⟩ := (fetchWindow_same r (spendGrant s)).afterGrant (qs := [.ctl, .ramp, .cue, .frame])
  refine ⟨fetchWindow r (spendGrant s), ?_, fetchWindow_started r (spendGrant s), only.others, only.rest, spent,
    (fetchWindow_calm r (spendGrant s)).settings, same⟩
  show Host.Outcome.next _ = _
  rw [if_pos grant]

/-- Settles O43: an owed end is the completion of the entry, by the runner's state. -/
theorem entryEndShifts : Obligations.EntryEndShifts := by
  refine ⟨entriesDecoded, fun r s due => ⟨fun stepping => ?step, fun waiting => ?wait⟩⟩
  case step =>
    have only := completeEntry_onlyRunner r s
    refine ⟨completeEntry r s, ?_, completeEntry_started r s, only.others, only.rest, (completeEntry_calm r s).settings,
      completeEntry_same r s⟩
    show Host.Outcome.next _ = _
    rw [if_pos ⟨stepping, due⟩]
  case wait =>
    have only := completeWait_onlyRunner r s true
    refine ⟨completeWait r true s, ?_, completeWait_started r true s, only.others, only.rest, (completeWait_calm r s true).settings,
      completeWait_same r true s⟩
    show Host.Outcome.next _ = _
    rw [if_pos ⟨waiting, due⟩]

/-! ## CUE_WRITE (R132) -/

/-- Eight bytes are an entry. -/
theorem entryOfBytes_toList (e : CueEntry) : entryOfBytes e.toList = e := by
  ext i lt
  simp [entryOfBytes]

theorem parseEntries_succ (n : Nat) {bs : List Byte} (nonempty : bs ≠ []) :
    parseEntries (n + 1) bs = entryOfBytes (bs.take 8) :: parseEntries n (bs.drop 8) := by
  cases bs with
  | nil => exact absurd rfl nonempty
  | cons b bs => rfl

/-- R132: whole entries are read as they were written. -/
theorem parseEntries_flatten {n : Nat} {es : List CueEntry} (fits : es.length ≤ n) :
    parseEntries n (es.map Vector.toList).flatten = es := by
  induction n generalizing es with
  | zero =>
    rw [List.length_eq_zero_iff.mp (Nat.le_zero.mp fits)]
    rfl
  | succ n ih =>
    cases es with
    | nil => rfl
    | cons e es =>
      have eight : e.toList.length = 8 := Vector.length_toList
      have nonempty : e.toList ++ (es.map Vector.toList).flatten ≠ [] := by
        intro empty
        rw [(List.append_eq_nil_iff.mp empty).1] at eight
        cases eight
      rw [List.map_cons, List.flatten_cons, parseEntries_succ n nonempty, List.take_left' eight, List.drop_left' eight, entryOfBytes_toList,
        ih (Nat.le_of_succ_le_succ fits)]

theorem length_flatten_entries (es : List CueEntry) : (es.map Vector.toList).flatten.length = 8 * es.length := by
  simp [List.length_flatten, Function.comp_def, Nat.mul_comm]

/-- Settles O45: by the length of the data after the address. -/
theorem cueWriteAccepted : Obligations.CueWriteAccepted := by
  intro c i s held takes
  have taken := takeRequest_takes takes bodyCueWrite
  refine ⟨fun a bs data ragged => ?ragged, fun a es _ fits data => ?whole⟩
  case ragged =>
    rw [data, bodyCueWrite] at taken
    exact taken.trans ((congrArg _ (if_pos ragged)).trans (congrArg _ (answer_heldTake c i .badLength [] held)))
  case whole =>
    have whole : ¬ (es.map Vector.toList).flatten.length % 8 ≠ 0 := by
      rw [length_flatten_entries]
      omega
    rw [data, bodyCueWrite] at taken
    refine taken.trans (congrArg _ ((if_neg whole).trans ?_))
    show startCueWrite (byteFin a) (parseEntries 4 (es.map Vector.toList).flatten) (heldTake c i s) = _
    rw [parseEntries_flatten fits]
    exact reserve_last .cue (heldTake_queue c i s) (afterTake_noHeld i held)

/-! ## The requests that name a runner (R129 to R131) -/

/-- 11.3: a byte that names no runner. -/
theorem below_two_eq_none {b : Byte} (zero : b ≠ 0) (one : b ≠ 1) : below 2 b = none := by
  unfold below
  rw [dif_neg]
  intro small
  have zero' : b.toNat ≠ 0 := fun h => zero (BitVec.eq_of_toNat_eq h)
  have one' : b.toNat ≠ 1 := fun h => one (BitVec.eq_of_toNat_eq h)
  omega

theorem below_two_byteOf (r : RunnerNo) : below 2 (byteOf r.val) = some r := (below_eq_some_iff (by decide)).mpr rfl

section
variable {rq : Requester} {r : RunnerNo} {b a : Byte} {s : State}

theorem bodyCueStart_unnamed (unnamed : below 2 b = none) : bodyCueStart rq [b, a] s = answer rq .badValue [] s := by
  rw [bodyCueStart, List.getD_cons_zero, unnamed]

theorem bodyCueStart_named (named : below 2 b = some r) : bodyCueStart rq [b, a] s =
    if s.core.mode = .run then answer rq .ok (runnerData r (startRunner r (byteFin a) s)) (startRunner r (byteFin a) s)
    else answer rq .wrongMode [] s := by
  rw [bodyCueStart, List.getD_cons_zero, named]
  rfl

theorem bodyCueRelease_unnamed (unnamed : below 2 b = none) : bodyCueRelease rq [b] s = answer rq .badValue [] s := by
  rw [bodyCueRelease, List.getD_cons_zero, unnamed]

theorem bodyCueRelease_named (named : below 2 b = some r) : bodyCueRelease rq [b] s = releaseRunner rq r s := by
  rw [bodyCueRelease, List.getD_cons_zero, named]

theorem bodyCueHalt_unnamed (unnamed : below 2 b = none) : bodyCueHalt rq [b] s = answer rq .badValue [] s := by
  rw [bodyCueHalt, List.getD_cons_zero, unnamed]

theorem bodyCueHalt_named (named : below 2 b = some r) :
    bodyCueHalt rq [b] s = answer rq .ok (runnerData r (haltRunner r s)) (haltRunner r s) := by
  rw [bodyCueHalt, List.getD_cons_zero, named]

end

/-- An answer that follows an effect on the cue unit and the ramp unit, which take no notice of the held place. -/
theorem answer_withHeld_of_ctl (c : Context) (i : Fin 2) (res : Result) (data : List Byte) {s t : State} (held : NoHeld s)
    (ctl : t.ctl = (afterTake i s).ctl) : answer c.requester res data (withHeld c.requester t) = replied c res data t :=
  answer_withHeld c res data (by
    unfold NoHeld
    rw [ctl]
    exact afterTake_noHeld i held)

/-- Settles O46: by the runner and the mode. -/
theorem cueStartMakesFetching : Obligations.CueStartMakesFetching := by
  intro c i b a s held takes data
  have taken := takeRequest_takes takes bodyCueStart
  rw [data] at taken
  refine ⟨fun zero one => ?none, fun r named mode => ?mode, fun r named run => ?run⟩
  case none =>
    rw [bodyCueStart_unnamed (below_two_eq_none zero one)] at taken
    exact taken.trans (congrArg _ (answer_heldTake c i .badValue [] held))
  case mode =>
    have other : ¬ (heldTake c i s).core.mode = .run := by
      show ¬ s.core.mode = .run
      rcases mode with mode | mode <;> rw [mode] <;> decide
    rw [bodyCueStart_named (named ▸ below_two_byteOf r), if_neg other] at taken
    exact taken.trans (congrArg _ (answer_heldTake c i .wrongMode [] held))
  case run =>
    have running : (heldTake c i s).core.mode = .run := run
    rw [bodyCueStart_named (named ▸ below_two_byteOf r), if_pos running, runnerData, startRunner, onRunner_at, ← named] at taken
    exact taken.trans (congrArg _ (answer_withHeld_of_ctl c i .ok _ (t := startRunner r (byteFin a) (afterTake i s)) held rfl))

section
variable {r : RunnerNo} {s : State}

theorem releaseRunner_refused {rq : Requester} (ended : (s.cue.runners[r]).state = .idle ∨ (s.cue.runners[r]).state = .stopped) :
    releaseRunner rq r s = answer rq .wrongState [] s := by
  unfold releaseRunner
  rcases ended with state | state <;> rw [state]

theorem releaseRunner_latch {rq : Requester} (runs : (s.cue.runners[r]).state = .stepping ∨ (s.cue.runners[r]).state = .fetching) :
    releaseRunner rq r s = latchRelease rq r s := by
  unfold releaseRunner
  rcases runs with state | state <;> rw [state]

theorem releaseRunner_waiting {rq : Requester} (waits : (s.cue.runners[r]).state = .waiting) : releaseRunner rq r s =
    answer rq .ok (releaseData 0 r (completeWait r false s)) (completeWait r false s) := by
  unfold releaseRunner
  rw [waits]

/-- R166: with no notice pending, a WAIT completes the same way while its release is judged. -/
theorem completeWait_withHeld (rq : Requester) (timedOut : Bool) (settled : s.ctl.notices = []) :
    completeWait r timedOut (withHeld rq s) = withHeld rq (completeWait r timedOut s) := by
  rw [completeWait_eq, completeWait_eq]
  exact startEntry_withHeld rq _ (onRunner r _ s) settled

theorem haltRunner_withHeld (rq : Requester) : haltRunner r (withHeld rq s) = withHeld rq (haltRunner r s) := by
  unfold haltRunner
  exact setRequests_withHeld rq (List.finRange 12) (onRunner r Runner.halted s)

/-- R45, R130: a halt's DUCK targets. -/
theorem haltRunner_target (src : Source) : (haltRunner r s).ramp.duckTargets[src] =
    if (s.cue.runners[r]).requests[src] = 0 then s.ramp.duckTargets[src] else duckMin (haltRunner r s).cue src := by
  unfold haltRunner
  rw [setRequests_target, onRunner_at]
  simp only [List.mem_finRange, true_and, ne_eq, ite_not]
  rfl

/-- R130: the runner after a halt. -/
theorem haltRunner_at : (haltRunner r s).cue.runners[r] = (s.cue.runners[r]).silenced := by
  rw [haltRunner_cue, onRunner_at]

theorem latchRelease_latched {rq : Requester} (latched : (s.cue.runners[r]).latch = true) :
    latchRelease rq r s = answer rq .already [] s := if_pos latched

theorem latchRelease_clear {rq : Requester} (clear : (s.cue.runners[r]).latch = false) : latchRelease rq r s =
    answer rq .ok [1, (s.cue.runners[r]).state.code] (onRunner r (fun x => { x with latch := true }) s) := by
  rw [latchRelease, clear, if_neg Bool.false_ne_true]
  dsimp only
  rw [releaseData, onRunner_at]

end

/-- Settles O47: by the runner; CUE_RELEASE by the runner's state and latch. -/
theorem cueReleaseAndHalt : Obligations.CueReleaseAndHalt := by
  refine ⟨entriesDecoded, fun c i b s held takes data => ⟨fun zero one => ?noRelease, fun r named => ?release⟩,
    fun c i b s held takes data => ⟨fun zero one => ?noHalt, fun r named => ?halt⟩⟩
  case noRelease =>
    have taken := takeRequest_takes takes bodyCueRelease
    rw [data, bodyCueRelease_unnamed (below_two_eq_none zero one)] at taken
    exact taken.trans (congrArg _ (answer_heldTake c i .badValue [] held))
  case noHalt =>
    have taken := takeRequest_takes takes bodyCueHalt
    rw [data, bodyCueHalt_unnamed (below_two_eq_none zero one)] at taken
    exact taken.trans (congrArg _ (answer_heldTake c i .badValue [] held))
  case release =>
    have taken := takeRequest_takes takes bodyCueRelease
    rw [data, bodyCueRelease_named (named ▸ below_two_byteOf r)] at taken
    refine ⟨fun ended => ?refused, fun runs latched => ?already, fun runs clear => ?latch, fun waits => ?released⟩
    case refused =>
      rw [releaseRunner_refused (s := heldTake c i s) ended] at taken
      exact taken.trans (congrArg _ (answer_heldTake c i .wrongState [] held))
    case already =>
      rw [releaseRunner_latch (s := heldTake c i s) runs, latchRelease_latched (s := heldTake c i s) latched] at taken
      exact taken.trans (congrArg _ (answer_heldTake c i .already [] held))
    case latch =>
      rw [releaseRunner_latch (s := heldTake c i s) runs, latchRelease_clear (s := heldTake c i s) clear] at taken
      exact taken.trans (congrArg _ (answer_withHeld_of_ctl c i .ok _
        (t := onRunner r (fun x => { x with latch := true }) (afterTake i s)) held rfl))
    case released =>
      have calm := completeWait_calm r (afterTake i s) false
      have only := completeWait_onlyRunner r (afterTake i s) false
      rw [releaseRunner_waiting (s := heldTake c i s) waits, heldTake_withHeld, completeWait_withHeld _ _ takes.settled,
        answer_withHeld c _ _ (calm.noHeld (afterTake_noHeld i held))] at taken
      exact ⟨completeWait r false (afterTake i s), taken, completeWait_started r false (afterTake i s), only.others, only.rest,
        .ofSame (completeWait_same r false _) calm⟩
  case halt =>
    have ctl : (haltRunner r (afterTake i s)).ctl = (afterTake i s).ctl := (haltRunner_same r _) .ctl (by decide)
    have report : runnerData r (withHeld c.requester (haltRunner r (afterTake i s))) = [b, RunnerState.idle.code] := by
      rw [runnerData, withHeld_cue, haltRunner_at, named]
      rfl
    have taken := takeRequest_takes takes bodyCueHalt
    rw [data, bodyCueHalt_named (named ▸ below_two_byteOf r), heldTake_withHeld, haltRunner_withHeld, report,
      answer_withHeld_of_ctl c i _ _ held ctl] at taken
    exact ⟨haltRunner r (afterTake i s), taken, ctl, haltRunner_cue r _, haltRunner_target,
      fun table => (haltRunner_moved r (s := afterTake i s) ((rampInv_iff s).mp table)).only,
      .ofSame ((haltRunner_same r _).mono (by decide)) (.ofSame (haltRunner_same r _))⟩

end Sys2Proof.Machine

namespace Sys2Proof.Machine
-- One proof at a time: side by side the proofs start more threads than the memory limit allows.
set_option Elab.async false

/-! ## The port's arbiter (R140, R141) -/

theorem mayGrant_iff (g : Grantee) (s : State) :
    mayGrant g s = true ↔ s.port.lock = .locked ∧ s.frame.grantFree = true ∧ arbiter s = some g := by
  simp [mayGrant, and_assoc]

theorem tableAsks_iff (s : State) :
    tableAsks s = true ↔ ∃ op : TableOp, s.table = some op ∧ op.table.inMemory = true ∧ op.owed ≠ 0 := by
  unfold tableAsks
  cases s.table with
  | none => simp
  | some op => simp

theorem arbiter_runner0 {s : State} (first : (s.cue.runners[0]).state = .fetching) : arbiter s = some (.runner 0) := if_pos first

theorem arbiter_runner1 {s : State} (first : (s.cue.runners[0]).state ≠ .fetching) (second : (s.cue.runners[1]).state = .fetching) :
    arbiter s = some (.runner 1) := (if_neg first).trans (if_pos second)

/-- R141: behind the runners come the waiting writes, and behind these the TABLE unit. -/
theorem arbiter_behind {s : State} (first : (s.cue.runners[0]).state ≠ .fetching) (second : (s.cue.runners[1]).state ≠ .fetching) :
    arbiter s = (firstWrite s).or (if tableAsks s then some .table else none) := by
  unfold arbiter
  rw [if_neg first, if_neg second]
  cases firstWrite s <;> rfl

theorem firstWrite_section {s : State} (eq : s.eq.pendingWrite.isSome = true) (cue : s.cue.pendingWrite = none) :
    firstWrite s = some .sectionWrite := by
  obtain ⟨w, pending⟩ := Option.isSome_iff_exists.mp eq
  simp only [firstWrite, pending, cue]

theorem firstWrite_cue {s : State} (eq : s.eq.pendingWrite = none) (cue : s.cue.pendingWrite.isSome = true) :
    firstWrite s = some .cueWrite := by
  obtain ⟨w, pending⟩ := Option.isSome_iff_exists.mp cue
  simp only [firstWrite, eq, pending]

theorem firstWrite_both {s : State} (eq : s.eq.pendingWrite.isSome = true) (cue : s.cue.pendingWrite.isSome = true) :
    firstWrite s = some (if s.cue.cueFirst then .cueWrite else .sectionWrite) := by
  obtain ⟨w, pending⟩ := Option.isSome_iff_exists.mp eq
  obtain ⟨x, waiting⟩ := Option.isSome_iff_exists.mp cue
  simp only [firstWrite, pending, waiting]

theorem firstWrite_none {s : State} (eq : s.eq.pendingWrite = none) (cue : s.cue.pendingWrite = none) : firstWrite s = none := by
  simp only [firstWrite, eq, cue]

/-- Settles O41: the runners in their order, then by which writes wait. -/
theorem arbiterPriority : Obligations.ArbiterPriority := by
  refine fun s => ⟨arbiter_runner0, arbiter_runner1, fun first second => ?behind, tableAsks_iff s, fun g => mayGrant_iff g s⟩
  rw [arbiter_behind first second]
  refine ⟨fun eq cue => ?_, fun eq cue => ?_, fun eq cue => ?_, fun eq cue => ?_⟩
  · rw [firstWrite_section eq cue, Option.some_or]
  · rw [firstWrite_cue eq cue, Option.some_or]
  · rw [firstWrite_both eq cue, Option.some_or]
  · rw [firstWrite_none eq cue, Option.none_or]

theorem firstWrite_ne_table (s : State) : firstWrite s ≠ some .table := by
  unfold firstWrite
  split
  · split <;> simp
  · simp
  · simp
  · simp

/-- R141: the TABLE unit is granted the port only where it asks. -/
theorem tableAsks_of_mayGrant {s : State} (granted : mayGrant .table s = true) : tableAsks s = true := by
  obtain ⟨-, -, chosen⟩ := (mayGrant_iff .table s).mp granted
  unfold arbiter at chosen
  split at chosen
  · cases chosen
  · split at chosen
    · cases chosen
    · split at chosen
      next g waiting => exact absurd (waiting.trans chosen) (firstWrite_ne_table s)
      · split at chosen
        next asks => exact asks
        · cases chosen

/-- R140: what the port is granted for lies in table memory. -/
theorem inMemory_of_mayGrant {op : TableOp} {s : State} (granted : mayGrant .table s = true) (held : s.table = some op) :
    op.table.inMemory = true := by
  obtain ⟨op', held', memory, -⟩ := (tableAsks_iff s).mp (tableAsks_of_mayGrant granted)
  obtain rfl : op = op' := Option.some.inj (held.symm.trans held')
  exact memory

/-! ## Writes heard of by the TABLE unit (R149) -/

/-- R149: a read, a digest of another table, and a digest that has covered none of the entries stand. -/
theorem reportWrites_stands {d : TableId} {is : List Nat} {op : TableOp} {s : State} (held : s.table = some op)
    (apart : op.kind = .read ∨ op.table ≠ d ∨ ∀ n ∈ is, n < op.first ∨ op.next ≤ n) : reportWrites d is s = s := by
  have calm : ¬ is.any (op.disturbedBy d) = true := by
    simp only [List.any_eq_true, TableOp.disturbedBy, Bool.and_eq_true, decide_eq_true_eq]
    rintro ⟨n, mem, ⟨⟨digest, table⟩, first⟩, next⟩
    rcases apart with read | other | uncovered
    · exact absurd (read.symm.trans digest) (by decide)
    · exact other table
    · have := uncovered n mem
      omega
  unfold reportWrites
  rw [held]
  exact if_neg calm

/-- Settles O51: by what the TABLE unit hears, and where it hears nothing that concerns its operation. -/
theorem writeDisturbsDigest : Obligations.WriteDisturbsDigest :=
  ⟨fun d ns s => ⟨reportWrites_heard d ns s, reportWrites_noNotice d ns s, (reportWrites_calm d ns s).settings, reportWrites_same d ns s⟩,
    fun _ _ _ _ held apart => reportWrites_stands held apart⟩

/-! ## A granted table access (R140, R146, R148) -/

theorem tableAccess_eq {op : TableOp} {s : State} (held : s.table = some op) : tableAccess s = stepTableOp op (spendGrant s) := by
  unfold tableAccess
  rw [held]

theorem TableOp.pace_memory {op : TableOp} (memory : op.table.inMemory = true) : op.pace = if op.table = .sections then 1 else 4 := by
  unfold TableOp.pace
  cases table : op.table with
  | sections => rfl
  | cueMemory => rfl
  | _ => rw [table] at memory; cases memory

section
variable {op : TableOp} {s : State}

/-- R142: entries of table memory are not counted among the frame's live ones. -/
theorem tableAccess_frame (held : s.table = some op) (memory : op.table.inMemory = true) :
    (tableAccess s).frame = { s.frame with grantFree := false } := by
  rw [tableAccess_eq held, stepTableOp_frame, countLive_frame]
  simp [memory, spendGrant]

theorem tableAccess_same (held : s.table = some op) : SameBut [.ctl, .table, .frame] s (tableAccess s) := by
  rw [tableAccess_eq held]
  exact ((spendGrant_same s).mono (by decide)).trans ((stepTableOp_same op _).mono (by decide))

theorem tableAccess_calm (held : s.table = some op) : Calm s (tableAccess s) := by
  rw [tableAccess_eq held]
  exact (stepTableOp_calm (by simp [held]) op).after

theorem tableAccess_entriesTaken (held : s.table = some op) : EntriesTaken op op.pace s s (tableAccess s) := by
  rw [tableAccess_eq held]
  exact (stepTableOp_entriesTaken op (spendGrant s)).congr
    (SameBut.ofParts fun p => by cases p <;> first | exact Or.inr rfl | exact Or.inl (by decide)) rfl

end

/-- Whether it goes on or ends, the operation raises no notice. -/
theorem EntriesTaken.noNotice {op : TableOp} {pace : Nat} {v s t : State} (h : EntriesTaken op pace v s t) : NoNotice s t := by
  obtain ⟨goesOn, ends⟩ := h
  rcases (min_le_right pace op.owed).lt_or_eq with more | all
  · obtain ⟨-, ctl⟩ := goesOn more
    exact .ofCtl ctl
  · obtain ⟨-, -, quiet⟩ := ends all
    exact quiet

theorem exec_tableAccessGrant {s : State} (granted : mayGrant .table s = true) :
    exec .tableAccessGrant s = .next (tableAccess s) := by
  refine Eq.trans (b := .next (if mayGrant .table s then tableAccess s else s)) rfl ?_
  rw [if_pos granted]

/-- Settles O49: the grant is spent, and the operation takes a step at the pace of its table. -/
theorem tableAccessGranted : Obligations.TableAccessGranted := by
  refine ⟨tablesEncoded, digestComputed, owedCounted, fun op s granted held => ?_⟩
  have memory := inMemory_of_mayGrant granted held
  have taken := tableAccess_entriesTaken held
  refine ⟨tableAccess s, exec_tableAccessGrant granted, tableAccess_frame held memory, (tableAccess_calm held).settings, taken.noNotice,
    tableAccess_same held, ?_⟩
  rwa [TableOp.pace_memory memory] at taken

/-! ## The end of an operation (R145, R146, R148) -/

/-- R144, R148: the data of the reply to an operation whose last entries are read in `s`. -/
def TableOp.lastData (op : TableOp) (s : State) : List Byte :=
  let bs := entriesBytes s op.table op.next op.owed
  match op.kind with
  | .read => op.table.code :: bytes16 op.first ++ byteOf op.count :: (op.taken ++ bs)
  | .digest => (if op.covered + op.owed = op.count then 0 else 1) :: bytes16 (crc16 op.crc bs).toNat
      ++ bytes16 (op.next + op.owed : Nat) ++ bytes16 (op.covered + op.owed : Nat)

/-- The step that takes the last entries owed ends the operation with the reply to them. -/
theorem EntriesTaken.last {op : TableOp} {v s t : State} (h : EntriesTaken op op.pace v s t) (last : op.lastStep = true) :
    t.table = none ∧ Answered [{ unit := .table, res := .ok, data := op.lastData v }] s t := by
  have all : min op.pace op.owed = op.owed := min_eq_right (of_decide_eq_true last)
  obtain ⟨-, ends⟩ := h
  obtain ⟨ended, answered, -⟩ := ends all
  rw [all] at answered
  refine ⟨ended, ?_⟩
  unfold TableOp.lastData
  cases kind : op.kind <;> simpa [kind, TableOp.fields] using answered

theorem endsNext_eq {op : TableOp} {s : State} (held : s.table = some op) (last : op.lastStep = true) :
    endsNext op.kind s = true := by
  unfold endsNext
  rw [held]
  simp [last]

theorem batchOwed_eq {op : TableOp} {s : State} (held : s.table = some op) : batchOwed s = op.batchDue := by
  unfold batchOwed
  rw [held]

theorem endTableStep_batch {op : TableOp} {s : State} (held : s.table = some op) (last : op.lastStep = true) (due : op.batchDue = true) :
    endTableStep op.kind s = closeIfSettled (stepTableOp op s) := by
  have owed : batchOwed s = true := (batchOwed_eq held).trans due
  unfold endTableStep
  rw [if_pos (endsNext_eq held last), if_pos owed, takeBatch_owed held due]

theorem endTableStep_granted {op : TableOp} {s : State} (held : s.table = some op) (last : op.lastStep = true)
    (due : op.batchDue = false) (granted : mayGrant .table s = true) : endTableStep op.kind s = tableAccess s := by
  have owed : ¬ batchOwed s = true := by simp [batchOwed_eq held, due]
  unfold endTableStep
  rw [if_pos (endsNext_eq held last), if_neg owed, if_pos granted]

/-- The command that ends an operation, by its kind. -/
theorem exec_operationEnd (k : TableOpKind) (s : State) :
    exec (match k with | .read => Instr.tableReadComplete | .digest => Instr.digestEnd) s = .next (endTableStep k s) := by
  cases k <;> rfl

/-- Settles O50: the last entries are taken by the live batch where one is owed, and by the granted access where none is. -/
theorem operationEnds : Obligations.OperationEnds := by
  refine ⟨tablesEncoded, digestComputed, owedCounted, fun op s held last way => ?_⟩
  have command := exec_operationEnd op.kind s
  cases due : op.batchDue with
  | true =>
    have taken := stepTableOp_entriesTaken op s
    obtain ⟨ended, answered⟩ := taken.last last
    have all : op.step = op.owed := min_eq_right (of_decide_eq_true last)
    refine ⟨stepTableOp op s, fun _ => ⟨?_, ?_⟩, fun other => absurd other (by decide), ended, answered, taken.noNotice,
      (stepTableOp_calm (by simp [held]) op).settings, (stepTableOp_same op s).mono (by decide)⟩
    · rw [endTableStep_batch held last due] at command
      exact command
    · rw [stepTableOp_frame, countLive_frame, all]
      split <;> rfl
  | false =>
    have granted : mayGrant .table s = true := way.resolve_left (by simp [due])
    have taken := tableAccess_entriesTaken held
    obtain ⟨ended, answered⟩ := taken.last last
    refine ⟨tableAccess s, fun other => absurd other (by decide), fun _ => ⟨?_, tableAccess_frame held (inMemory_of_mayGrant granted held)⟩,
      ended, answered, taken.noNotice, (tableAccess_calm held).settings, tableAccess_same held⟩
    rw [endTableStep_granted held last due granted] at command
    exact command

end Sys2Proof.Machine

namespace Sys2Proof.Machine
-- One proof at a time: side by side the proofs start more threads than the memory limit allows.
set_option Elab.async false

/-! ## Ranges of table entries on the wire (R144, R147) -/

theorem TableId.ofByte_eq_some_iff {b : Byte} {d : TableId} : TableId.ofByte b = some d ↔ b = d.code := tablesListed.1 b d

/-- R144, R147: a range of a table is refused where it has no entry, begins past the table or ends past it. -/
def TableId.outside (d : TableId) (first count : Nat) : Prop := d.size ≤ first ∨ count = 0 ∨ d.size < first + count

section
variable {digest : Bool} {a fh fl ch cl : Byte} {rest : List Byte} {d : TableId}

theorem parseRange_unknown (unknown : TableId.ofByte a = none) : parseRange digest (a :: fh :: fl :: ch :: cl :: rest) = none := by
  simp [parseRange, unknown]

theorem parseRange_outside (known : TableId.ofByte a = some d) (out : d.outside (u16 fh fl) (u16 ch cl)) :
    parseRange digest (a :: fh :: fl :: ch :: cl :: rest) = none := by
  have refused : ¬ (u16 fh fl < d.size ∧ 1 ≤ u16 ch cl ∧ u16 fh fl + u16 ch cl ≤ d.size) := by
    unfold TableId.outside at out
    omega
  simp [parseRange, known, refused]

theorem parseRange_inside (known : TableId.ofByte a = some d) (allowed : digest = true → d ≠ .ramps) (first : u16 fh fl < d.size)
    (nonempty : 1 ≤ u16 ch cl) (fits : u16 fh fl + u16 ch cl ≤ d.size) :
    parseRange digest (a :: fh :: fl :: ch :: cl :: rest) = some (d, u16 fh fl, u16 ch cl) := by
  have asked : ¬ (digest = true ∧ d = .ramps) := fun both => allowed both.1 both.2
  simp [parseRange, known, asked, first, nonempty, fits]

end

/-! ## TABLE_READ (R142, R144 to R146) -/

/-- R142: whether more live entries can be taken in the frame. -/
theorem liveRoom_iff {d : TableId} (live : d.inMemory = false) (n : Nat) (s : State) :
    liveRoom d n s = true ↔ s.port.lock = .hunt ∨ s.frame.liveTaken + n ≤ 8 := by
  simp only [liveRoom, live, Bool.false_or, Bool.or_eq_true, decide_eq_true_eq]
  rfl

theorem liveRoom_memory {d : TableId} (memory : d.inMemory = true) (n : Nat) (s : State) : liveRoom d n s = true := by
  simp [liveRoom, memory]

/-- R142: live entries taken are counted in a LOCKED frame. -/
theorem countLive_live {d : TableId} (live : d.inMemory = false) (n : Nat) (s : State) : countLive d n s =
    { s with frame := { s.frame with
        liveTaken := if s.port.lock = .locked then s.frame.liveTaken + n else s.frame.liveTaken } } := by
  unfold countLive
  by_cases locked : s.port.lock = .locked <;> simp [live, locked]

theorem countLive_withHeld (d : TableId) (n : Nat) (rq : Requester) (s : State) :
    countLive d n (withHeld rq s) = withHeld rq (countLive d n s) := by
  have lock : (withHeld rq s).port.lock = s.port.lock := rfl
  unfold countLive
  rw [lock]
  split <;> rfl

theorem TableOp.take_congr {s t : State} (same : SameBut [.port, .frame, .ctl, .table] s t) (op : TableOp) : op.take t = op.take s := by
  unfold TableOp.take
  rw [entriesBytes_congr (same .core (by decide)) (same .ramp (by decide)) (same .eq (by decide)) (same .cue (by decide))]

theorem tableRead_started {op : TableOp} (c : Context) (i : Fin 2) {s : State} (takes : Takes .tableRead c i s)
    (asked : readOp c.data = some op) (room : liveRoom op.table op.step s = true) :
    exec .tableRead s = .next (startRead c.requester op (heldTake c i s)) := by
  refine (execTableRead_takes takes fun op' asked' => ?_).trans (congrArg _ ?_)
  · obtain rfl : op = op' := Option.some.inj (asked.symm.trans asked')
    exact room
  · unfold bodyTableRead
    rw [asked]

section
variable {op : TableOp} (c : Context) (i : Fin 2) {s : State} (held : NoHeld s)
include held

theorem startRead_memory (memory : op.table.inMemory = true) :
    startRead c.requester op (heldTake c i s) = reserved .table c { afterTake i s with table := some op } := by
  unfold startRead
  rw [if_pos memory]
  exact reserve_last .table (heldTake_queue c i s) (afterTake_noHeld i held)

/-- R145: the read begins with its first entries, taken of the state before it. -/
theorem startRead_live (live : op.table.inMemory = false) : startRead c.requester op (heldTake c i s) =
    if op.owed ≤ 8 then replied c .ok (readData (op.take s)) (countLive op.table op.step (afterTake i s))
    else reserved .table c { countLive op.table op.step (afterTake i s) with table := some (op.take s) } := by
  have entries : op.take (heldTake c i s) = op.take s :=
    TableOp.take_congr (SameBut.ofParts fun p => by cases p <;> first | exact Or.inr rfl | exact Or.inl (by decide)) op
  have all : (op.take s).owed = 0 ↔ op.owed ≤ 8 := by
    rw [op.take_owed_eq_zero_iff, TableOp.step_live live, min_eq_right_iff]
  have counted : (countLive op.table op.step (afterTake i s)).ctl = (afterTake i s).ctl := (countLive_same _ _ _) .ctl (by decide)
  have free : NoHeld (countLive op.table op.step (afterTake i s)) := by
    unfold NoHeld
    rw [counted]
    exact afterTake_noHeld i held
  unfold startRead
  rw [if_neg (by simp [live]), entries, heldTake_withHeld, countLive_withHeld]
  simp only [all]
  split
  · exact answer_withHeld c .ok _ free
  · exact reserve_last .table rfl free

theorem tableRead_refused (takes : Takes .tableRead c i s) (bad : readOp c.data = none) :
    exec .tableRead s = .next (replied c .badValue [] (afterTake i s)) := by
  refine (execTableRead_takes takes fun op asked => by simp [bad] at asked).trans (congrArg _ ?_)
  rw [← answer_heldTake c i .badValue [] held]
  unfold bodyTableRead
  rw [bad]

end

section
variable {d : TableId} (live : d.inMemory = false) (first n : Nat) {s : State}
include live

/-- R145: a fresh read of a live table takes 8 entries, or all. -/
theorem freshRead_step : (freshOp .read d first n 0).step = min n 8 := (TableOp.step_live live).trans (min_comm 8 n)

variable (c : Context) (i : Fin 2) (held : NoHeld s)
include held

/-- R145: up to 8 entries are answered at once. -/
theorem startRead_done (few : n ≤ 8) : startRead c.requester (freshOp .read d first n 0) (heldTake c i s) =
    replied c .ok (d.code :: bytes16 first ++ byteOf n :: entriesBytes s d first n) (countLive d (min n 8) (afterTake i s)) := by
  have step : (freshOp .read d first n 0).step = n := (freshRead_step live first n).trans (min_eq_left few)
  rw [startRead_live c i held live]
  refine (if_pos few).trans ?_
  rw [readData, TableOp.take, step, min_eq_left few]
  rfl

/-- R145: of more, 8 are taken and the others are owed. -/
theorem startRead_goesOn (more : 8 < n) : startRead c.requester (freshOp .read d first n 0) (heldTake c i s) =
    reserved .table c { countLive d (min n 8) (afterTake i s) with
      table := some
        { kind := .read, table := d, first := first, count := n, next := first + 8, covered := 8,
          crc := crc16 0 (entriesBytes s d first 8), taken := entriesBytes s d first 8, batchDue := false } } := by
  have step : (freshOp .read d first n 0).step = 8 := (freshRead_step live first n).trans (min_eq_right more.le)
  rw [startRead_live c i held live]
  refine (if_neg (Nat.not_le.mpr more)).trans ?_
  rw [TableOp.take, step, min_eq_right more.le]
  rfl

end

/-! ## DIGEST (R147) -/

theorem digestible_code (d : TableId) : digestible d.code = decide (d ≠ .ramps) := by
  cases d <;> rfl

/-- R147: the ids of a digest are those of the tables other than RAMPS. -/
theorem digestible_eq_false {b : Byte} (other : TableId.ofByte b = none ∨ TableId.ofByte b = some .ramps) : digestible b = false := by
  rcases other with unknown | ramps
  · by_contra low
    have low : b.toNat ≤ 8 := by simpa [digestible] using low
    unfold TableId.ofByte at unknown
    generalize b.toNat = n at unknown low
    interval_cases n <;> cases unknown
  · rw [TableId.ofByte_eq_some_iff.mp ramps, digestible_code]
    rfl

theorem digestible_of_known {b : Byte} {d : TableId} (known : TableId.ofByte b = some d) (allowed : d ≠ .ramps) :
    digestible b = true := by
  rw [TableId.ofByte_eq_some_iff.mp known, digestible_code]
  exact decide_eq_true allowed

/-- R147, 11.3: the lengths of a digest's data. -/
theorem digest_length_of_seed {a fh fl ch cl : Byte} {seed : List Byte} (right : seed.length = 0 ∨ seed.length = 2) :
    ¬ ((a :: fh :: fl :: ch :: cl :: seed).length ≠ 5 ∧ (a :: fh :: fl :: ch :: cl :: seed).length ≠ 7) := by
  simp only [List.length_cons]
  omega

section
variable (rq : Requester) {a fh fl ch cl : Byte} {seed : List Byte} {d : TableId} (s : State)

theorem bodyDigest_unknown (other : TableId.ofByte a = none ∨ TableId.ofByte a = some .ramps) :
    bodyDigest rq (a :: fh :: fl :: ch :: cl :: seed) s = answer rq .badValue [] s := by
  unfold bodyDigest
  rw [List.getD_cons_zero, digestible_eq_false other]
  rfl

variable (known : TableId.ofByte a = some d) (allowed : d ≠ .ramps)
include known allowed

/-- R174: a seed of one byte is of no length a digest has. -/
theorem bodyDigest_length (one : seed.length = 1) :
    bodyDigest rq (a :: fh :: fl :: ch :: cl :: seed) s = answer rq .badLength [] s := by
  unfold bodyDigest
  rw [List.getD_cons_zero, digestible_of_known known allowed, if_neg (by decide), if_pos (by simp [one])]

variable (right : seed.length = 0 ∨ seed.length = 2)
include right

/-- R147: with its length right the range decides. -/
theorem bodyDigest_outside (out : d.outside (u16 fh fl) (u16 ch cl)) :
    bodyDigest rq (a :: fh :: fl :: ch :: cl :: seed) s = answer rq .badValue [] s := by
  unfold bodyDigest
  rw [List.getD_cons_zero, digestible_of_known known allowed, if_neg (by decide), if_neg (digest_length_of_seed right), parseRange_outside known out]

/-- R143, R147: the register starts as the seed, or FFFF hex. -/
theorem bodyDigest_inside (first : u16 fh fl < d.size) (nonempty : 1 ≤ u16 ch cl) (fits : u16 fh fl + u16 ch cl ≤ d.size) :
    bodyDigest rq (a :: fh :: fl :: ch :: cl :: seed) s = reserve .table { s with
      table := some (freshOp .digest d (u16 fh fl) (u16 ch cl) (digestSeed (a :: fh :: fl :: ch :: cl :: seed))) } := by
  unfold bodyDigest
  rw [List.getD_cons_zero, digestible_of_known known allowed, if_neg (by decide), if_neg (digest_length_of_seed right),
    parseRange_inside known (fun _ => allowed) first nonempty fits]

end

/-- Settles O48: TABLE_READ by its range, by where its table lies and by how many entries the first step takes; DIGEST by its table id,
its length and its range. -/
theorem tableRequestsTaken : Obligations.TableRequestsTaken := by
  refine ⟨tablesListed, tablesEncoded, digestComputed, fun c i a fh fl ch cl s held takes data => ?tableRead,
    fun c i a fh fl ch cl seed s held takes data => ?digest⟩
  case tableRead =>
    refine ⟨fun unknown => ?unknown, fun d known => ⟨fun out => ?outside, fun first nonempty fits => ?inside⟩⟩
    case unknown => exact tableRead_refused c i held takes (by rw [data, readOp, parseRange_unknown unknown])
    case outside => exact tableRead_refused c i held takes (by rw [data, readOp, parseRange_outside known out])
    case inside =>
      have asked : readOp c.data = some (freshOp .read d (u16 fh fl) (min (u16 ch cl) d.replyLimit) 0) := by
        rw [data, readOp, parseRange_inside known (by simp) first nonempty fits]
      obtain rfl := TableId.ofByte_eq_some_iff.mp known
      intro n room counted
      have admits (live : d.inMemory = false) : liveRoom d (freshOp .read d (u16 fh fl) n 0).step s = true ↔ room := by
        rw [freshRead_step live]
        exact liveRoom_iff live _ s
      refine ⟨fun live full => ?waits, fun live fits few => ?done, fun live fits more => ?goesOn, fun memory => ?memory⟩
      case waits => exact execTableRead_waits takes asked (Bool.eq_false_iff.mpr (full ∘ (admits live).mp))
      case done =>
        rw [tableRead_started c i takes asked ((admits live).mpr fits), startRead_done live _ _ c i held few, countLive_live live, bytes16_u16]
        rfl
      case goesOn =>
        rw [tableRead_started c i takes asked ((admits live).mpr fits), startRead_goesOn live _ _ c i held more, countLive_live live]
        rfl
      case memory =>
        rw [tableRead_started c i takes asked (liveRoom_memory memory _ s), startRead_memory c i held memory]
        rfl
  case digest =>
    have taken := takeRequest_takes takes bodyDigest
    rw [data] at taken
    refine ⟨fun other => ?unknown, fun d known allowed => ⟨fun one => ?length, fun right =>
      ⟨fun out => ?outside, fun first nonempty fits => ?inside⟩⟩⟩
    case unknown =>
      rw [bodyDigest_unknown c.requester _ other] at taken
      exact taken.trans (congrArg _ (answer_heldTake c i .badValue [] held))
    case length =>
      rw [bodyDigest_length c.requester _ known allowed one] at taken
      exact taken.trans (congrArg _ (answer_heldTake c i .badLength [] held))
    case outside =>
      rw [bodyDigest_outside c.requester _ known allowed right out] at taken
      exact taken.trans (congrArg _ (answer_heldTake c i .badValue [] held))
    case inside =>
      rw [bodyDigest_inside c.requester _ known allowed right first nonempty fits] at taken
      exact taken.trans (congrArg _ (reserve_last .table (heldTake_queue c i s) (afterTake_noHeld i held)))

end Sys2Proof.Machine

namespace Sys2Proof.Machine
-- One proof at a time: side by side the proofs start more threads than the memory limit allows.
set_option Elab.async false

/-! ## No operation touches the queue of commands (entry 1) -/

theorem SameBut.pending {ps : List Part} {s t : State} (h : SameBut ps s t) (out : Part.pending ∉ ps := by decide) :
    t.pending = s.pending := h .pending out

/-! ### The shared operations -/

section
variable (s : State)

@[simp] theorem raiseNotice_pending (n : Notice) : (raiseNotice n s).pending = s.pending := (raiseNotice_same n s).pending

@[simp] theorem reportWrites_pending (d : TableId) (is : List Nat) : (reportWrites d is s).pending = s.pending :=
  (reportWrites_same d is s).pending

@[simp] theorem reportSections_pending (is : List SectionNo) : (reportSections is s).pending = s.pending :=
  (reportSections_same is s).pending

@[simp] theorem abortTableOp_pending : (abortTableOp s).pending = s.pending := (abortTableOp_same s).pending

@[simp] theorem takeBatch_pending : (takeBatch s).pending = s.pending := (takeBatch_same s).pending

@[simp] theorem takeExam_pending : (takeExam s).pending = s.pending := (takeExam_same s).pending

@[simp] theorem enterStandby_pending : (enterStandby s).pending = s.pending := (enterStandby_same s).pending

@[simp] theorem closeIfSettled_pending : (closeIfSettled s).pending = s.pending := (closeIfSettled_same s).pending

@[simp] theorem completeWait_pending (r : RunnerNo) (timedOut : Bool) : (completeWait r timedOut s).pending = s.pending :=
  (completeWait_same r timedOut s).pending

@[simp] theorem haltRunner_pending (r : RunnerNo) : (haltRunner r s).pending = s.pending := (haltRunner_same r s).pending

@[simp] theorem enterManual_pending (v : Nat) : (enterManual v s).pending = s.pending := (enterManual_same v s).pending

@[simp] theorem finishBoundary_pending : (finishBoundary s).pending = s.pending := by
  unfold finishBoundary
  split
  · exact (closeBoundary_same _).pending.trans (takeOwed_same s).pending
  · rfl

@[simp] theorem tableAccess_pending : (tableAccess s).pending = s.pending := by
  unfold tableAccess
  split
  · exact (stepTableOp_same _ (spendGrant s)).pending
  · rfl

@[simp] theorem endTableStep_pending (k : TableOpKind) : (endTableStep k s).pending = s.pending := by
  unfold endTableStep
  split
  · split
    · simp
    · split <;> simp
  · rfl

/-! ### The ring port -/

@[simp] theorem gainLock_pending : (gainLock s).pending = s.pending := by
  unfold gainLock
  dsimp only
  split <;> simp

theorem syncHunting_pending (spacing : Spacing) : (syncHunting spacing s).pending = s.pending := by
  unfold syncHunting
  split
  · split <;> simp
  · rfl

theorem lockLoss_pending : (lockLoss s).pending = s.pending := by
  unfold lockLoss abortDigest lossInLeaving
  split
  · split <;> split <;> simp
  · split <;> simp

@[simp] theorem openPacket_pending (b k : Bool) (c : Cell) : (openPacket b k c s).pending = s.pending := by
  unfold openPacket
  split
  · simp
  · split <;> simp

@[simp] theorem extendPacket_pending (last : Bool) (c : Cell) : (extendPacket last c s).pending = s.pending := by
  unfold extendPacket
  split
  · simp
  · split
    · simp
    · split <;> simp

@[simp] theorem assemble_pending (b : Bool) (c : Cell) : (assemble b c s).pending = s.pending := by
  unfold assemble
  split <;> simp

@[simp] theorem fillPosition_pending : (fillPosition s).pending = s.pending := by
  unfold fillPosition
  split <;> rfl

theorem lockedCell_pending (c : Cell) : (lockedCell c s).pending = s.pending := by
  unfold lockedCell
  split
  · simp
  · split
    · simp
    · split
      · simp
      · split <;> simp

theorem takeOutgoing_pending : (takeOutgoing s).pending = s.pending := by
  unfold takeOutgoing
  split <;> rfl

theorem queueOneNotice_pending : (queueOneNotice s).pending = s.pending := by
  unfold queueOneNotice
  split
  · split <;> rfl
  · rfl

/-! ### The taking of a packet -/

theorem takeOffer_pending (o : Offer) : (takeOffer o s).pending = s.pending := by
  unfold takeOffer
  dsimp only
  split <;> rfl

theorem takePacket_pending {row : Option Request} {body : Context → State → State} (kept : ∀ c s, (body c s).pending = s.pending) :
    (takePacket row body s).pending = s.pending := by
  unfold takePacket
  split
  · split
    · exact (kept _ _).trans (takeOffer_pending _ _)
    · rfl
  · rfl

theorem decodeThen_pending {body : Requester → List Byte → State → State} (kept : ∀ rq data s, (body rq data s).pending = s.pending)
    (q : Request) (c : Context) : (decodeThen q body c s).pending = s.pending := by
  unfold decodeThen
  split
  · rfl
  · exact kept _ _ s

theorem judgeUnknown_pending (c : Context) : (judgeUnknown c s).pending = s.pending := by
  unfold judgeUnknown refuseUnknown
  split
  · rfl
  · split
    · rfl
    · split
      · rfl
      · split <;> rfl

/-! ### The requests of CTRL -/

variable (rq : Requester) (data : List Byte)

theorem bodyReadStatus_pending : (bodyReadStatus rq data s).pending = s.pending := by
  unfold bodyReadStatus
  split
  · rfl
  · split <;> rfl

@[simp] theorem enableEq_pending (on : Bool) : (enableEq on s).pending = s.pending := by
  unfold enableEq
  dsimp only
  split
  · exact (abortSectionWrite_same _).pending
  · rfl

@[simp] theorem enableSdv_pending (on : Bool) : (enableSdv on s).pending = s.pending := by
  unfold enableSdv
  dsimp only
  split
  · rfl
  · split
    · exact (sdvEnable_same _).pending
    · exact (sdvDisable_same _).pending

@[simp] theorem enableCue_pending (on : Bool) : (enableCue on s).pending = s.pending := by
  unfold enableCue
  dsimp only
  split
  · exact (cueDisable_same _).pending
  · rfl

@[simp] theorem enableTable_pending (on : Bool) : (enableTable on s).pending = s.pending := by
  unfold enableTable
  dsimp only
  split
  · exact (abortTableOp_same _).pending
  · rfl

theorem bodyUnitEnable_pending : (bodyUnitEnable rq data s).pending = s.pending := by
  unfold bodyUnitEnable
  split
  · rfl
  · split <;> simp

@[simp] theorem resetUnit_pending (u : UnitId) : (resetUnit u s).pending = s.pending := by
  cases u with
  | ctrl => rfl
  | stage => exact (stageReset_same s).pending
  | eq => exact (eqReset_same s).pending
  | sdv => exact (sdvReset_same s).pending
  | cue => exact (cueReset_same s).pending
  | table => exact (abortTableOp_same s).pending

theorem bodyUnitReset_pending : (bodyUnitReset rq data s).pending = s.pending := by
  unfold bodyUnitReset
  split
  · rfl
  · split
    · rfl
    · split <;> simp

theorem bodyNoticeEnable_pending : (bodyNoticeEnable rq data s).pending = s.pending := by
  unfold bodyNoticeEnable
  split <;> rfl

theorem bodyMode_pending : (bodyMode rq data s).pending = s.pending := by
  unfold bodyMode leaveRun
  split
  · rfl
  · rfl
  · split
    · dsimp only
      split <;> simp
    · rfl

@[simp] theorem setMap_pending (output : Bool) (m : List (Option Slot)) : (setMap output m s).pending = s.pending := by
  unfold setMap
  split <;> rfl

theorem bodySlotMap_pending : (bodySlotMap rq data s).pending = s.pending := by
  unfold bodySlotMap
  dsimp only
  repeat' split
  all_goals simp

/-! ### The requests of STAGE -/

theorem bodyStageRecord_pending : (bodyStageRecord rq data s).pending = s.pending := by
  have closed (r : ChangeRecord) (notify : Bool) : (stageClose rq r notify s).pending = s.pending := by
    unfold stageClose
    split
    · rfl
    · split
      · rfl
      · split
        · rfl
        · exact (acceptSet_same _ notify s).pending
  have staged (r : ChangeRecord) : (stageOpen rq r s).pending = s.pending := by
    unfold stageOpen
    split <;> rfl
  unfold bodyStageRecord
  split
  · rfl
  · rfl
  · split
    · exact closed _ _
    · exact staged _

/-! ### The requests of EQ -/

@[simp] theorem startSectionWrite_pending (sec : SectionNo) (kind : WriteKind) (k : Coeffs) :
    (startSectionWrite sec kind k s).pending = s.pending := by
  unfold startSectionWrite
  simp

theorem bodySectionLoad_pending : (bodySectionLoad rq data s).pending = s.pending := by
  unfold bodySectionLoad
  split
  · rfl
  · split <;> simp

theorem bodySectionWrite_pending : (bodySectionWrite rq data s).pending = s.pending := by
  unfold bodySectionWrite refuseSection
  split
  · rfl
  · dsimp only
    split <;> simp

theorem bodySectionRelease_pending : (bodySectionRelease rq data s).pending = s.pending := by
  unfold bodySectionRelease
  dsimp only
  split
  · exact (releaseSection_same _ s).pending
  · rfl

/-! ### The requests of SDV -/

theorem takeReport_pending (c : Context) : (takeReport c s).pending = s.pending := by
  unfold takeReport
  split
  · exact (speedReport_same _ _ s).pending
  · exact decodeThen_pending (body := bodySpeedReport) s (fun _ _ s => (speedReport_same _ _ s).pending) _ c

theorem bodySdvConfig_pending : (bodySdvConfig rq data s).pending = s.pending := by
  unfold bodySdvConfig
  split
  · rfl
  · exact (setConfig_same _ _ _ _ s).pending

theorem bodySdvManual_pending : (bodySdvManual rq data s).pending = s.pending := by
  unfold bodySdvManual
  dsimp only
  split
  · rfl
  · split
    · rfl
    · simp

theorem bodySdvAuto_pending : (bodySdvAuto rq data s).pending = s.pending := by
  unfold bodySdvAuto
  split
  · exact (leaveManual_same s).pending
  · rfl

/-! ### The requests of CUE -/

theorem bodyCueWrite_pending : (bodyCueWrite rq data s).pending = s.pending := by
  unfold bodyCueWrite
  dsimp only
  split <;> rfl

theorem bodyCueStart_pending : (bodyCueStart rq data s).pending = s.pending := by
  unfold bodyCueStart
  split
  · rfl
  · split <;> rfl

@[simp] theorem latchRelease_pending (r : RunnerNo) : (latchRelease rq r s).pending = s.pending := by
  unfold latchRelease
  split <;> rfl

theorem bodyCueRelease_pending : (bodyCueRelease rq data s).pending = s.pending := by
  unfold bodyCueRelease releaseRunner
  split
  · rfl
  · split <;> simp

theorem bodyCueHalt_pending : (bodyCueHalt rq data s).pending = s.pending := by
  unfold bodyCueHalt
  split
  · rfl
  · simp

/-! ### The requests of TABLE -/

theorem bodyTableRead_pending : (bodyTableRead rq data s).pending = s.pending := by
  unfold bodyTableRead startRead
  split
  · rfl
  · split
    · rfl
    · dsimp only
      split <;> simp

theorem bodyDigest_pending : (bodyDigest rq data s).pending = s.pending := by
  unfold bodyDigest
  split
  · rfl
  · split
    · rfl
    · split <;> rfl

end

/-! ## Every command answers a next state -/

/-- A command answers a next state with the queue of commands it was given. -/
def Answers (c : Instr) (s : State) : Prop := ∃ t : State, exec c s = .next t ∧ t.pending = s.pending

section
variable {c : Instr} {s : State}

/-- A command that acts only where it is due. -/
theorem Answers.ofDue {p : Prop} [Decidable p] {u : State} (kept : u.pending = s.pending)
    (command : exec c s = .next (if p then u else s) := by rfl) : Answers c s := by
  refine ⟨_, command, ?_⟩
  split
  · exact kept
  · rfl

/-- A request row. -/
theorem Answers.ofRequest {q : Request} {body : Requester → List Byte → State → State}
    (kept : ∀ (s : State) (rq : Requester) (data : List Byte), (body rq data s).pending = s.pending)
    (command : exec c s = takeRequest q body s := by rfl) : Answers c s :=
  ⟨_, command, takePacket_pending s fun c s => decodeThen_pending s (fun rq data s => kept s rq data) q c⟩

end

theorem exec_answers (c : Instr) (s : State) : Answers c s := by
  cases c with
  | powerOn strap => exact ⟨_, rfl, rfl⟩
  | syncReceived spacing =>
    refine ⟨_, rfl, ?_⟩
    split
    · exact syncHunting_pending s spacing
    · split
      · exact finishBoundary_pending s
      · rfl
  | syncMissing =>
    refine ⟨_, rfl, ?_⟩
    split
    · rfl
    · split
      · exact finishBoundary_pending s
      · exact (lockLoss_pending _).trans (finishBoundary_pending s)
  | frameBoundary up examine batch =>
    cases due : s.frame.boundaryDue with
    | true =>
      exact ⟨_, exec_frameBoundary up batch s examine due, (closeIfSettled_pending _).trans
        ((boundaryTaken_examined up batch s examine).pending.trans (advanceAll_same (openFrame up s)).pending)⟩
    | false =>
      refine ⟨repeatSlots up s, ?_, (repeatSlots_same up s).pending⟩
      refine Eq.trans (b := .next (if s.frame.boundaryDue then closeIfSettled (boundaryTaken up examine batch s) else repeatSlots up s)) rfl ?_
      rw [due]
      rfl
  | rampComplete i => exact .ofDue ((closeIfSettled_pending _).trans (takeRampEnd_same i s).pending)
  | crossfadeEnd i => exact .ofDue ((closeIfSettled_pending _).trans (takeFadeEnd_same i s).pending)
  | leavingEnd => exact .ofDue ((closeIfSettled_pending _).trans (enterStandby_pending s))
  | setApplication => exact .ofDue ((closeIfSettled_pending _).trans (takeExam_pending s))
  | sdvTick => exact .ofDue ((closeIfSettled_pending _).trans (takeTick_same s).pending)
  | cueFetchGrant r => exact .ofDue (fetchWindow_same r (spendGrant s)).pending
  | stepComplete r => exact .ofDue ((closeIfSettled_pending _).trans (completeEntry_same r s).pending)
  | waitTimeout r => exact .ofDue ((closeIfSettled_pending _).trans (completeWait_pending s r true))
  | sectionWriteGrant =>
    refine .ofDue ?_
    split
    · exact (completeSectionWrite_same _ (spendGrant s)).pending
    · rfl
  | cueWriteGrant =>
    refine .ofDue ?_
    split
    · exact (completeCueWrite_same _ (spendGrant s)).pending
    · rfl
  | tableAccessGrant => exact .ofDue (tableAccess_pending s)
  | tableReadComplete => exact ⟨_, rfl, endTableStep_pending s .read⟩
  | digestEnd => exact ⟨_, rfl, endTableStep_pending s .digest⟩
  | controlCell cell =>
    refine ⟨_, rfl, ?_⟩
    split
    · rfl
    · split
      · exact lockedCell_pending _ cell
      · rfl
  | outgoingPacketTake => exact ⟨_, rfl, takeOutgoing_pending (queueNotices s)⟩
  | noticeQueue => exact ⟨_, rfl, queueOneNotice_pending s⟩
  | unknownRequest => exact ⟨_, rfl, takePacket_pending s fun c s => judgeUnknown_pending s c⟩
  | identify => exact .ofRequest (body := bodyIdentify) fun _ _ _ => rfl
  | readStatus => exact .ofRequest bodyReadStatus_pending
  | unitEnable => exact .ofRequest bodyUnitEnable_pending
  | unitReset => exact .ofRequest bodyUnitReset_pending
  | partReset => exact .ofRequest (body := bodyPartReset) fun _ _ _ => rfl
  | noticeEnable => exact .ofRequest bodyNoticeEnable_pending
  | mode => exact .ofRequest bodyMode_pending
  | slotMap => exact .ofRequest bodySlotMap_pending
  | stageRecord => exact .ofRequest bodyStageRecord_pending
  | abortOpen => exact .ofRequest (body := bodyAbortOpen) fun _ _ _ => rfl
  | flushQueue => exact .ofRequest (body := bodyFlushQueue) fun s _ _ => (flushQueue_same s).pending
  | setStatus => exact .ofRequest (body := bodySetStatus) fun _ _ _ => rfl
  | sectionLoad => exact .ofRequest bodySectionLoad_pending
  | sectionWrite => exact .ofRequest bodySectionWrite_pending
  | sectionRelease => exact .ofRequest bodySectionRelease_pending
  | poolStatus => exact .ofRequest (body := bodyPoolStatus) fun _ _ _ => rfl
  | speedReport => exact ⟨_, rfl, takePacket_pending s fun c s => takeReport_pending s c⟩
  | sdvConfig => exact .ofRequest bodySdvConfig_pending
  | sdvManual => exact .ofRequest bodySdvManual_pending
  | sdvAuto => exact .ofRequest bodySdvAuto_pending
  | sdvStatus => exact .ofRequest (body := bodySdvStatus) fun _ _ _ => rfl
  | cueWrite => exact .ofRequest bodyCueWrite_pending
  | cueStart => exact .ofRequest bodyCueStart_pending
  | cueRelease => exact .ofRequest bodyCueRelease_pending
  | cueHalt => exact .ofRequest bodyCueHalt_pending
  | cueStatus => exact .ofRequest (body := bodyCueStatus) fun _ _ _ => rfl
  | tableRead =>
    refine ⟨_, rfl, ?_⟩
    split
    · rfl
    · exact takePacket_pending s fun c s => decodeThen_pending s (fun rq data s => bodyTableRead_pending s rq data) .tableRead c
  | digest => exact .ofRequest bodyDigest_pending

/-! ## A command that is not due changes nothing (entries 1 and 3) -/

/-- A command that acts only where it is due. -/
theorem exec_notDue {c : Instr} {s u : State} {p : Prop} [Decidable p] (notDue : ¬ p)
    (command : exec c s = .next (if p then u else s) := by rfl) : exec c s = .next s := by
  rw [command, if_neg notDue]

theorem RampUnit.dueAt_eq_true_iff {u : RampUnit} {i : Fin 64} :
    u.dueAt i = true ↔ ∃ r : Ramp, u.entries[i] = some r ∧ r.due = true := by
  unfold RampUnit.dueAt
  cases u.entries[i] <;> simp

theorem EqUnit.dueAt_eq_true_iff {e : EqUnit} {i : Fin 4} :
    e.dueAt i = true ↔ ∃ f : Crossfade, e.slots[i] = some f ∧ f.due = true := by
  unfold EqUnit.dueAt
  cases e.slots[i] <;> simp

theorem endsNext_eq_true_iff {k : TableOpKind} {s : State} :
    endsNext k s = true ↔ ∃ op : TableOp, s.table = some op ∧ op.kind = k ∧ op.lastStep = true := by
  unfold endsNext
  cases s.table <;> simp

/-- R145, R146, R148: no step that takes the last entries can be taken. -/
theorem endTableStep_notDue {k : TableOpKind} {s : State} (notDue : ∀ op : TableOp, s.table = some op → op.kind = k → op.lastStep = true →
    op.batchDue = false ∧ mayGrant .table s = false) : endTableStep k s = s := by
  unfold endTableStep
  split
  next ends =>
    obtain ⟨op, held, kind, last⟩ := endsNext_eq_true_iff.mp ends
    obtain ⟨batch, grant⟩ := notDue op held kind last
    rw [batchOwed_eq held, batch, grant]
    rfl
  · rfl

/-- R1: a LOCKED frame has one boundary. -/
theorem exec_frameBoundary_notDue (up : Vector Sample 32) (examine batch : Bool) {s : State} (locked : s.port.lock = .locked)
    (taken : s.frame.boundaryDue = false) : exec (.frameBoundary up examine batch) s = .next s := by
  have stands : repeatSlots up s = s := by
    unfold repeatSlots
    rw [locked]
  refine Eq.trans (b := .next (if s.frame.boundaryDue then closeIfSettled (boundaryTaken up examine batch s) else repeatSlots up s)) rfl ?_
  rw [taken, stands]
  rfl

/-- R156: a LOCKED frame has one control cell. -/
theorem exec_controlCell_notDue (cell : Cell) {s : State} (locked : s.port.lock = .locked) (taken : s.frame.cellDue = false) :
    exec (.controlCell cell) s = .next s := by
  show execControlCell cell s = _
  unfold execControlCell
  rw [locked, taken]
  rfl

/-- R161: a packet of another row than the one offered, and none where none is offered, is not taken. -/
theorem takePacket_notOffered {row : Option Request} {body : Context → State → State} {s : State}
    (other : ∀ o : Offer, nextOffer (queueNotices s) = some o → o.packet.row s.ctl.enabled ≠ row) : takePacket row body s = s := by
  unfold takePacket
  split
  next o offered => exact if_neg (other o offered)
  · rfl

/-- Every request's row takes the packet offered where it is of the row; a TABLE_READ may wait. -/
theorem exec_request (q : Request) (s : State) :
    ∃ body : Context → State → State, exec q.instr s = .next (takePacket (some q) body s) ∨ exec q.instr s = .next s := by
  cases q
  case tableRead =>
    refine ⟨decodeThen .tableRead bodyTableRead, ?_⟩
    cases waits : readWaits s with
    | true =>
      right
      show execTableRead s = _
      unfold execTableRead
      rw [waits]
      rfl
    | false =>
      left
      show execTableRead s = _
      unfold execTableRead
      rw [waits]
      rfl
  all_goals exact ⟨_, .inl rfl⟩

theorem exec_request_notOffered {q : Request} {s : State}
    (other : ∀ o : Offer, nextOffer (queueNotices s) = some o → o.packet.row s.ctl.enabled ≠ some q) : exec q.instr s = .next s := by
  obtain ⟨body, taken | waits⟩ := exec_request q s
  · rw [taken, takePacket_notOffered other]
  · exact waits

/-- Settles O2: every command by the operations it is made of; a command that is not due by the branch that stands for it. -/
theorem everyCommandAnswersNext : Obligations.EveryCommandAnswersNext := by
  refine ⟨exec_answers, fun s => ⟨fun i none => ?ramp, fun i none => ?fade, fun other => exec_notDue (not_and_or.mpr other),
    fun taken => exec_notDue (Bool.eq_false_iff.mp taken), fun taken => exec_notDue (Bool.eq_false_iff.mp taken),
    fun r other => exec_notDue (not_and_or.mpr (other.imp_right Bool.eq_false_iff.mp)),
    fun r other => exec_notDue (not_and_or.mpr (other.imp_right Bool.eq_false_iff.mp)),
    fun r refused => exec_notDue (Bool.eq_false_iff.mp refused), fun refused => exec_notDue (Bool.eq_false_iff.mp refused),
    fun refused => exec_notDue (Bool.eq_false_iff.mp refused), fun refused => exec_notDue (Bool.eq_false_iff.mp refused),
    fun notDue => congrArg _ (endTableStep_notDue notDue), fun notDue => congrArg _ (endTableStep_notDue notDue),
    fun up examine batch => exec_frameBoundary_notDue up examine batch, fun cell => exec_controlCell_notDue cell, fun q => exec_request_notOffered,
    fun other => congrArg _ (takePacket_notOffered other)⟩⟩
  case ramp =>
    refine exec_notDue fun due => ?_
    obtain ⟨r, entry, owed⟩ := RampUnit.dueAt_eq_true_iff.mp due
    exact absurd owed (Bool.eq_false_iff.mp (none r entry))
  case fade =>
    refine exec_notDue fun due => ?_
    obtain ⟨f, used, owed⟩ := EqUnit.dueAt_eq_true_iff.mp due
    exact absurd owed (Bool.eq_false_iff.mp (none f used))

end Sys2Proof.Machine

namespace Sys2Proof.Machine
set_option Elab.async false

/-! ## Power-on (R151, R160) -/

theorem readEntry_nil (a : CueAddr) : readEntry [] a = Vector.replicate 8 0 := by
  ext j hj
  simp [readEntry, Memory.read, Memory.unlisted]

/-- R19, R32, R50, R77, R100, R118, R138, R143, R172: blocks that hold their reset values hold those the rules name. -/
theorem ResetValues.ofReset {t : State} (ctl : t.ctl = Control.reset) (core : t.core = Core.reset) (ramp : t.ramp = RampUnit.reset)
    (commit : t.commit = Commit.reset) (eq : t.eq = EqUnit.reset) (sdv : t.sdv = Sdv.reset) (cue : t.cue = CueUnit.reset)
    (table : t.table = none) : ResetValues t where
  mode := by rw [core]; rfl
  gate := by rw [core]; rfl
  held src := by simp [core, Core.reset]
  zones z := by simp [core, Core.reset, Live.reset, ZoneRec.reset]
  outputs o := by simp [core, Core.reset, Live.reset, OutputRec.reset]
  curves i := by simp [core, Core.reset, Live.reset]
  cells i := by simp [core, Core.reset, Live.reset]
  boostCurve := by rw [core]; rfl
  weights g := by simp [core, Core.reset, Live.reset]
  levelTargets o := by simp [core, Core.reset]
  ramps i := by simp [ramp, RampUnit.reset]
  duckTargets src := by simp [ramp, RampUnit.reset]
  commit := commit
  sections i := by simp [eq, EqUnit.reset, EqSection.reset, Coeffs.zero, History.zero]
  marked i := by
    have inWord : sectionMarker i < 64 := Nat.mod_lt _ (by decide)
    simp only [eq, EqUnit.reset, EqUnit.marked, Fin.getElem_fin, Vector.getElem_replicate, BitVec.getLsbD_allOnes, inWord, decide_true]
  groups g := by rw [eq, EqUnit.reset, BitVec.getLsbD_allOnes, decide_eq_true g.isLt]
  chains o := by simp [eq, EqUnit.reset]
  slots i := by simp [eq, EqUnit.reset]
  sectionWrite := by rw [eq]; rfl
  sdvState := by rw [sdv]; rfl
  sdvSpeeds := by rw [sdv]; exact ⟨rfl, rfl, rfl, rfl⟩
  sdvBoost := ⟨by rw [sdv]; rfl, fun g => by simp [sdv, Sdv.reset]⟩
  sdvConfig := by rw [sdv]; exact ⟨rfl, rfl, rfl, rfl⟩
  cueMemory a := by rw [cue]; exact readEntry_nil a
  runners r := by simp [cue, CueUnit.reset, Runner.reset]
  requests r src := by simp [cue, CueUnit.reset, Runner.reset]
  cueWrite := by rw [cue]; rfl
  table := table
  queue := by rw [ctl]; rfl
  executing u := by simp [inExecution, ctl, Control.reset]
  enabled := by rw [ctl]; rfl
  noticeOn := by rw [ctl]; rfl
  notices := by rw [ctl]; rfl
  flags := by rw [ctl]; rfl
  clip := by rw [ctl]; rfl
  lastGood := by rw [ctl]; rfl

theorem strapNode_toNat (strap : Nat) : (strapNode strap).toNat = if 1 ≤ strap ∧ strap ≤ 30 then strap else 30 := by
  unfold strapNode
  split
  next inRange => exact Nat.mod_eq_of_lt (by omega)
  next => rfl

/-- Settles O3: every block by its reset value, the own node by the strap. -/
theorem powerOnState : Obligations.PowerOnState := fun strap s _ =>
  ⟨powerOn strap s, rfl, .ofReset rfl rfl rfl rfl rfl rfl rfl rfl, strapNode_toNat strap, rfl, rfl, rfl,
    fun src => by simp [powerOn, State.powerOn, RingPort.powerOn], fun o => by simp [powerOn, State.powerOn, RingPort.powerOn],
    fun i => by simp [powerOn, State.powerOn, RingPort.powerOn]⟩

end Sys2Proof.Machine

namespace Sys2Proof.Machine
set_option Elab.async false

/-! ## Slot entries on the wire (R155, 11.3) -/

theorem slotCode_none : slotCode none = 0xFF := rfl

theorem slotCode_some_toNat (i : Slot) : (slotCode (some i)).toNat = i.val := by
  have small := i.isLt
  simp only [slotCode, byteOf, BitVec.toNat_ofInt]
  omega

theorem slotCode_some_ne (i : Slot) : slotCode (some i) ≠ 0xFF := fun same => by
  have number := slotCode_some_toNat i
  rw [same] at number
  have := i.isLt
  simp at number
  omega

theorem slotOfByte_eq_some_iff {b : Byte} {x : Option Slot} : slotOfByte b = some x ↔ slotCode x = b := by
  unfold slotOfByte
  split
  next empty =>
    subst empty
    cases x with
    | none => exact ⟨fun _ => rfl, fun _ => rfl⟩
    | some i => exact ⟨fun same => (nomatch same), fun same => absurd same (slotCode_some_ne i)⟩
  next other =>
    cases x with
    | none => exact ⟨fun same => by simp at same, fun same => absurd same.symm other⟩
    | some i =>
      rw [Option.map_eq_some_iff]
      constructor
      · rintro ⟨j, read, same⟩
        cases same
        exact ((below_eq_some_iff (by decide)).mp read).symm
      · exact fun code => ⟨i, (below_eq_some_iff (by decide)).mpr code.symm, rfl⟩

/-- R155: a byte outside the codes. -/
theorem slotOfByte_eq_none_iff {b : Byte} : slotOfByte b = none ↔ 31 < b.toNat ∧ b ≠ 0xFF := by
  unfold slotOfByte below
  split
  next empty => simp [empty]
  next other =>
    split
    next small => simp only [Option.map_some, reduceCtorEq, false_iff]; omega
    next large => exact ⟨fun _ => ⟨by omega, other⟩, fun _ => rfl⟩

theorem parseSlots_cons (b : Byte) (bs : List Byte) :
    parseSlots (b :: bs) = (slotOfByte b).bind fun x => (parseSlots bs).map (x :: ·) := by
  rw [parseSlots, Option.bind_eq_bind]
  cases slotOfByte b with
  | none => rfl
  | some x => cases parseSlots bs <;> rfl

theorem parseSlots_eq_some_iff : ∀ {es : List Byte} {m : List (Option Slot)}, parseSlots es = some m ↔ m.map slotCode = es
  | [], m => by rw [parseSlots, Option.some_inj, List.map_eq_nil_iff, eq_comm]
  | b :: bs, m => by
    simp only [parseSlots_cons, Option.bind_eq_some_iff, Option.map_eq_some_iff, slotOfByte_eq_some_iff, parseSlots_eq_some_iff]
    constructor
    · rintro ⟨x, rfl, xs, rfl, rfl⟩
      rfl
    · intro codes
      obtain ⟨x, xs, rfl, code, rest⟩ := List.map_eq_cons_iff.mp codes
      exact ⟨x, code, xs, rest, rfl⟩

/-- R155: a list of entries is refused for an entry outside the codes. -/
theorem parseSlots_eq_none_iff : ∀ {es : List Byte}, parseSlots es = none ↔ ∃ e ∈ es, 31 < e.toNat ∧ e ≠ 0xFF
  | [] => by simp [parseSlots]
  | b :: bs => by
    rw [parseSlots_cons, List.exists_mem_cons_iff, ← slotOfByte_eq_none_iff, ← parseSlots_eq_none_iff]
    cases slotOfByte b <;> simp

theorem slotCode_injective : Function.Injective slotCode := fun x y same => by
  have read := slotOfByte_eq_some_iff (b := slotCode x) (x := x)
  rw [same, slotOfByte_eq_some_iff.mpr rfl] at read
  exact (Option.some.inj (read.mpr rfl)).symm

/-- R155: outputs name distinct slots where the entries other than the code of none are distinct. -/
theorem slotsDistinct_iff (m : List (Option Slot)) :
    slotsDistinct m = true ↔ ((m.map slotCode).filter fun e => decide (e ≠ 0xFF)).Nodup := by
  have named : ∀ m : List (Option Slot),
      (m.map slotCode).filter (fun e => decide (e ≠ 0xFF)) = (m.filterMap id).map fun i => slotCode (some i) := fun m => by
    induction m with
    | nil => rfl
    | cons x m ih =>
      cases x with
      | none => simpa [slotCode_none] using ih
      | some i =>
        have other : slotCode (some i) ≠ 255#8 := slotCode_some_ne i
        simpa [other] using ih
  have codes : Function.Injective fun i : Slot => slotCode (some i) := slotCode_injective.comp (Option.some_injective _)
  rw [slotsDistinct, decide_eq_true_iff, named, List.nodup_map_iff codes]

/-! ## SLOT_MAP's checks (R155) -/

section
variable {rq : Requester} {out : Bool} {es : List Byte} {m : List (Option Slot)} {s : State}

theorem bodySlotMap_unselected {b : Byte} (zero : b ≠ 0) (one : b ≠ 1) : bodySlotMap rq (b :: es) s = answer rq .badValue [] s := by
  rw [bodySlotMap, List.getD_cons_zero, bit01_of_ne zero one]

/-- The checks that follow the selector's. -/
theorem bodySlotMap_selected : bodySlotMap rq (bitByte out :: es) s =
    if es = [] then answer rq .ok (mapData out s) s
    else if es.length ≠ mapSize out then answer rq .badLength [] s
    else if s.core.mode ≠ .standby then answer rq .wrongMode [] s
    else (parseSlots es).elim (answer rq .badValue [] s) fun m =>
      if out && !slotsDistinct m then answer rq .badValue [] s
      else answer rq .ok (mapData out (setMap out m s)) (setMap out m s) := by
  rw [bodySlotMap, List.getD_cons_zero, bit01_eq_some_iff.mpr rfl]
  dsimp only
  rw [List.drop_succ_cons, List.drop_zero]
  cases parseSlots es <;> rfl

theorem bodySlotMap_read : bodySlotMap rq [bitByte out] s = answer rq .ok (mapData out s) s := by
  rw [bodySlotMap_selected, if_pos rfl]

theorem bodySlotMap_ragged (more : es ≠ []) (ragged : es.length ≠ mapSize out) :
    bodySlotMap rq (bitByte out :: es) s = answer rq .badLength [] s := by
  rw [bodySlotMap_selected, if_neg more, if_pos ragged]

theorem ne_nil_of_mapSize (whole : es.length = mapSize out) : es ≠ [] := fun empty => by
  rw [empty] at whole
  cases out <;> cases whole

theorem bodySlotMap_running (whole : es.length = mapSize out) (mode : s.core.mode ≠ .standby) :
    bodySlotMap rq (bitByte out :: es) s = answer rq .wrongMode [] s := by
  rw [bodySlotMap_selected, if_neg (ne_nil_of_mapSize whole), if_neg (not_not.mpr whole), if_pos mode]

/-- In STANDBY the entries decide. -/
theorem bodySlotMap_whole (whole : es.length = mapSize out) (mode : s.core.mode = .standby) : bodySlotMap rq (bitByte out :: es) s =
    (parseSlots es).elim (answer rq .badValue [] s) fun m =>
      if out && !slotsDistinct m then answer rq .badValue [] s
      else answer rq .ok (mapData out (setMap out m s)) (setMap out m s) := by
  rw [bodySlotMap_selected, if_neg (ne_nil_of_mapSize whole), if_neg (not_not.mpr whole), if_neg (not_not.mpr mode)]

theorem bodySlotMap_refused (whole : es.length = mapSize out) (mode : s.core.mode = .standby)
    (bad : (∃ e ∈ es, 31 < e.toNat ∧ e ≠ 0xFF) ∨ (out = true ∧ ¬ (es.filter fun e => decide (e ≠ 0xFF)).Nodup)) :
    bodySlotMap rq (bitByte out :: es) s = answer rq .badValue [] s := by
  rw [bodySlotMap_whole whole mode]
  cases read : parseSlots es with
  | none => rfl
  | some m =>
    have inCodes : ¬ ∃ e ∈ es, 31 < e.toNat ∧ e ≠ 0xFF := fun bad => by
      rw [parseSlots_eq_none_iff.mpr bad] at read
      cases read
    obtain ⟨output, twice⟩ := bad.resolve_left inCodes
    rw [← parseSlots_eq_some_iff.mp read, ← slotsDistinct_iff] at twice
    simp [output, twice]

theorem bodySlotMap_replaces (whole : (m.map slotCode).length = mapSize out) (mode : s.core.mode = .standby)
    (distinct : out = true → ((m.map slotCode).filter fun e => decide (e ≠ 0xFF)).Nodup) :
    bodySlotMap rq (bitByte out :: m.map slotCode) s = answer rq .ok (mapData out (setMap out m s)) (setMap out m s) := by
  rw [bodySlotMap_whole whole mode, parseSlots_eq_some_iff.mpr rfl]
  refine if_neg ?_
  cases out with
  | false => exact Bool.false_ne_true
  | true => simp [(slotsDistinct_iff m).mpr (distinct rfl)]

end

/-! ## SLOT_MAP (R155) -/

/-- R155: a list of as many entries as the map has, as a map. -/
theorem ofFn_join_toList {n : Nat} {m : List (Option Slot)} (whole : m.length = n) :
    (Vector.ofFn fun o : Fin n => (m[o.val]?).join).toList = m := by
  subst whole
  exact List.ext_getElem (by simp) fun i _ _ => by simp

section
variable {c : Context} {i : Fin 2} {s : State}

theorem mapData_heldTake (out : Bool) : mapData out (heldTake c i s) = bitByte out ::
    (if out then s.port.outputMap.toList.map slotCode else s.port.sourceMap.toList.map slotCode) := rfl

theorem setMap_output (m : List (Option Slot)) (t : State) : setMap true m t =
    { t with port := { t.port with outputMap := Vector.ofFn fun o => (m[o.val]?).join } } := if_pos rfl

theorem setMap_source (m : List (Option Slot)) (t : State) : setMap false m t =
    { t with port := { t.port with sourceMap := Vector.ofFn fun o => (m[o.val]?).join } } := if_neg Bool.false_ne_true

theorem setMap_heldTake (out : Bool) (m : List (Option Slot)) :
    setMap out m (heldTake c i s) = withHeld c.requester (setMap out m (afterTake i s)) := by
  cases out with
  | false => rw [setMap_source, setMap_source]; rfl
  | true => rw [setMap_output, setMap_output]; rfl

theorem setMap_ctl (out : Bool) (m : List (Option Slot)) (t : State) : (setMap out m t).ctl = t.ctl := by
  cases out with
  | false => rw [setMap_source]
  | true => rw [setMap_output]

/-- The map is replaced while the request is judged, and the reply reads it. -/
theorem answer_setMap (held : NoHeld s) (out : Bool) (m : List (Option Slot)) :
    answer c.requester .ok (mapData out (setMap out m (heldTake c i s))) (setMap out m (heldTake c i s)) =
      replied c .ok (mapData out (setMap out m (afterTake i s))) (setMap out m (afterTake i s)) := by
  rw [setMap_heldTake]
  exact answer_withHeld_of_ctl c i .ok _ held (setMap_ctl out m _)

theorem mapData_setMap {out : Bool} {m : List (Option Slot)} (whole : m.length = mapSize out) (t : State) :
    mapData out (setMap out m t) = bitByte out :: m.map slotCode := by
  cases out with
  | false => rw [setMap_source, mapData, if_neg Bool.false_ne_true, ofFn_join_toList (n := 12) whole]
  | true => rw [setMap_output, mapData, if_pos rfl, ofFn_join_toList (n := 24) whole]

end

/-- Settles O57: by the checks in their order. -/
theorem slotMapChecks : Obligations.SlotMapChecks := by
  refine ⟨rfl, slotCode_some_toNat, fun c i b es s held takes data => ?_⟩
  have taken : exec .slotMap s = .next (bodySlotMap c.requester c.data (heldTake c i s)) := takeRequest_takes takes bodySlotMap
  rw [data] at taken
  have refused : ∀ {res : Result}, bodySlotMap c.requester (b :: es) (heldTake c i s) = answer c.requester res [] (heldTake c i s) →
      exec .slotMap s = .next (replied c res [] (afterTake i s)) := fun judged =>
    taken.trans (congrArg _ (judged.trans (answer_heldTake c i _ [] held)))
  refine ⟨fun zero one => refused (bodySlotMap_unselected zero one), ?_⟩
  rintro out rfl
  have size : (if out then 24 else 12) = mapSize out := rfl
  dsimp only
  rw [size]
  refine ⟨?read, fun more ragged => refused (bodySlotMap_ragged more ragged),
    fun whole mode => refused (bodySlotMap_running whole mode), fun whole mode bad => refused (bodySlotMap_refused whole mode bad),
    fun whole mode inCodes distinct => ?replaces⟩
  case read =>
    rintro rfl
    rw [bodySlotMap_read, mapData_heldTake] at taken
    exact taken.trans (congrArg _ (answer_heldTake c i .ok _ held))
  case replaces =>
    obtain ⟨m, rfl⟩ : ∃ m : List (Option Slot), m.map slotCode = es := by
      cases read : parseSlots es with
      | some m => exact ⟨m, parseSlots_eq_some_iff.mp read⟩
      | none =>
        obtain ⟨e, mem, large, other⟩ := parseSlots_eq_none_iff.mp read
        exact absurd (inCodes e mem) (not_or.mpr ⟨by omega, other⟩)
    have length : m.length = mapSize out := (List.length_map _).symm.trans whole
    rw [bodySlotMap_replaces (s := heldTake c i s) whole mode distinct, answer_setMap held, mapData_setMap length] at taken
    cases out with
    | false =>
      rw [setMap_source] at taken
      exact ⟨fun other => (nomatch other), fun _ => ⟨_, congrArg (List.map slotCode) (ofFn_join_toList length), taken⟩⟩
    | true =>
      rw [setMap_output] at taken
      exact ⟨fun _ => ⟨_, congrArg (List.map slotCode) (ofFn_join_toList length), taken⟩, fun other => (nomatch other)⟩

end Sys2Proof.Machine

namespace Sys2Proof.Machine
set_option Elab.async false

/-! ## Sticky flags (R167) -/

theorem Flag.bit_lt (f : Flag) : f.bit < 16 := by cases f <;> decide

theorem Flag.bit_injective {f g : Flag} (same : f.bit = g.bit) : f = g := by
  cases f <;> cases g <;> first | rfl | exact absurd same (by decide)

/-- R167: one flag is set, and every other stands. -/
theorem flagSet_setFlag (f g : Flag) (s : State) : flagSet f (setFlag g s) = (decide (f = g) || flagSet f s) := by
  have bit : decide (g.bit = f.bit) = decide (f = g) :=
    decide_eq_decide.mpr ⟨fun same => (Flag.bit_injective same).symm, fun same => congrArg Flag.bit same.symm⟩
  rw [flagSet, setFlag, BitVec.getLsbD_or, BitVec.getLsbD_twoPow, decide_eq_true g.bit_lt, Bool.true_and, bit, Bool.or_comm]
  rfl

/-! ## What the control cell changes (R156, R157, R159) -/

section
variable (b k : Bool) (c : Cell) (s : State)

/-- Of the port assembly changes the contexts and their order of completion alone. -/
def Assembled (s t : State) : Prop :=
  SameBut [.port, .ctl] s t ∧ t.port = { s.port with contexts := t.port.contexts, firstComplete := t.port.firstComplete }

theorem setFlag_assembled (f : Flag) : Assembled s (setFlag f s) := ⟨(setFlag_same f s).mono (by decide), rfl⟩

theorem putContext_assembled (i : Fin 2) (x : Context) : Assembled s (putContext i x s) :=
  ⟨SameBut.ofParts fun p => by cases p <;> first | exact Or.inr rfl | exact Or.inl (by decide), rfl⟩

theorem freeContextAt_assembled (i : Fin 2) : Assembled s (freeContextAt i s) :=
  ⟨SameBut.ofParts fun p => by cases p <;> first | exact Or.inr rfl | exact Or.inl (by decide), rfl⟩

theorem Assembled.trans {s t u : State} (h : Assembled s t) (k : Assembled t u) : Assembled s u := by
  obtain ⟨sameH, portH⟩ := h
  obtain ⟨sameK, portK⟩ := k
  exact ⟨sameH.trans sameK, portK.trans (by rw [portH])⟩

theorem openPacket_assembled : Assembled s (openPacket b k c s) := by
  unfold openPacket
  split
  · exact (setFlag_assembled s _).trans (putContext_assembled _ _ _)
  · split
    · exact putContext_assembled s _ _
    · exact setFlag_assembled s _

theorem extendPacket_assembled : Assembled s (extendPacket k c s) := by
  unfold extendPacket
  split
  · exact setFlag_assembled s _
  · split
    · exact setFlag_assembled s _
    · split
      · exact putContext_assembled s _ _
      · exact (freeContextAt_assembled s _).trans (setFlag_assembled _ _)

theorem assemble_assembled : Assembled s (assemble b c s) := by
  unfold assemble
  split
  · exact openPacket_assembled b true c s
  · exact openPacket_assembled b false c s
  · exact extendPacket_assembled false c s
  · exact extendPacket_assembled true c s
  · exact setFlag_assembled s _

end

section
variable {s : State}

/-! ### A free position (R159) -/

theorem fillPosition_next {x : Cell} {xs : List Cell} (outgoing : s.port.outgoing = some (x :: xs)) :
    fillPosition s = sendCell x { s with port := { s.port with outgoing := if xs = [] then none else some xs } } := by
  unfold fillPosition
  rw [outgoing]

/-- With no cell to send the position carries IDLE. -/
theorem fillPosition_idle (outgoing : ∀ x xs, s.port.outgoing ≠ some (x :: xs)) :
    fillPosition s = sendCell Cell.idle { s with port := { s.port with outgoing := none } } := by
  unfold fillPosition
  split
  next x xs held => exact absurd held (outgoing x xs)
  next => rfl
  next empty => rw [← empty]

/-- Of the port a free position changes the outgoing packet alone. -/
theorem fillPosition_sent (s : State) : ∃ x out,
    fillPosition s = sendCell x { s with port := { s.port with outgoing := out } } := by
  unfold fillPosition
  split
  · exact ⟨_, _, rfl⟩
  · exact ⟨_, _, rfl⟩
  · exact ⟨_, s.port.outgoing, rfl⟩

theorem fillPosition_same (s : State) : SameBut [.port, .lane] s (fillPosition s) := by
  obtain ⟨x, out, filled⟩ := fillPosition_sent s
  rw [filled]
  exact SameBut.ofParts fun p => by cases p <;> first | exact Or.inr rfl | exact Or.inl (by decide)

theorem fillPosition_port (s : State) : (fillPosition s).port = { s.port with outgoing := (fillPosition s).port.outgoing } := by
  obtain ⟨x, out, filled⟩ := fillPosition_sent s
  rw [filled]
  rfl

/-! ### The cell of a LOCKED frame, case by case (R156) -/

variable {c : Cell}

theorem lockedCell_idle (kind : c.kind = 0) : lockedCell c s = fillPosition s := if_pos kind

theorem lockedCell_taken (kind : c.kind ≠ 0) (own : nodeOf c.dest = s.port.ownNode) :
    lockedCell c s = fillPosition (assemble false c s) := by
  rw [lockedCell, if_neg kind, if_pos own]

theorem lockedCell_copied (kind : c.kind ≠ 0) (other : nodeOf c.dest ≠ s.port.ownNode) (all : nodeOf c.dest = 31) :
    lockedCell c s = sendCell c (assemble true c s) := by
  rw [lockedCell, if_neg kind, if_neg other, if_pos all]

theorem lockedCell_stripped (kind : c.kind ≠ 0) (other : nodeOf c.dest ≠ s.port.ownNode) (one : nodeOf c.dest ≠ 31)
    (own : nodeOf c.origin = s.port.ownNode) : lockedCell c s = fillPosition (setFlag .undelivered s) := by
  rw [lockedCell, if_neg kind, if_neg other, if_neg one, if_pos own]

theorem lockedCell_passed (kind : c.kind ≠ 0) (other : nodeOf c.dest ≠ s.port.ownNode) (one : nodeOf c.dest ≠ 31)
    (foreign : nodeOf c.origin ≠ s.port.ownNode) : lockedCell c s = sendCell c s := by
  rw [lockedCell, if_neg kind, if_neg other, if_neg one, if_neg foreign]

theorem lockedCell_same (c : Cell) (s : State) : SameBut [.port, .lane, .ctl] s (lockedCell c s) := by
  have sent : ∀ t : State, SameBut [.port, .lane, .ctl] t (sendCell c t) := fun t =>
    SameBut.ofParts fun p => by cases p <;> first | exact Or.inr rfl | exact Or.inl (by decide)
  have filled : ∀ t : State, SameBut [.port, .lane, .ctl] t (fillPosition t) := fun t => (fillPosition_same t).mono (by decide)
  have assembled : ∀ b, SameBut [.port, .lane, .ctl] s (assemble b c s) := fun b => (assemble_assembled b c s).1.mono (by decide)
  unfold lockedCell
  split
  · exact filled s
  · split
    · exact (assembled false).trans (filled _)
    · split
      · exact (assembled true).trans (sent _)
      · split
        · exact ((setFlag_same _ s).mono (by decide)).trans (filled _)
        · exact sent s

/-- R156, R159: an idle cell, one for the own node and a stripped one leave their position free. -/
theorem lockedCell_filled (free : c.kind = 0 ∨ nodeOf c.dest = s.port.ownNode ∨ (nodeOf c.dest ≠ 31 ∧ nodeOf c.origin = s.port.ownNode)) :
    ∃ v, lockedCell c s = fillPosition v ∧ v.port.outgoing = s.port.outgoing := by
  by_cases kind : c.kind = 0
  · exact ⟨s, lockedCell_idle kind, rfl⟩
  by_cases own : nodeOf c.dest = s.port.ownNode
  · exact ⟨_, lockedCell_taken kind own, by rw [(assemble_assembled false c s).2]⟩
  · obtain ⟨one, origin⟩ := (free.resolve_left kind).resolve_left own
    exact ⟨_, lockedCell_stripped kind own one origin, rfl⟩

/-- R156: a broadcast and a cell of other nodes go on. -/
theorem lockedCell_sent (kind : c.kind ≠ 0) (other : nodeOf c.dest ≠ s.port.ownNode)
    (goesOn : nodeOf c.dest = 31 ∨ nodeOf c.origin ≠ s.port.ownNode) :
    ∃ v, lockedCell c s = sendCell c v ∧ v.port.outgoing = s.port.outgoing := by
  by_cases all : nodeOf c.dest = 31
  · exact ⟨_, lockedCell_copied kind other all, by rw [(assemble_assembled true c s).2]⟩
  · exact ⟨s, lockedCell_passed kind other all (goesOn.resolve_left all), rfl⟩

/-- R156: an idle cell and one that passes are nothing to the control unit. -/
theorem lockedCell_unheard (aside : c.kind = 0 ∨ (nodeOf c.dest ≠ s.port.ownNode ∧ nodeOf c.dest ≠ 31 ∧ nodeOf c.origin ≠ s.port.ownNode)) :
    (lockedCell c s).ctl = s.ctl := by
  by_cases kind : c.kind = 0
  · rw [lockedCell_idle kind]
    exact fillPosition_same s .ctl (by decide)
  · obtain ⟨other, one, foreign⟩ := aside.resolve_left kind
    rw [lockedCell_passed kind other one foreign]
    rfl

/-- R156, R157: a cell that is neither taken nor copied does not reach assembly. -/
theorem lockedCell_port (aside : c.kind = 0 ∨ (nodeOf c.dest ≠ s.port.ownNode ∧ nodeOf c.dest ≠ 31)) :
    (lockedCell c s).port = { s.port with outgoing := (lockedCell c s).port.outgoing } := by
  by_cases kind : c.kind = 0
  · rw [lockedCell_idle kind]
    exact fillPosition_port s
  obtain ⟨other, one⟩ := aside.resolve_left kind
  by_cases own : nodeOf c.origin = s.port.ownNode
  · rw [lockedCell_stripped kind other one own]
    exact fillPosition_port (setFlag .undelivered s)
  · rw [lockedCell_passed kind other one own]
    rfl

end

/-- R156: the frame's control cell is taken. -/
def cellTaken (s : State) : State := { s with frame := { s.frame with cellDue := false } }

theorem exec_controlCell_hunt (c : Cell) {s : State} (hunt : s.port.lock = .hunt) : exec (.controlCell c) s = .next (sendCell c s) := by
  show execControlCell c s = _
  unfold execControlCell
  rw [hunt]

theorem exec_controlCell_locked (c : Cell) {s : State} (locked : s.port.lock = .locked) (due : s.frame.cellDue = true) :
    exec (.controlCell c) s = .next (lockedCell c (cellTaken s)) := by
  show execControlCell c s = _
  unfold execControlCell
  rw [locked, due]
  rfl

theorem cellTaken_same (s : State) : SameBut [.frame] s (cellTaken s) :=
  SameBut.ofParts fun p => by cases p <;> first | exact Or.inr rfl | exact Or.inl (by decide)

/-- Settles O12: by the cases of the cell of a LOCKED frame. -/
theorem controlCellDownstream : Obligations.ControlCellDownstream := by
  intro c s
  refine ⟨fun hunt => exec_controlCell_hunt c hunt, fun locked due => ?_⟩
  have same := lockedCell_same c (cellTaken s)
  refine ⟨_, exec_controlCell_locked c locked due, same .frame (by decide),
    ((cellTaken_same s).mono (by decide)).trans (same.mono (by decide)), fun free => ?filled, fun kind other goesOn => ?sent,
    fun kind other one own => ?stripped, fun aside => lockedCell_unheard (s := cellTaken s) aside,
    fun aside => lockedCell_port (s := cellTaken s) aside⟩
  case filled =>
    obtain ⟨v, filled, kept⟩ := lockedCell_filled (s := cellTaken s) free
    have outgoing : v.port.outgoing = s.port.outgoing := kept
    rw [filled]
    rcases held : s.port.outgoing with _ | _ | ⟨x, xs⟩
    · rw [fillPosition_idle (by simp [outgoing, held])]
      exact ⟨rfl, rfl⟩
    · rw [fillPosition_idle (by simp [outgoing, held])]
      exact ⟨rfl, rfl⟩
    · rw [fillPosition_next (outgoing.trans held)]
      exact ⟨rfl, rfl⟩
  case sent =>
    obtain ⟨v, sent, kept⟩ := lockedCell_sent (s := cellTaken s) kind other goesOn
    rw [sent]
    exact ⟨rfl, kept⟩
  case stripped =>
    have ctl : (lockedCell c (cellTaken s)).ctl = (setFlag .undelivered s).ctl := by
      rw [lockedCell_stripped (s := cellTaken s) kind other one own]
      exact fillPosition_same (setFlag .undelivered (cellTaken s)) .ctl (by decide)
    refine ⟨ctl, fun f => ?_⟩
    rw [← flagSet_setFlag f .undelivered s, flagSet, ctl, flagSet]

end Sys2Proof.Machine

namespace Sys2Proof.Machine
set_option Elab.async false

/-! ## What assembly makes of the contexts (R157, R158) -/

section
variable {s t : State} {b k : Bool} {c : Cell} {i : Fin 2}

/-- The contexts, their order of completion and the control unit: what a cell handed to assembly may change. -/
structure ContextsAre (s : State) (contexts : Vector (Option Context) 2) (firstComplete : Fin 2) (ctl : Control) : Prop where
  contexts : s.port.contexts = contexts
  first : s.port.firstComplete = firstComplete
  ctl : s.ctl = ctl

theorem fillPosition_contexts (t : State) :
    ContextsAre (fillPosition t) t.port.contexts t.port.firstComplete t.ctl := by
  have port := fillPosition_port t
  exact ⟨by rw [port], by rw [port], fillPosition_same t .ctl (by decide)⟩

/-- R156: a taken or copied cell is handed to assembly, a copied one as a broadcast's. -/
theorem lockedCell_contexts (kind : c.kind ≠ 0) (heard : nodeOf c.dest = s.port.ownNode ∨ nodeOf c.dest = 31) :
    let t := assemble (decide (nodeOf c.dest ≠ s.port.ownNode)) c s
    ContextsAre (lockedCell c s) t.port.contexts t.port.firstComplete t.ctl := by
  by_cases own : nodeOf c.dest = s.port.ownNode
  · rw [lockedCell_taken kind own, decide_eq_false (not_not.mpr own)]
    exact fillPosition_contexts _
  · rw [lockedCell_copied kind own (heard.resolve_left own), decide_eq_true own]
    exact ⟨rfl, rfl, rfl⟩

/-- R158: the order of completion is kept where the context put is complete. -/
theorem putContext_first {done : Prop} [Decidable done] {x : Context} (complete : x.complete = decide done) :
    (putContext i x s).port.firstComplete = if done then s.port.firstAfter i else s.port.firstComplete := by
  rw [putContext, complete]
  by_cases h : done <;> simp [h]

theorem assemble_opens (kind : c.kind = 1 ∨ c.kind = 2) : assemble b c s = openPacket b (decide (c.kind = 1)) c s := by
  unfold assemble
  rcases kind with kind | kind <;> rw [kind] <;> rfl

theorem assemble_extends (kind : c.kind = 3 ∨ c.kind = 4) : assemble b c s = extendPacket (decide (c.kind = 4)) c s := by
  unfold assemble
  rcases kind with kind | kind <;> rw [kind] <;> rfl

theorem assemble_unknown (kind : 4 < c.kind.toNat) : assemble b c s = setFlag .badSequence s := by
  unfold assemble
  split
  case h_5 => rfl
  all_goals omega

theorem openPacket_replaces (part : s.port.partialContext (nodeOf c.origin) = some i) :
    openPacket b k c s = putContext i (openContext b k c) (setFlag .badSequence s) := by
  rw [openPacket, part]

theorem openPacket_takes (part : s.port.partialContext (nodeOf c.origin) = none) (free : s.port.freeContext = some i) :
    openPacket b k c s = putContext i (openContext b k c) s := by
  rw [openPacket, part, free]

theorem openPacket_overruns (part : s.port.partialContext (nodeOf c.origin) = none) (full : s.port.freeContext = none) :
    openPacket b k c s = setFlag .rxOverrun s := by
  rw [openPacket, part, full]

theorem extendPacket_lost (part : s.port.partialContext (nodeOf c.origin) = none) : extendPacket k c s = setFlag .badSequence s := by
  rw [extendPacket, part]

theorem extendPacket_grows {x : Context} (part : s.port.partialContext (nodeOf c.origin) = some i) (held : s.port.contexts[i] = some x)
    (room : x.cells < 8) : extendPacket k c s =
      putContext i { x with bytes := x.bytes ++ c.payload.toList, cells := x.cells + 1, complete := k } s := by
  rw [extendPacket, part]
  dsimp only
  rw [held]
  exact if_pos room

theorem extendPacket_tooLong {x : Context} (part : s.port.partialContext (nodeOf c.origin) = some i) (held : s.port.contexts[i] = some x)
    (full : 8 ≤ x.cells) : extendPacket k c s = setFlag .badLength (freeContextAt i s) := by
  rw [extendPacket, part]
  dsimp only
  rw [held]
  exact if_neg (by omega)

end

/-! ## Partial and free contexts (R157) -/

section
variable {p : RingPort} {o : Node} {i : Fin 2}

theorem freeContext_eq (p : RingPort) :
    p.freeContext = if p.contexts[0] = none then some 0 else if p.contexts[1] = none then some 1 else none := by
  have both : List.finRange 2 = [0, 1] := rfl
  rw [RingPort.freeContext, both]
  cases first : p.contexts[0] <;> cases second : p.contexts[1] <;> simp [List.find?, first, second]

theorem Context.partialOf_eq_true_iff {x : Option Context} :
    Context.partialOf o x = true ↔ ∃ c, x = some c ∧ c.complete = false ∧ c.origin = o := by
  cases x <;> simp [Context.partialOf]

theorem partialContext_holds (found : p.partialContext o = some i) : ∃ x, p.contexts[i] = some x ∧ x.complete = false ∧ x.origin = o := by
  have holds := List.find?_some found
  exact Context.partialOf_eq_true_iff.mp holds

theorem partialContext_none (absent : p.partialContext o = none) (i : Fin 2) (x : Context) (held : p.contexts[i] = some x) :
    x.complete = true ∨ x.origin ≠ o := by
  have notPartial := List.find?_eq_none.mp absent i (List.mem_finRange i)
  rw [Context.partialOf_eq_true_iff] at notPartial
  by_contra both
  rw [not_or, not_not, Bool.not_eq_true] at both
  exact notPartial ⟨x, held, both⟩

/-! ## Which packet is offered (R158, R161) -/

/-- A context holds a packet of a kind. -/
def RingPort.Holds (p : RingPort) (f : Context → Bool) (i : Fin 2) (x : Context) : Prop := p.contexts[i] = some x ∧ f x = true

variable {f : Context → Bool} {x : Context} {is : List (Fin 2)}

theorem firstWith_cons_holds (holds : p.Holds f i x) : p.firstWith f (i :: is) = some (i, x) := by
  obtain ⟨held, kind⟩ := holds
  rw [RingPort.firstWith, held]
  exact if_pos kind

theorem firstWith_cons_skips (other : ∀ x, ¬ p.Holds f i x) : p.firstWith f (i :: is) = p.firstWith f is := by
  rw [RingPort.firstWith]
  split
  next x held => exact if_neg fun kind => other x ⟨held, kind⟩
  next => rfl

/-- R158: of two packets of the kind the one that completed first. -/
theorem firstWith_offerOrder (holds : p.Holds f i x) (first : i = p.firstComplete ∨ ∀ y, ¬ p.Holds f (i + 1) y) :
    p.firstWith f p.offerOrder = some (i, x) := by
  rw [RingPort.offerOrder]
  by_cases here : i = p.firstComplete
  · rw [← here, firstWith_cons_holds holds]
  · have second : p.firstComplete + 1 = i := by omega
    have next : p.firstComplete = i + 1 := by omega
    rw [firstWith_cons_skips (by rw [next]; exact first.resolve_left here), second, firstWith_cons_holds holds]

theorem firstWith_offerOrder_none (absent : ∀ i x, ¬ p.Holds f i x) : p.firstWith f p.offerOrder = none := by
  rw [RingPort.offerOrder, firstWith_cons_skips (absent _), firstWith_cons_skips (absent _)]
  rfl

/-- R161: the bytes of PART_RESET. -/
theorem holds_looksLikePartReset_iff : p.Holds Context.looksLikePartReset i x ↔
    (p.contexts[i] = some x ∧ x.complete = true) ∧ x.broadcast = false ∧ x.byteAt 1 = 0 ∧ x.byteAt 2 = 5 ∧ x.byteAt 3 = 0 := by
  simp [RingPort.Holds, Context.looksLikePartReset, and_assoc]

end

section
variable {s : State}

theorem nextOffer_free (free : s.ctl.queue.length < 4) : nextOffer s =
    (s.port.firstWith Context.complete s.port.offerOrder).map fun x => { ctx := x.1, packet := x.2, placed := true } :=
  if_pos (decide_eq_true free)

theorem placeFree_full (full : 4 ≤ s.ctl.queue.length) : ¬ placeFree s = true := by
  rw [placeFree, decide_eq_true_iff]
  exact Nat.not_lt.mpr full

theorem nextOffer_busy (full : 4 ≤ s.ctl.queue.length) (busy : inExecution .ctrl s = true) : nextOffer s = none := by
  rw [nextOffer, if_neg (placeFree_full full), if_pos busy]

theorem nextOffer_full (full : 4 ≤ s.ctl.queue.length) (idle : inExecution .ctrl s = false) : nextOffer s =
    (s.port.firstWith Context.looksLikePartReset s.port.offerOrder).map fun x => { ctx := x.1, packet := x.2, placed := false } := by
  rw [nextOffer, if_neg (placeFree_full full), if_neg (by rw [idle]; exact Bool.false_ne_true)]

end

/-- Settles O13: by the kind of the cell and the contexts it finds; the offers by the contexts' order. -/
theorem packetAssembly : Obligations.PacketAssembly := by
  refine ⟨fun c s locked due kind heard => ?assembly, fun p => ?contexts, fun s => ?offers⟩
  case assembly =>
    have are := lockedCell_contexts (s := cellTaken s) kind heard
    refine ⟨_, exec_controlCell_locked c locked due, ?_⟩
    dsimp only at are ⊢
    rw [are.contexts, are.first, are.ctl]
    refine ⟨fun opens => ?_, fun goesOn => ?_, fun unknown => ?_⟩
    · rw [assemble_opens opens]
      cases part : s.port.partialContext (nodeOf c.origin) with
      | some i =>
        rw [openPacket_replaces (s := cellTaken s) part]
        exact ⟨rfl, rfl, putContext_first rfl⟩
      | none =>
        cases free : s.port.freeContext with
        | some i =>
          rw [openPacket_takes (s := cellTaken s) part free]
          exact ⟨rfl, rfl, putContext_first rfl⟩
        | none =>
          rw [openPacket_overruns (s := cellTaken s) part free]
          exact ⟨rfl, rfl, rfl⟩
    · rw [assemble_extends goesOn]
      cases part : s.port.partialContext (nodeOf c.origin) with
      | none =>
        rw [extendPacket_lost (s := cellTaken s) part]
        exact ⟨rfl, rfl, rfl⟩
      | some i =>
        intro x held
        refine ⟨fun room => ?_, fun full => ?_⟩
        · rw [extendPacket_grows (s := cellTaken s) part held room]
          exact ⟨rfl, rfl, putContext_first rfl⟩
        · rw [extendPacket_tooLong (s := cellTaken s) part held full]
          exact ⟨rfl, rfl, rfl⟩
    · rw [assemble_unknown unknown]
      exact ⟨rfl, rfl, rfl⟩
  case contexts =>
    have free := freeContext_eq p
    exact ⟨fun first => free.trans (if_pos first), fun first second => free.trans ((if_neg first).trans (if_pos second)),
      fun first second => free.trans ((if_neg first).trans (if_neg second)), fun o i => partialContext_holds,
      fun o => partialContext_none⟩
  case offers =>
    dsimp only
    simp only [← holds_looksLikePartReset_iff]
    refine ⟨fun free => ?_, nextOffer_busy, fun full idle => ?_⟩
    · rw [nextOffer_free free]
      exact ⟨fun i x holds first => by rw [firstWith_offerOrder holds first]; rfl,
        fun absent => by rw [firstWith_offerOrder_none absent]; rfl⟩
    · rw [nextOffer_full full idle]
      exact ⟨fun i x holds first => by rw [firstWith_offerOrder holds first]; rfl,
        fun absent => by rw [firstWith_offerOrder_none absent]; rfl⟩

end Sys2Proof.Machine

namespace Sys2Proof.Machine
set_option Elab.async false

/-! ## What is owed at an open boundary (entry 3) -/

/-- What may be owed at an open boundary. -/
inductive Debt
  | ramp (i : Fin 64)
  | fade (i : Fin 4)
  | tick
  | runner (r : RunnerNo)
  | leaving
  | exam
  | batch

/-- Whether it is owed. -/
def Debt.Owed (s : State) : Debt → Prop
  | .ramp i => s.ramp.dueAt i = true
  | .fade i => s.eq.dueAt i = true
  | .tick => s.sdv.tickDue = true
  | .runner r => (s.cue.runners[r]).due = true
  | .leaving => s.core.mode = .leaving ∧ s.core.gate = 0
  | .exam => s.frame.examDue = true
  | .batch => batchOwed s = true

theorem owing_iff (s : State) : owing s = true ↔ ∃ d : Debt, d.Owed s := by
  simp only [owing, RampUnit.anyDue, Bool.or_eq_true, List.any_eq_true, List.mem_finRange, true_and, decide_eq_true_eq]
  constructor
  · rintro (((((((⟨i, due⟩ | ⟨i, due⟩) | due) | due) | due) | due) | due) | due)
    · exact ⟨.ramp i, due⟩
    · exact ⟨.fade i, due⟩
    · exact ⟨.tick, due⟩
    · exact ⟨.runner 0, due⟩
    · exact ⟨.runner 1, due⟩
    · exact ⟨.leaving, due⟩
    · exact ⟨.exam, due⟩
    · exact ⟨.batch, due⟩
  · rintro ⟨d, due⟩
    cases d with
    | ramp i => exact .inl (.inl (.inl (.inl (.inl (.inl (.inl ⟨i, due⟩))))))
    | fade i => exact .inl (.inl (.inl (.inl (.inl (.inl (.inr ⟨i, due⟩))))))
    | tick => exact .inl (.inl (.inl (.inl (.inl (.inr due)))))
    | runner r =>
      match r with
      | 0 => exact .inl (.inl (.inl (.inl (.inr due))))
      | 1 => exact .inl (.inl (.inl (.inr due)))
    | leaving => exact .inl (.inl (.inr due))
    | exam => exact .inl (.inr due)
    | batch => exact .inr due

theorem batchOwed_iff (s : State) : batchOwed s = true ↔ ∃ op : TableOp, s.table = some op ∧ op.batchDue = true := by
  unfold batchOwed
  cases s.table <;> simp

/-- A step after which nothing is owed that was not owed before. -/
def OnlyPays (s t : State) : Prop := ∀ d : Debt, d.Owed t → d.Owed s

theorem OnlyPays.refl (s : State) : OnlyPays s s := fun _ => id

theorem OnlyPays.trans {s t u : State} (h : OnlyPays s t) (k : OnlyPays t u) : OnlyPays s u := fun d => h d ∘ k d

theorem OnlyPays.foldl {α : Type} {f : State → α → State} (h : ∀ s a, OnlyPays s (f s a)) : ∀ (l : List α) (s : State),
    OnlyPays s (l.foldl f s)
  | [], s => .refl s
  | a :: l, s => (h s a).trans (OnlyPays.foldl h l (f s a))

/-- The parts a debt speaks of are outside those a step changes; of the others it is asked for. -/
theorem OnlyPays.ofSame {ps : List Part} {s t : State} (h : SameBut ps s t)
    (ramps : Part.ramp ∉ ps ∨ (∀ i, t.ramp.dueAt i = true → s.ramp.dueAt i = true) := by exact .inl (by decide))
    (fades : Part.eq ∉ ps ∨ (∀ i, t.eq.dueAt i = true → s.eq.dueAt i = true) := by exact .inl (by decide))
    (tick : Part.sdv ∉ ps ∨ (t.sdv.tickDue = true → s.sdv.tickDue = true) := by exact .inl (by decide))
    (runners : Part.cue ∉ ps ∨ (∀ r : RunnerNo, (t.cue.runners[r]).due = true → (s.cue.runners[r]).due = true) := by
      exact .inl (by decide))
    (leaving : Part.core ∉ ps ∨ (t.core.mode = .leaving ∧ t.core.gate = 0 → s.core.mode = .leaving ∧ s.core.gate = 0) := by
      exact .inl (by decide))
    (exam : Part.frame ∉ ps ∨ (t.frame.examDue = true → s.frame.examDue = true) := by exact .inl (by decide))
    (batch : Part.table ∉ ps ∨ (batchOwed t = true → batchOwed s = true) := by exact .inl (by decide)) : OnlyPays s t
  | .ramp i => ramps.elim (fun out => by unfold Debt.Owed; rw [h .ramp out]; exact id) (· i)
  | .fade i => fades.elim (fun out => by unfold Debt.Owed; rw [h .eq out]; exact id) (· i)
  | .tick => tick.elim (fun out => by unfold Debt.Owed; rw [h .sdv out]; exact id) id
  | .runner r => runners.elim (fun out => by unfold Debt.Owed; rw [h .cue out]; exact id) (· r)
  | .leaving => leaving.elim (fun out => by unfold Debt.Owed; rw [h .core out]; exact id) id
  | .exam => exam.elim (fun out => by unfold Debt.Owed; rw [h .frame out]; exact id) id
  | .batch => batch.elim (fun out => by unfold Debt.Owed batchOwed; rw [h .table out]; exact id) id

/-- R149: the report of writes begins no operation. -/
theorem WritesHeard.batchOwed {w : TableId → Nat → Prop} {s t : State} (h : WritesHeard w [] s t) (due : batchOwed t = true) :
    batchOwed s = true := by
  obtain ⟨ends, stands⟩ := h
  obtain ⟨op, held, owed⟩ := (batchOwed_iff t).mp due
  by_cases hit : ∃ op, s.table = some op ∧ op.kind = .digest ∧ ∃ n, w op.table n ∧ op.first ≤ n ∧ n < op.next
  · obtain ⟨old, was, kind, written⟩ := hit
    exact absurd (held.symm.trans (ends old was kind written).1) (by simp)
  · have same : t.table = s.table := (stands fun op was kind n written => by
      by_contra inside
      exact hit ⟨op, was, kind, n, written, by omega, by omega⟩).1
    exact (batchOwed_iff s).mpr ⟨op, same.symm.trans held, owed⟩

/-! ### Retargets (R38 to R40) -/

section
variable {u v : RampUnit} {i j : Fin 64}

/-- A ramp started or freed owes nothing. -/
theorem RampUnit.put_dueAt {x : Option Ramp} (fresh : ∀ r, x = some r → r.due = false) (due : (u.put i x).dueAt j = true) :
    u.dueAt j = true := by
  obtain ⟨r, entry, owed⟩ := dueAt_eq_true_iff.mp due
  rcases RampUnit.put_entry entry with ⟨-, new⟩ | ⟨-, stood⟩
  · rw [fresh r new] at owed
    cases owed
  · exact dueAt_eq_true_iff.mpr ⟨r, stood, owed⟩

theorem RampUnit.retarget_dueAt (m : Mode) (k : Key) (old new : Gain) (ms : Nat) (due : (u.retarget m k old new ms).dueAt j = true) :
    u.dueAt j = true := by
  rcases u.retarget_cases m k old new ms with ⟨-, same⟩ | ⟨i, -, -, freed⟩ | ⟨i, -, -, -, started⟩
  · rwa [same] at due
  · rw [freed] at due
    exact put_dueAt (x := none) (fun _ new => (nomatch new)) due
  · rw [started] at due
    exact put_dueAt (fun r new => by cases new; rfl) due

theorem RampUnit.takeMoves_dueAt (m : Mode) : ∀ (vs : List Move) {u : RampUnit}, (u.takeMoves m vs).dueAt j = true → u.dueAt j = true
  | [], _, due => due
  | _ :: vs, _, due => retarget_dueAt _ _ _ _ _ (RampUnit.takeMoves_dueAt m vs due)

theorem RampUnit.applyMoves_dueAt (m : Mode) (vs : List Move) (due : (u.applyMoves m vs).dueAt j = true) : u.dueAt j = true := by
  rw [RampUnit.applyMoves_eq] at due
  exact RampUnit.takeMoves_dueAt m _ due

end

/-! ### The SDV unit -/

theorem sdvFields_onlyPays {s : State} {u : Sdv} (tick : u.tickDue = true → s.sdv.tickDue = true) : OnlyPays s { s with sdv := u } :=
  .ofSame (ps := [.sdv]) (SameBut.ofParts fun p => by cases p <;> first | exact Or.inr rfl | exact Or.inl (by decide)) (tick := .inr tick)

theorem setSdvState_onlyPays (st : SdvState) (s : State) : OnlyPays s (setSdvState st s) :=
  .ofSame (setSdvState_same st s) (tick := .inr (by rw [setSdvState_sdv]; exact id))

theorem setGroupTarget_onlyPays (g : Group) (v : Int) (s : State) : OnlyPays s (setGroupTarget g v s) :=
  .ofSame (setGroupTarget_same g v s) (ramps := .inr fun _ => RampUnit.retarget_dueAt _ _ _ _ _) (tick := .inr id)

theorem adoptBoost_onlyPays (b : Int) (s : State) : OnlyPays s (adoptBoost b s) :=
  (sdvFields_onlyPays id).trans (.foldl (fun s g => setGroupTarget_onlyPays g _ s) _ _)

theorem adoptAfterState_onlyPays (b : Int) (st : SdvState) (s : State) : OnlyPays s (adoptBoost b (setSdvState st s)) :=
  (setSdvState_onlyPays st s).trans (adoptBoost_onlyPays b _)

theorem takeStateByAge_onlyPays (s : State) : OnlyPays s (takeStateByAge s) := by
  rw [takeStateByAge_adopts_boostByAge]
  exact adoptAfterState_onlyPays _ _ s

theorem stateThenManual_onlyPays (b : Int) (st : SdvState) (m : Option Nat) (s : State) :
    OnlyPays s (adoptBoost b { setSdvState st s with sdv := { (setSdvState st s).sdv with manual := m } }) := by
  refine (setSdvState_onlyPays st s).trans (OnlyPays.trans ?_ (adoptBoost_onlyPays b _))
  exact sdvFields_onlyPays id

theorem curveChange_onlyPays (s : State) : OnlyPays s (curveChange s) := by
  unfold curveChange
  split
  · split
    · exact .refl s
    · exact stateThenManual_onlyPays 0 .off none s
  · split
    · split
      · exact takeStateByAge_onlyPays s
      · exact .refl s
    · exact adoptBoost_onlyPays _ s
    · exact adoptBoost_onlyPays _ s
    · exact .refl s
    · exact adoptBoost_onlyPays _ s

theorem compareAge_onlyPays {a : Nat} {s : State} (age : s.sdv.age = some a) : OnlyPays s (compareAge s) := by
  rw [compareAge_eq age]
  split
  · exact adoptAfterState_onlyPays 0 .fallback s
  · split
    · exact setSdvState_onlyPays .holding s
    · exact .refl s

theorem ageRise_onlyPays (s : State) : OnlyPays s (ageRise s) := by
  unfold ageRise
  split
  · exact .refl s
  · split
    · exact sdvFields_onlyPays id
    · exact OnlyPays.trans (sdvFields_onlyPays id) (compareAge_onlyPays rfl)

theorem tellSdv_onlyPays (before : Live) (rs : List ChangeRecord) (s : State) : OnlyPays s (tellSdv before rs s) := by
  rw [tellSdv_eq]
  refine OnlyPays.trans ?_ (.foldl (fun s g => ?_) _ _)
  · split
    · exact curveChange_onlyPays s
    · exact .refl s
  · unfold followChanged
    split
    · exact .refl s
    · exact setGroupTarget_onlyPays g _ s

/-! ### Runners -/

theorem setRequests_onlyPays (r : RunnerNo) (v : Int) (ms : Nat) (srcs : List Source) (s : State) :
    OnlyPays s (setRequests r v ms srcs s) := by
  refine .foldl (f := fun s src => setRequest r v ms src s) (fun s src => ?_) srcs s
  have due : ∀ p : RunnerNo, ((setRequest r v ms src s).cue.runners[p]).due = (s.cue.runners[p]).due := fun p => by
    rw [setRequest_cue]
    by_cases here : p = r
    · rw [here, onRunner_at]
    · rw [onRunner_other here]
  refine .ofSame (setRequest_same r v ms src s) (ramps := .inr fun i => ?_) (runners := .inr fun p => by rw [due]; exact id)
  unfold setRequest
  split
  · exact id
  · exact RampUnit.retarget_dueAt _ _ _ _ _

theorem raiseNotice_onlyPays (n : Notice) (s : State) : OnlyPays s (raiseNotice n s) := .ofSame (raiseNotice_same n s)

/-- A change after which a runner owes nothing. -/
theorem onRunner_onlyPays {r : RunnerNo} {f : Runner → Runner} {s : State}
    (due : (f s.cue.runners[r]).due = true → (s.cue.runners[r]).due = true) :
    OnlyPays s (onRunner r f s) := by
  refine .ofSame (onRunner_same r f s) (runners := .inr fun p => ?_)
  by_cases here : p = r
  · subst here
    rw [onRunner_at]
    exact due
  · rw [onRunner_other here]
    exact id

/-- R123 to R127: a runner whose entry starts owes nothing, and the start brings no debt. -/
theorem startEntry_pays (r : RunnerNo) : ∀ (fuel : Nat) (s : State),
    OnlyPays s (startEntry r fuel s) ∧ ((startEntry r fuel s).cue.runners[r]).due = false := by
  have settled : ∀ {f : Runner → Runner} (s : State), (∀ x, (f x).due = false) →
      OnlyPays s (onRunner r f s) ∧ ((onRunner r f s).cue.runners[r]).due = false := fun {f} s clear =>
    ⟨onRunner_onlyPays fun due => absurd ((clear _).symm.trans due) Bool.false_ne_true, by rw [onRunner_at]; exact clear _⟩
  have told : ∀ {s t : State} (n : Notice), OnlyPays s t ∧ (t.cue.runners[r]).due = false →
      OnlyPays s (raiseNotice n t) ∧ ((raiseNotice n t).cue.runners[r]).due = false := fun {s t} n ⟨only, due⟩ =>
    ⟨only.trans (raiseNotice_onlyPays n t), by rw [(raiseNotice_same n t) .cue (by decide)]; exact due⟩
  intro fuel
  induction fuel with
  | zero => exact fun s => settled s fun _ => rfl
  | succ fuel ih =>
    intro s
    have goesOn : ∀ {f : Runner → Runner} {t : State}, OnlyPays s t → (∀ x, (f x).due = false) →
        OnlyPays s (startEntry r fuel (onRunner r f t)) ∧ ((startEntry r fuel (onRunner r f t)).cue.runners[r]).due = false :=
      fun {f t} only clear => ⟨(only.trans (settled t clear).1).trans (ih _).1, (ih _).2⟩
    cases held : (s.cue.runners[r]).window with
    | nil =>
      rw [startEntry_empty held]
      exact settled s fun _ => rfl
    | cons e rest =>
      cases kind : decodeEntry e with
      | step mask offset rampMs holdMs =>
        have requested := setRequests_onlyPays r offset rampMs (maskSources mask) s
        rw [startEntry_step held kind]
        split
        · exact goesOn requested fun _ => rfl
        · obtain ⟨only, due⟩ := settled (f := fun x => { x with state := .stepping, elapsed := 0, due := false })
            (setRequests r offset rampMs (maskSources mask) s) fun _ => rfl
          exact ⟨requested.trans only, due⟩
      | wait ms =>
        rw [startEntry_wait held kind]
        split
        · exact goesOn (.refl s) fun _ => rfl
        · exact settled s fun _ => rfl
      | jump a =>
        rw [startEntry_jump held kind]
        exact settled s fun _ => rfl
      | stop notify =>
        rw [startEntry_stop held kind]
        split
        · exact told _ (settled s fun _ => rfl)
        · exact settled s fun _ => rfl
      | invalid =>
        rw [startEntry_invalid held kind]
        exact told _ (settled s fun _ => rfl)

theorem completeEntry_pays (r : RunnerNo) (s : State) :
    OnlyPays s (completeEntry r s) ∧ ((completeEntry r s).cue.runners[r]).due = false := by
  obtain ⟨only, due⟩ := startEntry_pays r _ (onRunner r Runner.shift s)
  exact ⟨OnlyPays.trans (onRunner_onlyPays fun owed => absurd owed Bool.false_ne_true) only, due⟩

theorem completeWait_pays (r : RunnerNo) (timedOut : Bool) (s : State) :
    OnlyPays s (completeWait r timedOut s) ∧ ((completeWait r timedOut s).cue.runners[r]).due = false := by
  obtain ⟨only, due⟩ := completeEntry_pays r (onRunner r (fun x => { x with timedOut := timedOut }) s)
  exact ⟨OnlyPays.trans (onRunner_onlyPays id) only, due⟩

/-! ### The pool and the change sets -/

theorem EqUnit.setSlot_dueAt {e d : EqUnit} {i j : Fin 4} {x : Option Crossfade} (slots : d.slots = e.slots.set i x)
    (fresh : ∀ f, x = some f → f.due = false) (due : d.dueAt j = true) : e.dueAt j = true := by
  obtain ⟨f, used, owed⟩ := dueAt_eq_true_iff.mp due
  rw [slots] at used
  by_cases here : i.val = j.val
  · rw [fresh f (by simpa [here] using used)] at owed
    cases owed
  · exact dueAt_eq_true_iff.mpr ⟨f, by simpa [here] using used, owed⟩

theorem EqUnit.dueAt_congr {e d : EqUnit} (slots : d.slots = e.slots) (i : Fin 4) : d.dueAt i = e.dueAt i := by
  unfold EqUnit.dueAt
  rw [slots]

/-- R93: a crossfade that starts owes nothing. -/
theorem EqUnit.swap_dueAt {fade : Bool} {e : EqUnit} {c : Output × List SectionNo} {j : Fin 4}
    (due : (e.swap fade c).dueAt j = true) : e.dueAt j = true := by
  cases slot : e.swapSlot fade with
  | some i =>
    have slots : (e.swap fade c).slots = e.slots.set i (some (e.fadeOf c.1)) := by simp only [EqUnit.swap, slot]
    exact setSlot_dueAt slots (fun f new => by cases new; rfl) due
  | none =>
    rwa [dueAt_congr (e := e) (d := e.swap fade c) (by simp only [EqUnit.swap, slot])] at due

theorem EqUnit.swaps_dueAt {fade : Bool} {j : Fin 4} : ∀ (cs : List (Output × List SectionNo)) {e : EqUnit},
    (cs.foldl (EqUnit.swap fade) e).dueAt j = true → e.dueAt j = true
  | [], _, due => due
  | _ :: cs, _, due => swap_dueAt (EqUnit.swaps_dueAt cs due)

theorem PathKept.leaving {s t : State} (h : PathKept s t) (due : t.core.mode = .leaving ∧ t.core.gate = 0) :
    s.core.mode = .leaving ∧ s.core.gate = 0 := by
  obtain ⟨mode, gate, -⟩ := h
  rwa [mode, gate] at due

theorem rewritten_path (q : QueuedSet) (s : State) : PathKept s (rewritten q s) :=
  ((writeRecords_path q.records s).trans (retargetSet_path _ _)).trans (.ofSame (swapChains_same _ _))

theorem applySet_onlyPays (q : QueuedSet) (s : State) : OnlyPays s (applySet q s) := by
  refine OnlyPays.trans (t := rewritten q s) ?_ ((tellSdv_onlyPays _ _ _).trans (.ofSame (finishSet_same q _)))
  refine .ofSame (rewritten_same q s) (ramps := .inr fun i => ?_) (fades := .inr fun i => ?_)
    (leaving := .inr (rewritten_path q s).leaving) (batch := .inr (rewritten_heard q s).1.batchOwed)
  · rw [rewritten_ramp]
    exact RampUnit.applyMoves_dueAt _ _
  · rw [rewritten_eq]
    exact EqUnit.swaps_dueAt _

theorem examineHead_onlyPays (s : State) : OnlyPays s (examineHead s) := by
  unfold examineHead
  split
  · exact .refl s
  · split
    · exact applySet_onlyPays _ s
    · exact .ofSame (ps := [.commit]) (SameBut.ofParts fun p => by cases p <;> first | exact Or.inr rfl | exact Or.inl (by decide))

end Sys2Proof.Machine

namespace Sys2Proof.Machine
set_option Elab.async false

/-! ### The steps owed, one by one -/

/-- What taking a step for some debts does: nothing else comes to be owed, these debts are paid, the invariants and the
boundary in hand stand, and with none of them owed nothing changes. -/
structure Pays (debts : Debt → Prop) (s t : State) : Prop where
  only : OnlyPays s t
  paid : CountInv s → ∀ d : Debt, debts d → ¬ d.Owed t
  keeps : Keeps s t
  opened : t.frame.opened = s.frame.opened
  idle : (∀ d : Debt, debts d → ¬ d.Owed s) → t = s

theorem Pays.trans {p q : Debt → Prop} {s t u : State} (h : Pays p s t) (k : Pays q t u) : Pays (fun d => p d ∨ q d) s u where
  only := h.only.trans k.only
  paid good d which := which.elim (fun first owed => h.paid good d first (k.only d owed)) (k.paid (h.keeps.countInv good) d)
  keeps := h.keeps.trans k.keeps
  opened := k.opened.trans h.opened
  idle clear := by
    obtain rfl := h.idle fun d first => clear d (.inl first)
    exact k.idle fun d second => clear d (.inr second)

theorem Pays.congr {p q : Debt → Prop} {s t : State} (h : Pays p s t) (same : ∀ d, q d ↔ p d) : Pays q s t :=
  (funext fun d => propext (same d) : q = p) ▸ h

theorem Pays.foldl {α : Type} {debt : α → Debt} {f : State → α → State} (h : ∀ s a, Pays (· = debt a) s (f s a)) :
    ∀ (l : List α) (s : State), Pays (fun d => ∃ a ∈ l, d = debt a) s (l.foldl f s)
  | [], s => ⟨.refl s, fun _ _ none => (by simp at none), .refl s, rfl, fun _ => rfl⟩
  | a :: l, s => ((h s a).trans (Pays.foldl h l (f s a))).congr fun d => by simp

/-- A step taken where it is due. -/
theorem Pays.ofDue {debt : Debt} {p : Prop} [Decidable p] {s t : State} (due : p ↔ debt.Owed s) (only : p → OnlyPays s t)
    (paid : p → ¬ debt.Owed t) (keeps : Keeps s (if p then t else s)) (opened : t.frame.opened = s.frame.opened) :
    Pays (· = debt) s (if p then t else s) := by
  by_cases owed : p
  · rw [if_pos owed] at keeps ⊢
    exact ⟨only owed, fun _ d which => which ▸ paid owed, keeps, opened, fun clear => absurd (due.mp owed) (clear debt rfl)⟩
  · rw [if_neg owed] at keeps ⊢
    exact ⟨.refl s, fun _ d which => which ▸ fun held => owed (due.mpr held), keeps, rfl, fun _ => rfl⟩

theorem RampUnit.put_none_dueAt (u : RampUnit) (i : Fin 64) : ¬ (u.put i none).dueAt i = true := fun due => by
  obtain ⟨r, entry, -⟩ := RampUnit.dueAt_eq_true_iff.mp due
  rw [RampUnit.put_at, if_pos rfl] at entry
  cases entry

/-- R37: a completion. -/
theorem takeRampEnd_pays (i : Fin 64) (s : State) : Pays (· = .ramp i) s (takeRampEnd i s) := by
  have branches : takeRampEnd i s = if s.ramp.dueAt i = true then { s with ramp := s.ramp.put i none } else s := by
    unfold takeRampEnd RampUnit.complete
    split <;> rfl
  have keeps := takeRampEnd_keepsInv i s
  rw [branches] at keeps ⊢
  refine .ofDue (p := s.ramp.dueAt i = true) (debt := .ramp i) Iff.rfl (fun _ => ?_) (fun _ => s.ramp.put_none_dueAt i) keeps rfl
  exact .ofSame (ps := [.ramp]) (SameBut.ofParts fun p => by cases p <;> first | exact Or.inr rfl | exact Or.inl (by decide))
    (ramps := .inr fun _ => RampUnit.put_dueAt (x := none) fun _ new => nomatch new)

/-- R94: a crossfade's end. -/
theorem takeFadeEnd_pays (i : Fin 4) (s : State) : Pays (· = .fade i) s (takeFadeEnd i s) := by
  have slots : (endSlot i s).eq.slots = s.eq.slots.set i none := by rw [(endSlot_eq i s).1]
  refine .ofDue (p := s.eq.dueAt i = true) (debt := .fade i) Iff.rfl (fun _ => ?_) (fun _ owed => ?_) (takeFadeEnd_keepsInv i s)
    (congrArg Frame.opened ((endSlot_same i s) .frame (by decide)))
  · exact .ofSame (endSlot_same i s) (fades := .inr fun _ => EqUnit.setSlot_dueAt slots fun _ new => nomatch new)
      (batch := .inr (endSlot_heard i s).batchOwed)
  · obtain ⟨f, used, -⟩ := EqUnit.dueAt_eq_true_iff.mp owed
    simp [slots] at used

/-- R105: the tick. -/
theorem takeTick_pays (s : State) : Pays (· = .tick) s (takeTick s) := by
  have only := ageRise_onlyPays { s with sdv := { s.sdv with tickDue := false } }
  refine .ofDue (p := s.sdv.tickDue = true) (debt := .tick) Iff.rfl (fun _ => ?_) (fun _ owed => ?_) (takeTick_keepsInv s)
    (congrArg Frame.opened ((ageRise_same _) .frame (by decide)))
  · exact OnlyPays.trans (sdvFields_onlyPays fun due => absurd due Bool.false_ne_true) only
  · exact absurd (only .tick owed) Bool.false_ne_true

/-- R123, R125: a runner's last count. A runner that owes it is STEPPING or WAITING. -/
theorem takeRunner_pays (r : RunnerNo) (s : State) : Pays (· = .runner r) s (takeTimeout r (takeStep r s)) where
  only := by
    have step : OnlyPays s (takeStep r s) := by
      unfold takeStep
      split
      · exact (completeEntry_pays r s).1
      · exact .refl s
    refine step.trans ?_
    unfold takeTimeout
    split
    · exact (completeWait_pays r true _).1
    · exact .refl _
  paid good d which owed := by
    subst which
    by_cases stepping : s.cue.runners[r].state = .stepping ∧ s.cue.runners[r].due = true
    · have settled : (takeStep r s).cue.runners[r].due = false := by
        unfold takeStep
        rw [if_pos stepping]
        exact (completeEntry_pays r s).2
      unfold takeTimeout at owed
      rw [if_neg fun due => Bool.false_ne_true (settled.symm.trans due.2)] at owed
      exact Bool.false_ne_true (settled.symm.trans owed)
    · unfold takeStep at owed
      rw [if_neg stepping] at owed
      unfold takeTimeout at owed
      split at owed
      next waiting => exact Bool.false_ne_true ((completeWait_pays r true s).2.symm.trans owed)
      next notWaiting =>
        rcases (good.runners r).due owed with state | state
        · exact stepping ⟨state, owed⟩
        · exact notWaiting ⟨state, owed⟩
  keeps := (takeStep_keepsInv r s).trans (takeTimeout_keepsInv r _)
  opened := congrArg Frame.opened (((takeStep_same r s).trans (takeTimeout_same r _)) .frame (by decide))
  idle clear := by
    have notDue : ¬ (s.cue.runners[r]).due = true := clear _ rfl
    have step : takeStep r s = s := if_neg fun due => notDue due.2
    rw [step]
    exact if_neg fun due => notDue due.2

theorem Landed.onlyPays {s t : State} (h : Landed s t) : OnlyPays s t := by
  refine .ofSame h.same (ramps := .inr fun i due => ?_) (fades := .inr fun i due => ?_) (runners := .inr fun r due => ?_)
    (leaving := .inr fun due => ?_) (batch := .inr h.heard.batchOwed)
  · obtain ⟨x, entry, -⟩ := RampUnit.dueAt_eq_true_iff.mp due
    exact absurd ((h.ramps i).symm.trans entry) (by simp)
  · obtain ⟨f, used, -⟩ := EqUnit.dueAt_eq_true_iff.mp due
    exact absurd ((h.slots i).symm.trans used) (by simp)
  · rw [h.runners r] at due
    exact absurd due Bool.false_ne_true
  · rw [h.core] at due
    exact nomatch due.1

/-- R15: the end of LEAVING. -/
theorem takeLeavingEnd_pays (s : State) : Pays (· = .leaving) s (takeLeavingEnd s) := by
  have filled := fillReservation_same .ctrl .ok [Mode.standby.code] (landed s)
  refine .ofDue (debt := .leaving) Iff.rfl (fun _ => (landed_landed s).onlyPays.trans (.ofSame filled)) (fun _ owed => ?_)
    (takeLeavingEnd_keepsInv s) (congrArg Frame.opened ((enterStandby_same s) .frame (by decide)))
  rw [Debt.Owed, enterStandby_core] at owed
  exact nomatch owed.1

/-- R65: the examination of the head set. -/
theorem takeExam_pays (s : State) : Pays (· = .exam) s (takeExam s) := by
  have only := examineHead_onlyPays { s with frame := { s.frame with examDue := false } }
  have frame : (examineHead { s with frame := { s.frame with examDue := false } }).frame = { s.frame with examDue := false } :=
    (examineHead_same _) .frame (by decide)
  refine .ofDue (p := s.frame.examDue = true) (debt := .exam) Iff.rfl (fun _ => OnlyPays.trans ?_ only) (fun _ owed => ?_)
    (takeExam_keepsInv s) (by rw [frame])
  · exact .ofSame (ps := [.frame]) (SameBut.ofParts fun p => by cases p <;> first | exact Or.inr rfl | exact Or.inl (by decide))
      (exam := .inr fun due => absurd due Bool.false_ne_true)
  · exact absurd (only .exam owed) Bool.false_ne_true

/-- R145, R148: after a step of the operation no batch is owed. -/
theorem stepTableOp_batch (op : TableOp) (s : State) : ¬ batchOwed (stepTableOp op s) = true := fun due => by
  obtain ⟨next, held, owed⟩ := (batchOwed_iff _).mp due
  obtain ⟨more, ended⟩ := stepTableOp_entriesTaken op s
  rcases (min_le_right op.pace op.owed).lt_or_eq with lt | all
  · rw [(more lt).1] at held
    cases held
    exact Bool.false_ne_true owed
  · rw [(ended all).1] at held
    cases held

/-- R145, R148: the batch. -/
theorem takeBatch_pays (s : State) : Pays (· = .batch) s (takeBatch s) := by
  have paid : ¬ batchOwed (takeBatch s) = true := fun due => by
    unfold takeBatch at due
    split at due
    next op held =>
      split at due
      next owed => exact stepTableOp_batch op s due
      next notOwed => exact notOwed (by rwa [batchOwed_eq held] at due)
    next idle =>
      obtain ⟨op, held, -⟩ := (batchOwed_iff s).mp due
      exact absurd (idle.symm.trans held) (by simp)
  have frame := takeBatch_frame s
  refine ⟨?_, fun _ d which => which ▸ paid, takeBatch_keepsInv s, by rw [frame], fun clear => ?_⟩
  · exact .ofSame (takeBatch_same s) (exam := .inr (by rw [frame]; exact id)) (batch := .inr fun due => absurd due paid)
  · have notDue : ¬ batchOwed s = true := clear _ rfl
    unfold takeBatch
    split
    next op held => exact if_neg (by rwa [batchOwed_eq held] at notDue)
    next => rfl

/-- Entry 3: everything owed is taken. -/
theorem takeOwed_pays (s : State) : Pays (fun _ => True) s (takeOwed s) := by
  have gains := (Pays.foldl (debt := Debt.ramp) (fun s i => takeRampEnd_pays i s) (List.finRange 64) s).trans
    (Pays.foldl (debt := Debt.fade) (fun s i => takeFadeEnd_pays i s) (List.finRange 4) _)
  have runners := (gains.trans (takeTick_pays _)).trans ((takeRunner_pays 0 _).trans (takeRunner_pays 1 _))
  have all := ((runners.trans (takeLeavingEnd_pays _)).trans (takeExam_pays _)).trans (takeBatch_pays _)
  refine all.congr fun d => ⟨fun _ => ?_, fun _ => trivial⟩
  cases d with
  | runner r =>
    match r with
    | 0 => simp
    | 1 => simp
  | _ => simp

theorem owing_eq_false_iff (s : State) : owing s = false ↔ ∀ d : Debt, ¬ d.Owed s := by
  rw [← Bool.not_eq_true, owing_iff, not_exists]

/-! ### The end of the boundary in hand -/

theorem finishBoundary_shut {s : State} (h : s.frame.opened = none) : finishBoundary s = s := by
  unfold finishBoundary
  rw [h]

theorem finishBoundary_opened {s : State} (h : s.frame.opened ≠ none) : finishBoundary s = closeBoundary (takeOwed s) := by
  unfold finishBoundary
  split
  · rfl
  next shut => exact absurd shut h

theorem closeBoundary_shuts (s : State) : (closeBoundary s).frame.opened = none := by
  unfold closeBoundary
  split
  · rw [(transferSlots_keeps _ _).2.1]
    exact congrArg Frame.opened ((composeAll_same _ _) .frame (by decide))
  next shut => exact shut

theorem finishBoundary_shuts (s : State) : (finishBoundary s).frame.opened = none := by
  unfold finishBoundary
  split
  · exact closeBoundary_shuts _
  next shut => exact shut

/-! ### Syncs (R152) -/

section
variable {s : State}

theorem exec_syncReceived_hunt (spacing : Spacing) (hunt : s.port.lock = .hunt) :
    exec (.syncReceived spacing) s = .next (syncHunting spacing s) := by
  show execSyncReceived spacing s = _
  unfold execSyncReceived
  rw [hunt]

theorem exec_syncMissing_hunt (hunt : s.port.lock = .hunt) :
    exec .syncMissing s = .next { s with port := { s.port with goodSyncs := 0 } } := by
  show execSyncMissing s = _
  unfold execSyncMissing
  rw [hunt]

theorem exec_syncReceived_locked (spacing : Spacing) (locked : s.port.lock = .locked) :
    exec (.syncReceived spacing) s = .next (if spacing = .oneFrame then nextFrame 0 s else s) := by
  show execSyncReceived spacing s = _
  unfold execSyncReceived
  rw [locked]
  cases spacing <;> rfl

theorem exec_syncMissing_locked (locked : s.port.lock = .locked) :
    exec .syncMissing s = .next (if s.port.missingSyncs = 0 then nextFrame 1 s else lockLoss (finishBoundary s)) := by
  show execSyncMissing s = _
  unfold execSyncMissing
  rw [locked]

end

/-- R152: the port LOCKED, its first frame to come. -/
def relocked (s : State) : State :=
  { s with
      port := { s.port with lock := .locked, goodSyncs := 0, missingSyncs := 0 }
      frame := { s.frame with boundaryDue := true } }

theorem gainLock_eq (s : State) :
    gainLock s = if s.core.mode = .run then raiseNotice .ringRelocked (relocked s) else relocked s := rfl

theorem gainLock_relocks (s : State) :
    (gainLock s).port = (relocked s).port ∧ (gainLock s).frame = (relocked s).frame ∧
    SameBut [.port, .frame, .ctl] s (gainLock s) ∧ SettingsKept s (gainLock s) ∧
    (s.core.mode ≠ .run → (gainLock s).ctl = s.ctl) ∧
    (s.core.mode = .run → s.ctl.noticeOn.ringRelocked = true → .ringRelocked ∈ (gainLock s).ctl.notices) := by
  have before : SameBut [.port, .frame, .ctl] s (relocked s) :=
    SameBut.ofParts fun p => by cases p <;> first | exact Or.inr rfl | exact Or.inl (by decide)
  by_cases run : s.core.mode = .run
  · have told := raiseNotice_same .ringRelocked (relocked s)
    have raised := raiseNotice_raised .ringRelocked (relocked s)
    rw [gainLock_eq, if_pos run]
    refine ⟨told .port (by decide), told .frame (by decide), before.trans (told.mono (by decide)),
      (raiseNotice_calm .ringRelocked (relocked s)).settings, fun other => absurd run other, fun _ on => ?_⟩
    unfold NoticeRaised at raised
    have allowed : (relocked s).ctl.noticeOn.allows .ringRelocked = true := on
    rw [if_pos allowed] at raised
    obtain ⟨-, pending, -⟩ := raised
    exact pending
  · rw [gainLock_eq, if_neg run]
    exact ⟨rfl, rfl, before, ⟨rfl, rfl, rfl, rfl⟩, fun _ => rfl, fun is => absurd is run⟩

/-- Settles O10: the syncs by the branches of their commands; entry 3 by the debts, each of which its own step pays and no other
brings. -/
theorem syncsTaken : Obligations.SyncsTaken := by
  refine ⟨fun s hunt => ⟨exec_syncReceived_hunt _ hunt, exec_syncMissing_hunt hunt, fun few => ?few, fun enough => ?enough⟩,
    fun s locked => ⟨exec_syncReceived_locked _ locked, exec_syncReceived_locked _ locked, fun first => ?first,
      finishBoundary_shuts s, finishBoundary_port s, finishBoundary_shut⟩,
    fun s opened => ⟨finishBoundary_opened opened, (takeOwed_pays s).opened, fun settled => ?settled, fun good => ?paid⟩⟩
  case few =>
    rw [exec_syncReceived_hunt _ hunt, syncHunting, if_pos (by omega)]
  case enough =>
    refine ⟨gainLock s, ?_, gainLock_relocks s⟩
    rw [exec_syncReceived_hunt _ hunt, syncHunting, if_neg (by omega)]
  case first =>
    rw [exec_syncMissing_locked locked, if_pos first]
    rfl
  case settled =>
    rw [finishBoundary_opened opened, (takeOwed_pays s).idle fun d _ => (owing_eq_false_iff s).mp settled d]
  case paid => exact (owing_eq_false_iff _).mpr fun d => (takeOwed_pays s).paid good d trivial

end Sys2Proof.Machine

namespace Sys2Proof.Machine
set_option Elab.async false

/-! ## Lock loss (R153)

Of a digest: the entry into STANDBY may write entries it has covered, and then it ends DISTURBED; else it is abandoned (R149, R150,
entry 25). -/

section
variable {s : State}

theorem abortDigest_digest {op : TableOp} (held : s.table = some op) (kind : op.kind = .digest) :
    abortDigest s = endTableOp .aborted (3 :: op.fields) s := by
  unfold abortDigest abortTableOp
  rw [held]
  dsimp only
  rw [if_pos kind, kind]
  rfl

theorem abortDigest_noDigest (reads : ∀ op, s.table = some op → op.kind = .read) : abortDigest s = s := by
  unfold abortDigest
  split
  next op held => exact if_neg (by rw [reads op held]; decide)
  next => rfl

theorem abortDigest_cases (s : State) :
    ((∀ op, s.table = some op → op.kind = .read) ∧ abortDigest s = s) ∨
    ∃ op, s.table = some op ∧ op.kind = .digest ∧ abortDigest s = endTableOp .aborted (3 :: op.fields) s := by
  by_cases digest : ∃ op, s.table = some op ∧ op.kind = .digest
  · obtain ⟨op, held, kind⟩ := digest
    exact .inr ⟨op, held, kind, abortDigest_digest held kind⟩
  · have reads : ∀ op, s.table = some op → op.kind = .read := fun op held => by
      cases kind : op.kind with
      | read => rfl
      | digest => exact absurd ⟨op, held, kind⟩ digest
    exact .inl ⟨reads, abortDigest_noDigest reads⟩

/-- The abandonment answers the TABLE unit alone. -/
theorem abortDigest_inExecution {u : UnitId} (other : UnitId.table ≠ u) : inExecution u (abortDigest s) = inExecution u s := by
  rcases abortDigest_cases s with ⟨-, same⟩ | ⟨op, -, -, ended⟩
  · rw [same]
  · rw [ended]
    refine (inExecution_fillReservation .table u .aborted (3 :: op.fields) s).trans ?_
    rw [decide_eq_true other, Bool.and_true]

theorem abortDigest_calm (s : State) : Calm s (abortDigest s) := by
  rcases abortDigest_cases s with ⟨-, same⟩ | ⟨op, -, -, ended⟩
  · rw [same]
    exact .refl s
  · rw [ended]
    exact endTableOp_calm _ _ s

theorem abortDigest_noNotice (s : State) : NoNotice s (abortDigest s) := by
  rcases abortDigest_cases s with ⟨-, same⟩ | ⟨op, -, -, ended⟩
  · rw [same]
    exact .refl s
  · obtain ⟨-, -, quiet⟩ := endTableOp_answered .aborted (3 :: op.fields) s
    rw [ended]
    exact quiet

end

section
variable {written : TableId → Nat → Prop} {as : List Answer} {s t : State}

/-- R150: a read waits for the ring. -/
theorem WritesHeard.abortRead (h : WritesHeard written as s t) (reads : ∀ op, s.table = some op → op.kind = .read) :
    (abortDigest t).table = s.table ∧ Answered as s (abortDigest t) := by
  obtain ⟨-, stands⟩ := h
  obtain ⟨table, answered⟩ := stands fun op held digest => by
    rw [reads op held] at digest
    cases digest
  rw [abortDigest_noDigest (by rw [table]; exact reads)]
  exact ⟨table, answered⟩

/-- R149, R150: a digest ends DISTURBED, before the answers of the step, or ABORTED, after them. -/
theorem WritesHeard.abortDigest (h : WritesHeard written as s t) (other : ∀ a ∈ as, a.unit ≠ .table) {op : TableOp}
    (held : s.table = some op) (kind : op.kind = .digest) :
    (Machine.abortDigest t).table = none ∧
    ((∃ n, written op.table n ∧ op.first ≤ n ∧ n < op.next) →
      Answered ({ unit := .table, res := .ok, data := 2 :: op.fields } :: as) s (Machine.abortDigest t)) ∧
    ((¬ ∃ n, written op.table n ∧ op.first ≤ n ∧ n < op.next) → Answered (as ++ [op.abandoned]) s (Machine.abortDigest t)) := by
  obtain ⟨ends, stands⟩ := h
  by_cases hit : ∃ n, written op.table n ∧ op.first ≤ n ∧ n < op.next
  · obtain ⟨ended, answered⟩ := ends op held kind hit
    rw [abortDigest_noDigest (by simp [ended])]
    exact ⟨ended, fun _ => answered, fun miss => absurd hit miss⟩
  · have apart : ∀ n, written op.table n → n < op.first ∨ op.next ≤ n := fun n wrote => by
      by_contra inside
      exact hit ⟨n, wrote, by omega, by omega⟩
    obtain ⟨table, answered⟩ := stands fun o is _ => by
      obtain rfl : op = o := Option.some.inj (held.symm.trans is)
      exact apart
    obtain ⟨reply, none, -⟩ := endTableOp_answered .aborted (3 :: op.fields) t
    have abandoned : op.abandoned = { unit := .table, res := .aborted, data := 3 :: op.fields } := by
      unfold TableOp.abandoned
      rw [kind]
    rw [abortDigest_digest (table.trans held) kind, abandoned]
    exact ⟨none, fun is => absurd is hit, fun _ => answered.trans reply fun a mem b last => by
      rw [List.mem_singleton.mp last]
      exact other a mem⟩

end

/-! ### The runners' halt and the DUCK targets (R45, R130) -/

/-- A target moves only with a request, and both requests are 0 in the end. -/
theorem haltBoth_target (s : State) (src : Source) : (haltBoth s).ramp.duckTargets[src] =
    if ∀ r : RunnerNo, (s.cue.runners[r]).requests[src] = 0 then s.ramp.duckTargets[src] else 0 := by
  have silent : ∀ r : RunnerNo, ((haltBoth s).cue.runners[r]).requests[src] = 0 := fun r => by
    rw [(haltBoth_cue s).2 r]
    simp [Runner.silenced]
  have second : ((haltRunner 0 s).cue.runners[(1 : RunnerNo)]).requests[src] = (s.cue.runners[(1 : RunnerNo)]).requests[src] := by
    rw [haltRunner_cue, onRunner_other (by decide)]
  have first : ((haltRunner 0 s).cue.runners[(0 : RunnerNo)]).requests[src] = 0 := by
    rw [haltRunner_at]
    simp [Runner.silenced]
  have both : (∀ r : RunnerNo, (s.cue.runners[r]).requests[src] = 0) ↔
      (s.cue.runners[(0 : RunnerNo)]).requests[src] = 0 ∧ (s.cue.runners[(1 : RunnerNo)]).requests[src] = 0 :=
    Fin.forall_fin_two
  have least : duckMin (haltBoth s).cue src = 0 := by
    rw [duckMin_eq, silent 0, silent 1]
    rfl
  rw [haltBoth] at least ⊢
  rw [haltRunner_target, haltRunner_target, second, least, duckMin_eq, first, second]
  simp only [both]
  by_cases one : (s.cue.runners[(1 : RunnerNo)]).requests[src] = 0
  · rw [if_pos one, one]
    simp
  · rw [if_neg one, if_neg fun none => one none.2]

theorem landed_target (s : State) (src : Source) : (landed s).ramp.duckTargets[src] =
    if ∀ r : RunnerNo, (s.cue.runners[r]).requests[src] = 0 then s.ramp.duckTargets[src] else 0 := by
  have ended := endAllSlots_same (resting s)
  have ramp : (endAllSlots (resting s)).ramp = (resting s).ramp := ended .ramp (by decide)
  have cue : (endAllSlots (resting s)).cue = s.cue := ended .cue (by decide)
  unfold landed
  rw [haltBoth_target, ramp, cue]
  rfl

end Sys2Proof.Machine

namespace Sys2Proof.Machine
set_option Elab.async false

/-! ### The second missed sync -/

/-- R1, R9, R153: lock is lost, with its flag. -/
def unlocked (u : State) : State := setFlag .lockLost (dropLock u)

/-- R16: and in LEAVING STANDBY is entered. -/
def afterLoss (u : State) : State := if u.core.mode = .leaving then enterStandby (unlocked u) else unlocked u

theorem lockLoss_eq (u : State) : lockLoss u = abortDigest (afterLoss u) := rfl

/-- R16: the MODE request's answer, where lock loss gives it. -/
def lossAnswers (u : State) : List Answer := if u.core.mode = .leaving then [{ unit := .ctrl, res := .ok, data := [0] }] else []

/-- R88: the entries lock loss writes: the sections of the old chains, when STANDBY is entered. -/
def lossWrites (u : State) (d : TableId) (n : Nat) : Prop := u.core.mode = .leaving ∧ sectionEntries (oldSections u.eq) d n

section
variable {u : State}

theorem lockLoss_leaving (leaving : u.core.mode = .leaving) : SameBut [.ctl, .table] (landed (unlocked u)) (lockLoss u) := by
  rw [lockLoss_eq, afterLoss, if_pos leaving]
  exact ((fillReservation_same _ _ _ (landed (unlocked u))).mono (by decide)).trans (abortDigest_same _)

theorem lockLoss_notLeaving (other : u.core.mode ≠ .leaving) : SameBut [.ctl, .table] (unlocked u) (lockLoss u) := by
  rw [lockLoss_eq, afterLoss, if_neg other]
  exact abortDigest_same _

theorem unlocked_same (u : State) : SameBut [.port, .frame, .ctl, .core] u (unlocked u) :=
  SameBut.ofParts fun p => by cases p <;> first | exact Or.inr rfl | exact Or.inl (by decide)

theorem afterLoss_same (u : State) : SameBut [.ctl, .core, .ramp, .eq, .cue, .table] (unlocked u) (afterLoss u) := by
  unfold afterLoss
  split
  · exact enterStandby_same _
  · exact .refl _ _

theorem lockLoss_same (u : State) : SameBut [.ctl, .core, .ramp, .eq, .cue, .table] (unlocked u) (lockLoss u) :=
  (afterLoss_same u).trans ((abortDigest_same _).mono (by decide))

theorem lockLoss_calm (u : State) : Calm (unlocked u) (lockLoss u) := by
  have entered : Calm (unlocked u) (afterLoss u) := by
    unfold afterLoss
    split
    · exact enterStandby_calm _
    · exact .refl _
  exact entered.trans (abortDigest_calm _)

theorem enterStandby_noNotice (s : State) : NoNotice s (enterStandby s) :=
  (landed_landed s).quiet.trans (fillReservation_noNotice .ctrl .ok [Mode.standby.code] (landed s))

theorem lockLoss_noNotice (u : State) : NoNotice u (lockLoss u) := by
  have entered : NoNotice (unlocked u) (afterLoss u) := by
    unfold afterLoss
    split
    · exact enterStandby_noNotice _
    · exact .refl _
  exact NoNotice.trans (t := unlocked u) ⟨rfl, rfl⟩ (entered.trans (abortDigest_noNotice _))

/-- R1, R9, R16: mode, gate and held sources; the live tables stand. -/
theorem lockLoss_core (u : State) : (lockLoss u).core =
    { u.core with mode := if u.core.mode = .leaving then .standby else u.core.mode, gate := 0, held := Vector.replicate 12 0 } := by
  refine ((abortDigest_same (afterLoss u)) .core (by decide)).trans ?_
  unfold afterLoss
  split
  · rw [enterStandby_core]
    rfl
  · rfl

/-- A flag is no part of what answers change. -/
theorem Answered.ofUnlocked {as : List Answer} {t : State} (h : Answered as (unlocked u) t) : Answered as u t :=
  ⟨h.filled, h.kept, h.appended, h.markers, h.tag⟩

theorem lossAnswers_notTable (u : State) : ∀ a ∈ lossAnswers u, a.unit ≠ .table := by
  unfold lossAnswers
  split <;> simp

theorem afterLoss_heard (u : State) : WritesHeard (lossWrites u) (lossAnswers u) (unlocked u) (afterLoss u) := by
  unfold afterLoss lossAnswers
  by_cases leaving : u.core.mode = .leaving
  · have filled := fillReservation_same .ctrl .ok [0] (landed (unlocked u))
    have heard := (landed_landed (unlocked u)).heard.thenAnswered (fillReservation_answered .ctrl .ok [0] (landed (unlocked u)))
      (filled .table (by decide)) (by simp)
    rw [if_pos leaving, if_pos leaving]
    exact heard.congr fun d n => ⟨fun wrote => ⟨leaving, wrote⟩, fun wrote => wrote.2⟩
  · rw [if_neg leaving, if_neg leaving]
    exact .refl (fun d n wrote => leaving wrote.1) _

/-- Whether an operation over entries `a` to `b` of table `d` has covered an entry written. -/
theorem lossWrites_iff {d : TableId} {a b : Nat} : (∃ n, lossWrites u d n ∧ a ≤ n ∧ n < b) ↔
    u.core.mode = .leaving ∧ d = .sections ∧ ∃ n ∈ oldSections u.eq, a ≤ n.val ∧ n.val < b := by
  constructor
  · rintro ⟨-, ⟨leaving, table, n, old, rfl⟩, low, high⟩
    exact ⟨leaving, table, n, old, low, high⟩
  · rintro ⟨leaving, table, n, old, low, high⟩
    exact ⟨n.val, ⟨leaving, table, n, old, rfl⟩, low, high⟩

/-- R153: a partial context is emptied, a complete one kept. -/
theorem lockLoss_contexts (u : State) (i : Fin 2) : (lockLoss u).port.contexts[i] = keepComplete u.port.contexts[i] := by
  have port : (lockLoss u).port = (unlocked u).port := (lockLoss_same u) .port (by decide)
  rw [port]
  exact Vector.getElem_map _ i.isLt

/-- R95: of the EQ unit the sections and the slots alone. -/
theorem landed_eq (s : State) : (landed s).eq = { s.eq with sections := (landed s).eq.sections, slots := (landed s).eq.slots } := by
  have halted : (landed s).eq = (endAllSlots (resting s)).eq := (haltBoth_same _) .eq (by decide)
  obtain ⟨rest, -, -⟩ := endAllSlots_eq (resting s)
  rw [halted]
  exact rest

/-- R16: the MODE request is out of execution. -/
theorem lockLoss_ctrl (leaving : u.core.mode = .leaving) : inExecution .ctrl (lockLoss u) = false := by
  rw [lockLoss_eq, abortDigest_inExecution (by decide), afterLoss, if_pos leaving, enterStandby, inExecution_fillReservation]
  simp

end

/-- Settles O11: lock loss by its three parts, what the entry into STANDBY makes of a state, and the digest's end. -/
theorem secondMissLosesLock : Obligations.SecondMissLosesLock := by
  intro s locked second
  refine ⟨lockLoss (finishBoundary s), by rw [exec_syncMissing_locked locked, if_neg second], ?_⟩
  generalize finishBoundary s = u
  have same := lockLoss_same u
  have port : (lockLoss u).port = (unlocked u).port := same .port (by decide)
  have frame : (lockLoss u).frame = (unlocked u).frame := same .frame (by decide)
  have core := lockLoss_core u
  have heard := afterLoss_heard u
  have notTable := lossAnswers_notTable u
  obtain ⟨flags, clip, enabled, noticeOn⟩ := (lockLoss_calm u).settings
  refine ⟨congrArg RingPort.lock port, congrArg RingPort.goodSyncs port, congrArg RingPort.outgoing port, (congrArg RingPort.ownNode port :),
    (congrArg RingPort.sourceMap port :), (congrArg RingPort.outputMap port :), lockLoss_contexts u, by rw [core], fun src => ?held, flags,
    fun f => ?flag, fun leaving => ?standby, fun other => ?mode, fun op held kind => ?digest, fun op held kind => ?read,
    (lockLoss_calm u).idle, ?same, frame, by rw [core], by rw [core], clip, enabled, noticeOn, lockLoss_noNotice u,
    fun leaving => ?landed, fun reads => ?waits, fun op held kind => ?ends⟩
  case held =>
    rw [core]
    exact Vector.getElem_replicate src.isLt
  case flag =>
    have marked : flagSet f (lockLoss u) = flagSet f (unlocked u) := by
      unfold flagSet
      rw [flags]
    rw [marked]
    exact flagSet_setFlag f .lockLost (dropLock u)
  case standby =>
    have ramp : (lockLoss u).ramp = (landed (unlocked u)).ramp := (lockLoss_leaving leaving) .ramp (by decide)
    rw [core, ramp]
    exact ⟨if_pos leaving, (landed_landed (unlocked u)).ramps⟩
  case mode =>
    have kept := lockLoss_notLeaving other
    rw [core]
    exact ⟨if_neg other, kept .ramp (by decide), kept .eq (by decide), kept .cue (by decide)⟩
  case digest =>
    obtain ⟨ended, -⟩ := heard.abortDigest notTable held kind
    exact ended
  case read =>
    have reads : ∀ o, (unlocked u).table = some o → o.kind = .read := fun o is => by
      obtain rfl : op = o := Option.some.inj (held.symm.trans is)
      exact kind
    exact (heard.abortRead reads).1.trans held
  case same => exact ((unlocked_same u).mono (by decide)).trans (same.mono (by decide))
  case landed =>
    have landing := landed_landed (unlocked u)
    have last := lockLoss_leaving leaving
    have eq : (lockLoss u).eq = (landed (unlocked u)).eq := last .eq (by decide)
    have ramp : (lockLoss u).ramp = (landed (unlocked u)).ramp := last .ramp (by decide)
    have cue : (lockLoss u).cue = (landed (unlocked u)).cue := last .cue (by decide)
    have runners : ∀ r : RunnerNo, (lockLoss u).cue.runners[r] = (u.cue.runners[r]).silenced := by
      rw [cue]
      exact landing.runners
    refine ⟨lockLoss_ctrl leaving, by rw [eq]; exact landing.slots, ?rest, by rw [eq]; exact landing.sections, runners,
      by rw [cue]; exact landing.cue, fun src => ?target, fun inv => ?silent⟩
    case rest =>
      rw [eq]
      exact landed_eq (unlocked u)
    case target =>
      rw [ramp]
      exact landed_target (unlocked u) src
    case silent =>
      have duck : DuckInv (lockLoss u) := ((lockLoss_keepsInv u).inv inv).duck
      exact duck.silent runners
  case waits => exact (heard.abortRead reads).2.ofUnlocked
  case ends =>
    obtain ⟨-, disturbed, aborted⟩ := heard.abortDigest notTable held kind
    rw [lossWrites_iff] at disturbed aborted
    exact ⟨fun hit => (disturbed hit).ofUnlocked, fun miss => (aborted miss).ofUnlocked⟩

end Sys2Proof.Machine

namespace Sys2Proof.Machine
-- One proof at a time: side by side the proofs start more threads than the memory limit allows.
set_option Elab.async false

/-! ## Markers, reservations and what units are at work on (R142, R163, R164) -/

/-- Whether a unit has an operation in hand that its marker speaks of: CTRL in LEAVING, EQ and CUE a pending write, TABLE its
operation. -/
def UnitId.atWork (s : State) : UnitId → Bool
  | .ctrl => decide (s.core.mode = .leaving)
  | .stage => false
  | .eq => s.eq.pendingWrite.isSome
  | .sdv => false
  | .cue => s.cue.pendingWrite.isSome
  | .table => s.table.isSome

/-- R164: a unit's marker stands exactly while it has its reservation, and exactly while it is at work. -/
structure UnitId.Booked (s : State) (u : UnitId) : Prop where
  reservation : inExecution u s = (reservationOf u s.ctl.queue).isSome
  work : inExecution u s = u.atWork s

theorem busyInv_iff (s : State) : BusyInv s ↔ ∀ u : UnitId, u.Booked s :=
  ⟨fun h u => ⟨h.reservation u, by cases u with
      | ctrl => exact h.ctrl
      | stage => exact h.stage
      | eq => exact h.eq
      | sdv => exact h.sdv
      | cue => exact h.cue
      | table => exact h.table⟩,
    fun h => ⟨fun u => (h u).reservation, (h .ctrl).work, (h .stage).work, (h .eq).work, (h .sdv).work, (h .cue).work, (h .table).work⟩⟩

theorem liveInv_iff (s : State) : LiveInv s ↔ s.frame.liveTaken ≤ 8 ∧ (batchOwed s = true → s.frame.liveTaken = 0) := by
  constructor
  · rintro ⟨taken, batch⟩
    exact ⟨taken, fun owed => by obtain ⟨op, held, due⟩ := (batchOwed_iff s).mp owed; exact batch op held due⟩
  · rintro ⟨taken, batch⟩
    exact ⟨taken, fun op held due => batch ((batchOwed_iff s).mpr ⟨op, held, due⟩)⟩

/-- No more entries counted, and no batch owed that was not owed before. -/
theorem LiveInv.congr {s t : State} (h : LiveInv s) (taken : t.frame.liveTaken = s.frame.liveTaken)
    (batch : batchOwed t = true → batchOwed s = true) : LiveInv t := by
  obtain ⟨few, none⟩ := (liveInv_iff s).mp h
  exact (liveInv_iff t).mpr ⟨by rwa [taken], fun owed => by rw [taken]; exact none (batch owed)⟩

/-! ### Reservations after answers -/

theorem reservationOf_eq_some {u : UnitId} {q : List Place} {rq : Requester} (h : reservationOf u q = some rq) :
    .reservation rq ∈ q ∧ rq.unitByte = u.code := by
  rw [reservationOf_eq] at h
  obtain ⟨p, mem, heldFor⟩ := List.exists_of_findSome?_eq_some h
  unfold Place.heldFor at heldFor
  split at heldFor
  · split at heldFor
    next code => cases heldFor; exact ⟨mem, code⟩
    · cases heldFor
  · cases heldFor
  · cases heldFor

theorem reservationOf_append_free {u : UnitId} {q more : List Place} (free : ∀ p ∈ more, p.heldFor u = none) :
    reservationOf u (q ++ more) = reservationOf u q := by
  rw [reservationOf_eq, reservationOf_eq, List.findSome?_append, List.findSome?_eq_none_iff.mpr free, Option.or_none]

/-- A unit that was answered has no reservation any more. -/
theorem Answered.reservationOf_none {as : List Answer} {s t : State} (h : Answered as s t) {a : Answer} (answered : a ∈ as) :
    Machine.reservationOf a.unit t.ctl.queue = none := by
  by_contra some
  obtain ⟨rq, found⟩ := Option.ne_none_iff_exists'.mp some
  obtain ⟨mem, code⟩ := reservationOf_eq_some found
  obtain ⟨i, place⟩ := List.getElem?_of_mem mem
  cases before : s.ctl.queue[i]? with
  | none =>
    have late : s.ctl.queue.length ≤ i := List.getElem?_eq_none_iff.mp before
    obtain ⟨n, packet⟩ := h.appended (.reservation rq) (List.mem_of_getElem? (i := i - s.ctl.queue.length) (by
      rw [List.getElem?_drop, Nat.add_sub_cancel' late, place]))
    cases packet
  | some p =>
    by_cases passed : ∀ rq' : Requester, p = .reservation rq' → ∀ b ∈ as, rq'.unitByte ≠ b.unit.code
    · cases (h.kept i p before passed).symm.trans place
      exact passed rq rfl a answered code
    · simp only [not_forall, not_not] at passed
      obtain ⟨rq', rfl, b, mem', code'⟩ := passed
      cases (h.filled i rq' b before mem' code').symm.trans place

/-- A unit passed by keeps its books; one that was answered has closed them. -/
theorem Answered.booked {as : List Answer} {s t : State} (h : Answered as s t) {u : UnitId}
    (work : u.atWork t = (u.atWork s && decide (∀ a ∈ as, a.unit ≠ u))) (booked : u.Booked s) : u.Booked t := by
  refine ⟨?_, by rw [h.markers, booked.work, work]⟩
  rw [h.markers]
  by_cases other : ∀ a ∈ as, a.unit ≠ u
  · rw [decide_eq_true other, Bool.and_true, h.reservationOf other, booked.reservation]
  · rw [decide_eq_false other, Bool.and_false]
    simp only [not_forall, not_not] at other
    obtain ⟨a, mem, rfl⟩ := other
    rw [h.reservationOf_none mem]
    rfl

theorem Answered.closed {as : List Answer} {s t : State} (h : Answered as s t) {a : Answer} (answered : a ∈ as)
    (idle : a.unit.atWork t = false) : a.unit.Booked t := by
  have marker : inExecution a.unit t = false := by
    rw [h.markers, decide_eq_false fun other => other a answered rfl, Bool.and_false]
  exact ⟨by rw [marker, h.reservationOf_none answered]; rfl, marker.trans idle.symm⟩

/-! ### Steps that keep the books -/

/-- A step keeps the books of every unit but `us`, and what is said of live entries. -/
structure BooksKeptBut (us : List UnitId) (s t : State) : Prop where
  booked : ∀ u : UnitId, u ∉ us → u.Booked s → u.Booked t
  live : LiveInv s → LiveInv t

/-- A step keeps the books. -/
abbrev BooksKept (s t : State) : Prop := BooksKeptBut [] s t

theorem BooksKeptBut.refl (us : List UnitId) (s : State) : BooksKeptBut us s s := ⟨fun _ _ => id, id⟩

theorem BooksKeptBut.trans {us : List UnitId} {s t v : State} (h : BooksKeptBut us s t) (k : BooksKeptBut us t v) : BooksKeptBut us s v :=
  ⟨fun u out => k.booked u out ∘ h.booked u out, k.live ∘ h.live⟩

theorem BooksKeptBut.but {s t : State} (h : BooksKept s t) (us : List UnitId) : BooksKeptBut us s t :=
  ⟨fun u _ => h.booked u List.not_mem_nil, h.live⟩

theorem BooksKept.foldl {α : Type} {f : State → α → State} (h : ∀ s a, BooksKept s (f s a)) : ∀ (l : List α) (s : State),
    BooksKept s (l.foldl f s)
  | [], s => .refl [] s
  | a :: l, s => (h s a).trans (BooksKept.foldl h l (f s a))

/-- The fields a unit's books speak of stand, for every unit but `us`. -/
theorem BooksKeptBut.ofWork {us : List UnitId} {s t : State} (work : ∀ u : UnitId, u ∉ us → u.atWork t = u.atWork s)
    (live : LiveInv s → LiveInv t) (executing : t.ctl.executing = s.ctl.executing := by rfl)
    (reservations : ∀ u : UnitId, reservationOf u t.ctl.queue = reservationOf u s.ctl.queue := by exact fun _ => rfl) :
    BooksKeptBut us s t where
  booked u out h := by
    have marker : inExecution u t = inExecution u s := by unfold inExecution; rw [executing]
    exact ⟨by rw [marker, reservations]; exact h.reservation, by rw [marker, work u out]; exact h.work⟩
  live := live

/-- What the units are at work on stands. -/
structure WorkKept (s t : State) : Prop where
  mode : t.core.mode = s.core.mode
  sectionWrite : t.eq.pendingWrite = s.eq.pendingWrite
  cueWrite : t.cue.pendingWrite = s.cue.pendingWrite

theorem WorkKept.atWork {s t : State} (h : WorkKept s t) {u : UnitId} (other : u ≠ .table) : u.atWork t = u.atWork s := by
  unfold UnitId.atWork
  cases u with
  | ctrl => rw [h.mode]
  | eq => rw [h.sectionWrite]
  | cue => rw [h.cueWrite]
  | table => exact absurd rfl other
  | stage => rfl
  | sdv => rfl

/-- An update of fields the books do not speak of. -/
theorem BooksKept.plain {s t : State} (executing : t.ctl.executing = s.ctl.executing := by rfl)
    (reservations : ∀ u : UnitId, reservationOf u t.ctl.queue = reservationOf u s.ctl.queue := by exact fun _ => rfl)
    (mode : t.core.mode = s.core.mode := by rfl) (pending : t.eq.pendingWrite = s.eq.pendingWrite := by rfl)
    (cue : t.cue.pendingWrite = s.cue.pendingWrite := by rfl) (table : t.table = s.table := by rfl)
    (taken : t.frame.liveTaken = s.frame.liveTaken := by rfl) : BooksKept s t :=
  .ofWork (fun u _ => by
      by_cases other : u = .table
      · rw [other]; exact congrArg Option.isSome table
      · exact (WorkKept.mk mode pending cue).atWork other)
    (fun h => h.congr taken (by unfold batchOwed; rw [table]; exact id)) executing reservations

theorem BooksKept.after {s t v : State} (k : BooksKept t v) (h : BooksKept s t := by exact .plain) : BooksKept s v := h.trans k

theorem BooksKept.ofSame {ps : List Part} {s t : State} (h : SameBut ps s t)
    (ctl : Part.ctl ∉ ps ∧ Part.frame ∉ ps ∧ Part.table ∉ ps := by decide)
    (units : Part.core ∉ ps ∧ Part.eq ∉ ps ∧ Part.cue ∉ ps := by decide) : BooksKept s t := by
  obtain ⟨ctl, frame, table⟩ := ctl
  obtain ⟨core, eq, cue⟩ := units
  have ctl : t.ctl = s.ctl := h .ctl ctl
  exact .plain (by rw [ctl]) (fun u => by rw [ctl]) (congrArg Core.mode (h .core core)) (congrArg EqUnit.pendingWrite (h .eq eq))
    (congrArg CueUnit.pendingWrite (h .cue cue)) (h .table table) (congrArg Frame.liveTaken (h .frame frame))

/-- The answer of the unit whose books were open closes them. -/
theorem BooksKeptBut.fill {u : UnitId} {s t : State} (h : BooksKeptBut [u] s t) (idle : u.atWork t = false) (res : Result)
    (data : List Byte) : BooksKept s (fillReservation u res data t) where
  booked v _ booked := by
    have filled := fillReservation_answered u res data t
    have work : v.atWork (fillReservation u res data t) = v.atWork t := by cases v <;> rfl
    by_cases same : v = u
    · subst same
      exact filled.closed (List.mem_singleton.mpr rfl) (work.trans idle)
    · refine filled.booked ?_ (h.booked v (by simpa using same) booked)
      rw [work, decide_eq_true (by simpa using Ne.symm same), Bool.and_true]
  live inv := (h.live inv).congr rfl id

/-- R143: the TABLE unit's operation ends with its answer. -/
theorem endTableOp_books (res : Result) (data : List Byte) (s : State) : BooksKept s (endTableOp res data s) := by
  have dropped : BooksKeptBut [.table] s { s with table := none } :=
    .ofWork (fun u out => by cases u <;> first | rfl | simp at out) fun h => h.congr rfl (by simp [batchOwed])
  exact dropped.fill rfl res data

/-- Notices alone. -/
theorem Answered.booksKept {s t : State} (h : Answered [] s t) (work : WorkKept s t) (table : t.table = s.table)
    (taken : t.frame.liveTaken = s.frame.liveTaken) : BooksKept s t where
  booked u _ := h.booked (by
    by_cases other : u = .table
    · rw [other]; simp [UnitId.atWork, table]
    · simp [work.atWork other])
  live inv := inv.congr taken (by unfold batchOwed; rw [table]; exact id)

/-- R149: writes of which the TABLE unit alone heard. -/
theorem WritesHeard.booksKept {w : TableId → Nat → Prop} {s t : State} (h : WritesHeard w [] s t) (work : WorkKept s t)
    (taken : t.frame.liveTaken = s.frame.liveTaken) : BooksKept s t where
  booked u _ booked := by
    obtain ⟨ends, stands⟩ := h
    by_cases hit : ∃ op, s.table = some op ∧ op.kind = .digest ∧ ∃ n, w op.table n ∧ op.first ≤ n ∧ n < op.next
    · obtain ⟨op, held, kind, written⟩ := hit
      obtain ⟨ended, answered⟩ := ends op held kind written
      refine answered.booked ?_ booked
      by_cases other : u = .table
      · rw [other]; simp [UnitId.atWork, ended]
      · simp [work.atWork other, Ne.symm other]
    · obtain ⟨same, quiet⟩ := stands fun op held kind n written => by
        by_contra inside
        exact hit ⟨op, held, kind, n, written, by omega, by omega⟩
      refine quiet.booked ?_ booked
      by_cases other : u = .table
      · rw [other]; simp [UnitId.atWork, same]
      · simp [work.atWork other]
  live inv := inv.congr taken h.batchOwed

end Sys2Proof.Machine

namespace Sys2Proof.Machine
-- One proof at a time: side by side the proofs start more threads than the memory limit allows.
set_option Elab.async false

/-! ## What keeps the books -/

/-! ### The control unit and the TABLE unit -/

theorem queueNotices_books (s : State) : BooksKept s (queueNotices s) := .plain rfl fun u => reservationOf_enqueueNotices u _ _

theorem raiseNotice_books (n : Notice) (s : State) : BooksKept s (raiseNotice n s) := by
  have same := raiseNotice_same n s
  exact (raiseNotice_moved n s).2.booksKept ⟨by rw [same .core (by decide)], by rw [same .eq (by decide)], by rw [same .cue (by decide)]⟩
    (same .table (by decide)) (by rw [same .frame (by decide)])

/-- R164: an answer goes into a held place, which is no reservation. -/
theorem answer_books (rq : Requester) (res : Result) (data : List Byte) (s : State) : BooksKept s (answer rq res data s) :=
  .plain rfl fun u => by
    rw [reservationOf_eq, reservationOf_eq]
    unfold answer
    rw [List.findSome?_map]
    congr 1
    funext p
    cases p <;> rfl

theorem BooksKeptBut.answer {s t : State} (h : BooksKept s t) (rq : Requester) (res : Result) (data : List Byte) :
    BooksKept s (answer rq res data t) := h.trans (answer_books rq res data t)

/-- R161, R162: a place released is a held one. -/
theorem releasePlace_books (s : State) : BooksKept s (releasePlace s) :=
  .plain rfl fun u => by
    unfold releasePlace
    induction s.ctl.queue with
    | nil => rfl
    | cons p q ih =>
      rw [reservationOf_eq, reservationOf_eq] at ih ⊢
      cases p with
      | held rq => exact ih
      | packet p => exact ih
      | reservation rq =>
        rw [List.filter_cons_of_pos rfl, List.findSome?_cons, List.findSome?_cons, ih]

theorem reportWrites_books (d : TableId) (is : List Nat) (s : State) : BooksKept s (reportWrites d is s) := by
  have same := reportWrites_same d is s
  exact (reportWrites_heard d is s).booksKept ⟨by rw [same .core (by decide)], by rw [same .eq (by decide)], by rw [same .cue (by decide)]⟩
    (by rw [same .frame (by decide)])

theorem abortTableOp_books (s : State) : BooksKept s (abortTableOp s) := by
  unfold abortTableOp
  split
  · exact .refl [] s
  · split <;> exact endTableOp_books _ _ s

/-! ### A step of the TABLE unit's operation (R142, R145, R146, R148) -/

theorem TableOp.step_le_batch (op : TableOp) : op.step ≤ 8 := by
  have pace : op.pace ≤ 8 := by
    unfold TableOp.pace batchSize
    split <;> decide
  exact (Nat.min_le_left _ _).trans pace

/-- R142: the entries of a step for which there is room are counted, and no batch is owed after it. -/
theorem LiveInv.counted {s t : State} {op : TableOp} (h : LiveInv s)
    (room : op.table.inMemory = false → s.port.lock = .locked → s.frame.liveTaken + op.step ≤ 8)
    (frame : t.frame = (countLive op.table op.step s).frame) (settled : batchOwed t = false) : LiveInv t := by
  refine (liveInv_iff t).mpr ⟨?_, fun owed => by rw [settled] at owed; cases owed⟩
  rw [frame, countLive_frame]
  dsimp only
  split
  next live => exact room live.1 live.2
  · exact h.taken

theorem countLive_booked {u : UnitId} {s : State} (d : TableId) (n : Nat) (booked : u.Booked s) : u.Booked (countLive d n s) := by
  unfold countLive
  split
  · exact ⟨booked.reservation, booked.work⟩
  · exact booked

/-- A step of the operation in hand, an access to table memory or an owed batch. -/
theorem stepTableOp_books {op : TableOp} {s : State} (held : s.table = some op) (free : op.table.inMemory = true ∨ op.batchDue = true) :
    BooksKept s (stepTableOp op s) where
  booked u out booked := by
    have counted := countLive_booked op.table op.step booked
    unfold stepTableOp finishTableOp
    dsimp only
    split
    · split <;> exact (endTableOp_books _ _ _).booked u out counted
    · refine ⟨counted.reservation, counted.work.trans ?_⟩
      have table : (countLive op.table op.step s).table = some op := (countLive_same _ _ s .table (by decide)).trans held
      cases u <;> first | rfl | exact congrArg Option.isSome table
  live h := by
    refine h.counted (fun live _ => ?_) (stepTableOp_frame op s) (by simpa using stepTableOp_batch op s)
    have none : s.frame.liveTaken = 0 := h.batch op held (free.resolve_left (by simp [live]))
    rw [none, Nat.zero_add]
    exact op.step_le_batch

theorem takeBatch_books (s : State) : BooksKept s (takeBatch s) := by
  unfold takeBatch
  split
  next op held =>
    split
    next due => exact stepTableOp_books held (.inr due)
    · exact .refl [] s
  · exact .refl [] s

/-! ### Runners -/

theorem onRunner_books (r : RunnerNo) (f : Runner → Runner) (s : State) : BooksKept s (onRunner r f s) := .plain

theorem setRequests_books (r : RunnerNo) (v : Int) (ms : Nat) (srcs : List Source) (s : State) :
    BooksKept s (setRequests r v ms srcs s) := by
  have same := setRequests_same r v ms srcs s
  have ctl : (setRequests r v ms srcs s).ctl = s.ctl := same .ctl (by decide)
  exact .plain (by rw [ctl]) (fun u => by rw [ctl]) (by rw [same .core (by decide)]) (by rw [same .eq (by decide)])
    (by rw [setRequests_cue, onRunner_cue]) (same .table (by decide)) (by rw [same .frame (by decide)])

theorem startWindow_books (r : RunnerNo) (s : State) : BooksKept s (startWindow r s) :=
  startEntry_rel (R := BooksKept) r .trans (fun f s _ => onRunner_books r f s) (setRequests_books r) raiseNotice_books _ s

theorem completeEntry_books (r : RunnerNo) (s : State) : BooksKept s (completeEntry r s) :=
  (onRunner_books r _ s).trans (startWindow_books r _)

theorem completeWait_books (r : RunnerNo) (b : Bool) (s : State) : BooksKept s (completeWait r b s) :=
  (onRunner_books r _ s).trans (completeEntry_books r _)

theorem fetchWindow_books (r : RunnerNo) (s : State) : BooksKept s (fetchWindow r s) :=
  (onRunner_books r _ s).trans (startWindow_books r _)

theorem takeStep_books (r : RunnerNo) (s : State) : BooksKept s (takeStep r s) := by
  unfold takeStep
  split
  · exact completeEntry_books r s
  · exact .refl [] s

theorem takeTimeout_books (r : RunnerNo) (s : State) : BooksKept s (takeTimeout r s) := by
  unfold takeTimeout
  split
  · exact completeWait_books r true s
  · exact .refl [] s

theorem haltRunner_books (r : RunnerNo) (s : State) : BooksKept s (haltRunner r s) :=
  (onRunner_books r _ s).trans (setRequests_books r _ _ _ _)

theorem haltBoth_books (s : State) : BooksKept s (haltBoth s) := (haltRunner_books 0 s).trans (haltRunner_books 1 _)

theorem abortCueWrite_books (s : State) : BooksKept s (abortCueWrite s) := by
  unfold abortCueWrite
  split
  · exact .refl [] s
  · have dropped : BooksKeptBut [.cue] s { s with cue := { s.cue with pendingWrite := none } } :=
      .ofWork (fun u out => by cases u <;> first | rfl | simp at out) fun h => h.congr rfl id
    exact dropped.fill rfl _ _

theorem cueDisable_books (s : State) : BooksKept s (cueDisable s) := (abortCueWrite_books s).trans (haltBoth_books _)

theorem cueReset_books (s : State) : BooksKept s (cueReset s) :=
  (cueDisable_books s).trans ((onRunner_books 0 _ _).trans (onRunner_books 1 _ _))

/-! ### The SDV unit -/

theorem setSdvState_books (st : SdvState) (s : State) : BooksKept s (setSdvState st s) := by
  unfold setSdvState
  split
  · exact .refl [] s
  · exact (raiseNotice_books _ _).after

theorem adoptBoost_books (b : Int) (s : State) : BooksKept s (adoptBoost b s) := .ofSame (adoptBoost_same b s)

theorem adoptAfterState_books (b : Int) (st : SdvState) (s : State) : BooksKept s (adoptBoost b (setSdvState st s)) :=
  (setSdvState_books st s).trans (adoptBoost_books b _)

theorem stateThenManual_books (b : Int) (st : SdvState) (m : Option Nat) (s : State) :
    BooksKept s (adoptBoost b { setSdvState st s with sdv := { (setSdvState st s).sdv with manual := m } }) :=
  (setSdvState_books st s).trans (adoptBoost_books b _).after

theorem takeStateByAge_books (s : State) : BooksKept s (takeStateByAge s) := by
  rw [takeStateByAge_adopts_boostByAge]
  exact adoptAfterState_books _ _ s

theorem compareAge_books (s : State) : BooksKept s (compareAge s) := by
  cases age : s.sdv.age with
  | none => unfold compareAge; rw [age]; exact .refl [] s
  | some a =>
    rw [compareAge_eq age]
    split
    · exact adoptAfterState_books _ _ s
    · split
      · exact setSdvState_books _ s
      · exact .refl [] s

theorem takeTick_books (s : State) : BooksKept s (takeTick s) := by
  unfold takeTick ageRise
  split
  · split
    · exact .plain
    · split
      · exact .plain
      · exact (compareAge_books _).after
  · exact .refl [] s

theorem speedReport_books (v : Nat) (valid : Bool) (s : State) : BooksKept s (speedReport v valid s) := by
  unfold speedReport acceptReport
  split
  · exact .plain
  · exact .refl [] s
  · dsimp only
    split
    · split
      · exact (adoptBoost_books _ _).after
      · exact .plain
    · exact (adoptAfterState_books _ _ _).after

theorem sdvEnable_books (s : State) : BooksKept s (sdvEnable s) := by
  unfold sdvEnable
  split
  · exact .refl [] s
  · exact takeStateByAge_books s

/-! ### The EQ unit and the change sets -/

theorem reportSections_books (is : List SectionNo) (s : State) : BooksKept s (reportSections is s) := reportWrites_books _ _ s

/-- Sections put into a state, and the report of it. -/
theorem putStates_books (is : List SectionNo) (st : SectionState) (c : Commit) (s : State) :
    BooksKept s (reportSections is { s with eq := s.eq.putStates is st, commit := c }) := by
  refine BooksKept.after (reportSections_books _ _) (.plain (pending := ?_))
  show (s.eq.putStates is st).pendingWrite = s.eq.pendingWrite
  rw [EqUnit.putStates_eq]

theorem flushQueue_books (s : State) : BooksKept s (flushQueue s) := putStates_books _ _ { s.commit with queue := [] } s

theorem acceptSet_books (rs : List ChangeRecord) (notify : Bool) (s : State) : BooksKept s (acceptSet rs notify s) :=
  putStates_books _ _ { s.commit with
    staging := []
    queue := s.commit.queue ++ [{ number := s.commit.counter, records := rs, notify := notify, wait := .none }]
    counter := s.commit.counter + 1 } s

theorem endSlot_books (i : Fin 4) (s : State) : BooksKept s (endSlot i s) := by
  have same := endSlot_same i s
  exact (endSlot_heard i s).booksKept ⟨by rw [same .core (by decide)], by rw [(endSlot_eq i s).1], by rw [same .cue (by decide)]⟩
    (by rw [same .frame (by decide)])

theorem takeFadeEnd_books (i : Fin 4) (s : State) : BooksKept s (takeFadeEnd i s) := by
  unfold takeFadeEnd
  split
  · exact endSlot_books i s
  · exact .refl [] s

/-- R82: the write that is granted is no longer pending. -/
theorem completeSectionWrite_books (w : SectionWrite) (s : State) : BooksKept s (completeSectionWrite w s) := by
  have dropped : BooksKeptBut [.eq] s { s with eq := { s.eq with
      sections := s.eq.sections.set w.sec { s.eq.sections[w.sec] with coeffs := w.coeffs, state := .loaded }, pendingWrite := none } } :=
    .ofWork (fun u out => by cases u <;> first | rfl | simp at out) fun h => h.congr rfl id
  refine (dropped.trans ((reportSections_books _ _).but [.eq])).fill ?_ _ _
  show (reportSections _ _).eq.pendingWrite.isSome = false
  rw [reportSections_eq]
  rfl

/-- R87. -/
theorem abortSectionWrite_books (s : State) : BooksKept s (abortSectionWrite s) := by
  unfold abortSectionWrite
  split
  · exact .refl [] s
  next w _ =>
    dsimp only
    have dropped : ∀ e : EqUnit, BooksKeptBut [.eq] s { s with eq := { e with pendingWrite := none } } := fun e =>
      .ofWork (fun u out => by cases u <;> first | rfl | simp at out) fun h => h.congr rfl id
    refine ((dropped _).trans ((reportSections_books _ _).but [.eq])).fill ?_ _ _
    show (reportSections _ _).eq.pendingWrite.isSome = false
    rw [reportSections_eq]
    rfl

theorem resetPool_books (s : State) : BooksKept s (resetPool s) :=
  BooksKept.after ((reportSections_books _ _).trans (reportWrites_books _ _ _))

theorem eqReset_books (s : State) : BooksKept s (eqReset s) :=
  ((flushQueue_books s).trans (abortSectionWrite_books _)).trans (resetPool_books _)

theorem EqUnit.swaps_pendingWrite (fade : Bool) : ∀ (cs : List (Output × List SectionNo)) (e : EqUnit),
    (cs.foldl (EqUnit.swap fade) e).pendingWrite = e.pendingWrite
  | [], _ => rfl
  | c :: cs, e => by
    rw [List.foldl_cons, swaps_pendingWrite fade cs]
    unfold EqUnit.swap
    rw [EqUnit.makeLive_eq, EqUnit.putStates_eq]

/-- R69 to R73: a set applied tells the TABLE unit of its writes, and raises notices. -/
theorem applySet_books (q : QueuedSet) (s : State) : BooksKept s (applySet q s) := by
  obtain ⟨st, m, b, gs, -, eq, -⟩ := applySet_eq q s
  have same := applySet_same q s
  rw [eq] at same ⊢
  obtain ⟨-, heard⟩ := appliedWith_told st m b gs q s
  exact heard.booksKept ⟨by rw [appliedWith_core], by rw [appliedWith_eq, EqUnit.swaps_pendingWrite], by rw [same .cue (by decide)]⟩
    (by rw [same .frame (by decide)])

theorem examineHead_books (s : State) : BooksKept s (examineHead s) := by
  unfold examineHead
  split
  · exact .refl [] s
  · split
    · exact applySet_books _ s
    · exact .plain

theorem takeExam_books (s : State) : BooksKept s (takeExam s) := by
  unfold takeExam
  split
  · exact (examineHead_books _).after
  · exact .refl [] s

/-! ### Modes and the boundary -/

theorem resting_books (s : State) : BooksKeptBut [.ctrl] s (resting s) :=
  .ofWork (fun u out => by cases u <;> first | rfl | simp at out) fun h => h.congr rfl id

/-- R15: the entry into STANDBY answers the MODE request. -/
theorem BooksKeptBut.standby {s t : State} (h : BooksKeptBut [.ctrl] s t) : BooksKept s (enterStandby t) := by
  have ended : BooksKept (resting t) (endAllSlots (resting t)) := BooksKept.foldl (fun s i => endSlot_books i s) _ _
  have landed : BooksKeptBut [.ctrl] s (landed t) := (h.trans (resting_books t)).trans ((ended.trans (haltBoth_books _)).but _)
  refine landed.fill ?_ _ _
  show decide ((Machine.landed t).core.mode = .leaving) = false
  rw [(landed_landed t).core]
  rfl

theorem enterStandby_books (s : State) : BooksKept s (enterStandby s) := BooksKeptBut.standby (.refl _ s)

theorem takeLeavingEnd_books (s : State) : BooksKept s (takeLeavingEnd s) := by
  unfold takeLeavingEnd
  split
  · exact enterStandby_books s
  · exact .refl [] s

theorem closeBoundary_books (s : State) : BooksKept s (closeBoundary s) := by
  cases opened : s.frame.opened with
  | none => unfold closeBoundary; rw [opened]; exact .refl [] s
  | some f =>
    have same := closeBoundary_same s
    have composed := composeAll_composes f.eqOn (shut s)
    have composedSame := composeAll_same f.eqOn (shut s)
    have core := closeBoundary_core s
    rw [closeBoundary_opened opened] at same core ⊢
    have kept := transferSlots_same f (composeAll f.eqOn (shut s))
    have ctl := (kept .ctl (by decide)).trans composed.ctl
    have eq := (kept .eq (by decide)).trans composed.eq
    have frame := (kept .frame (by decide)).trans (composedSame .frame (by decide))
    exact .plain (by rw [ctl]; rfl) (fun u => by rw [ctl]; rfl) (by rw [core]) (by rw [eq]; rfl) (by rw [same .cue (by decide)])
      (same .table (by decide)) (by rw [frame]; rfl)

theorem closeIfSettled_books (s : State) : BooksKept s (closeIfSettled s) := by
  unfold closeIfSettled
  split
  · exact .refl [] s
  · exact closeBoundary_books s

theorem takeOwed_books (s : State) : BooksKept s (takeOwed s) := by
  have ramps : BooksKept s ((List.finRange 64).foldl (fun s i => takeRampEnd i s) s) := BooksKept.foldl (fun _ _ => .plain) _ s
  have fades := ramps.trans (BooksKept.foldl (fun s i => takeFadeEnd_books i s) (List.finRange 4) _)
  have first := fades.trans (((takeTick_books _).trans (takeStep_books 0 _)).trans (takeTimeout_books 0 _))
  have runners := first.trans ((takeStep_books 1 _).trans (takeTimeout_books 1 _))
  exact ((runners.trans (takeLeavingEnd_books _)).trans (takeExam_books _)).trans (takeBatch_books _)

theorem finishBoundary_books (s : State) : BooksKept s (finishBoundary s) := by
  unfold finishBoundary
  split
  · exact (takeOwed_books s).trans (closeBoundary_books _)
  · exact .refl [] s

/-- R142, R145: a frame opens with no live entry taken, and a live operation is owed its batch. -/
theorem advanceAll_openFrame_books (up : Vector Sample 32) (s : State) : BooksKept s (advanceAll (openFrame up s)) := by
  have aged := ageAdvance_same (advanceRunners (advanceGains (openFrame up s)))
  have ctl : (advanceAll (openFrame up s)).ctl = s.ctl := aged .ctl (by decide)
  have frame : (advanceAll (openFrame up s)).frame.liveTaken = 0 := congrArg Frame.liveTaken (aged .frame (by decide))
  refine .ofWork (fun u _ => ?work) (fun _ => ?live) (by rw [ctl]) fun u => by rw [ctl]
  case work =>
    by_cases other : u = .table
    · rw [other]
      show Option.isSome (Option.map _ _) = _
      rw [Option.isSome_map, aged .table (by decide)]
      rfl
    · have core : (advanceAll (openFrame up s)).core = (advanceGains (openFrame up s)).core := aged .core (by decide)
      have eq : (advanceAll (openFrame up s)).eq = s.eq.advance := aged .eq (by decide)
      have cue : (advanceAll (openFrame up s)).cue = (advanceRunners (advanceGains (openFrame up s))).cue := aged .cue (by decide)
      have kept : WorkKept s (advanceAll (openFrame up s)) := ⟨by rw [core]; rfl, by rw [eq]; rfl, by rw [cue]; rfl⟩
      exact kept.atWork other
  case live => exact (liveInv_iff _).mpr ⟨by rw [frame]; decide, fun _ => frame⟩

end Sys2Proof.Machine

namespace Sys2Proof.Machine
-- One proof at a time: side by side the proofs start more threads than the memory limit allows.
set_option Elab.async false

/-! ## Every command keeps the books -/

/-! ### The boundary, the lock and the ring port -/

theorem boundaryTaken_books (up : Vector Sample 32) (examine batch : Bool) (s : State) : BooksKept s (boundaryTaken up examine batch s) := by
  have batched : BooksKept s (boundaryTaken up false batch s) := by
    cases batch with
    | false => exact advanceAll_openFrame_books up s
    | true => exact (advanceAll_openFrame_books up s).trans (takeBatch_books _)
  cases examine with
  | false => exact batched
  | true => exact batched.trans (takeExam_books _)

theorem nextFrame_books (missing : Nat) (s : State) : BooksKept s (nextFrame missing s) :=
  (finishBoundary_books s).trans (BooksKept.plain)

theorem syncHunting_books (spacing : Spacing) (s : State) : BooksKept s (syncHunting spacing s) := by
  unfold syncHunting gainLock
  split
  · split
    · exact .plain
    · dsimp only
      split
      · exact (raiseNotice_books _ _).after
      · exact .plain
  · exact .plain

theorem lockLoss_books (s : State) : BooksKept s (lockLoss s) := by
  have dropped : BooksKept s (setFlag .lockLost (dropLock s)) :=
    .ofWork (fun u _ => by cases u <;> rfl) fun _ => (liveInv_iff _).mpr ⟨Nat.zero_le 8, fun _ => rfl⟩
  have left : ∀ u, BooksKept u (lossInLeaving u) := fun u => by
    unfold lossInLeaving
    split
    · exact enterStandby_books u
    · exact .refl [] u
  have aborted : ∀ u, BooksKept u (abortDigest u) := fun u => by
    unfold abortDigest
    split
    · split
      · exact abortTableOp_books u
      · exact .refl [] u
    · exact .refl [] u
  exact (dropped.trans (left _)).trans (aborted _)

/-- A step of the boundary that is taken when it is due, and then the boundary's close. -/
theorem BooksKeptBut.dueThenClose {s u : State} {p : Prop} [Decidable p] (h : BooksKept s u) :
    BooksKept s (if p then closeIfSettled u else s) := by
  split
  · exact h.trans (closeIfSettled_books u)
  · exact .refl [] s

/-- R156, R157: of the control unit assembly changes the flags alone. -/
theorem assemble_ctl (b : Bool) (c : Cell) (s : State) : (assemble b c s).ctl = { s.ctl with flags := (assemble b c s).ctl.flags } := by
  unfold assemble openPacket extendPacket
  repeat' split
  all_goals rfl

theorem lockedCell_books (c : Cell) (s : State) : BooksKept s (lockedCell c s) := by
  have filled : ∀ v, BooksKept v (fillPosition v) := fun v => .ofSame (fillPosition_same v)
  have assembled : ∀ b, BooksKept s (assemble b c s) := fun b => by
    obtain ⟨same, -⟩ := assemble_assembled b c s
    have ctl := assemble_ctl b c s
    exact .plain (by rw [ctl]) (fun u => by rw [ctl]) (by rw [same .core (by decide)]) (by rw [same .eq (by decide)])
      (by rw [same .cue (by decide)]) (same .table (by decide)) (by rw [same .frame (by decide)])
  unfold lockedCell
  split
  · exact filled s
  · split
    · exact (assembled false).trans (filled _)
    · split
      · exact (assembled true).trans BooksKept.plain
      · split
        · exact (filled _).after
        · exact .plain

/-- R159: the head of the queue that is taken is a packet. -/
theorem takeOutgoing_books (s : State) : BooksKept s (takeOutgoing s) := by
  unfold takeOutgoing
  split
  next p q _ queue => exact .plain rfl fun u => by rw [queue]; rfl
  · exact .refl [] s

theorem queueOneNotice_books (s : State) : BooksKept s (queueOneNotice s) := by
  unfold queueOneNotice
  split
  · split
    · exact .plain rfl fun u => reservationOf_append_free (by simp [Place.heldFor])
    · exact .refl [] s
  · exact .refl [] s

/-! ### The grants -/

/-- R140: the port is granted to the TABLE unit for a table of table memory. -/
theorem tableAccess_books {s : State} (granted : mayGrant .table s = true) : BooksKept s (tableAccess s) := by
  unfold tableAccess
  split
  next op held =>
    have memory := inMemory_of_mayGrant granted held
    exact BooksKept.after (stepTableOp_books (s := spendGrant s) held (.inl memory))
  · exact .refl [] s

theorem endTableStep_books (k : TableOpKind) (s : State) : BooksKept s (endTableStep k s) := by
  unfold endTableStep
  split
  · split
    · exact (takeBatch_books s).trans (closeIfSettled_books _)
    · split
      next granted => exact tableAccess_books granted
      · exact .refl [] s
  · exact .refl [] s

theorem completeCueWrite_books (w : CueWrite) (s : State) : BooksKept s (completeCueWrite w s) := by
  have dropped : BooksKeptBut [.cue] s
      { s with cue := { s.cue with mem := writeEntries s.cue.mem w.addr w.entries, pendingWrite := none } } :=
    .ofWork (fun u out => by cases u <;> first | rfl | simp at out) fun h => h.congr rfl id
  refine (dropped.trans ((reportWrites_books _ _ _).but [.cue])).fill ?_ _ _
  show Option.isSome (CueUnit.pendingWrite _) = false
  rw [(reportWrites_same _ _ _) .cue (by decide)]
  rfl

/-! ### The taking of a packet -/

/-- Where `held` tells of the places held in the queue, a step keeps the books; it keeps what is said of live entries anyway. -/
structure BooksKeptIf (held : Prop) (s t : State) : Prop where
  booked : held → ∀ u : UnitId, u.Booked s → u.Booked t
  live : LiveInv s → LiveInv t

theorem BooksKeptBut.given {s t : State} (h : BooksKept s t) (held : Prop) : BooksKeptIf held s t :=
  ⟨fun _ u => h.booked u List.not_mem_nil, h.live⟩

/-- Some place is held, and every place held is of a request of unit `u`. -/
structure HeldFor (u : UnitId) (q : List Place) : Prop where
  some : ∃ rq : Requester, .held rq ∈ q
  unit : ∀ rq : Requester, .held rq ∈ q → rq.unitByte = u.code

/-- R164: places held for requests of `u` become reservations of `u`, and of no other unit. -/
theorem reservationOf_reserved_other {u v : UnitId} (other : v ≠ u) : ∀ {q : List Place},
    (∀ rq : Requester, .held rq ∈ q → rq.unitByte = u.code) → reservationOf v (q.map Place.reserved) = reservationOf v q
  | [], _ => rfl
  | p :: q, unit => by
    have rest := reservationOf_reserved_other other (q := q) fun rq mem => unit rq (List.mem_cons_of_mem p mem)
    cases p with
    | packet p => exact rest
    | reservation rq =>
      show (if rq.unitByte = v.code then some rq else _) = if rq.unitByte = v.code then some rq else _
      rw [rest]
    | held rq =>
      have code : rq.unitByte ≠ v.code := fun same =>
        other (UnitId.code_injective (same.symm.trans (unit rq List.mem_cons_self)))
      exact (if_neg code).trans rest

theorem HeldFor.reserved {u : UnitId} {q : List Place} (held : HeldFor u q) :
    (reservationOf u (q.map Place.reserved)).isSome = true := by
  obtain ⟨⟨rq, mem⟩, unit⟩ := held
  rw [reservationOf_eq, List.findSome?_isSome_iff]
  exact ⟨.reservation rq, List.mem_map.mpr ⟨_, mem, rfl⟩, by simp [Place.heldFor, unit rq mem]⟩

theorem reserve_marker (u v : UnitId) (s : State) : inExecution v (reserve u s) = (decide (v = u) || inExecution v s) := by
  by_cases same : v = u
  · subst same; simp [inExecution, reserve]
  · have apart : ¬ u.marker.val = v.marker.val := fun e => same (UnitId.marker_injective (Fin.ext e.symm))
    simp [inExecution, reserve, same, apart]

theorem reserve_live {u : UnitId} {s : State} (h : LiveInv s) : LiveInv (reserve u s) := h.congr rfl id

theorem reserve_but {u : UnitId} {s : State} (held : HeldFor u s.ctl.queue) : BooksKeptBut [u] s (reserve u s) where
  booked v out booked := by
    have other : v ≠ u := by simpa using out
    have marker : inExecution v (reserve u s) = inExecution v s := by rw [reserve_marker, decide_eq_false other, Bool.false_or]
    have place : reservationOf v (reserve u s).ctl.queue = reservationOf v s.ctl.queue := reservationOf_reserved_other other held.unit
    exact ⟨by rw [marker, place]; exact booked.reservation, marker.trans (booked.work.trans (by cases v <;> rfl))⟩
  live := reserve_live

/-- R164: a unit at work on the request takes the held place as its reservation. -/
theorem BooksKeptBut.reserve {u : UnitId} {s t : State} (h : BooksKeptBut [u] s t) (held : HeldFor u t.ctl.queue)
    (work : u.atWork t = true) : BooksKept s (reserve u t) where
  booked v _ booked := by
    by_cases same : v = u
    · subst same
      have marker : inExecution v (Machine.reserve v t) = true := by rw [reserve_marker, decide_eq_true rfl, Bool.true_or]
      exact ⟨marker.trans held.reserved.symm, marker.trans ((by cases v <;> rfl : v.atWork (Machine.reserve v t) = v.atWork t).trans work).symm⟩
    · exact (h.trans (reserve_but held)).booked v (by simpa using same) booked
  live := reserve_live ∘ h.live

/-- R149: writes leave held places held. -/
theorem HeldFor.reportWrites {u : UnitId} {s : State} (held : HeldFor u s.ctl.queue) (d : TableId) (is : List Nat) :
    HeldFor u (reportWrites d is s).ctl.queue := by
  have filled : ∀ (res : Result) (data : List Byte) (rq : Requester),
      Place.held rq ∈ (endTableOp res data s).ctl.queue ↔ .held rq ∈ s.ctl.queue := fun res data rq => by
    show Place.held rq ∈ s.ctl.queue.map _ ↔ _
    rw [List.mem_map]
    constructor
    · rintro ⟨p, mem, same⟩
      cases p with
      | held rq' => cases same; exact mem
      | packet p => cases same
      | reservation rq' =>
        unfold Place.filled at same
        dsimp only at same
        split at same <;> cases same
    · exact fun mem => ⟨_, mem, rfl⟩
  unfold Machine.reportWrites
  split
  · exact held
  · split
    · obtain ⟨⟨rq, mem⟩, unit⟩ := held
      exact ⟨⟨rq, (filled _ _ rq).mpr mem⟩, fun rq mem => unit rq ((filled _ _ rq).mp mem)⟩
    · exact held

theorem takeOffer_books (o : Offer) (s : State) : BooksKept s (takeOffer o s) := by
  unfold takeOffer
  dsimp only
  split
  · exact .plain rfl fun u => reservationOf_append_free (by simp [Place.heldFor])
  · exact .plain

theorem takePacket_books {row : Option Request} {body : Context → State → State} (hb : ∀ c s, BooksKept s (body c s)) (s : State) :
    BooksKept s (takePacket row body s) := by
  unfold takePacket
  split
  next o _ =>
    split
    · exact ((queueNotices_books s).trans (takeOffer_books o _)).trans (hb o.packet _)
    · exact .refl [] s
  · exact .refl [] s

/-- A packet of a request's row names the request. -/
theorem Context.named_of_row {c : Context} {e : UnitEnables} {q : Request} (h : c.row e = some q) : c.named = some q := by
  unfold Context.row at h
  split_ifs at h with discarded broadcast report
  · cases h
    unfold Context.broadcastReport at report
    simp only [Bool.and_eq_true, decide_eq_true_eq] at report
    exact report.1.1
  · exact h

theorem Context.unit_of_named {c : Context} {q : Request} (h : c.named = some q) : c.requester.unitByte = q.unit.code := by
  unfold Context.named at h
  split at h
  next u named => rw [Request.ofCode_unit h]; exact UnitId.ofByte_code named
  · cases h

theorem firstWith_holds {p : RingPort} {f : Context → Bool} {x : Fin 2 × Context} : ∀ {is : List (Fin 2)},
    p.firstWith f is = some x → f x.2 = true
  | i :: is, h => by
    unfold RingPort.firstWith at h
    split at h
    · split at h
      next kind => cases h; exact kind
      · exact firstWith_holds h
    · exact firstWith_holds h

/-- R161: without a place PART_RESET alone is taken. -/
theorem named_of_unplaced {s : State} {o : Offer} (h : nextOffer s = some o) (unplaced : o.placed = false) :
    o.packet.named = some .partReset := by
  unfold nextOffer at h
  split at h
  · obtain ⟨x, -, rfl⟩ := Option.map_eq_some_iff.mp h
    cases unplaced
  · split at h
    · cases h
    · obtain ⟨x, found, rfl⟩ := Option.map_eq_some_iff.mp h
      have looks := firstWith_holds found
      unfold Context.looksLikePartReset at looks
      simp only [Bool.and_eq_true, decide_eq_true_eq] at looks
      obtain ⟨⟨⟨-, unit⟩, code⟩, -⟩ := looks
      show x.2.named = _
      unfold Context.named
      rw [unit, code]
      rfl

/-- R161: a request that is answered is judged with its place the one held. -/
theorem takeOffer_heldFor {s : State} {o : Offer} {q : Request} {e : UnitEnables} (held : NoHeld s)
    (offered : nextOffer s = some o) (row : o.packet.row e = some q) (answered : q ≠ .partReset) :
    HeldFor q.unit (takeOffer o s).ctl.queue := by
  have named := Context.named_of_row row
  have placed : o.placed = true := by
    cases placed : o.placed with
    | true => rfl
    | false => exact absurd (Option.some.inj (named.symm.trans (named_of_unplaced offered placed))) answered
  have queue : (takeOffer o s).ctl.queue = s.ctl.queue ++ [.held o.packet.requester] := by
    unfold takeOffer
    rw [if_pos placed]
    rfl
  rw [queue]
  refine ⟨⟨_, List.mem_append_right _ (List.mem_singleton.mpr rfl)⟩, fun rq mem => ?_⟩
  rcases List.mem_append.mp mem with before | last
  · cases held _ before
  · cases List.mem_singleton.mp last
    exact Context.unit_of_named named

/-- R164: a request that may convert its place acts on the state in which that place is held. -/
theorem takePacket_booked {q : Request} (answered : q ≠ .partReset) {body : Context → State → State}
    (hb : ∀ c s, HeldFor q.unit s.ctl.queue → ∀ u : UnitId, u.Booked s → u.Booked (body c s)) {s : State} (held : NoHeld s)
    (u : UnitId) (booked : u.Booked s) : u.Booked (takePacket (some q) body s) := by
  unfold takePacket
  split
  next o offered =>
    split
    next row =>
      have taken := ((queueNotices_books s).trans (takeOffer_books o _)).booked u List.not_mem_nil booked
      exact hb o.packet _ (takeOffer_heldFor (queueNotices_noHeld held) offered row answered) u taken
    · exact booked
  · exact booked

theorem takePacket_live {row : Option Request} {body : Context → State → State} (hb : ∀ c s, LiveInv s → LiveInv (body c s)) {s : State}
    (live : LiveInv s) : LiveInv (takePacket row body s) := by
  unfold takePacket
  split
  next o _ =>
    split
    · exact hb o.packet _ (((queueNotices_books s).trans (takeOffer_books o _)).live live)
    · exact live
  · exact live

theorem decodeThen_books {q : Request} {body : Requester → List Byte → State → State} (hb : ∀ rq data s, BooksKept s (body rq data s))
    (c : Context) (s : State) : BooksKept s (decodeThen q body c s) := by
  unfold decodeThen
  split
  · exact answer_books _ _ _ s
  · exact hb _ _ s

/-- R163: a request that passes the decode finds its unit out of execution, or may disregard it. -/
theorem passes_of_decodes {q : Request} {n : Nat} {s : State} (h : decodeRefusal q n s = none) : Passes q s := by
  unfold decodeRefusal at h
  split_ifs at h with off long busy
  unfold Passes
  cases passes : q.passesBusy with
  | true => exact .inl rfl
  | false => exact .inr (by simpa [passes] using busy)

theorem decodeThen_booksIf {p : Prop} {q : Request} {body : Requester → List Byte → State → State} {s : State}
    (hb : ∀ rq data, Passes q s → BooksKeptIf p s (body rq data s)) (c : Context) : BooksKeptIf p s (decodeThen q body c s) := by
  unfold decodeThen
  split
  · exact (answer_books _ _ _ s).given p
  next decodes => exact hb _ _ (passes_of_decodes decodes)

/-- The books after the taking of a request that never converts its place. -/
theorem takeRequest_books {q : Request} {body : Requester → List Byte → State → State} (hb : ∀ rq data s, BooksKept s (body rq data s))
    {s t : State} (h : takeRequest q body s = .next t) : BooksKeptIf (NoHeld s) s t := by
  cases h
  exact (takePacket_books (decodeThen_books hb) s).given _

/-- The books after the taking of a request that may convert its place. -/
theorem takeRequest_booksIf {q : Request} {body : Requester → List Byte → State → State}
    (hb : ∀ rq data s, Passes q s → BooksKeptIf (HeldFor q.unit s.ctl.queue) s (body rq data s)) {s t : State}
    (h : takeRequest q body s = .next t) (answered : q ≠ .partReset := by decide) : BooksKeptIf (NoHeld s) s t := by
  cases h
  exact ⟨takePacket_booked answered fun c s held => (decodeThen_booksIf (fun rq data => hb rq data s) c).booked held,
    takePacket_live fun c s => (decodeThen_booksIf (fun rq data => hb rq data s) c).live⟩

end Sys2Proof.Machine

namespace Sys2Proof.Machine
-- One proof at a time: side by side the proofs start more threads than the memory limit allows.
set_option Elab.async false

/-! ### The books after each request (R163, R164) -/

section
variable (on : Bool) (s : State)

theorem enableEq_books : BooksKept s (enableEq on s) := by
  unfold enableEq
  dsimp only
  split
  · exact (abortSectionWrite_books _).after
  · exact .plain

theorem enableSdv_books : BooksKept s (enableSdv on s) := by
  unfold enableSdv
  dsimp only
  split
  · exact .plain
  · split
    · exact (sdvEnable_books _).after
    · exact (stateThenManual_books 0 .off none _).after

theorem enableCue_books : BooksKept s (enableCue on s) := by
  unfold enableCue
  dsimp only
  split
  · exact (cueDisable_books _).after
  · exact .plain

theorem enableTable_books : BooksKept s (enableTable on s) := by
  unfold enableTable
  dsimp only
  split
  · exact (abortTableOp_books _).after
  · exact .plain

end

theorem resetUnit_books (u : UnitId) (s : State) : BooksKept s (resetUnit u s) := by
  cases u with
  | ctrl => exact .refl [] s
  | stage => exact (flushQueue_books _).after
  | eq => exact eqReset_books s
  | sdv => exact (adoptAfterState_books _ _ _).after
  | cue => exact cueReset_books s
  | table => exact abortTableOp_books s

/-- R172: the reset leaves no place, no marker and nothing a unit is at work on; the frame's count stands. -/
theorem UnitId.Booked.ofReset {t : State} (ctl : t.ctl = Control.reset) (core : t.core = Core.reset) (eq : t.eq = EqUnit.reset)
    (cue : t.cue = CueUnit.reset) (table : t.table = none) (u : UnitId) : u.Booked t := by
  have marker : inExecution u t = false := by unfold inExecution; rw [ctl]; simp [Control.reset]
  refine ⟨by rw [marker, ctl]; rfl, marker.trans ?_⟩
  unfold UnitId.atWork
  cases u with
  | ctrl => rw [core]; rfl
  | eq => rw [eq]; rfl
  | cue => rw [cue]; rfl
  | table => rw [table]; rfl
  | stage => rfl
  | sdv => rfl

theorem partReset_books (s : State) : BooksKept s (partReset s) where
  booked u _ _ := .ofReset rfl rfl rfl rfl rfl u
  live h := h.congr rfl fun owed => by cases owed

theorem powerOn_books (strap : Nat) (s : State) : BooksKept s (powerOn strap s) where
  booked u _ _ := .ofReset rfl rfl rfl rfl rfl u
  live _ := (liveInv_iff _).mpr ⟨Nat.zero_le 8, fun _ => rfl⟩

theorem judgeUnknown_books (c : Context) (s : State) : BooksKept s (judgeUnknown c s) := by
  have flagged : ∀ f, BooksKept s (setFlag f s) := fun _ => .plain
  unfold judgeUnknown refuseUnknown
  split
  · exact (flagged _).trans (releasePlace_books _)
  · split
    · exact releasePlace_books s
    · split
      · exact (flagged _).answer _ _ _
      · split
        · exact (flagged _).answer _ _ _
        · exact answer_books _ _ _ s

section
variable (rq : Requester) (data : List Byte) (s : State)

theorem bodyReadStatus_books : BooksKept s (bodyReadStatus rq data s) := by
  unfold bodyReadStatus
  split
  · exact answer_books _ _ _ s
  · refine BooksKeptBut.answer ?_ _ _ _
    split
    · exact .plain
    · exact .refl [] s

theorem bodyUnitEnable_books : BooksKept s (bodyUnitEnable rq data s) := by
  unfold bodyUnitEnable
  split
  · exact answer_books _ _ _ s
  next eq sdv cue table _ =>
    split
    · exact answer_books _ _ _ s
    · exact ((((enableEq_books eq s).trans (enableSdv_books sdv _)).trans (enableCue_books cue _)).trans (enableTable_books table _)).answer
        _ _ _

theorem bodyUnitReset_books : BooksKept s (bodyUnitReset rq data s) := by
  unfold bodyUnitReset
  split
  · exact answer_books _ _ _ s
  · split
    · exact answer_books _ _ _ s
    · split
      · exact answer_books _ _ _ s
      · exact (resetUnit_books _ s).answer _ _ _

theorem bodyNoticeEnable_books : BooksKept s (bodyNoticeEnable rq data s) := by
  unfold bodyNoticeEnable
  split
  · exact answer_books _ _ _ s
  · exact (answer_books _ _ _ _).after

/-- R13: MODE STANDBY in RUN converts its place, and is answered when STANDBY is entered. -/
theorem bodyMode_books (passes : Passes .mode s) : BooksKeptIf (HeldFor .ctrl s.ctl.queue) s (bodyMode rq data s) := by
  have idle : inExecution .ctrl s = false := passes.resolve_left (by decide)
  have moded : ∀ m : Mode, BooksKeptBut [.ctrl] s { s with core := { s.core with mode := m } } := fun m =>
    .ofWork (fun u out => by cases u <;> first | rfl | simp at out) fun h => h.congr rfl id
  unfold bodyMode
  split
  · exact (answer_books _ _ _ s).given _
  · have entered : BooksKept s { s with core := { s.core with mode := .run } } :=
      ⟨fun u _ booked => by
        by_cases ctrl : u = .ctrl
        · subst ctrl; exact ⟨booked.reservation, idle⟩
        · exact (moded .run).booked u (by simpa using ctrl) booked, (moded .run).live⟩
    exact (entered.answer _ _ _).given _
  · split
    next run =>
      unfold leaveRun
      dsimp only
      split
      · have live : LiveInv s → LiveInv (reserve .ctrl { s with core := { s.core with mode := .leaving } }) := reserve_live ∘ (moded .leaving).live
        exact ⟨fun held u => ((moded .leaving).reserve held rfl).booked u List.not_mem_nil, live⟩
      · exact ⟨fun held u => (reserve_but held).standby.booked u List.not_mem_nil, (enterStandby_books _).live ∘ reserve_live⟩
    · exact (answer_books _ _ _ s).given _

theorem bodySlotMap_books : BooksKept s (bodySlotMap rq data s) := by
  unfold bodySlotMap
  split
  · exact answer_books _ _ _ s
  · dsimp only
    split
    · exact answer_books _ _ _ s
    · split
      · exact answer_books _ _ _ s
      · split
        · exact answer_books _ _ _ s
        · split
          · exact answer_books _ _ _ s
          · split
            · exact answer_books _ _ _ s
            · refine BooksKeptBut.answer ?_ _ _ _
              unfold setMap
              split <;> exact .plain

theorem bodyStageRecord_books : BooksKept s (bodyStageRecord rq data s) := by
  unfold bodyStageRecord stageClose stageOpen
  split
  · exact answer_books _ _ _ s
  · exact answer_books _ _ _ s
  · split
    · split
      · exact answer_books _ _ _ s
      · split
        · exact answer_books _ _ _ s
        · split
          · exact (answer_books _ _ _ _).after
          · exact (acceptSet_books _ _ s).answer _ _ _
    · split
      · exact (answer_books _ _ _ _).after
      · exact answer_books _ _ _ s

/-- R82: the section write waits with its reservation. -/
theorem startSectionWrite_books (sec : SectionNo) (kind : WriteKind) (c : Coeffs) {s t : State} (h : BooksKept s t)
    (queue : t.ctl.queue = s.ctl.queue) : BooksKeptIf (HeldFor .eq s.ctl.queue) s (startSectionWrite sec kind c t) := by
  have pending : BooksKeptBut [.eq] t { t with
      eq := { t.eq.putState sec .loading with pendingWrite := some { sec := sec, kind := kind, coeffs := c } }
      cue := { t.cue with cueFirst := t.cue.pendingWrite.isSome } } :=
    .ofWork (fun u out => by cases u <;> first | rfl | simp at out) fun h => h.congr rfl id
  have reported := ((h.but [.eq]).trans pending).trans ((reportSections_books [sec] _).but [.eq])
  refine ⟨fun held u => (reported.reserve ?held ?work).booked u List.not_mem_nil, reserve_live ∘ reported.live⟩
  case held =>
    rw [← queue] at held
    exact HeldFor.reportWrites (s := { t with
      eq := { t.eq.putState sec .loading with pendingWrite := some { sec := sec, kind := kind, coeffs := c } }
      cue := { t.cue with cueFirst := t.cue.pendingWrite.isSome } }) held _ _
  case work =>
    show (reportSections _ _).eq.pendingWrite.isSome = true
    rw [reportSections_eq]
    rfl

theorem bodySectionLoad_books : BooksKeptIf (HeldFor .eq s.ctl.queue) s (bodySectionLoad rq data s) := by
  unfold bodySectionLoad
  split
  · exact (answer_books _ _ _ s).given _
  · split
    · exact (answer_books _ _ _ s).given _
    · exact startSectionWrite_books _ _ _ .plain rfl

theorem bodySectionWrite_books : BooksKeptIf (HeldFor .eq s.ctl.queue) s (bodySectionWrite rq data s) := by
  unfold bodySectionWrite
  split
  · exact (answer_books _ _ _ s).given _
  · dsimp only
    split
    · exact startSectionWrite_books _ _ _ (.refl [] s) rfl
    · exact (answer_books _ _ _ s).given _

theorem bodySectionRelease_books : BooksKept s (bodySectionRelease rq data s) := by
  unfold bodySectionRelease
  dsimp only
  split
  · exact BooksKeptBut.answer (BooksKept.after (reportSections_books _ _)) _ _ _
  · exact answer_books _ _ _ s

theorem takeReport_books (c : Context) : BooksKept s (takeReport c s) := by
  unfold takeReport
  split
  · exact (speedReport_books _ _ s).trans (releasePlace_books _)
  · exact decodeThen_books (fun rq data s => (speedReport_books _ _ s).answer _ _ _) c s

theorem bodySdvConfig_books : BooksKept s (bodySdvConfig rq data s) := by
  unfold bodySdvConfig
  split
  · exact answer_books _ _ _ s
  · exact BooksKeptBut.answer (BooksKept.after (compareAge_books _)) _ _ _

theorem bodySdvManual_books : BooksKept s (bodySdvManual rq data s) := by
  unfold bodySdvManual
  dsimp only
  split
  · exact answer_books _ _ _ s
  · split
    · exact answer_books _ _ _ s
    · exact (stateThenManual_books _ .manual (some _) s).answer _ _ _

theorem bodySdvAuto_books : BooksKept s (bodySdvAuto rq data s) := by
  unfold bodySdvAuto
  split
  · exact BooksKeptBut.answer (BooksKept.after (takeStateByAge_books _)) _ _ _
  · exact answer_books _ _ _ s

/-- R132: the cue write waits with its reservation. -/
theorem bodyCueWrite_books : BooksKeptIf (HeldFor .cue s.ctl.queue) s (bodyCueWrite rq data s) := by
  unfold bodyCueWrite startCueWrite
  dsimp only
  split
  · exact (answer_books _ _ _ s).given _
  · have pending : ∀ (w : CueWrite) (first : Bool),
        BooksKeptBut [.cue] s { s with cue := { s.cue with pendingWrite := some w, cueFirst := first } } := fun w first =>
      .ofWork (fun u out => by cases u <;> first | rfl | simp at out) fun h => h.congr rfl id
    exact ⟨fun held u => ((pending _ _).reserve held rfl).booked u List.not_mem_nil, reserve_live ∘ (pending _ _).live⟩

theorem bodyCueStart_books : BooksKept s (bodyCueStart rq data s) := by
  unfold bodyCueStart
  split
  · exact answer_books _ _ _ s
  · split
    · exact (answer_books _ _ _ _).after
    · exact answer_books _ _ _ s

theorem latchRelease_books (r : RunnerNo) : BooksKept s (latchRelease rq r s) := by
  unfold latchRelease
  split
  · exact answer_books _ _ _ s
  · exact (answer_books _ _ _ _).after

theorem bodyCueRelease_books : BooksKept s (bodyCueRelease rq data s) := by
  unfold bodyCueRelease releaseRunner
  split
  · exact answer_books _ _ _ s
  · split
    · exact (completeWait_books _ _ s).answer _ _ _
    · exact latchRelease_books rq s _
    · exact latchRelease_books rq s _
    · exact answer_books _ _ _ s
    · exact answer_books _ _ _ s

theorem bodyCueHalt_books : BooksKept s (bodyCueHalt rq data s) := by
  unfold bodyCueHalt
  split
  · exact answer_books _ _ _ s
  · exact (haltRunner_books _ s).answer _ _ _

/-- An operation that owes no batch is put in hand. -/
theorem tableOp_but {op : TableOp} (settled : op.batchDue = false) (s : State) : BooksKeptBut [.table] s { s with table := some op } :=
  .ofWork (fun u out => by cases u <;> first | rfl | simp at out) fun h => h.congr rfl fun owed => by
    rw [show batchOwed { s with table := some op } = op.batchDue from rfl, settled] at owed
    cases owed

theorem bodyDigest_books : BooksKeptIf (HeldFor .table s.ctl.queue) s (bodyDigest rq data s) := by
  unfold bodyDigest
  split
  · exact (answer_books _ _ _ s).given _
  · split
    · exact (answer_books _ _ _ s).given _
    · split
      · exact (answer_books _ _ _ s).given _
      · have taken : ∀ (d : TableId) (first count : Nat) (crc : BitVec 16),
            BooksKeptBut [.table] s { s with table := some (freshOp .digest d first count crc) } := fun _ _ _ _ => tableOp_but rfl s
        exact ⟨fun held u => ((taken _ _ _ _).reserve held rfl).booked u List.not_mem_nil, reserve_live ∘ (taken _ _ _ _).live⟩

theorem readOp_settled {data : List Byte} {op : TableOp} (h : readOp data = some op) : op.batchDue = false := by
  unfold readOp at h
  split at h <;> cases h
  rfl

theorem bodyTableRead_booked (held : HeldFor .table s.ctl.queue) (u : UnitId) (booked : u.Booked s) :
    u.Booked (bodyTableRead rq data s) := by
  unfold bodyTableRead startRead
  split
  · exact (answer_books _ _ _ s).booked u List.not_mem_nil booked
  next op found =>
    split
    · exact ((tableOp_but (readOp_settled found) s).reserve held rfl).booked u List.not_mem_nil booked
    · dsimp only
      have counted := countLive_booked op.table op.step booked
      split
      · exact (answer_books _ _ _ _).booked u List.not_mem_nil counted
      · refine ((tableOp_but (op := op.take s) rfl _).reserve ?_ rfl).booked u List.not_mem_nil counted
        rw [← countLive_same op.table op.step s .ctl (by decide)] at held
        exact held

/-- R142, R145: a read that the frame admits takes its first entries, no operation being in hand. -/
theorem bodyTableRead_live {s : State} (live : LiveInv s) (idle : s.table = none)
    (room : ∀ op, readOp data = some op → liveRoom op.table op.step s = true) : LiveInv (bodyTableRead rq data s) := by
  unfold bodyTableRead startRead
  split
  · exact (answer_books _ _ _ s).live live
  next op found =>
    split
    · exact reserve_live ((tableOp_but (readOp_settled found) s).live live)
    · dsimp only
      have admitted : op.table.inMemory = false → s.port.lock = .locked → s.frame.liveTaken + op.step ≤ 8 := fun memory locked => by
        have fits := room op found
        unfold liveRoom batchSize at fits
        simpa [memory, locked] using fits
      split
      · refine live.counted admitted rfl ?_
        show batchOwed (countLive op.table op.step s) = false
        unfold batchOwed
        rw [countLive_same _ _ s .table (by decide), idle]
      · exact live.counted admitted rfl rfl

end

/-! ### TABLE_READ (R142, R145) -/

theorem execTableRead_booked {s t : State} (h : execTableRead s = .next t) (held : NoHeld s) (u : UnitId) (booked : u.Booked s) :
    u.Booked t := by
  cases h
  split
  · exact booked
  · refine takePacket_booked (q := .tableRead) (by decide) (fun c v held u booked => ?_) held u booked
    unfold decodeThen
    split
    · exact (answer_books _ _ _ v).booked u List.not_mem_nil booked
    · exact bodyTableRead_booked _ _ v held u booked

/-- The decode reads the enable map and the markers, which the taking of any packet keeps. -/
theorem decodeRefusal_takeOffer (q : Request) (n : Nat) (o : Offer) (s : State) :
    decodeRefusal q n (takeOffer o (queueNotices s)) = decodeRefusal q n s := by
  unfold takeOffer
  dsimp only
  split <;> rfl

/-- A read that would take too many live entries of the frame waits in its context (entry 28). -/
theorem execTableRead_live {s t : State} (h : execTableRead s = .next t) (busy : BusyInv s) (live : LiveInv s) : LiveInv t := by
  cases h
  split
  · exact live
  next goes =>
    unfold takePacket
    split
    next o offered =>
      split
      next row =>
        have taken : BooksKept s (takeOffer o (queueNotices s)) := (queueNotices_books s).trans (takeOffer_books o _)
        have same : (takeOffer o (queueNotices s)).table = s.table ∧ (takeOffer o (queueNotices s)).frame = s.frame ∧
            (takeOffer o (queueNotices s)).port.lock = s.port.lock := by
          unfold takeOffer
          dsimp only
          split <;> exact ⟨rfl, rfl, rfl⟩
        obtain ⟨table, frame, lock⟩ := same
        unfold decodeThen
        split
        · exact (answer_books _ _ _ _).live (taken.live live)
        next decodes =>
          have booked := taken.booked .table List.not_mem_nil ((busyInv_iff s).mp busy .table)
          have idle : inExecution .table (takeOffer o (queueNotices s)) = false := (passes_of_decodes decodes).resolve_left (by decide)
          have none : (takeOffer o (queueNotices s)).table = none := by simpa [UnitId.atWork] using booked.work.symm.trans idle
          refine bodyTableRead_live _ _ (taken.live live) none fun op found => ?_
          rw [decodeRefusal_takeOffer] at decodes
          have waits : readWaits s = ((readOp o.packet.data).any fun op => !liveRoom op.table op.step s) := by
            unfold readWaits
            rw [offered]
            simp [row, decodes]
          rw [waits, found, Option.any_some, Bool.not_eq_true, Bool.not_eq_false'] at goes
          unfold liveRoom at goes ⊢
          rw [frame, lock]
          exact goes
      · exact live
    · exact live

/-! ### All commands -/

theorem execSyncReceived_books {spacing : Spacing} {s t : State} (h : execSyncReceived spacing s = .next t) : BooksKept s t := by
  cases h
  split
  · exact syncHunting_books spacing s
  · cases spacing
    · exact nextFrame_books 0 s
    · exact .refl [] s

theorem execSyncMissing_books {s t : State} (h : execSyncMissing s = .next t) : BooksKept s t := by
  cases h
  split
  · exact .plain
  · split
    · exact nextFrame_books 1 s
    · exact (finishBoundary_books s).trans (lockLoss_books _)

theorem execFrameBoundary_books {up : Vector Sample 32} {examine batch : Bool} {s t : State}
    (h : execFrameBoundary up examine batch s = .next t) : BooksKept s t := by
  cases due : s.frame.boundaryDue with
  | true =>
    cases h.symm.trans (exec_frameBoundary up batch s examine due)
    exact (boundaryTaken_books up examine batch s).trans (closeIfSettled_books _)
  | false =>
    cases h
    rw [due]
    exact .ofSame (repeatSlots_same up s)

theorem execCueFetchGrant_books {r : RunnerNo} {s t : State} (h : execCueFetchGrant r s = .next t) : BooksKept s t := by
  cases h
  split
  · exact (fetchWindow_books r _).after
  · exact .refl [] s

theorem execSectionWriteGrant_books {s t : State} (h : execSectionWriteGrant s = .next t) : BooksKept s t := by
  cases h
  split
  · split
    · exact (completeSectionWrite_books _ _).after
    · exact .refl [] s
  · exact .refl [] s

theorem execCueWriteGrant_books {s t : State} (h : execCueWriteGrant s = .next t) : BooksKept s t := by
  cases h
  split
  · split
    · exact (completeCueWrite_books _ _).after
    · exact .refl [] s
  · exact .refl [] s

theorem execTableAccessGrant_books {s t : State} (h : execTableAccessGrant s = .next t) : BooksKept s t := by
  cases h
  split
  next granted => exact tableAccess_books granted
  · exact .refl [] s

theorem execControlCell_books {c : Cell} {s t : State} (h : execControlCell c s = .next t) : BooksKept s t := by
  cases h
  split
  · exact .plain
  · split
    · exact (lockedCell_books c _).after
    · exact .refl [] s

theorem exec_books {c : Instr} {s t : State} (busy : BusyInv s) (h : exec c s = .next t) : BooksKeptIf (NoHeld s) s t := by
  cases c with
  | powerOn strap => cases h; exact (powerOn_books strap s).given _
  | syncReceived spacing => exact (execSyncReceived_books h).given _
  | syncMissing => exact (execSyncMissing_books h).given _
  | frameBoundary up examine batch => exact (execFrameBoundary_books h).given _
  | rampComplete i => cases h; exact (BooksKeptBut.dueThenClose .plain).given _
  | crossfadeEnd i => cases h; exact (takeFadeEnd_books i s).dueThenClose.given _
  | leavingEnd => cases h; exact (enterStandby_books s).dueThenClose.given _
  | setApplication => cases h; exact (takeExam_books s).dueThenClose.given _
  | sdvTick => cases h; exact (takeTick_books s).dueThenClose.given _
  | cueFetchGrant r => exact (execCueFetchGrant_books h).given _
  | stepComplete r => cases h; exact (completeEntry_books r s).dueThenClose.given _
  | waitTimeout r => cases h; exact (completeWait_books r true s).dueThenClose.given _
  | sectionWriteGrant => exact (execSectionWriteGrant_books h).given _
  | cueWriteGrant => exact (execCueWriteGrant_books h).given _
  | tableAccessGrant => exact (execTableAccessGrant_books h).given _
  | tableReadComplete => cases h; exact (endTableStep_books .read s).given _
  | digestEnd => cases h; exact (endTableStep_books .digest s).given _
  | controlCell cell => exact (execControlCell_books h).given _
  | outgoingPacketTake => cases h; exact ((queueNotices_books s).trans (takeOutgoing_books _)).given _
  | noticeQueue => cases h; exact (queueOneNotice_books s).given _
  | unknownRequest => cases h; exact (takePacket_books judgeUnknown_books s).given _
  | identify => exact takeRequest_books (fun rq _ s => answer_books rq _ _ s) h
  | readStatus => exact takeRequest_books bodyReadStatus_books h
  | unitEnable => exact takeRequest_books bodyUnitEnable_books h
  | unitReset => exact takeRequest_books bodyUnitReset_books h
  | partReset => exact takeRequest_books (fun _ _ s => partReset_books s) h
  | noticeEnable => exact takeRequest_books bodyNoticeEnable_books h
  | mode => exact takeRequest_booksIf bodyMode_books h
  | slotMap => exact takeRequest_books bodySlotMap_books h
  | stageRecord => exact takeRequest_books bodyStageRecord_books h
  | abortOpen => exact takeRequest_books (fun rq _ s => (answer_books rq _ _ (abortOpen s)).after) h
  | flushQueue => exact takeRequest_books (fun rq _ s => (flushQueue_books s).answer rq _ _) h
  | setStatus => exact takeRequest_books (fun rq _ s => answer_books rq _ _ s) h
  | sectionLoad => exact takeRequest_booksIf (q := .sectionLoad) (fun rq data s _ => bodySectionLoad_books rq data s) h
  | sectionWrite => exact takeRequest_booksIf (q := .sectionWrite) (fun rq data s _ => bodySectionWrite_books rq data s) h
  | sectionRelease => exact takeRequest_books bodySectionRelease_books h
  | poolStatus => exact takeRequest_books (fun rq _ s => (answer_books rq _ _ { s with free := s.free + 1 }).after) h
  | speedReport => cases h; exact (takePacket_books (fun c s => takeReport_books s c) s).given _
  | sdvConfig => exact takeRequest_books bodySdvConfig_books h
  | sdvManual => exact takeRequest_books bodySdvManual_books h
  | sdvAuto => exact takeRequest_books bodySdvAuto_books h
  | sdvStatus => exact takeRequest_books (fun rq _ s => (answer_books rq _ _ { s with free := s.free + 1 }).after) h
  | cueWrite => exact takeRequest_booksIf (q := .cueWrite) (fun rq data s _ => bodyCueWrite_books rq data s) h
  | cueStart => exact takeRequest_books bodyCueStart_books h
  | cueRelease => exact takeRequest_books bodyCueRelease_books h
  | cueHalt => exact takeRequest_books bodyCueHalt_books h
  | cueStatus => exact takeRequest_books (fun rq _ s => answer_books rq _ _ s) h
  | tableRead => exact ⟨execTableRead_booked h, execTableRead_live h busy⟩
  | digest => exact takeRequest_booksIf (q := .digest) (fun rq data s _ => bodyDigest_books rq data s) h

theorem step_books {s t : State} (busy : BusyInv s) (h : step s = .next t) : BooksKeptIf (NoHeld s) s t := by
  unfold step at h
  split at h
  · cases h; exact BooksKeptBut.given (.refl [] s) _
  next c rest pending =>
    have popped : BooksKept s { s with pending := rest } := .plain
    have acted := exec_books ((busyInv_iff _).mpr fun u => popped.booked u List.not_mem_nil ((busyInv_iff s).mp busy u)) h
    exact ⟨fun held u booked => acted.booked held u (popped.booked u List.not_mem_nil booked), acted.live ∘ popped.live⟩

/-- Settles O6: each command keeps the books (`BooksKept`). A unit's reservation, marker and work begin together where its place is
converted (`BooksKeptBut.reserve`) and end together where it is answered (`BooksKeptBut.fill`); live entries are counted where there is
room for them (`LiveInv.counted`). -/
theorem stepKeepsReservations : Obligations.StepKeepsReservations :=
  ⟨fun s t inv busy h => (busyInv_iff t).mpr fun u => (step_books busy h).booked inv.noHeld u ((busyInv_iff s).mp busy u),
    fun _ _ busy live h => (step_books busy h).live live⟩

end Sys2Proof.Machine

/-! ## The decode (R163) -/

namespace Sys2Proof.Machine

set_option Elab.async false

/-- R163: whichever request the decode refuses is answered with the refusal and no data. -/
theorem exec_refused {q : Request} {c : Context} {i : Fin 2} {s : State} {res : Result} (held : NoHeld s) (offered : Offered q c i s)
    (refused : decodeRefusal q c.dataLength s = some res) : exec q.instr s = .next (replied c res [] (afterTake i s)) := by
  cases q with
  | speedReport =>
    change Host.Outcome.next (takePacket (some .speedReport) takeReport s) = _
    rw [takePacket_offered offered.offered offered.row]
    unfold takeReport decodeThen
    rw [if_neg (by simp [offered.request]), decodeRefusal_heldTake, refused]
    exact congrArg _ (answer_heldTake c i res [] held)
  | tableRead =>
    change execTableRead s = _
    unfold execTableRead
    rw [readWaits_of_refused offered refused]
    exact takeRequest_refused offered bodyTableRead refused held
  | _ => exact takeRequest_refused offered _ refused held

theorem decodeRefusal_of_off {q : Request} {s : State} (n : Nat) (off : s.ctl.enabled.allows q.unit = false) :
    decodeRefusal q n s = some .unitOff := by
  unfold decodeRefusal
  rw [if_pos (by simp [off])]

theorem decodeRefusal_of_long {q : Request} {n : Nat} {s : State} (on : ¬ s.ctl.enabled.allows q.unit = false)
    (long : n < q.lengths.1 ∨ q.lengths.2 < n) : decodeRefusal q n s = some .badLength := by
  unfold decodeRefusal
  rw [if_neg (by simpa using on), if_pos long]

theorem passesBusy_eq_false {q : Request} : q.passesBusy = false ↔ q ≠ .readStatus ∧ q ≠ .poolStatus := by
  cases q <;> simp [Request.passesBusy]

theorem decodeRefusal_of_admitted {q : Request} {n : Nat} {s : State} (on : ¬ s.ctl.enabled.allows q.unit = false)
    (admitted : ¬ (n < q.lengths.1 ∨ q.lengths.2 < n)) :
    decodeRefusal q n s = if inExecution q.unit s = true ∧ q ≠ .readStatus ∧ q ≠ .poolStatus then some .busy else none := by
  unfold decodeRefusal
  rw [if_neg (by simpa using on), if_neg admitted]
  simp only [Bool.and_eq_true, Bool.not_eq_true', passesBusy_eq_false, and_comm]

/-- Settles O52: each check of the decode, those before it having passed, decides what is answered; the shortest and the longest
length of the statement are the model's, request by request. -/
theorem decodeRefuses : Obligations.DecodeRefuses := by
  unfold Obligations.DecodeRefuses
  intro q c i s held offered range long off busy
  have admits : range = q.lengths := by cases q <;> rfl
  have long_iff : long ↔ c.dataLength < q.lengths.1 ∨ q.lengths.2 < c.dataLength := by rw [← admits]
  refine ⟨fun isOff => ?unitOff, fun on isLong => ?badLength, fun on fits isBusy => ?busy, fun on fits isFree => ?taken⟩
  case unitOff => exact exec_refused held offered (decodeRefusal_of_off _ isOff)
  case badLength => exact exec_refused held offered (decodeRefusal_of_long on (long_iff.1 isLong))
  case busy =>
    exact exec_refused held offered ((decodeRefusal_of_admitted on (mt long_iff.2 fits)).trans (if_pos isBusy))
  case taken => exact ⟨offered, (decodeRefusal_of_admitted on (mt long_iff.2 fits)).trans (if_neg isFree)⟩

end Sys2Proof.Machine

/-! ## PART_RESET (R172) -/

namespace Sys2Proof.Machine

set_option Elab.async false

/-- R161, R172: PART_RESET is taken with a place and without one alike, and every block goes to its reset values. -/
theorem exec_partReset {c : Context} {i : Fin 2} {placed : Bool} {s : State}
    (offered : nextOffer (queueNotices s) = some { ctx := i, packet := c, placed := placed })
    (named : c.row s.ctl.enabled = some .partReset) (passes : decodeRefusal .partReset c.dataLength s = none) :
    exec .partReset s = .next (partReset (takeOffer { ctx := i, packet := c, placed := placed } (queueNotices s))) := by
  change takeRequest .partReset bodyPartReset s = _
  unfold takeRequest takePacket
  rw [offered]
  dsimp only
  rw [if_pos named]
  unfold decodeThen
  rw [decodeRefusal_takeOffer, passes]
  rfl

/-- What PART_RESET keeps is what the taking of its packet keeps. -/
theorem takeOffer_beside (o : Offer) (s : State) :
    (takeOffer o s).port.ownNode = s.port.ownNode ∧ (takeOffer o s).port.lock = s.port.lock ∧
      (takeOffer o s).port.goodSyncs = s.port.goodSyncs ∧ (takeOffer o s).port.missingSyncs = s.port.missingSyncs ∧
      (takeOffer o s).frame = s.frame ∧ (takeOffer o s).lane = s.lane ∧ (takeOffer o s).free = s.free ∧
      (takeOffer o s).pending = s.pending := by
  unfold takeOffer
  dsimp only
  split <;> exact ⟨rfl, rfl, rfl, rfl, rfl, rfl, rfl, rfl⟩

/-- Settles O60: the reset values are those of power-on, and the parts that are kept the packet's taking keeps too. -/
theorem partResetState : Obligations.PartResetState := by
  unfold Obligations.PartResetState
  intro c i placed s offered named _ passes
  obtain ⟨own, lock, good, missing, beside⟩ := takeOffer_beside { ctx := i, packet := c, placed := placed } (queueNotices s)
  exact ⟨_, exec_partReset offered named passes, .ofReset rfl rfl rfl rfl rfl rfl rfl rfl, own, lock, good, missing, rfl,
    fun src => by simp [partReset, RingPort.powerOn], fun o => by simp [partReset, RingPort.powerOn],
    fun j => by simp [partReset, RingPort.powerOn], beside⟩

end Sys2Proof.Machine

/-! ## IDENTIFY and READ_STATUS (R168) -/

namespace Sys2Proof.Machine

set_option Elab.async false

theorem setFlag_bit_of_above (f : Flag) (s : State) {i : Nat} (above : 10 ≤ i) :
    (setFlag f s).ctl.flags.getLsbD i = s.ctl.flags.getLsbD i := by
  have other : f.bit ≠ i := by cases f <;> simp only [Flag.bit] <;> omega
  rw [setFlag, BitVec.getLsbD_or, BitVec.getLsbD_twoPow, decide_eq_false other, Bool.and_false, Bool.or_false]

theorem mapByte_toNat (a b c d : Bool) : (mapByte a b c d).toNat =
    (if a then 1 else 0) + (if b then 2 else 0) + (if c then 4 else 0) + (if d then 8 else 0) := by
  revert a b c d
  decide

theorem exec_identify {c : Context} {i : Fin 2} {s : State} (held : NoHeld s) (takes : Takes .identify c i s) :
    exec .identify s = .next (replied c .ok [0x0C, 0x98, 0x01, s.port.ownNode.zeroExtend 8] (afterTake i s)) :=
  (takeRequest_takes takes bodyIdentify).trans (congrArg _ (answer_heldTake c i .ok _ held))

theorem exec_readStatus_body {c : Context} {i : Fin 2} {s : State} (takes : Takes .readStatus c i s) :
    exec .readStatus s = .next (bodyReadStatus c.requester c.data (heldTake c i s)) := takeRequest_takes takes bodyReadStatus

/-- R168: the status is that of the state the request came to: the taking of a packet moves nothing it reports. -/
theorem exec_readStatus {c : Context} {i : Fin 2} {clear : Bool} {s : State} (held : NoHeld s) (takes : Takes .readStatus c i s)
    (data : c.data = [bitByte clear]) : exec .readStatus s =
      .next (replied c .ok (statusData s) (if clear then clearFlags (afterTake i s) else afterTake i s)) := by
  have bit : bit01 ([bitByte clear].getD 0 0) = some clear := bit01_eq_some_iff.2 rfl
  rw [exec_readStatus_body takes, data, bodyReadStatus, bit]
  cases clear with
  | false => exact congrArg _ (answer_heldTake c i .ok _ held)
  | true => exact congrArg _ (answer_withHeld c .ok _ (t := clearFlags (afterTake i s)) (afterTake_noHeld i held))

/-- Settles O54: the requests by their bodies, the flag word by its bits. -/
theorem identifyAndReadStatus : Obligations.IdentifyAndReadStatus := by
  unfold Obligations.IdentifyAndReadStatus
  refine ⟨fun c i s held takes => exec_identify held takes, ?status, ?flags, rfl, rfl, fun e => mapByte_toNat _ _ _ _,
    fun e => mapByte_toNat _ _ _ _⟩
  case status =>
    intro c i b s held takes data
    refine ⟨fun zero one => ?_, fun zero => exec_readStatus (clear := false) held takes (data.trans (by rw [zero]; rfl)),
      fun one => exec_readStatus (clear := true) held takes (data.trans (by rw [one]; rfl))⟩
    have none_at : bit01 ([b].getD 0 0) = none := bit01_of_ne zero one
    rw [exec_readStatus_body takes, data, bodyReadStatus, none_at]
    exact congrArg _ (answer_heldTake c i .badValue [] held)
  case flags =>
    intro f s
    exact ⟨by cases f <;> rfl, rfl, fun g => flagSet_setFlag g f s, fun i above => setFlag_bit_of_above f s above⟩

/-! ## Four enable states on the wire (11.3) -/

theorem bit01_bitByte (a : Bool) : bit01 (bitByte a) = some a := bit01_eq_some_iff.2 rfl

theorem parseFour_bitBytes (a b c d : Bool) : parseFour [bitByte a, bitByte b, bitByte c, bitByte d] = some (a, b, c, d) := by
  simp [parseFour, bit01_bitByte]

/-- A byte that is no enable state spoils the four. -/
theorem parseFour_of_bad {w x y z : Byte} (bad : ∃ b ∈ [w, x, y, z], b ≠ 0 ∧ b ≠ 1) : parseFour [w, x, y, z] = none := by
  obtain ⟨b, among, zero, one⟩ := bad
  have none_at : bit01 b = none := bit01_of_ne zero one
  simp only [List.mem_cons, List.not_mem_nil, or_false] at among
  obtain rfl | rfl | rfl | rfl := among <;> simp [parseFour, none_at]

/-! ## NOTICE_ENABLE (R171) -/

/-- Settles O56: the map in force is what the four bytes say, and the place of the request's answer stands apart from the
notices. -/
theorem noticeEnableTakesMap : Obligations.NoticeEnableTakesMap := by
  unfold Obligations.NoticeEnableTakesMap
  intro c i w x y z s held takes data
  have taken : exec .noticeEnable s = .next (bodyNoticeEnable c.requester c.data (heldTake c i s)) :=
    takeRequest_takes takes bodyNoticeEnable
  rw [taken, data]
  unfold bodyNoticeEnable
  refine ⟨fun bad => ?_, fun a b d e bytes => ?_⟩
  · rw [parseFour_of_bad bad]
    exact congrArg _ (answer_heldTake c i .badValue [] held)
  · rw [bytes, parseFour_bitBytes]
    let map : NoticeEnables := { setApplied := a, cueStopped := b, sdvState := d, ringRelocked := e }
    exact congrArg _ (answer_withHeld c .ok _ (t := setNoticeMap map (afterTake i s)) (afterTake_noHeld i held))

end Sys2Proof.Machine

/-! ## The packets of no row (R161 to R163) -/

namespace Sys2Proof.Machine

set_option Elab.async false

theorem UnitId.ofByte_eq_some_iff {b : Byte} {u : UnitId} : UnitId.ofByte b = some u ↔ b = u.code :=
  ⟨UnitId.ofByte_code, fun same => by subst same; cases u <;> rfl⟩

theorem Request.ofCode_code {u : UnitId} {b : Byte} {q : Request} (h : Request.ofCode u b = some q) : b = q.code := by
  unfold Request.ofCode at h
  split at h <;> first | cases h; exact BitVec.eq_of_toNat_eq (by assumption) | cases h

/-- 11.3: the unit and request bytes of a packet name the request whose codes they are. -/
theorem Context.named_eq_some_iff {c : Context} {q : Request} :
    c.named = some q ↔ c.byteAt 1 = q.unit.code ∧ c.byteAt 2 = q.code := by
  unfold Context.named
  constructor
  · intro h
    split at h
    next u named => rw [Request.ofCode_unit h]; exact ⟨UnitId.ofByte_code named, Request.ofCode_code h⟩
    next => cases h
  · intro ⟨unit, code⟩
    rw [UnitId.ofByte_eq_some_iff.2 unit, code]
    cases q <;> rfl

/-- R161 to R163: a packet belongs to the row its bytes name where nothing discards it, a broadcast to that of SPEED_REPORT alone. -/
theorem Context.row_eq_some_iff {c : Context} {e : UnitEnables} {q : Request} :
    c.row e = some q ↔ c.discard = none ∧ c.named = some q ∧
      (c.broadcast = true → q = .speedReport ∧ c.dataLength = 3 ∧ e.sdv = true) := by
  unfold Context.row
  cases discard : c.discard with
  | some f => simp
  | none =>
    cases broadcast : c.broadcast with
    | false => simp
    | true =>
      simp only [Option.isSome_none, Bool.false_eq_true, if_false, if_true, Context.broadcastReport, Bool.and_eq_true,
        decide_eq_true_eq, Option.ite_none_right_eq_some, Option.some.injEq, true_and, forall_const]
      constructor
      · rintro ⟨⟨⟨named, long⟩, on⟩, rfl⟩
        exact ⟨named, rfl, long, on⟩
      · rintro ⟨named, rfl, long, on⟩
        exact ⟨⟨⟨named, long⟩, on⟩, rfl⟩

theorem releasePlace_noHeld {s : State} (held : NoHeld s) : releasePlace s = s := by
  unfold releasePlace
  rw [filter_held held]

/-- The state a packet is judged in: with the place appended for it held at the queue's end, or without one. -/
def judgedIn (placed : Bool) (rq : Requester) (t : State) : State := if placed then withHeld rq t else t

theorem setFlag_judgedIn (f : Flag) (placed : Bool) (rq : Requester) (t : State) :
    setFlag f (judgedIn placed rq t) = judgedIn placed rq (setFlag f t) := by cases placed <;> rfl

theorem releasePlace_judgedIn (placed : Bool) (rq : Requester) {t : State} (held : NoHeld t) :
    releasePlace (judgedIn placed rq t) = t := by
  cases placed with
  | false => exact releasePlace_noHeld held
  | true => exact releasePlace_withHeld rq held

/-- R161: a packet of no row is taken, with a place or without one, and judged. -/
theorem exec_unknownRequest {c : Context} {i : Fin 2} {placed : Bool} {s : State}
    (offered : nextOffer (queueNotices s) = some { ctx := i, packet := c, placed := placed }) (named : c.row s.ctl.enabled = none) :
    exec .unknownRequest s = .next (judgeUnknown c (judgedIn placed c.requester (afterTake i s))) := by
  change Host.Outcome.next (takePacket none judgeUnknown s) = _
  unfold takePacket
  rw [offered]
  dsimp only
  rw [if_pos named]
  cases placed <;> rfl

theorem judgeUnknown_request {c : Context} {t : State} (kept : c.discard = none) (request : c.broadcast = false) :
    judgeUnknown c t = refuseUnknown c t := by
  rw [judgeUnknown, kept]
  exact if_neg (by simp [request])

section
variable {c : Context} {placed : Bool} {t : State} (held : NoHeld t)
include held

theorem judgeUnknown_discarded {f : Flag} (discard : c.discard = some f) :
    judgeUnknown c (judgedIn placed c.requester t) = setFlag f t := by
  rw [judgeUnknown, discard]
  dsimp only
  rw [setFlag_judgedIn, releasePlace_judgedIn _ _ (show NoHeld (setFlag f t) from held)]

theorem judgeUnknown_broadcast (kept : c.discard = none) (broadcast : c.broadcast = true) :
    judgeUnknown c (judgedIn placed c.requester t) = t := by
  rw [judgeUnknown, kept]
  dsimp only
  rw [if_pos broadcast, releasePlace_judgedIn _ _ held]

theorem refuseUnknown_noUnit (noUnit : UnitId.ofByte (c.byteAt 1) = none) :
    refuseUnknown c (withHeld c.requester t) = replied c .unknownUnit [] (setFlag .unknownUnit t) := by
  rw [refuseUnknown, noUnit]
  exact answer_withHeld c .unknownUnit [] (t := setFlag .unknownUnit t) held

theorem refuseUnknown_off {u : UnitId} (unit : UnitId.ofByte (c.byteAt 1) = some u) (off : t.ctl.enabled.allows u = false) :
    refuseUnknown c (withHeld c.requester t) = replied c .unitOff [] t := by
  rw [refuseUnknown, unit]
  exact (if_neg (Bool.eq_false_iff.1 off)).trans (answer_withHeld c .unitOff [] held)

theorem refuseUnknown_on {u : UnitId} (unit : UnitId.ofByte (c.byteAt 1) = some u) (on : t.ctl.enabled.allows u = true) :
    refuseUnknown c (withHeld c.requester t) = replied c .unknownRequest [] (setFlag .unknownRequest t) := by
  rw [refuseUnknown, unit]
  exact (if_pos on).trans (answer_withHeld c .unknownRequest [] (t := setFlag .unknownRequest t) held)

end

theorem Context.tagged_iff (c : Context) :
    c.tagged = true ↔ if c.broadcast then c.byteAt 0 = 255 else c.byteAt 0 ≠ 0 ∧ c.byteAt 0 ≠ 255 := by
  unfold Context.tagged
  split <;> simp

/-- R161: the first of the three steps a packet fails discards it. -/
theorem Context.discard_steps (c : Context) :
    (¬ c.framed = true → c.discard = some .badLength) ∧ (c.framed = true → ¬ c.checked = true → c.discard = some .badCheck) ∧
      (c.framed = true → c.checked = true → ¬ c.tagged = true → c.discard = some .badTag) ∧
      (c.framed = true → c.checked = true → c.tagged = true → c.discard = none) := by
  unfold Context.discard
  cases c.framed <;> cases c.checked <;> cases c.tagged <;> simp

theorem Context.getElem?_byteAt (c : Context) {i : Nat} (inside : i < c.bytes.length) : c.bytes[i]? = some (c.byteAt i) := by
  rw [Context.byteAt, List.getD_eq_getElem _ _ inside, List.getElem?_eq_getElem inside]

/-- Settles O53: the packet is judged in the state that differs from the one once it is taken by its held place alone, which a
discard releases and an answer fills. -/
theorem unknownRequestJudged : Obligations.UnknownRequestJudged := by
  unfold Obligations.UnknownRequestJudged
  refine ⟨?judged, ?packet, rfl, fun b u => UnitId.ofByte_eq_some_iff, checksComputed⟩
  case judged =>
    intro c i placed s held offered named
    have settled := afterTake_noHeld i held
    rw [exec_unknownRequest offered named]
    refine ⟨fun f discard => ?_, fun kept broadcast => ?_, fun kept request hasPlace => ?_⟩
    · rw [judgeUnknown_discarded settled discard]
    · rw [judgeUnknown_broadcast settled kept broadcast]
    · subst hasPlace
      rw [judgeUnknown_request kept request]
      exact ⟨fun noUnit => congrArg _ (refuseUnknown_noUnit settled noUnit),
        fun u unit off => congrArg _ (refuseUnknown_off settled unit off),
        fun u unit on => congrArg _ (refuseUnknown_on settled unit on)⟩
  case packet =>
    intro c long framed checked tagged
    have isFramed : c.framed = true ↔ framed := decide_eq_true_iff
    have isChecked : c.checked = true ↔ checked := decide_eq_true_iff
    have isTagged : c.tagged = true ↔ tagged := c.tagged_iff
    obtain ⟨badLength, badCheck, badTag, kept⟩ := c.discard_steps
    rw [isFramed] at badLength badCheck badTag kept
    rw [isChecked] at badCheck badTag kept
    rw [isTagged] at badTag kept
    refine ⟨badLength, badCheck, badTag, kept, fun i inside => c.getElem?_byteAt inside, rfl, rfl, rfl, fun e q => ?_⟩
    rw [Context.row_eq_some_iff, Context.named_eq_some_iff, and_assoc]
    rfl

end Sys2Proof.Machine

/-! ## The cells of an outgoing packet (R159) -/

namespace Sys2Proof.Machine

set_option Elab.async false

/-- R159: the payload of a cell is the bytes it takes, zero bytes after them. -/
theorem payloadOf_toList {bs : List Byte} (fits : bs.length ≤ 6) :
    (payloadOf bs).toList = bs ++ List.replicate (6 - bs.length) 0 := by
  refine List.ext_getElem (by simp; omega) fun k inPayload inBytes => ?_
  simp only [Vector.getElem_toList, payloadOf, Vector.getElem_ofFn, List.getElem_append, List.getElem_replicate]
  split
  next inside => exact List.getD_eq_getElem _ _ inside
  next beyond => exact List.getD_eq_default _ _ (by omega)

section
variable (dest own : Node) (n : Nat) (first : Bool) {bs : List Byte}

/-- The cell that takes the first bytes of a list. -/
def frontCell (last : Bool) (bs : List Byte) : Cell :=
  { kind := cellKind first last, dest := dest.zeroExtend 8, origin := own.zeroExtend 8, payload := payloadOf (bs.take 6) }

theorem cutCells_last (short : bs.length ≤ 6) : cutCells dest own (n + 1) first bs = [frontCell dest own first true bs] := by
  have done : (bs.drop 6).isEmpty = true := by simpa [List.isEmpty_iff, List.drop_eq_nil_iff] using short
  rw [cutCells, done]
  rfl

theorem cutCells_more (long : 6 < bs.length) : cutCells dest own (n + 1) first bs =
    frontCell dest own first false bs :: cutCells dest own n false (bs.drop 6) := by
  have more : (bs.drop 6).isEmpty = false := by
    rw [Bool.eq_false_iff]
    simpa [List.isEmpty_iff, List.drop_eq_nil_iff] using long
  rw [cutCells, more]
  rfl

end

/-- R159: what is left after the first cell of several. -/
theorem drop_bounds {n : Nat} {bs : List Byte} (long : 6 < bs.length) (fits : bs.length ≤ 6 * (n + 1)) :
    1 ≤ (bs.drop 6).length ∧ (bs.drop 6).length ≤ 6 * n := by
  rw [List.length_drop]
  omega

section
variable {dest own : Node}

theorem cutCells_length : ∀ {n : Nat} {first : Bool} {bs : List Byte}, 1 ≤ bs.length → bs.length ≤ 6 * n →
    (cutCells dest own n first bs).length = (bs.length + 5) / 6
  | 0, _, _, some_byte, fits => absurd fits (by omega)
  | n + 1, first, bs, some_byte, fits => by
    by_cases short : bs.length ≤ 6
    · rw [cutCells_last _ _ _ _ short, List.length_singleton]
      omega
    · have long : 6 < bs.length := Nat.lt_of_not_le short
      obtain ⟨left, leftFits⟩ := drop_bounds long fits
      rw [cutCells_more _ _ _ _ long, List.length_cons, cutCells_length left leftFits, List.length_drop]
      omega

theorem cutCells_payload : ∀ {n : Nat} {first : Bool} {bs : List Byte}, 1 ≤ bs.length → bs.length ≤ 6 * n →
    ((cutCells dest own n first bs).map fun x => x.payload.toList).flatten =
      bs ++ List.replicate (6 * ((bs.length + 5) / 6) - bs.length) 0
  | 0, _, _, some_byte, fits => absurd fits (by omega)
  | n + 1, first, bs, some_byte, fits => by
    by_cases short : bs.length ≤ 6
    · have count : 6 * ((bs.length + 5) / 6) = 6 := by omega
      rw [cutCells_last _ _ _ _ short, count, List.map_singleton, List.flatten_singleton, ← payloadOf_toList short, frontCell,
        List.take_of_length_le short]
    · have long : 6 < bs.length := Nat.lt_of_not_le short
      obtain ⟨left, leftFits⟩ := drop_bounds long fits
      have whole : (bs.take 6).length = 6 := by rw [List.length_take]; omega
      have padding : 6 * (((bs.drop 6).length + 5) / 6) - (bs.drop 6).length = 6 * ((bs.length + 5) / 6) - bs.length := by
        rw [List.length_drop]
        omega
      rw [cutCells_more _ _ _ _ long, List.map_cons, List.flatten_cons, cutCells_payload left leftFits, padding,
        ← List.append_assoc]
      change (payloadOf (bs.take 6)).toList ++ bs.drop 6 ++ _ = _
      rw [payloadOf_toList whole.le, whole, Nat.sub_self, List.replicate_zero, List.append_nil, List.take_append_drop]

theorem cutCells_addressed : ∀ {n : Nat} {first : Bool} {bs : List Byte}, ∀ x ∈ cutCells dest own n first bs,
    x.dest = dest.zeroExtend 8 ∧ x.origin = own.zeroExtend 8
  | 0, _, _, _, among => absurd among List.not_mem_nil
  | n + 1, first, bs, x, among => by
    by_cases short : bs.length ≤ 6
    · rw [cutCells_last _ _ _ _ short] at among
      cases List.mem_singleton.1 among
      exact ⟨rfl, rfl⟩
    · rw [cutCells_more _ _ _ _ (Nat.lt_of_not_le short)] at among
      rcases List.mem_cons.1 among with rfl | among
      · exact ⟨rfl, rfl⟩
      · exact cutCells_addressed x among

/-- 11.1: the only cell, or the first, MIDDLE cells, and the LAST; of cells that follow a FIRST none is first. -/
theorem cutCells_kind : ∀ {n : Nat} {first : Bool} {bs : List Byte}, 1 ≤ bs.length → bs.length ≤ 6 * n →
    (cutCells dest own n first bs).map Cell.kind = if bs.length ≤ 6 then [cellKind first true]
      else cellKind first false :: (List.replicate ((bs.length + 5) / 6 - 2) 3 ++ [4])
  | 0, _, _, some_byte, fits => absurd fits (by omega)
  | n + 1, first, bs, some_byte, fits => by
    by_cases short : bs.length ≤ 6
    · rw [cutCells_last _ _ _ _ short, if_pos short]
      rfl
    · have long : 6 < bs.length := Nat.lt_of_not_le short
      obtain ⟨left, leftFits⟩ := drop_bounds long fits
      rw [cutCells_more _ _ _ _ long, if_neg short, List.map_cons, cutCells_kind left leftFits, List.length_drop]
      refine congrArg (cellKind first false :: ·) ?_
      by_cases two : bs.length - 6 ≤ 6
      · have none_between : (bs.length + 5) / 6 - 2 = 0 := by omega
        rw [if_pos two, none_between]
        rfl
      · have between : (bs.length + 5) / 6 - 2 = (bs.length - 6 + 5) / 6 - 2 + 1 := by omega
        rw [if_neg two, between, List.replicate_succ]
        rfl

end

/-! ## The moves of the reply queue (R159, R166) -/

theorem placeFree_iff {s : State} : placeFree s = true ↔ s.ctl.queue.length < 4 := decide_eq_true_iff

/-- R166: as many of the oldest notices are queued as there are free places. -/
theorem enqueueNotices_eq : ∀ (ns : List Notice) (q : List Place), enqueueNotices ns q =
    (q ++ (ns.take (4 - q.length)).map fun n => .packet (noticePacket n), ns.drop (4 - q.length))
  | [], q => by simp [enqueueNotices]
  | n :: ns, q => by
    unfold enqueueNotices
    by_cases free : q.length < queuePlaces
    · obtain ⟨k, left⟩ : ∃ k, 4 - q.length = k + 1 := ⟨3 - q.length, by change q.length < 4 at free; omega⟩
      have leftNext : 4 - (q ++ [Place.packet (noticePacket n)]).length = k := by
        rw [List.length_append, List.length_singleton]
        omega
      rw [if_pos free, enqueueNotices_eq ns, leftNext, left, List.take_succ_cons, List.drop_succ_cons, List.map_cons,
        List.append_assoc, List.singleton_append]
    · have full : 4 - q.length = 0 := Nat.sub_eq_zero_of_le (Nat.le_of_not_lt free)
      rw [if_neg free, full]
      simp

theorem queueNotices_eq (s : State) : queueNotices s = { s with ctl := { s.ctl with
    queue := s.ctl.queue ++ (s.ctl.notices.take (4 - s.ctl.queue.length)).map fun n => .packet (noticePacket n)
    notices := s.ctl.notices.drop (4 - s.ctl.queue.length) } } := by
  unfold queueNotices
  rw [enqueueNotices_eq]

theorem queueOneNotice_free {n : Notice} {ns : List Notice} {s : State} (pending : s.ctl.notices = n :: ns)
    (free : s.ctl.queue.length < 4) : queueOneNotice s =
      { s with ctl := { s.ctl with queue := s.ctl.queue ++ [.packet (noticePacket n)], notices := ns } } := by
  unfold queueOneNotice
  rw [pending]
  exact if_pos (placeFree_iff.2 free)

theorem queueOneNotice_full {s : State} (full : 4 ≤ s.ctl.queue.length) : queueOneNotice s = s := by
  unfold queueOneNotice
  split
  next => exact if_neg (mt placeFree_iff.1 (by omega))
  next => rfl

theorem queueOneNotice_none {s : State} (noneLeft : s.ctl.notices = []) : queueOneNotice s = s := by
  unfold queueOneNotice
  rw [noneLeft]

theorem takeOutgoing_packet {p : OutPacket} {q : List Place} {s : State} (free : s.port.outgoing = none)
    (head : s.ctl.queue = .packet p :: q) : takeOutgoing s = { s with
      port := { s.port with outgoing := some (packetCells s.port.ownNode p) }
      ctl := { s.ctl with queue := q } } := by
  unfold takeOutgoing
  rw [free, head]

/-- R159, R165: an outgoing packet in hand, or a reservation at the queue's head, holds every packet back. -/
theorem takeOutgoing_heldBack {s : State} (heldBack : s.port.outgoing ≠ none ∨ ∀ p q, s.ctl.queue ≠ .packet p :: q) :
    takeOutgoing s = s := by
  unfold takeOutgoing
  split
  next p q free head => exact absurd heldBack (by simp [free, head])
  next => rfl

/-! ## The bytes of replies and notices (R164, 11.2) -/

/-- R164: bit 7 marks the reply, and below 128 it adds 128. -/
theorem marked_toNat {code : Byte} (low : code.toNat < 128) : (code ||| 0x80).toNat = code.toNat + 128 := by
  have marker : 2 ^ 7 * 1 + code.toNat = 2 ^ 7 * 1 ||| code.toNat := Nat.two_pow_add_eq_or_of_lt low 1
  rw [BitVec.toNat_or, Nat.or_comm, Nat.add_comm]
  exact marker.symm

/-- Settles O14: what is queued and taken by the moves above, the cells of a packet by the recursion that cuts it. -/
theorem replyQueueMoves : Obligations.ReplyQueueMoves := by
  unfold Obligations.ReplyQueueMoves
  refine ⟨fun n ns s pending => ⟨fun free => congrArg _ (queueOneNotice_free pending free),
      fun full => congrArg _ (queueOneNotice_full full)⟩,
    fun p q s free head => congrArg _ (takeOutgoing_packet (s := queueNotices s) free head),
    fun s => ⟨fun noneLeft => congrArg _ (queueOneNotice_none noneLeft),
      fun heldBack => congrArg _ (takeOutgoing_heldBack (s := queueNotices s) heldBack), queueNotices_eq s⟩,
    fun own p some_byte fits => ⟨cutCells_length some_byte fits, cutCells_payload some_byte fits, cutCells_addressed,
      cutCells_kind some_byte fits⟩,
    fun rq res data => ⟨rfl, marked_toNat, toNat_byteOf⟩, fun n => ⟨rfl, ?_⟩, rfl, checksComputed⟩
  cases n with
  | cueStopped r reason a => cases reason <;> rfl
  | sdvState st => cases st <;> rfl
  | _ => rfl

end Sys2Proof.Machine

/-! ## Operations abandoned (R87, R133, R150) -/

namespace Sys2Proof.Machine

set_option Elab.async false

section
variable {s : State}

/-- R150: the operation at hand is answered ABORTED. -/
theorem abortTableOp_some {op : TableOp} (held : s.table = some op) :
    abortTableOp s = endTableOp .aborted op.abandoned.data s := by
  unfold abortTableOp
  rw [held]
  dsimp only
  split
  next kind => simp only [TableOp.abandoned, kind]; rfl
  next kind => simp only [TableOp.abandoned, kind]

theorem abortTableOp_none (idle : s.table = none) : abortTableOp s = s := by
  unfold abortTableOp
  rw [idle]

theorem abortTableOp_ended (s : State) : (abortTableOp s).table = none ∧
    Answered (s.table.toList.map TableOp.abandoned) s (abortTableOp s) ∧ NoNotice s (abortTableOp s) := by
  cases held : s.table with
  | none =>
    rw [abortTableOp_none held]
    exact ⟨held, .refl s, .refl s⟩
  | some op =>
    rw [abortTableOp_some held]
    obtain ⟨answered, ended, quiet⟩ := endTableOp_answered .aborted op.abandoned.data s
    exact ⟨ended, answered, quiet⟩

theorem abortTableOp_noNotice (s : State) : NoNotice s (abortTableOp s) := by
  obtain ⟨-, -, quiet⟩ := abortTableOp_ended s
  exact quiet

/-- R133: the pending cue write is answered ABORTED. -/
theorem abortCueWrite_ended (s : State) : (abortCueWrite s).cue = { s.cue with pendingWrite := none } ∧
    Answered s.cue.abandoned s (abortCueWrite s) ∧ NoNotice s (abortCueWrite s) := by
  unfold abortCueWrite
  split
  next idle =>
    have cue : s.cue = { s.cue with pendingWrite := none } := by rw [← idle]
    have nothing : s.cue.abandoned = [] := by rw [CueUnit.abandoned, idle]; rfl
    rw [nothing]
    exact ⟨cue, .refl s, .refl s⟩
  next w pending =>
    have answer : s.cue.abandoned =
        [{ unit := .cue, res := .aborted, data := [byteOf w.addr.val, byteOf w.entries.length] }] := by
      rw [CueUnit.abandoned, pending]
      rfl
    rw [answer]
    exact ⟨rfl, (fillReservation_answered .cue .aborted _ _).of_ctl rfl rfl, fillReservation_noNotice .cue .aborted _ _⟩

/-- R87: the EQ unit without its pending write. -/
def EqUnit.abandonWrite (e : EqUnit) (w : SectionWrite) : EqUnit :=
  { (match w.kind with
      | .load => (e.putState w.sec .free).markFree w.sec
      | .rewrite => e.putState w.sec .loaded) with pendingWrite := none }

theorem EqUnit.abandonWrite_kept (e : EqUnit) (w : SectionWrite) :
    (e.abandonWrite w).chains = e.chains ∧ (e.abandonWrite w).slots = e.slots ∧ (e.abandonWrite w).pendingWrite = none := by
  unfold EqUnit.abandonWrite
  cases w.kind <;> exact ⟨rfl, rfl, rfl⟩

theorem EqUnit.abandonWrite_sections (e : EqUnit) (w : SectionWrite) : (e.abandonWrite w).sections = e.sections.set w.sec
    { e.sections[w.sec] with state := match w.kind with | .load => .free | .rewrite => .loaded } := by
  unfold EqUnit.abandonWrite
  cases w.kind <;> rfl

theorem EqUnit.abandonWrite_marked {e : EqUnit} {w : SectionWrite} (load : w.kind = .load) :
    (e.abandonWrite w).marked w.sec = true := by
  have marked : ((e.putState w.sec .free).markFree w.sec).marked w.sec = true := by
    rw [EqUnit.marked_markFree, decide_eq_true rfl, Bool.true_or]
  unfold EqUnit.abandonWrite
  rw [load]
  exact marked

theorem abortSectionWrite_none (idle : s.eq.pendingWrite = none) : abortSectionWrite s = s := by
  unfold abortSectionWrite
  rw [idle]

theorem abortSectionWrite_some {w : SectionWrite} (pending : s.eq.pendingWrite = some w) :
    abortSectionWrite s = fillReservation .eq .aborted [byteOf w.sec.val]
      (reportSections [w.sec] { s with eq := s.eq.abandonWrite w }) := by
  unfold abortSectionWrite
  rw [pending]
  rfl

theorem abortSectionWrite_eq {w : SectionWrite} (pending : s.eq.pendingWrite = some w) :
    (abortSectionWrite s).eq = s.eq.abandonWrite w := by
  rw [abortSectionWrite_some pending]
  exact reportSections_eq [w.sec] _

/-- R87, R88: the section of the write is written, and the request of the write answered ABORTED. -/
theorem abortSectionWrite_heard (s : State) :
    WritesHeard (sectionEntries (pendingSections s.eq)) s.eq.abandoned s (abortSectionWrite s) := by
  cases pending : s.eq.pendingWrite with
  | none =>
    rw [abortSectionWrite_none pending, pendingSections_none pending, EqUnit.abandoned, pending]
    exact .refl (fun d n ⟨_, m, mem, _⟩ => List.not_mem_nil mem) s
  | some w =>
    rw [abortSectionWrite_some pending, pendingSections_some pending, EqUnit.abandoned, pending]
    have heard := reportSections_heard [w.sec] (s := s) (t := { s with eq := s.eq.abandonWrite w }) rfl rfl
    exact heard.thenAnswered (fillReservation_answered .eq .aborted _ _) rfl (by simp)

theorem abortSectionWrite_noNotice (s : State) : NoNotice s (abortSectionWrite s) := by
  cases pending : s.eq.pendingWrite with
  | none => rw [abortSectionWrite_none pending]; exact .refl s
  | some w =>
    rw [abortSectionWrite_some pending]
    have reported : NoNotice s (reportSections [w.sec] { s with eq := s.eq.abandonWrite w }) :=
      (NoNotice.ofCtl rfl).trans (reportWrites_noNotice _ _ { s with eq := s.eq.abandonWrite w })
    exact reported.trans (fillReservation_noNotice _ _ _ _)

/-- R87: chains and slots stand. -/
theorem abortSectionWrite_kept (s : State) : (abortSectionWrite s).eq.chains = s.eq.chains ∧
    (abortSectionWrite s).eq.slots = s.eq.slots := by
  cases pending : s.eq.pendingWrite with
  | none => rw [abortSectionWrite_none pending]; exact ⟨rfl, rfl⟩
  | some w =>
    obtain ⟨chains, slots, -⟩ := s.eq.abandonWrite_kept w
    rw [abortSectionWrite_eq pending]
    exact ⟨chains, slots⟩

/-- R87: so do all sections but that of the write. -/
theorem abortSectionWrite_section {n : SectionNo} (other : ∀ v : SectionWrite, s.eq.pendingWrite = some v → n ≠ v.sec) :
    (abortSectionWrite s).eq.sections[n] = s.eq.sections[n] := by
  cases pending : s.eq.pendingWrite with
  | none => rw [abortSectionWrite_none pending]
  | some w =>
    have apart : w.sec.val ≠ n.val := fun same => other w pending (Fin.ext same.symm)
    rw [abortSectionWrite_eq pending, EqUnit.abandonWrite_sections]
    exact Vector.getElem_set_ne _ _ apart

end

/-! ## The same while a request is judged (R161, R164) -/

section
variable (rq : Requester)

theorem endTableOp_withHeld (res : Result) (data : List Byte) (s : State) :
    endTableOp res data (withHeld rq s) = withHeld rq (endTableOp res data s) := by
  unfold endTableOp
  rw [fillReservation_withHeld]
  rfl

theorem abortTableOp_withHeld (s : State) : abortTableOp (withHeld rq s) = withHeld rq (abortTableOp s) := by
  cases held : s.table with
  | none => rw [abortTableOp_none held]; exact abortTableOp_none held
  | some op => rw [abortTableOp_some held, abortTableOp_some (s := withHeld rq s) held, endTableOp_withHeld]

theorem abortSectionWrite_withHeld (s : State) : abortSectionWrite (withHeld rq s) = withHeld rq (abortSectionWrite s) := by
  cases pending : s.eq.pendingWrite with
  | none => rw [abortSectionWrite_none pending]; exact abortSectionWrite_none pending
  | some w =>
    rw [abortSectionWrite_some pending, abortSectionWrite_some (s := withHeld rq s) pending, ← fillReservation_withHeld]
    exact congrArg _ (reportWrites_withHeld .sections _ rq { s with eq := s.eq.abandonWrite w })

theorem abortCueWrite_withHeld (s : State) : abortCueWrite (withHeld rq s) = withHeld rq (abortCueWrite s) := by
  unfold abortCueWrite
  rw [withHeld_cue]
  split
  · rfl
  · exact fillReservation_withHeld .cue .aborted _ rq { s with cue := { s.cue with pendingWrite := none } }

theorem haltBoth_withHeld (s : State) : haltBoth (withHeld rq s) = withHeld rq (haltBoth s) := by
  rw [haltBoth, haltRunner_withHeld, haltRunner_withHeld]
  rfl

theorem cueDisable_withHeld (s : State) : cueDisable (withHeld rq s) = withHeld rq (cueDisable s) := by
  rw [cueDisable, abortCueWrite_withHeld, haltBoth_withHeld]
  rfl

theorem resetPool_withHeld (s : State) : resetPool (withHeld rq s) = withHeld rq (resetPool s) := by
  have sections := reportWrites_withHeld .sections ((List.finRange 256).map Fin.val) rq
    { s with eq := { s.eq with
        sections := EqUnit.reset.sections, free1 := EqUnit.reset.free1, free0 := EqUnit.reset.free0, chains := EqUnit.reset.chains } }
  exact (congrArg (reportWrites .chains (List.range 24)) sections).trans (reportWrites_withHeld .chains _ rq _)

end

end Sys2Proof.Machine

/-! ## Both runners' halt and the DUCK keys (R45, R130) -/

namespace Sys2Proof.Machine

set_option Elab.async false

section
variable {u v : RampUnit} {k : Key} {i : Fin 64} {m : Mode} {old mid new : Gain} {ms : Nat}

/-- R41: a fresh ramp's present value is its start. -/
theorem Ramp.present_fresh (k : Key) (start : Int) (target : Gain) (n : Nat) :
    Ramp.present { key := k, start := start, target := target, n := n, k := 0, due := false } = start := by
  simp [Ramp.present, Ramp.value]

/-- R38 to R41: a retarget to another value, unless it takes effect at once, leaves the key's present value. -/
theorem retargetedEntry_present (hv : v.Good) (d : Dedicated k i)
    (first : v.entries[i] = retargetedEntry u m k u.entries[i] old mid ms) (moved : mid ≠ old) (ramps : ¬ (m = .standby ∨ ms = 0)) :
    v.present k mid = u.present k old := by
  obtain ⟨mode, long⟩ := not_or.1 ramps
  rw [v.present_eq, hv.rampOf_dedicated d, first, retargetedEntry, if_neg moved]
  by_cases near : u.present k old = mid.qdb
  · rw [if_pos (Or.inr (Or.inr near)), near]
    rfl
  · rw [if_neg (by simp [mode, long, near])]
    exact Ramp.present_fresh k (u.present k old) mid _

/-- R38 to R41: two retargets, one after the other with one duration, are one, unless they come back to the old target. -/
theorem retargetedEntry_twice (hu : u.Good) (hv : v.Good) (d : Dedicated k i)
    (first : v.entries[i] = retargetedEntry u m k u.entries[i] old mid ms) (leaves : mid ≠ old → new ≠ old) :
    retargetedEntry v m k v.entries[i] mid new ms = retargetedEntry u m k u.entries[i] old new ms := by
  by_cases stood : mid = old
  · subst stood
    rw [retargetedEntry_equal] at first
    rw [first, retargetedEntry_congr (hu.present_dedicated hv d first mid)]
  by_cases there : new = mid
  · subst there
    rw [retargetedEntry_equal, first]
  by_cases ramps : m = .standby ∨ ms = 0
  · have once : ∀ p : Prop, m = .standby ∨ ms = 0 ∨ p := fun _ => ramps.imp_right Or.inl
    rw [retargetedEntry, if_neg there, if_pos (once _), retargetedEntry, if_neg (leaves stood), if_pos (once _)]
  · rw [retargetedEntry, if_neg there, retargetedEntry, if_neg (leaves stood), retargetedEntry_present hv d first stood ramps]

end

section
variable {s : State}

/-- R45: a first halt that moves a target leaves it for 0. -/
theorem haltRunner_leaves (duck : DuckInv s) {src : Source}
    (moved : (haltRunner 0 s).ramp.duckTargets[src] ≠ s.ramp.duckTargets[src]) :
    (haltBoth s).ramp.duckTargets[src] ≠ s.ramp.duckTargets[src] := by
  have silent : ((haltRunner 0 s).cue.runners[(0 : RunnerNo)]).requests[src] = 0 := by
    rw [haltRunner_at]
    simp [Runner.silenced]
  have other : ((haltRunner 0 s).cue.runners[(1 : RunnerNo)]).requests[src] = (s.cue.runners[(1 : RunnerNo)]).requests[src] := by
    rw [haltRunner_cue, onRunner_other (by decide)]
  have held := duck src
  rw [haltRunner_target] at moved
  split at moved
  next => exact absurd rfl moved
  next asked =>
    rw [duckMin_eq, silent, other] at moved
    rw [haltBoth_target, if_neg fun none => asked (none 0)]
    rw [duckMin_eq] at held
    omega

/-- R45: keys retargeted twice with one duration move as by one retarget each, where no target comes back to what it was. -/
theorem DucksMoved.again {ms : Nat} {srcs : List Source} {t u : State} (good : s.ramp.Good) (h : DucksMoved ms srcs s t)
    (k : DucksMoved ms srcs t u)
    (leaves : ∀ src : Source, t.ramp.duckTargets[src] ≠ s.ramp.duckTargets[src] →
      u.ramp.duckTargets[src] ≠ s.ramp.duckTargets[src]) :
    DucksMoved ms srcs s u where
  retargeted src := by
    have last := k.retargeted src
    rw [h.mode] at last
    exact last.trans (retargetedEntry_twice good h.good (Dedicated.duck src) (h.retargeted src) fun moved same =>
      leaves src (fun stood => moved (congrArg Gain.level stood)) (Gain.level.inj same))
  others i out := (k.others i out).trans (h.others i out)
  targets src out := (k.targets src out).trans (h.targets src out)
  good := k.good
  mode := k.mode.trans h.mode

/-- R45, R130: a halt of both runners moves the twelve DUCK keys to 0 as by one retarget each. -/
theorem haltBoth_moved (duck : DuckInv s) (good : s.ramp.Good) : DucksMoved 50 (List.finRange 12) s (haltBoth s) := by
  have first := haltRunner_moved 0 good
  have second := haltRunner_moved 1 first.good
  rw [← haltBoth] at second
  exact first.again good second fun src => haltRunner_leaves duck

/-- R45: both runners halted, every target is 0. -/
theorem haltBoth_silent (duck : DuckInv s) (src : Source) : (haltBoth s).ramp.duckTargets[src] = 0 := by
  have both := haltRunner_duck 1 (haltRunner_duck 0 duck)
  rw [← haltBoth] at both
  exact both.silent (haltBoth_cue s).2 src

end

end Sys2Proof.Machine

/-! ## Writes and answers one after the other (R149, R164) -/

namespace Sys2Proof.Machine

set_option Elab.async false

section
variable {s t u : State} {as bs : List Answer}

/-- R164: where in the order an answer stands among such as were not OK is nothing to the last good tag. -/
theorem Answered.fronted {a : Answer} (h : Answered (as ++ a :: bs) s t) (refused : ∀ x ∈ as, x.res ≠ .ok) :
    Answered (a :: (as ++ bs)) s t := by
  have mem : ∀ x, x ∈ a :: (as ++ bs) ↔ x ∈ as ++ a :: bs := fun x => by
    rw [List.mem_append, List.mem_cons, List.mem_cons, List.mem_append]
    exact or_left_comm
  have noTag : as.filter (fun x => decide (x.res = .ok)) = [] :=
    List.filter_eq_nil_iff.2 fun x among => by simpa using refused x among
  refine ⟨fun i rq x at_i among => h.filled i rq x at_i ((mem x).1 among),
    fun i p at_i other => h.kept i p at_i fun rq same x among => other rq same x ((mem x).2 among), h.appended, fun v => ?_, ?_⟩
  · rw [h.markers v]
    exact congrArg _ (decide_eq_decide.2 ⟨fun all x among => all x ((mem x).1 among), fun all x among => all x ((mem x).2 among)⟩)
  · rw [h.tag, List.filter_append, List.filter_cons, List.filter_cons, List.filter_append, noTag]
    rfl

/-- R149: no entry is written, and units are answered. -/
theorem WritesHeard.ofAnswered (h : Answered as s t) (table : t.table = s.table) : WritesHeard (fun _ _ => False) as s t :=
  ⟨fun _ _ _ ⟨_, wrote, _⟩ => wrote.elim, fun _ => ⟨table, h⟩⟩

/-- R149: writes after writes, with the answers of either; the digest's comes first. -/
theorem WritesHeard.append {v w : TableId → Nat → Prop} (h : WritesHeard v as s t) (k : WritesHeard w bs t u)
    (other : ∀ a ∈ as, ∀ b ∈ bs, a.unit ≠ b.unit) (refused : ∀ a ∈ as, a.res ≠ .ok) (first : ∀ a ∈ as, a.unit ≠ .table)
    (second : ∀ b ∈ bs, b.unit ≠ .table) : WritesHeard (fun d n => v d n ∨ w d n) (as ++ bs) s u := by
  obtain ⟨hEnds, hStands⟩ := h
  obtain ⟨kEnds, kStands⟩ := k
  by_cases early : ∃ op, s.table = some op ∧ op.kind = .digest ∧ ∃ n, v op.table n ∧ op.first ≤ n ∧ n < op.next
  · obtain ⟨op, held, digest, n, wrote, low, high⟩ := early
    obtain ⟨ended, answered⟩ := hEnds op held digest ⟨n, wrote, low, high⟩
    obtain ⟨same, more⟩ := kStands fun o is => by rw [ended] at is; cases is
    refine ⟨fun o is _ _ => ?_, fun out => ?_⟩
    · obtain rfl : op = o := Option.some.inj (held.symm.trans is)
      refine ⟨same.trans ended, answered.trans more fun a mem b memB => ?_⟩
      rcases List.mem_cons.1 mem with rfl | mem
      · exact (second b memB).symm
      · exact other a mem b memB
    · have := out op held digest n (.inl wrote)
      omega
  · have out : ∀ op : TableOp, s.table = some op → op.kind = .digest → ∀ n, v op.table n → n < op.first ∨ op.next ≤ n :=
      fun op held digest n wrote => by
        by_contra inside
        exact early ⟨op, held, digest, n, wrote, by omega, by omega⟩
    obtain ⟨same, quiet⟩ := hStands out
    refine ⟨fun op held digest ⟨n, wrote, low, high⟩ => ?_, fun all => ?_⟩
    · have late : w op.table n := wrote.resolve_left fun hv => by have := out op held digest n hv; omega
      obtain ⟨ended, answered⟩ := kEnds op (same.trans held) digest ⟨n, late, low, high⟩
      refine ⟨ended, (quiet.trans answered fun a mem b memB => ?_).fronted refused⟩
      rcases List.mem_cons.1 memB with rfl | memB
      · exact first a mem
      · exact other a mem b memB
    · obtain ⟨same', quiet'⟩ := kStands fun op held digest n wrote => all op (same.symm.trans held) digest n (.inr wrote)
      exact ⟨same'.trans same, quiet.trans quiet' other⟩

theorem EqUnit.abandoned_answers {e : EqUnit} : ∀ a ∈ e.abandoned, a.unit = .eq ∧ a.res = .aborted := by
  intro a mem
  obtain ⟨w, -, rfl⟩ := List.mem_map.1 mem
  exact ⟨rfl, rfl⟩

theorem CueUnit.abandoned_answers {c : CueUnit} : ∀ a ∈ c.abandoned, a.unit = .cue ∧ a.res = .aborted := by
  intro a mem
  obtain ⟨w, -, rfl⟩ := List.mem_map.1 mem
  exact ⟨rfl, rfl⟩

end

/-! ## UNIT_RESET, unit by unit (R170) -/

section
variable (s : State)

/-! ### STAGE (R77) -/

theorem stageReset_put : StatesPut (queuedSections s.commit) .loaded s (stageReset s) := putStates_put _ _

theorem stageReset_commit : (stageReset s).commit = { s.commit with staging := [], queue := [] } :=
  unclaimSections_same _ _ .commit (by decide)

/-! ### EQ (R99) -/

/-- R99: the pool and the chains at their reset values. -/
def EqUnit.emptied (e : EqUnit) : EqUnit :=
  { e with sections := EqUnit.reset.sections, free1 := EqUnit.reset.free1, free0 := EqUnit.reset.free0, chains := EqUnit.reset.chains }

theorem resetPool_eq : (resetPool s).eq = s.eq.emptied := by
  have told : (resetPool s).eq = (reportSections (List.finRange 256) { s with eq := s.eq.emptied }).eq :=
    (reportWrites_same .chains (List.range 24) _) .eq (by decide)
  rw [told, reportSections_eq]

/-- R88: the whole pool and all chains count as written. -/
theorem resetPool_heard : WritesHeard (fun d n => d = .sections ∧ n < 256 ∨ d = .chains ∧ n < 24) [] s (resetPool s) := by
  have sections := reportSections_heard (List.finRange 256) (s := s) (t := { s with eq := s.eq.emptied }) rfl rfl
  have both := sections.trans (reportWrites_heard .chains (List.range 24)
    (reportSections (List.finRange 256) { s with eq := s.eq.emptied }))
  refine both.congr fun d n => ?_
  have inPool : (∃ i ∈ List.finRange 256, i.val = n) ↔ n < 256 :=
    ⟨fun ⟨i, _, same⟩ => same ▸ i.isLt, fun small => ⟨⟨n, small⟩, List.mem_finRange _, rfl⟩⟩
  rw [sectionEntries, inPool, List.mem_range]

theorem resetPool_noNotice : NoNotice s (resetPool s) :=
  ((NoNotice.ofCtl rfl).trans (reportWrites_noNotice _ _ { s with eq := s.eq.emptied })).trans (reportWrites_noNotice _ _ _)

theorem flushQueue_put : StatesPut (queuedSections s.commit) .loaded s (flushQueue s) := putStates_put _ _

theorem eqReset_commit : (eqReset s).commit = { s.commit with queue := [] } := by
  have pool := (resetPool_same (abortSectionWrite (flushQueue s))) .commit (by decide)
  have aborted := (abortSectionWrite_same (flushQueue s)) .commit (by decide)
  exact pool.trans (aborted.trans (unclaimSections_same _ _ .commit (by decide)))

/-- R99: of the EQ unit the slots alone stand. -/
theorem eqReset_eq : (eqReset s).eq = { EqUnit.reset with slots := s.eq.slots } := by
  obtain ⟨-, slots⟩ := abortSectionWrite_kept (flushQueue s)
  have kept : (flushQueue s).eq.slots = s.eq.slots := by rw [(flushQueue_put s).eq]
  rw [eqReset, resetPool_eq, EqUnit.emptied, slots, kept, abortSectionWrite_pending]
  rfl

/-- R87, R88: every section and chain is written, and the request of the pending write answered ABORTED. -/
theorem eqReset_heard :
    WritesHeard (fun d n => d = .sections ∧ n < 256 ∨ d = .chains ∧ n < 24) s.eq.abandoned s (eqReset s) := by
  have flushed := (flushQueue_put s).heard
  have pending : (flushQueue s).eq.pendingWrite = s.eq.pendingWrite := by rw [(flushQueue_put s).eq]
  have abandoned : (flushQueue s).eq.abandoned = s.eq.abandoned := by rw [EqUnit.abandoned, pending, EqUnit.abandoned]
  have aborted := abortSectionWrite_heard (flushQueue s)
  rw [abandoned] at aborted
  have notTable : ∀ a ∈ s.eq.abandoned, a.unit ≠ .table := fun a mem => by rw [(EqUnit.abandoned_answers a mem).1]; decide
  have refused : ∀ a ∈ s.eq.abandoned, a.res ≠ .ok := fun a mem => by rw [(EqUnit.abandoned_answers a mem).2]; decide
  have both := flushed.append aborted (by simp) (by simp) (by simp) notTable
  have all := both.append (resetPool_heard _) (by simp) (by simpa using refused) (by simpa using notTable) (by simp)
  rw [List.nil_append, List.append_nil] at all
  refine all.congr fun d n => ⟨?_, .inr⟩
  rintro ((⟨table, m, -, rfl⟩ | ⟨table, m, -, rfl⟩) | wrote)
  · exact .inl ⟨table, m.isLt⟩
  · exact .inl ⟨table, m.isLt⟩
  · exact wrote

theorem eqReset_noNotice : NoNotice s (eqReset s) :=
  ((flushQueue_put s).quiet.trans (abortSectionWrite_noNotice _)).trans (resetPool_noNotice _)

theorem eqReset_calm : Calm s (eqReset s) :=
  ((flushQueue_put s).calm.trans (abortSectionWrite_calm _)).trans (resetPool_calm _)

/-! ### SDV (R117) -/

/-- R117: the unit's registers at their reset values, the group targets apart. -/
def restartedSdv (s : State) : Sdv :=
  { s.sdv with
      state := if s.ctl.enabled.sdv = true ∧ s.core.live.boostCurve ≠ [] then .fallback else .off
      lastSpeed := none, manual := none, age := none, phase := 0, boost := 0, hold := 30, fallback := 500, hyst := 2, rampMs := 2000 }

theorem sdvReset_taken : sdvReset s = sdvTaken (restartedSdv s) (List.finRange 4) s :=
  adoptAfterState_taken (s := s) (v := { s.sdv with
    hold := 30, fallback := 500, hyst := 2, rampMs := 2000, manual := none, lastSpeed := none, age := none, phase := 0 })
    (if s.ctl.enabled.sdv = true ∧ s.core.live.boostCurve ≠ [] then .fallback else .off) 0 rfl

theorem sdvReset_moved : SdvMoved (restartedSdv s) s (sdvReset s) := by
  rw [sdvReset_taken]
  exact sdvTaken_moved rfl (List.nodup_finRange 4)

/-- R109: with boost 0 every group target is 0. -/
theorem sdvReset_targets : (sdvReset s).sdv.targets = Vector.replicate 4 0 := by
  refine Vector.ext fun g small => ?_
  have inStep := sdvTaken_inStep (u := restartedSdv s) (s := s) ⟨g, small⟩
  rw [InStep, sdvTaken_boost] at inStep
  rw [Vector.getElem_replicate, sdvReset_taken]
  exact inStep.trans (by simp [groupTarget, restartedSdv])

end

end Sys2Proof.Machine

/-! ## UNIT_RESET (R170) -/

namespace Sys2Proof.Machine

set_option Elab.async false

section
variable {s : State}

/-! ### CUE (R136, R137) -/

/-- R136: what the cue unit's disable makes of a state: the pending write is answered, and both runners are halted. -/
structure CueSilenced (s t : State) : Prop where
  cue : t.cue = { s.cue with pendingWrite := none, runners := t.cue.runners }
  runners : ∀ r : RunnerNo, t.cue.runners[r] = (s.cue.runners[r]).silenced
  ducks : DuckInv s → ∀ src : Source, t.ramp.duckTargets[src] = 0
  moved : DuckInv s → s.ramp.Good → DucksMoved 50 (List.finRange 12) s t
  answered : Answered s.cue.abandoned s t
  quiet : NoNotice s t
  calm : Calm s t

theorem abortCueWrite_duck (duck : DuckInv s) : DuckInv (abortCueWrite s) := by
  obtain ⟨cue, -⟩ := abortCueWrite_ended s
  have ramp : (abortCueWrite s).ramp = s.ramp := (abortCueWrite_same s) .ramp (by decide)
  unfold DuckInv
  rw [ramp, cue]
  exact duck

theorem cueDisable_silenced (s : State) : CueSilenced s (cueDisable s) := by
  obtain ⟨cue, answered, quiet⟩ := abortCueWrite_ended s
  obtain ⟨rest, runners⟩ := haltBoth_cue (abortCueWrite s)
  have ramp : (abortCueWrite s).ramp = s.ramp := (abortCueWrite_same s) .ramp (by decide)
  have core : (abortCueWrite s).core = s.core := (abortCueWrite_same s) .core (by decide)
  have ctl : (haltBoth (abortCueWrite s)).ctl = (abortCueWrite s).ctl := (haltBoth_same (abortCueWrite s)) .ctl (by decide)
  unfold cueDisable
  refine ⟨?cue, fun r => ?runners, fun duck => haltBoth_silent (abortCueWrite_duck duck), fun duck good => ?moved,
    answered.of_ctl rfl ctl, quiet.trans (.ofCtl ctl), (abortCueWrite_calm s).trans (haltBoth_calm _)⟩
  case cue =>
    rw [cue] at rest
    exact rest
  case runners =>
    rw [runners r, cue]
  case moved =>
    exact (haltBoth_moved (abortCueWrite_duck duck) (by rw [ramp]; exact good)).after ramp core

/-- R137: a runner with its next-fetch address back at 0. -/
def Runner.rewound (x : Runner) : Runner := { x with nextFetch := 0 }

/-- R137: both runners so. -/
def rewindBoth (s : State) : State := onRunner 1 Runner.rewound (onRunner 0 Runner.rewound s)

theorem rewindBoth_cue (s : State) : (rewindBoth s).cue = { s.cue with runners := (rewindBoth s).cue.runners } := rfl

theorem rewindBoth_at (s : State) (r : RunnerNo) : (rewindBoth s).cue.runners[r] = (s.cue.runners[r]).rewound := by
  unfold rewindBoth
  match r with
  | 0 => rw [onRunner_other (by decide), onRunner_at]
  | 1 => rw [onRunner_at, onRunner_other (by decide)]

theorem cueReset_eq (s : State) : cueReset s = rewindBoth (cueDisable s) := by
  rw [cueReset, cueDisable]
  rfl

theorem cueReset_runner (r : RunnerNo) : (cueReset s).cue.runners[r] = (s.cue.runners[r]).silenced.rewound := by
  rw [cueReset_eq, rewindBoth_at, (cueDisable_silenced s).runners]

theorem cueReset_cue (s : State) : (cueReset s).cue = { s.cue with pendingWrite := none, runners := (cueReset s).cue.runners } := by
  have rest := rewindBoth_cue (cueDisable s)
  rw [(cueDisable_silenced s).cue] at rest
  rw [cueReset_eq]
  exact rest

/-- R137: beside the addresses a reset is a disable. -/
theorem cueReset_beside (s : State) : SameBut [.cue] (cueDisable s) (cueReset s) := by
  rw [cueReset_eq]
  exact (onRunner_same 0 _ _).trans (onRunner_same 1 _ _)

theorem cueReset_calm (s : State) : Calm s (cueReset s) := (cueDisable_silenced s).calm.trans (.ofSame (cueReset_beside s))

end

/-! ### The request -/

/-- R166: with no notice pending, a unit is reset the same way while its request is judged. -/
theorem resetUnit_withHeld (u : UnitId) (rq : Requester) {s : State} (settled : s.ctl.notices = []) :
    resetUnit u (withHeld rq s) = withHeld rq (resetUnit u s) := by
  cases u with
  | ctrl => rfl
  | stage => exact flushQueue_withHeld rq (abortOpen s)
  | eq =>
    change resetPool (abortSectionWrite (flushQueue (withHeld rq s))) = _
    rw [flushQueue_withHeld, abortSectionWrite_withHeld, resetPool_withHeld]
    rfl
  | sdv =>
    change sdvReset (withHeld rq s) = withHeld rq (sdvReset s)
    rw [sdvReset_taken, sdvReset_taken, ← sdvTaken_withHeld rq settled]
    rfl
  | cue =>
    change cueReset (withHeld rq s) = withHeld rq (cueReset s)
    rw [cueReset_eq, cueDisable_withHeld, cueReset_eq]
    generalize cueDisable s = t
    rfl
  | table => exact abortTableOp_withHeld rq s

section
variable {c : Context} {i : Fin 2} {b : Byte} {u : UnitId} {s : State}

theorem exec_unitReset_body (takes : Takes .unitReset c i s) (data : c.data = [b]) :
    exec .unitReset s = .next (bodyUnitReset c.requester [b] (heldTake c i s)) := by
  rw [← data]
  exact takeRequest_takes takes bodyUnitReset

theorem bodyUnitReset_bad {rq : Requester} (bad : UnitId.ofByte b = none ∨ UnitId.ofByte b = some .ctrl) :
    bodyUnitReset rq [b] s = answer rq .badValue [] s := by
  rw [bodyUnitReset, List.getD_cons_zero]
  rcases bad with unnamed | ctrl
  · rw [unnamed]
  · rw [ctrl]
    exact if_pos rfl

theorem bodyUnitReset_mode {rq : Requester} (named : UnitId.ofByte b = some .eq) (mode : s.core.mode ≠ .standby) :
    bodyUnitReset rq [b] s = answer rq .wrongMode [] s := by
  rw [bodyUnitReset, List.getD_cons_zero, named]
  dsimp only
  rw [if_neg (by decide), if_pos ⟨rfl, mode⟩]

theorem bodyUnitReset_done {rq : Requester} (named : UnitId.ofByte b = some u) (other : u ≠ .ctrl)
    (allowed : u ≠ .eq ∨ s.core.mode = .standby) : bodyUnitReset rq [b] s = answer rq .ok [b] (resetUnit u s) := by
  rw [bodyUnitReset, List.getD_cons_zero, named]
  dsimp only
  rw [if_neg other, if_neg fun both => allowed.elim (fun h => h both.1) fun h => both.2 h, ← UnitId.ofByte_code named]

/-- R170: the answer follows what the reset does to the state once the request is taken. -/
theorem exec_unitReset (held : NoHeld s) (takes : Takes .unitReset c i s) (data : c.data = [b]) (named : UnitId.ofByte b = some u)
    (other : u ≠ .ctrl) (allowed : u ≠ .eq ∨ s.core.mode = .standby) :
    exec .unitReset s = .next (replied c .ok [b] (resetUnit u (afterTake i s))) := by
  have free := (resetUnit_keepsInv u (afterTake i s)).noHeld (afterTake_noHeld i held)
  rw [exec_unitReset_body takes data, bodyUnitReset_done (s := heldTake c i s) named other allowed, heldTake_withHeld,
    resetUnit_withHeld u _ takes.settled, answer_withHeld c .ok _ free]

end

/-- Settles O59: the reset of each unit by what it makes of any state (`stageReset_put`, `eqReset_eq`, `sdvReset_taken`,
`cueDisable_silenced`, `abortTableOp_ended`), applied to the state once the request is taken. -/
theorem unitResetByUnit : Obligations.UnitResetByUnit := by
  unfold Obligations.UnitResetByUnit
  intro c i b s held takes data
  refine ⟨fun bad => ?bad, fun named mode => ?mode, fun u named other allowed =>
    ⟨resetUnit u (afterTake i s), exec_unitReset held takes data named other allowed, ?stage, ?eq, ?sdv, ?cue, ?table⟩⟩
  case bad =>
    rw [exec_unitReset_body takes data, bodyUnitReset_bad bad]
    exact congrArg _ (answer_heldTake c i .badValue [] held)
  case mode =>
    rw [exec_unitReset_body takes data, bodyUnitReset_mode (s := heldTake c i s) named mode]
    exact congrArg _ (answer_heldTake c i .wrongMode [] held)
  case stage =>
    rintro rfl
    have put := stageReset_put (afterTake i s)
    exact ⟨stageReset_commit (afterTake i s), put.eq, put.sections, put.heard, put.quiet, .ofSame (stageReset_same _) put.calm⟩
  case eq =>
    rintro rfl
    have eq := eqReset_eq (afterTake i s)
    have reset : ResetValues (State.powerOn 0) := .ofReset rfl rfl rfl rfl rfl rfl rfl rfl
    refine ⟨eqReset_commit (afterTake i s), ?_, ?_, ?_, ?_, ?_, eqReset_heard (afterTake i s), eqReset_noNotice _,
      .ofSame (eqReset_same _) (eqReset_calm _)⟩ <;> rw [resetUnit, eq]
    · rfl
    · exact reset.sections
    · exact reset.marked
    · exact reset.groups
    · exact reset.chains
  case sdv =>
    rintro rfl
    have moved := sdvReset_moved (afterTake i s)
    refine ⟨?_, fun table => moved.boosts ((rampInv_iff s).mp table), moved.told, moved.takenBut⟩
    have sdv := moved.sdv
    rw [sdvReset_targets] at sdv
    exact sdv
  case cue =>
    rintro rfl
    have silenced := cueDisable_silenced (afterTake i s)
    have beside := cueReset_beside (afterTake i s)
    have ramp : (cueReset (afterTake i s)).ramp = (cueDisable (afterTake i s)).ramp := beside .ramp (by decide)
    have ctl : (cueReset (afterTake i s)).ctl = (cueDisable (afterTake i s)).ctl := beside .ctl (by decide)
    refine ⟨cueReset_cue (afterTake i s), fun r => cueReset_runner r, fun inv => ⟨?_, fun table => ?_⟩,
      silenced.answered.of_ctl rfl ctl, silenced.quiet.trans (.ofCtl ctl), .ofSame (cueReset_same _) (cueReset_calm _)⟩
    · rw [resetUnit, ramp]
      exact silenced.ducks inv.duck
    · have only := (silenced.moved inv.duck ((rampInv_iff s).mp table)).only
      unfold OnlyDucksRetargeted DucksRetargeted at only ⊢
      rw [resetUnit, ramp]
      exact only
  case table =>
    rintro rfl
    obtain ⟨ended, answered, quiet⟩ := abortTableOp_ended (afterTake i s)
    exact ⟨ended, answered, quiet, .ofSame (abortTableOp_same _) (abortTableOp_calm _)⟩

end Sys2Proof.Machine

/-! ## UNIT_ENABLE, unit by unit (R169) -/

namespace Sys2Proof.Machine

set_option Elab.async false

/-- The state with a new map of enabled units, and nothing done about it yet. -/
def withEnabled (e : UnitEnables) (s : State) : State := { s with ctl := { s.ctl with enabled := e } }

section
variable {e : UnitEnables} {s t : State} {as : List Answer}

theorem withEnabled_same (e : UnitEnables) (s : State) : SameBut [.ctl] s (withEnabled e s) :=
  SameBut.ofParts fun p => by cases p <;> first | exact Or.inr rfl | exact Or.inl (by decide)

/-- The enable map is no part of what answers change. -/
theorem Answered.ofEnabled (h : Answered as (withEnabled e s) t) : Answered as s t :=
  ⟨h.filled, h.kept, h.appended, h.markers, h.tag⟩

theorem WritesHeard.ofEnabled {written : TableId → Nat → Prop} (h : WritesHeard written as (withEnabled e s) t) :
    WritesHeard written as s t :=
  ⟨fun op held digest hit => (h.1 op held digest hit).imp_right Answered.ofEnabled,
    fun apart => (h.2 apart).imp_right Answered.ofEnabled⟩

theorem NoNotice.ofEnabled (h : NoNotice (withEnabled e s) t) : NoNotice s t := h

theorem Answered.enabling (e : UnitEnables) (s : State) : Answered [] s (withEnabled e s) :=
  Answered.ofEnabled (e := e) (.refl _)

theorem SameBut.ofEnabled {ps : List Part} (h : SameBut (.ctl :: ps) (withEnabled e s) t) : SameBut (.ctl :: ps) s t :=
  ((withEnabled_same e s).mono (by simp)).trans h

end

/-- A unit's switch: the new map, and where the unit is disabled what its disable does. -/
def switchUnit (disable : State → State) (off : Prop) [Decidable off] (e : UnitEnables) (s : State) : State :=
  if off then disable (withEnabled e s) else withEnabled e s

section
variable {disable : State → State} {off : Prop} [Decidable off] {e : UnitEnables} {s : State}

theorem switchUnit_calm (calm : ∀ s, Calm s (disable s)) : Calm (withEnabled e s) (switchUnit disable off e s) := by
  unfold switchUnit
  split
  · exact calm _
  · exact .refl _

theorem switchUnit_same {ps : List Part} (same : ∀ s, SameBut (.ctl :: ps) s (disable s)) :
    SameBut (.ctl :: ps) s (switchUnit disable off e s) := by
  unfold switchUnit
  split
  · exact (same _).ofEnabled
  · exact (withEnabled_same e s).mono (by simp)

theorem switchUnit_noNotice (quiet : ∀ s, NoNotice s (disable s)) : NoNotice s (switchUnit disable off e s) := by
  unfold switchUnit
  split
  · exact (quiet _).ofEnabled
  · exact .refl s

theorem switchUnit_withHeld (rq : Requester) (held : ∀ s, disable (withHeld rq s) = withHeld rq (disable s)) :
    switchUnit disable off e (withHeld rq s) = withHeld rq (switchUnit disable off e s) := by
  unfold switchUnit
  split
  · exact held (withEnabled e s)
  · rfl

end

/-! ### EQ (R87, R97, R98) -/

section
variable {on : Bool} {s : State}

/-- The EQ unit's switch to `on`. -/
theorem enableEq_eq (on : Bool) (s : State) : enableEq on s = switchUnit abortSectionWrite (on = false ∧ s.ctl.enabled.eq = true)
    { s.ctl.enabled with eq := on } s := by
  unfold enableEq switchUnit
  dsimp only
  exact if_congr (by simp [and_comm]) rfl rfl

theorem enableEq_off (was : s.ctl.enabled.eq = true) :
    enableEq false s = abortSectionWrite (withEnabled { s.ctl.enabled with eq := false } s) := by
  rw [enableEq_eq]
  exact if_pos ⟨rfl, was⟩

theorem enableEq_plain (plain : ¬ (on = false ∧ s.ctl.enabled.eq = true)) :
    enableEq on s = withEnabled { s.ctl.enabled with eq := on } s := by
  rw [enableEq_eq]
  exact if_neg plain

/-- R87, R97, R98: the EQ unit after a switch from `was` to `on`. -/
structure EqUnit.Switched (on was : Bool) (e d : EqUnit) : Prop where
  off : on = false → was = true → d.pendingWrite = none ∧ ∀ v : SectionWrite, e.pendingWrite = some v →
    d.sections[v.sec] = { e.sections[v.sec] with state := match v.kind with | .load => .free | .rewrite => .loaded } ∧
    (v.kind = .load → d.marked v.sec = true)
  others : ∀ n : SectionNo, (∀ v : SectionWrite, e.pendingWrite = some v → n ≠ v.sec) → d.sections[n] = e.sections[n]
  chains : d.chains = e.chains
  slots : d.slots = e.slots
  stood : ¬ (on = false ∧ was = true) → d = e

theorem enableEq_switched (on : Bool) (s : State) : EqUnit.Switched on s.ctl.enabled.eq s.eq (enableEq on s).eq := by
  by_cases off : on = false ∧ s.ctl.enabled.eq = true
  · obtain ⟨rfl, was⟩ := off
    rw [enableEq_off was]
    generalize hu : withEnabled { s.ctl.enabled with eq := false } s = u
    have eq : u.eq = s.eq := by rw [← hu]; rfl
    rw [← eq, was]
    obtain ⟨chains, slots⟩ := abortSectionWrite_kept u
    refine ⟨fun _ _ => ⟨abortSectionWrite_pending u, fun v pending => ?_⟩, fun n => abortSectionWrite_section, chains, slots,
      fun plain => absurd ⟨rfl, rfl⟩ plain⟩
    rw [abortSectionWrite_eq pending, EqUnit.abandonWrite_sections]
    exact ⟨Vector.getElem_set_self _, EqUnit.abandonWrite_marked⟩
  · rw [enableEq_plain off]
    exact ⟨fun isOff was => absurd ⟨isOff, was⟩ off, fun _ _ => rfl, rfl, rfl, fun _ => rfl⟩

theorem enableEq_calm (on : Bool) (s : State) :
    Calm (withEnabled { s.ctl.enabled with eq := on } s) (enableEq on s) := by
  rw [enableEq_eq]
  exact switchUnit_calm abortSectionWrite_calm

theorem enableEq_same (on : Bool) (s : State) : SameBut [.ctl, .eq, .table] s (enableEq on s) := by
  rw [enableEq_eq]
  exact switchUnit_same abortSectionWrite_same

theorem enableEq_noNotice (on : Bool) (s : State) : NoNotice s (enableEq on s) := by
  rw [enableEq_eq]
  exact switchUnit_noNotice abortSectionWrite_noNotice

/-- R88: the section an EQ disable writes. -/
def switchWrites (on : Bool) (s : State) (d : TableId) (n : Nat) : Prop :=
  (on = false ∧ s.ctl.enabled.eq = true) ∧ sectionEntries (pendingSections s.eq) d n

/-- R87: the answer an EQ disable gives. -/
def eqAnswers (on : Bool) (s : State) : List Answer := if on = false ∧ s.ctl.enabled.eq = true then s.eq.abandoned else []

theorem enableEq_heard (on : Bool) (s : State) : WritesHeard (switchWrites on s) (eqAnswers on s) s (enableEq on s) := by
  unfold eqAnswers
  by_cases off : on = false ∧ s.ctl.enabled.eq = true
  · rw [if_pos off]
    obtain ⟨rfl, was⟩ := off
    rw [enableEq_off was]
    exact (abortSectionWrite_heard _).ofEnabled.congr fun d n => (and_iff_right ⟨rfl, was⟩).symm
  · rw [if_neg off, enableEq_plain off]
    exact (WritesHeard.refl (fun d n wrote => off wrote.1) _).ofEnabled

theorem enableEq_withHeld (rq : Requester) (on : Bool) (s : State) :
    enableEq on (withHeld rq s) = withHeld rq (enableEq on s) := by
  rw [enableEq_eq, enableEq_eq]
  exact switchUnit_withHeld rq (abortSectionWrite_withHeld rq)

end

/-! ### CUE (R133, R136) -/

section
variable {on : Bool} {s : State}

/-- The cue unit's switch to `on`. -/
theorem enableCue_eq (on : Bool) (s : State) : enableCue on s = switchUnit cueDisable (on = false ∧ s.ctl.enabled.cue = true)
    { s.ctl.enabled with cue := on } s := by
  unfold enableCue switchUnit
  dsimp only
  exact if_congr (by simp [and_comm]) rfl rfl

theorem enableCue_off (was : s.ctl.enabled.cue = true) :
    enableCue false s = cueDisable (withEnabled { s.ctl.enabled with cue := false } s) := by
  rw [enableCue_eq]
  exact if_pos ⟨rfl, was⟩

theorem enableCue_plain (plain : ¬ (on = false ∧ s.ctl.enabled.cue = true)) :
    enableCue on s = withEnabled { s.ctl.enabled with cue := on } s := by
  rw [enableCue_eq]
  exact if_neg plain

/-- R133: the answer a disable of the cue unit gives. -/
def cueAnswers (on was : Bool) (c : CueUnit) : List Answer := if on = false ∧ was = true then c.abandoned else []

/-- R136: the cue unit and the DUCK keys after a switch from `was` to `on`. -/
structure CueSwitched (on was : Bool) (s t : State) : Prop where
  off : on = false → was = true → (DuckInv s → ∀ src : Source, t.ramp.duckTargets[src] = 0) ∧
    t.cue = { s.cue with pendingWrite := none, runners := t.cue.runners } ∧
    ∀ r : RunnerNo, t.cue.runners[r] = (s.cue.runners[r]).silenced
  stood : ¬ (on = false ∧ was = true) → t.cue = s.cue ∧ t.ramp = s.ramp
  memory : t.cue.mem = s.cue.mem
  moved : DuckInv s → s.ramp.Good → DucksMoved 50 (List.finRange 12) s t
  answered : Answered (cueAnswers on was s.cue) s t
  quiet : NoNotice s t

theorem enableCue_switched (on : Bool) (s : State) : CueSwitched on s.ctl.enabled.cue s (enableCue on s) := by
  by_cases off : on = false ∧ s.ctl.enabled.cue = true
  · have silenced := cueDisable_silenced (withEnabled { s.ctl.enabled with cue := false } s)
    have answers : cueAnswers on s.ctl.enabled.cue s.cue = s.cue.abandoned := if_pos off
    obtain ⟨rfl, was⟩ := off
    rw [← enableCue_off was] at silenced
    refine ⟨fun _ _ => ⟨silenced.ducks, silenced.cue, silenced.runners⟩, fun plain => absurd ⟨rfl, was⟩ plain,
      (congrArg CueUnit.mem silenced.cue :), fun duck good => (silenced.moved duck good).after rfl rfl, ?_, silenced.quiet.ofEnabled⟩
    rw [answers]
    exact silenced.answered.ofEnabled
  · have answers : cueAnswers on s.ctl.enabled.cue s.cue = [] := if_neg off
    rw [enableCue_plain off]
    refine ⟨fun isOff was => absurd ⟨isOff, was⟩ off, fun _ => ⟨rfl, rfl⟩, rfl,
      fun _ good => .after (s' := withEnabled { s.ctl.enabled with cue := on } s) (.refl 50 _ good) rfl rfl, ?_, .refl s⟩
    rw [answers]
    exact .enabling _ s

theorem enableCue_calm (on : Bool) (s : State) :
    Calm (withEnabled { s.ctl.enabled with cue := on } s) (enableCue on s) := by
  rw [enableCue_eq]
  exact switchUnit_calm fun s => (cueDisable_silenced s).calm

theorem enableCue_same (on : Bool) (s : State) : SameBut [.ctl, .ramp, .cue] s (enableCue on s) := by
  rw [enableCue_eq]
  exact switchUnit_same cueDisable_same

theorem enableCue_withHeld (rq : Requester) (on : Bool) (s : State) :
    enableCue on (withHeld rq s) = withHeld rq (enableCue on s) := by
  rw [enableCue_eq, enableCue_eq]
  exact switchUnit_withHeld rq (cueDisable_withHeld rq)

end

/-! ### TABLE (R150) -/

section
variable {on : Bool} {s : State}

/-- The TABLE unit's switch to `on`. -/
theorem enableTable_eq (on : Bool) (s : State) : enableTable on s = switchUnit abortTableOp (on = false ∧ s.ctl.enabled.table = true)
    { s.ctl.enabled with table := on } s := by
  unfold enableTable switchUnit
  dsimp only
  exact if_congr (by simp [and_comm]) rfl rfl

theorem enableTable_off (was : s.ctl.enabled.table = true) :
    enableTable false s = abortTableOp (withEnabled { s.ctl.enabled with table := false } s) := by
  rw [enableTable_eq]
  exact if_pos ⟨rfl, was⟩

theorem enableTable_plain (plain : ¬ (on = false ∧ s.ctl.enabled.table = true)) :
    enableTable on s = withEnabled { s.ctl.enabled with table := on } s := by
  rw [enableTable_eq]
  exact if_neg plain

theorem enableTable_calm (on : Bool) (s : State) :
    Calm (withEnabled { s.ctl.enabled with table := on } s) (enableTable on s) := by
  rw [enableTable_eq]
  exact switchUnit_calm abortTableOp_calm

theorem enableTable_same (on : Bool) (s : State) : SameBut [.ctl, .table] s (enableTable on s) := by
  rw [enableTable_eq]
  exact switchUnit_same abortTableOp_same

theorem enableTable_noNotice (on : Bool) (s : State) : NoNotice s (enableTable on s) := by
  rw [enableTable_eq]
  exact switchUnit_noNotice abortTableOp_noNotice

theorem enableTable_withHeld (rq : Requester) (on : Bool) (s : State) :
    enableTable on (withHeld rq s) = withHeld rq (enableTable on s) := by
  rw [enableTable_eq, enableTable_eq]
  exact switchUnit_withHeld rq (abortTableOp_withHeld rq)

end

end Sys2Proof.Machine

/-! ### SDV (R116) -/

namespace Sys2Proof.Machine

set_option Elab.async false

section
variable {on : Bool} {s : State}

/-- R116: the fields the SDV unit takes with a switch, the group targets apart. -/
def switchedSdv (on : Bool) (s : State) : Sdv :=
  if s.ctl.enabled.sdv = on then s.sdv
  else if on = true then
    if s.core.live.boostCurve = [] then s.sdv else { s.sdv with state := stateByAge s.sdv, boost := boostByAge s }
  else { s.sdv with state := .off, boost := 0, manual := none }

/-- R109, R116: the groups that follow. -/
def switchedGroups (on : Bool) (s : State) : List Group :=
  if s.ctl.enabled.sdv = on ∨ (on = true ∧ s.core.live.boostCurve = []) then [] else List.finRange 4

theorem switchedGroups_nodup (on : Bool) (s : State) : (switchedGroups on s).Nodup := by
  unfold switchedGroups
  split
  · exact List.nodup_nil
  · exact List.nodup_finRange 4

/-- R116: SDV's new enable state. -/
def mapSdv (on : Bool) (s : State) : State := withEnabled { s.ctl.enabled with sdv := on } s

theorem sdvDisable_taken (s : State) : sdvDisable s =
    sdvTaken { s.sdv with state := .off, boost := 0, manual := none } (List.finRange 4) s := stateThenManual_eq .off none 0 s

theorem sdvEnable_taken (curve : s.core.live.boostCurve ≠ []) : sdvEnable s =
    sdvTaken { s.sdv with state := stateByAge s.sdv, boost := boostByAge s } (List.finRange 4) s := by
  rw [sdvEnable, if_neg curve, takeStateByAge_adopts_boostByAge]
  exact adoptAfterState_taken (v := s.sdv) _ _ rfl

theorem enableSdv_stands (same : s.ctl.enabled.sdv = on) : enableSdv on s = mapSdv on s := if_pos same

theorem enableSdv_on (was : s.ctl.enabled.sdv = false) : enableSdv true s = sdvEnable (mapSdv true s) :=
  (if_neg (by simp [was])).trans (if_pos rfl)

theorem enableSdv_off (was : s.ctl.enabled.sdv = true) : enableSdv false s = sdvDisable (mapSdv false s) :=
  (if_neg (by simp [was])).trans (if_neg (by simp))

/-- R116: every switch is a taking of fields, the empty one where nothing is done. -/
theorem enableSdv_taken (on : Bool) (s : State) :
    enableSdv on s = sdvTaken (switchedSdv on s) (switchedGroups on s) (mapSdv on s) := by
  have stands : mapSdv on s = sdvTaken s.sdv [] (mapSdv on s) := (sdvTaken_nil (s := mapSdv on s) rfl).symm
  unfold switchedSdv switchedGroups
  by_cases same : s.ctl.enabled.sdv = on
  · rw [if_pos same, if_pos (Or.inl same), enableSdv_stands same, ← stands]
  rw [if_neg same]
  cases on with
  | false =>
    have was : s.ctl.enabled.sdv = true := by simpa using same
    rw [if_neg (by simp), if_neg (by simp [was]), enableSdv_off was, sdvDisable_taken]
    rfl
  | true =>
    have was : s.ctl.enabled.sdv = false := by simpa using same
    have core : (mapSdv true s).core = s.core := rfl
    rw [if_pos rfl, enableSdv_on was]
    by_cases bare : s.core.live.boostCurve = []
    · rw [if_pos bare, if_pos (Or.inr ⟨rfl, bare⟩), sdvEnable, core, if_pos bare, ← stands]
    · rw [if_neg bare, if_neg (by simp [was, bare]), sdvEnable_taken (s := mapSdv true s) bare]
      rfl

/-- R116: the SDV unit after a switch from `was` to `on`, over the live tables `l`. -/
structure Sdv.Switched (on was : Bool) (l : Live) (v w : Sdv) : Prop where
  stood : on = was → w = v
  rest : w = { v with state := w.state, boost := w.boost, manual := w.manual, targets := w.targets }
  off : on = false → was = true → w.state = .off ∧ w.boost = 0 ∧ w.manual = none ∧ ∀ g : Group, w.targets[g] = 0
  bare : on = true → was = false → l.boostCurve = [] → w = v
  tracks : on = true → was = false → l.boostCurve ≠ [] → w.manual = v.manual ∧ TookStateByAge v l.boostCurve w ∧
    ∀ g : Group, w.targets[g] = groupTarget w.boost l.weights[g]

theorem enableSdv_moved (on : Bool) (s : State) : SdvMoved (switchedSdv on s) (mapSdv on s) (enableSdv on s) := by
  have held : (switchedSdv on s).targets = s.sdv.targets := by
    unfold switchedSdv
    split_ifs <;> rfl
  rw [enableSdv_taken]
  exact sdvTaken_moved held (switchedGroups_nodup on s)

theorem switchedSdv_rest (on : Bool) (s : State) : switchedSdv on s =
    { s.sdv with
      state := (switchedSdv on s).state, boost := (switchedSdv on s).boost, manual := (switchedSdv on s).manual
      targets := (switchedSdv on s).targets } := by
  unfold switchedSdv
  split_ifs <;> rfl

theorem tookStateByAge (s : State) (w : Sdv) (state : w.state = stateByAge s.sdv) (boost : w.boost = boostByAge s) :
    TookStateByAge s.sdv s.core.live.boostCurve w := by
  refine ⟨state, fun falls => ?_, fun x holds speed => ?_⟩
  · rw [boost, boostByAge, ← state, if_pos falls]
  · rw [boost, boostByAge, ← state, if_neg holds, lastBoost, speed]
    rfl

theorem enableSdv_switched (on : Bool) (s : State) :
    Sdv.Switched on s.ctl.enabled.sdv s.core.live s.sdv (enableSdv on s).sdv := by
  refine ⟨fun same => ?stood, ?rest, fun isOff was => ?off, fun isOn was bare => ?bare, fun isOn was curve => ?tracks⟩
  case stood =>
    rw [enableSdv_stands same.symm]
    rfl
  case rest =>
    have fields := (enableSdv_moved on s).sdv
    rw [switchedSdv_rest] at fields
    rw [fields]
  case off =>
    subst isOff
    rw [enableSdv_off was, sdvDisable_taken]
    refine ⟨sdvTaken_state, sdvTaken_boost, by rw [sdvTaken_sdv], fun g => ?_⟩
    have inStep := sdvTaken_inStep (u := { (mapSdv false s).sdv with state := .off, boost := 0, manual := none })
      (s := mapSdv false s) g
    rw [InStep, sdvTaken_boost] at inStep
    exact inStep.trans (by simp [groupTarget])
  case bare =>
    subst isOn
    rw [enableSdv_on was]
    have stands : sdvEnable (mapSdv true s) = mapSdv true s := if_pos bare
    rw [stands]
    rfl
  case tracks =>
    subst isOn
    rw [enableSdv_on was, sdvEnable_taken (s := mapSdv true s) curve]
    exact ⟨by rw [sdvTaken_sdv]; rfl, tookStateByAge s _ sdvTaken_state sdvTaken_boost, sdvTaken_inStep⟩

theorem enableSdv_same (on : Bool) (s : State) : SameBut [.ctl, .ramp, .sdv] s (enableSdv on s) :=
  (enableSdv_moved on s).same.ofEnabled

theorem enableSdv_calm (on : Bool) (s : State) : Calm (mapSdv on s) (enableSdv on s) := (enableSdv_moved on s).calm

/-- R46, R116: the BOOST keys alone are retargeted, over the ramp time in force. -/
theorem enableSdv_boosts (on : Bool) (good : s.ramp.Good) : OnlyBoostsRetargeted s.sdv.rampMs s (enableSdv on s) := by
  have rampMs : (switchedSdv on s).rampMs = s.sdv.rampMs := by rw [switchedSdv_rest]
  have boosts := (enableSdv_moved on s).boosts good
  rw [rampMs] at boosts
  exact boosts

theorem sdvTaken_answered (u : Sdv) (gs : List Group) (s : State) : Answered [] s (sdvTaken u gs s) :=
  (setSdvState_told u.state s).answered.of_ctl rfl (followGroups_ctl gs (fieldsTaken u s))

theorem enableSdv_answered (on : Bool) (s : State) : Answered [] s (enableSdv on s) := by
  rw [enableSdv_taken]
  exact (sdvTaken_answered _ _ (mapSdv on s)).ofEnabled

/-- R106: a change of state is pending as a notice, where its kind is enabled; with no change nothing is raised. -/
theorem enableSdv_told (on : Bool) (s : State) :
    ((enableSdv on s).sdv.state ≠ s.sdv.state → s.ctl.noticeOn.sdvState = true →
      .sdvState (enableSdv on s).sdv.state ∈ (enableSdv on s).ctl.notices) ∧
    ((enableSdv on s).sdv.state = s.sdv.state → NoNotice s (enableSdv on s)) := by
  have told := (enableSdv_moved on s).told
  have before : (mapSdv on s).sdv.state = s.sdv.state := rfl
  have map : (mapSdv on s).ctl.noticeOn.allows (.sdvState (enableSdv on s).sdv.state) = s.ctl.noticeOn.sdvState := rfl
  rw [SdvStateTold, before] at told
  refine ⟨fun changed allowed => ?_, fun same => ?_⟩
  · rw [if_neg changed, NoticeRaised, map, if_pos allowed] at told
    obtain ⟨-, pending, -⟩ := told
    exact pending
  · rw [if_pos same] at told
    exact NoNotice.ofEnabled (.ofCtl told)

theorem enableSdv_withHeld (rq : Requester) (on : Bool) (settled : s.ctl.notices = []) :
    enableSdv on (withHeld rq s) = withHeld rq (enableSdv on s) := by
  rw [enableSdv_taken, enableSdv_taken on s, ← sdvTaken_withHeld (s := mapSdv on s) rq settled]
  rfl

end

end Sys2Proof.Machine

/-! ## The four units' switches in their order (R169) -/

namespace Sys2Proof.Machine

set_option Elab.async false

/-- The EQ unit is switched. -/
def afterEq (m : UnitEnables) (s : State) : State := enableEq m.eq s

/-- Then the SDV unit. -/
def afterSdv (m : UnitEnables) (s : State) : State := enableSdv m.sdv (afterEq m s)

/-- Then the cue unit. -/
def afterCue (m : UnitEnables) (s : State) : State := enableCue m.cue (afterSdv m s)

/-- And the TABLE unit last (entry 25). -/
def switchAll (m : UnitEnables) (s : State) : State := enableTable m.table (afterCue m s)

section
variable (m : UnitEnables) (s : State)

/-! ### What each switch finds -/

theorem afterEq_settings : (afterEq m s).ctl.enabled = { s.ctl.enabled with eq := m.eq } ∧
    (afterEq m s).ctl.flags = s.ctl.flags ∧ (afterEq m s).ctl.clip = s.ctl.clip ∧ (afterEq m s).ctl.noticeOn = s.ctl.noticeOn := by
  obtain ⟨flags, clip, enabled, noticeOn⟩ := (enableEq_calm m.eq s).settings
  exact ⟨enabled, flags, clip, noticeOn⟩

theorem afterSdv_settings : (afterSdv m s).ctl.enabled = { s.ctl.enabled with eq := m.eq, sdv := m.sdv } ∧
    (afterSdv m s).ctl.flags = s.ctl.flags ∧ (afterSdv m s).ctl.clip = s.ctl.clip ∧ (afterSdv m s).ctl.noticeOn = s.ctl.noticeOn := by
  obtain ⟨enabled₁, flags₁, clip₁, noticeOn₁⟩ := afterEq_settings m s
  obtain ⟨flags, clip, enabled, noticeOn⟩ := (enableSdv_calm m.sdv (afterEq m s)).settings
  refine ⟨enabled.trans ?_, flags.trans flags₁, clip.trans clip₁, noticeOn.trans noticeOn₁⟩
  rw [mapSdv, enabled₁]
  rfl

theorem afterCue_settings : (afterCue m s).ctl.enabled = { m with table := s.ctl.enabled.table } ∧
    (afterCue m s).ctl.flags = s.ctl.flags ∧ (afterCue m s).ctl.clip = s.ctl.clip ∧ (afterCue m s).ctl.noticeOn = s.ctl.noticeOn := by
  obtain ⟨enabled₁, flags₁, clip₁, noticeOn₁⟩ := afterSdv_settings m s
  obtain ⟨flags, clip, enabled, noticeOn⟩ := (enableCue_calm m.cue (afterSdv m s)).settings
  refine ⟨enabled.trans ?_, flags.trans flags₁, clip.trans clip₁, noticeOn.trans noticeOn₁⟩
  rw [enabled₁]
  rfl

theorem switchAll_settings : (switchAll m s).ctl.enabled = m ∧ (switchAll m s).ctl.flags = s.ctl.flags ∧
    (switchAll m s).ctl.clip = s.ctl.clip ∧ (switchAll m s).ctl.noticeOn = s.ctl.noticeOn := by
  obtain ⟨enabled₁, flags₁, clip₁, noticeOn₁⟩ := afterCue_settings m s
  obtain ⟨flags, clip, enabled, noticeOn⟩ := (enableTable_calm m.table (afterCue m s)).settings
  refine ⟨enabled.trans ?_, flags.trans flags₁, clip.trans clip₁, noticeOn.trans noticeOn₁⟩
  rw [enabled₁]
  rfl

theorem switchAll_noHeld {s : State} (held : NoHeld s) : NoHeld (switchAll m s) := by
  have eq : NoHeld (afterEq m s) := (enableEq_calm m.eq s).noHeld held
  have sdv : NoHeld (afterSdv m s) := (enableSdv_calm m.sdv (afterEq m s)).noHeld eq
  have cue : NoHeld (afterCue m s) := (enableCue_calm m.cue (afterSdv m s)).noHeld sdv
  exact (enableTable_calm m.table (afterCue m s)).noHeld cue

theorem afterEq_same : SameBut [.ctl, .eq, .table] s (afterEq m s) := enableEq_same m.eq s

theorem afterSdv_same : SameBut [.ctl, .ramp, .sdv] (afterEq m s) (afterSdv m s) := enableSdv_same m.sdv _

theorem afterCue_same : SameBut [.ctl, .ramp, .cue] (afterSdv m s) (afterCue m s) := enableCue_same m.cue _

theorem switchAll_afterCue : SameBut [.ctl, .table] (afterCue m s) (switchAll m s) := enableTable_same m.table _

theorem switchAll_afterSdv : SameBut [.ctl, .ramp, .cue, .table] (afterSdv m s) (switchAll m s) :=
  ((afterCue_same m s).mono (by decide)).trans ((switchAll_afterCue m s).mono (by decide))

theorem switchAll_afterEq : SameBut [.ctl, .ramp, .sdv, .cue, .table] (afterEq m s) (switchAll m s) :=
  ((afterSdv_same m s).mono (by decide)).trans ((switchAll_afterSdv m s).mono (by decide))

theorem switchAll_same : SameBut [.ctl, .ramp, .eq, .sdv, .cue, .table] s (switchAll m s) :=
  ((afterEq_same m s).mono (by decide)).trans ((switchAll_afterEq m s).mono (by decide))

/-! ### What each unit is left with -/

theorem switchAll_eq : EqUnit.Switched m.eq s.ctl.enabled.eq s.eq (switchAll m s).eq := by
  have eq : (switchAll m s).eq = (afterEq m s).eq := switchAll_afterEq m s .eq (by decide)
  rw [eq]
  exact enableEq_switched m.eq s

theorem switchAll_sdv : Sdv.Switched m.sdv s.ctl.enabled.sdv s.core.live s.sdv (switchAll m s).sdv := by
  have sdv : (switchAll m s).sdv = (afterSdv m s).sdv := switchAll_afterSdv m s .sdv (by decide)
  have switched := enableSdv_switched m.sdv (afterEq m s)
  obtain ⟨enabled, -⟩ := afterEq_settings m s
  rw [enabled, (afterEq_same m s) .core (by decide), (afterEq_same m s) .sdv (by decide)] at switched
  rw [sdv]
  exact switched

/-- The SDV unit leaves the DUCK targets alone. -/
theorem afterSdv_ducks : (afterSdv m s).ramp.duckTargets = s.ramp.duckTargets := by
  have ramp : (afterEq m s).ramp = s.ramp := (afterEq_same m s) .ramp (by decide)
  have ducks : (afterSdv m s).ramp.duckTargets = (afterEq m s).ramp.duckTargets := by
    rw [afterSdv, enableSdv_taken]
    exact (followGroups_ducks _ _).trans (congrArg RampUnit.duckTargets fieldsTaken_ramp)
  rw [ducks, ramp]

theorem afterSdv_cue : (afterSdv m s).cue = s.cue :=
  ((afterSdv_same m s) .cue (by decide)).trans ((afterEq_same m s) .cue (by decide))

theorem afterSdv_duck {s : State} (duck : DuckInv s) : DuckInv (afterSdv m s) := by
  unfold DuckInv
  rw [afterSdv_ducks, afterSdv_cue]
  exact duck

theorem afterCue_switched : CueSwitched m.cue s.ctl.enabled.cue (afterSdv m s) (afterCue m s) := by
  have switched := enableCue_switched m.cue (afterSdv m s)
  obtain ⟨enabled, -⟩ := afterSdv_settings m s
  rw [enabled] at switched
  exact switched

/-! ### The ramp table (R34, R45, R46) -/

/-- R45: retargets of DUCK keys, where a step before left those keys and their targets. -/
theorem DucksRetargeted.before {ms : Nat} {s t u : State} (hs : s.ramp.Good) (ht : t.ramp.Good) (h : DucksRetargeted ms t u)
    (entries : ∀ i : Fin 64, i.val < 60 → t.ramp.entries[i] = s.ramp.entries[i]) (ducks : t.ramp.duckTargets = s.ramp.duckTargets)
    (mode : t.core.mode = s.core.mode) : DucksRetargeted ms s u := fun src => by
  have own : t.ramp.entries[48 + src.val] = s.ramp.entries[48 + src.val] := entries ⟨48 + src.val, by omega⟩ (by simp; omega)
  have present := hs.present_dedicated ht (Dedicated.duck src) own (.level s.ramp.duckTargets[src])
  have moved := h src
  rw [own, ducks, mode, retargetedEntry_congr present] at moved
  exact moved

/-- R45, R46: the DUCK keys are retargeted over 50 ms, the BOOST keys over the boost ramp, and no other entry moves. -/
theorem afterCue_ramps {s : State} (duck : DuckInv s) (table : RampInv s) : DucksRetargeted 50 s (afterCue m s) ∧
    BoostsRetargeted s.sdv.rampMs s (afterCue m s) ∧
    ∀ i : Fin 64, i.val < 48 → (afterCue m s).ramp.entries[i] = s.ramp.entries[i] := by
  have ramp : (afterEq m s).ramp = s.ramp := (afterEq_same m s) .ramp (by decide)
  have core : (afterEq m s).core = s.core := (afterEq_same m s) .core (by decide)
  have sdv : (afterEq m s).sdv = s.sdv := (afterEq_same m s) .sdv (by decide)
  have good := (rampInv_iff s).mp table
  have good₁ : (afterEq m s).ramp.Good := by rw [ramp]; exact good
  have good₂ : (afterSdv m s).ramp.Good :=
    (rampInv_iff _).mp ((enableSdv_rampsKept m.sdv (s := afterEq m s)).table ((rampInv_iff _).mpr good₁))
  obtain ⟨boosts, -, low⟩ := enableSdv_boosts m.sdv good₁
  have ducks := (afterCue_switched m s).moved (afterSdv_duck m duck) good₂
  have core₂ : (afterSdv m s).core = s.core := ((afterSdv_same m s) .core (by decide)).trans core
  have sdv₂ : (afterCue m s).sdv = (afterSdv m s).sdv := (afterCue_same m s) .sdv (by decide)
  rw [ramp] at low
  have outside : ∀ i : Fin 64, i.val < 48 ∨ 60 ≤ i.val → (afterCue m s).ramp.entries[i] = (afterSdv m s).ramp.entries[i] :=
    fun i out => ducks.others i fun src _ => by omega
  refine ⟨ducks.retargeted.before good good₂ low (afterSdv_ducks m s) (by rw [core₂]), fun g => ?_,
    fun i general => (outside i (.inl general)).trans (low i (by omega))⟩
  have own : (afterCue m s).ramp.entries[60 + g.val] = (afterSdv m s).ramp.entries[60 + g.val] :=
    outside ⟨60 + g.val, by omega⟩ (.inr (by simp))
  have boosted := boosts g
  rw [sdv, ramp, core] at boosted
  rw [own, sdv₂]
  exact boosted

/-! ### Notices (R106) -/

theorem afterCue_noNotice : NoNotice (afterSdv m s) (afterCue m s) := (afterCue_switched m s).quiet

theorem switchAll_told : ((switchAll m s).sdv.state ≠ s.sdv.state → s.ctl.noticeOn.sdvState = true →
      .sdvState (switchAll m s).sdv.state ∈ (switchAll m s).ctl.notices) ∧
    ((switchAll m s).sdv.state = s.sdv.state → NoNotice s (switchAll m s)) := by
  have sdv : (switchAll m s).sdv = (afterSdv m s).sdv := switchAll_afterSdv m s .sdv (by decide)
  have before : (afterEq m s).sdv = s.sdv := (afterEq_same m s) .sdv (by decide)
  obtain ⟨-, -, -, noticeOn⟩ := afterEq_settings m s
  obtain ⟨told, untold⟩ := enableSdv_told m.sdv (afterEq m s)
  rw [before, noticeOn] at told
  rw [before] at untold
  have after : NoNotice (afterSdv m s) (switchAll m s) := (afterCue_noNotice m s).trans (enableTable_noNotice m.table _)
  obtain ⟨notices, places⟩ := after
  rw [sdv]
  refine ⟨fun changed allowed => ?_, fun same => ?_⟩
  · rw [notices]
    exact told changed allowed
  · exact ((enableEq_noNotice m.eq s).trans (untold same)).trans ⟨notices, places⟩

end

end Sys2Proof.Machine

/-! ## UNIT_ENABLE (R169) -/

namespace Sys2Proof.Machine

set_option Elab.async false

section
variable {m : UnitEnables} {s t : State} {as : List Answer}

/-! ### The answers of abandoned and disturbed operations (R87, R133, R149, R150) -/

/-- R87, R133: the answers the EQ unit and the cue unit give. -/
def switchAnswers (m : UnitEnables) (s : State) : List Answer := eqAnswers m.eq s ++ cueAnswers m.cue s.ctl.enabled.cue s.cue

theorem eqAnswers_answers {on : Bool} : ∀ a ∈ eqAnswers on s, a.unit = .eq ∧ a.res = .aborted := by
  unfold eqAnswers
  split
  · exact EqUnit.abandoned_answers
  · exact fun a mem => absurd mem List.not_mem_nil

theorem cueAnswers_answers {on was : Bool} {c : CueUnit} : ∀ a ∈ cueAnswers on was c, a.unit = .cue ∧ a.res = .aborted := by
  unfold cueAnswers
  split
  · exact CueUnit.abandoned_answers
  · exact fun a mem => absurd mem List.not_mem_nil

theorem switchAnswers_notTable : ∀ a ∈ switchAnswers m s, a.unit ≠ .table := fun a mem => by
  rcases List.mem_append.1 mem with eq | cue
  · rw [(eqAnswers_answers a eq).1]
    decide
  · rw [(cueAnswers_answers a cue).1]
    decide

/-- R149: up to the TABLE unit's switch a digest may end DISTURBED, and the EQ unit and the cue unit answer. -/
theorem afterCue_heard (m : UnitEnables) (s : State) :
    WritesHeard (switchWrites m.eq s) (switchAnswers m s) s (afterCue m s) := by
  have sdv : WritesHeard (fun _ _ => False) [] (afterEq m s) (afterSdv m s) :=
    .ofAnswered (enableSdv_answered m.sdv _) ((afterSdv_same m s) .table (by decide))
  have cue := (afterCue_switched m s).answered
  rw [afterSdv_cue] at cue
  have cue' : WritesHeard (fun _ _ => False) (cueAnswers m.cue s.ctl.enabled.cue s.cue) (afterSdv m s) (afterCue m s) :=
    .ofAnswered cue ((afterCue_same m s) .table (by decide))
  have eqUnit : ∀ a ∈ eqAnswers m.eq s, a.unit = .eq := fun a mem => (eqAnswers_answers a mem).1
  have cueUnit : ∀ a ∈ cueAnswers m.cue s.ctl.enabled.cue s.cue, a.unit = .cue := fun a mem => (cueAnswers_answers a mem).1
  have refused : ∀ a ∈ eqAnswers m.eq s, a.res ≠ .ok := fun a mem => by rw [(eqAnswers_answers a mem).2]; decide
  have eqNotTable : ∀ a ∈ eqAnswers m.eq s, a.unit ≠ .table := fun a mem => by rw [eqUnit a mem]; decide
  have cueNotTable : ∀ a ∈ cueAnswers m.cue s.ctl.enabled.cue s.cue, a.unit ≠ .table := fun a mem => by rw [cueUnit a mem]; decide
  have both : WritesHeard _ _ s (afterSdv m s) := (enableEq_heard m.eq s).append sdv (by simp) refused eqNotTable (by simp)
  rw [List.append_nil] at both
  have all := both.append cue' (fun a mem b memB => by rw [eqUnit a mem, cueUnit b memB]; decide) refused eqNotTable cueNotTable
  exact all.congr fun d n => by simp

/-- Whether a digest over entries `a` to `b` of table `d` has covered the section of the write an EQ disable abandons. -/
theorem switchWrites_iff {on : Bool} {d : TableId} {a b : Nat} : (∃ n, switchWrites on s d n ∧ a ≤ n ∧ n < b) ↔
    on = false ∧ s.ctl.enabled.eq = true ∧ d = .sections ∧
      ∃ v : SectionWrite, s.eq.pendingWrite = some v ∧ a ≤ v.sec.val ∧ v.sec.val < b := by
  constructor
  · rintro ⟨-, ⟨⟨off, was⟩, table, n, mem, rfl⟩, low, high⟩
    obtain ⟨v, among, rfl⟩ := List.mem_map.1 mem
    exact ⟨off, was, table, v, Option.mem_toList.1 among, low, high⟩
  · rintro ⟨off, was, table, v, pending, low, high⟩
    have named : v.sec ∈ pendingSections s.eq := by rw [pendingSections_some pending]; exact List.mem_singleton_self _
    exact ⟨v.sec.val, ⟨⟨off, was⟩, table, v.sec, named, rfl⟩, low, high⟩

theorem Answered.thenEnabled {e : UnitEnables} (h : Answered as s t) : Answered as s (withEnabled e t) :=
  ⟨h.filled, h.kept, h.appended, h.markers, h.tag⟩

/-- R150: with no operation at hand a switch of the TABLE unit answers nothing. -/
theorem enableTable_idle {on : Bool} (idle : t.table = none) (h : Answered as s t) :
    (enableTable on t).table = none ∧ Answered as s (enableTable on t) := by
  have plain : enableTable on t = withEnabled { t.ctl.enabled with table := on } t := by
    rw [enableTable_eq, switchUnit]
    split
    · exact abortTableOp_none idle
    · rfl
  rw [plain]
  exact ⟨idle, h.thenEnabled⟩

/-- R150: the operation at hand stands unless the TABLE unit is disabled, and then it is answered ABORTED. -/
theorem enableTable_busy {on : Bool} {op : TableOp} (held : t.table = some op) (h : Answered as s t)
    (notTable : ∀ a ∈ as, a.unit ≠ .table) :
    (on = true ∨ t.ctl.enabled.table = false → (enableTable on t).table = some op ∧ Answered as s (enableTable on t)) ∧
    (on = false → t.ctl.enabled.table = true →
      (enableTable on t).table = none ∧ Answered (as ++ [op.abandoned]) s (enableTable on t)) := by
  refine ⟨fun stays => ?_, fun off was => ?_⟩
  · rw [enableTable_plain fun both => by rw [both.1, both.2] at stays; simp at stays]
    exact ⟨held, h.thenEnabled⟩
  · subst off
    obtain ⟨ended, answered, -⟩ := abortTableOp_ended (withEnabled { t.ctl.enabled with table := false } t)
    have one : (withEnabled { t.ctl.enabled with table := false } t).table = some op := held
    rw [one] at answered
    rw [enableTable_off was]
    refine ⟨ended, h.thenEnabled.trans answered fun a mem b memB => ?_⟩
    rw [List.mem_singleton.1 memB]
    exact notTable a mem

/-- R149, R150: what becomes of the TABLE unit's operation, and which requests are answered. -/
theorem switchAll_answered (m : UnitEnables) (s : State) :
    (s.table = none → (switchAll m s).table = none ∧ Answered (switchAnswers m s) s (switchAll m s)) ∧
    ∀ op : TableOp, s.table = some op →
      let disturbed := m.eq = false ∧ s.ctl.enabled.eq = true ∧ op.kind = .digest ∧ op.table = .sections ∧
        ∃ v : SectionWrite, s.eq.pendingWrite = some v ∧ op.first ≤ v.sec.val ∧ v.sec.val < op.next
      (disturbed → (switchAll m s).table = none ∧
        Answered ({ unit := .table, res := .ok, data := 2 :: op.fields } :: switchAnswers m s) s (switchAll m s)) ∧
      (¬ disturbed → m.table = true ∨ s.ctl.enabled.table = false →
        (switchAll m s).table = some op ∧ Answered (switchAnswers m s) s (switchAll m s)) ∧
      (¬ disturbed → m.table = false → s.ctl.enabled.table = true →
        (switchAll m s).table = none ∧ Answered (switchAnswers m s ++ [op.abandoned]) s (switchAll m s)) := by
  obtain ⟨ends, stands⟩ := afterCue_heard m s
  refine ⟨fun idle => ?_, fun op held => ?_⟩
  · obtain ⟨table, answered⟩ := stands fun op held => by rw [idle] at held; cases held
    exact enableTable_idle (table.trans idle) answered
  intro disturbed
  have hit : disturbed ↔ op.kind = .digest ∧ ∃ n, switchWrites m.eq s op.table n ∧ op.first ≤ n ∧ n < op.next := by
    rw [switchWrites_iff]
    exact ⟨fun ⟨off, was, digest, rest⟩ => ⟨digest, off, was, rest⟩,
      fun ⟨digest, off, was, rest⟩ => ⟨off, was, digest, rest⟩⟩
  have enabled : (afterCue m s).ctl.enabled.table = s.ctl.enabled.table := by
    obtain ⟨map, -⟩ := afterCue_settings m s
    rw [map]
  have busy : ¬ disturbed → (afterCue m s).table = some op ∧ Answered (switchAnswers m s) s (afterCue m s) := fun calm => by
    obtain ⟨table, answered⟩ := stands fun o is digest n wrote => by
      obtain rfl : op = o := Option.some.inj (held.symm.trans is)
      by_contra inside
      exact calm (hit.2 ⟨digest, n, wrote, by omega, by omega⟩)
    exact ⟨table.trans held, answered⟩
  refine ⟨fun is => ?_, fun calm => ?_, fun calm => ?_⟩
  · obtain ⟨digest, covered⟩ := hit.1 is
    obtain ⟨ended, answered⟩ := ends op held digest covered
    exact enableTable_idle ended answered
  · obtain ⟨table, answered⟩ := busy calm
    obtain ⟨stays, -⟩ := enableTable_busy (on := m.table) table answered switchAnswers_notTable
    rw [enabled] at stays
    exact stays
  · obtain ⟨table, answered⟩ := busy calm
    obtain ⟨-, aborts⟩ := enableTable_busy (on := m.table) table answered switchAnswers_notTable
    rw [enabled] at aborts
    exact aborts

/-! ### The cue unit and the DUCK targets (R45, R136) -/

theorem switchAll_cueUnit (m : UnitEnables) (s : State) : (switchAll m s).cue = (afterCue m s).cue :=
  switchAll_afterCue m s .cue (by decide)

theorem switchAll_ramp (m : UnitEnables) (s : State) : (switchAll m s).ramp = (afterCue m s).ramp :=
  switchAll_afterCue m s .ramp (by decide)

theorem switchAll_cue_off (duck : DuckInv s) (off : m.cue = false) (was : s.ctl.enabled.cue = true) :
    (∀ src : Source, (switchAll m s).ramp.duckTargets[src] = 0) ∧
    (switchAll m s).cue = { s.cue with pendingWrite := none, runners := (switchAll m s).cue.runners } ∧
    ∀ r : RunnerNo, (switchAll m s).cue.runners[r] = (s.cue.runners[r]).silenced := by
  obtain ⟨ducks, cue, runners⟩ := (afterCue_switched m s).off off was
  rw [afterSdv_cue] at cue
  simp only [afterSdv_cue] at runners
  rw [switchAll_ramp, switchAll_cueUnit]
  exact ⟨ducks (afterSdv_duck m duck), cue, runners⟩

theorem switchAll_cue_stood (plain : ¬ (m.cue = false ∧ s.ctl.enabled.cue = true)) :
    (switchAll m s).cue = s.cue ∧ (switchAll m s).ramp.duckTargets = s.ramp.duckTargets := by
  obtain ⟨cue, ramp⟩ := (afterCue_switched m s).stood plain
  rw [switchAll_ramp, switchAll_cueUnit, cue, ramp, afterSdv_cue, afterSdv_ducks]
  exact ⟨rfl, rfl⟩

/-- R45: where the cue unit stands so do the DUCK targets: they follow its runners' requests. -/
theorem switchAll_ducks (duck : DuckInv s) (same : (switchAll m s).cue = s.cue) :
    (switchAll m s).ramp.duckTargets = s.ramp.duckTargets := by
  by_cases off : m.cue = false ∧ s.ctl.enabled.cue = true
  · have both : DuckInv (switchAll m s) := by
      obtain ⟨isOff, was⟩ := off
      obtain ⟨targets, -, runners⟩ := switchAll_cue_off duck isOff was
      intro src
      rw [targets src, duckMin_eq, runners 0, runners 1]
      simp [Runner.silenced]
    refine Vector.ext fun src small => ?_
    have kept := both ⟨src, small⟩
    rw [same] at kept
    exact kept.trans (duck ⟨src, small⟩).symm
  · exact (switchAll_cue_stood off).2

end

end Sys2Proof.Machine

/-! ### The request -/

namespace Sys2Proof.Machine

set_option Elab.async false

section
variable {m : UnitEnables} {s : State}

theorem not_off_of_kept {on was : Bool} (kept : on = was) : ¬ (on = false ∧ was = true) := by
  rintro ⟨off, on⟩
  exact Bool.false_ne_true ((off.symm.trans kept).trans on)

theorem not_off_of_on {on was : Bool} (isOn : on = true) : ¬ (on = false ∧ was = true) := by
  rintro ⟨off, -⟩
  exact Bool.false_ne_true (off.symm.trans isOn)

theorem enableEq_stands (s : State) : enableEq s.ctl.enabled.eq s = s :=
  enableEq_plain (not_off_of_kept rfl)

theorem enableSdv_stood (s : State) : enableSdv s.ctl.enabled.sdv s = s := enableSdv_stands rfl

theorem enableCue_stands (s : State) : enableCue s.ctl.enabled.cue s = s :=
  enableCue_plain (not_off_of_kept rfl)

theorem enableTable_stands (s : State) : enableTable s.ctl.enabled.table s = s :=
  enableTable_plain (not_off_of_kept rfl)

/-- R169: the map in force changes nothing. -/
theorem switchAll_stands (s : State) : switchAll s.ctl.enabled s = s := by
  have eq : afterEq s.ctl.enabled s = s := enableEq_stands s
  have sdv : afterSdv s.ctl.enabled s = s := by rw [afterSdv, eq]; exact enableSdv_stood s
  have cue : afterCue s.ctl.enabled s = s := by rw [afterCue, sdv]; exact enableCue_stands s
  rw [switchAll, cue]
  exact enableTable_stands s

/-- R166: with no notice pending, the units are switched the same way while the request is judged. -/
theorem switchAll_withHeld (m : UnitEnables) (rq : Requester) (settled : s.ctl.notices = []) :
    switchAll m (withHeld rq s) = withHeld rq (switchAll m s) := by
  have settled₁ : (afterEq m s).ctl.notices = [] := by
    obtain ⟨notices, -⟩ := enableEq_noNotice m.eq s
    exact notices.trans settled
  have eq : afterEq m (withHeld rq s) = withHeld rq (afterEq m s) := enableEq_withHeld rq m.eq s
  have sdv : afterSdv m (withHeld rq s) = withHeld rq (afterSdv m s) := by
    rw [afterSdv, eq]
    exact enableSdv_withHeld rq m.sdv settled₁
  have cue : afterCue m (withHeld rq s) = withHeld rq (afterCue m s) := by
    rw [afterCue, sdv]
    exact enableCue_withHeld rq m.cue _
  rw [switchAll, cue]
  exact enableTable_withHeld rq m.table _

/-- The four bytes of a map (11.3). -/
def UnitEnables.bytes (m : UnitEnables) : List Byte := [bitByte m.eq, bitByte m.sdv, bitByte m.cue, bitByte m.table]

theorem bodyUnitEnable_mode {rq : Requester} (changed : m.eq ≠ s.ctl.enabled.eq) (mode : s.core.mode ≠ .standby) :
    bodyUnitEnable rq m.bytes s = answer rq .wrongMode [] s := by
  rw [UnitEnables.bytes, bodyUnitEnable, parseFour_bitBytes]
  exact if_pos ⟨changed, mode⟩

theorem bodyUnitEnable_done {rq : Requester} (allowed : m.eq = s.ctl.enabled.eq ∨ s.core.mode = .standby) :
    bodyUnitEnable rq m.bytes s = answer rq .ok (enableData (switchAll m s)) (switchAll m s) := by
  rw [UnitEnables.bytes, bodyUnitEnable, parseFour_bitBytes]
  exact if_neg fun both => allowed.elim both.1 both.2

theorem enableData_switchAll (m : UnitEnables) (rq : Requester) (s : State) :
    enableData (withHeld rq (switchAll m s)) = m.bytes := by
  obtain ⟨enabled, -⟩ := switchAll_settings m s
  have map : (withHeld rq (switchAll m s)).ctl.enabled = m := enabled
  rw [enableData, map]
  rfl

theorem exec_unitEnable_body {c : Context} {i : Fin 2} {bs : List Byte} (takes : Takes .unitEnable c i s) (data : c.data = bs) :
    exec .unitEnable s = .next (bodyUnitEnable c.requester bs (heldTake c i s)) := by
  rw [← data]
  exact takeRequest_takes takes bodyUnitEnable

/-- R169: the answer follows what the units do to the state once the request is taken. -/
theorem exec_unitEnable {c : Context} {i : Fin 2} (held : NoHeld s) (takes : Takes .unitEnable c i s) (data : c.data = m.bytes)
    (allowed : m.eq = s.ctl.enabled.eq ∨ s.core.mode = .standby) :
    exec .unitEnable s = .next (replied c .ok m.bytes (switchAll m (afterTake i s))) := by
  have free := switchAll_noHeld m (afterTake_noHeld i held)
  rw [exec_unitEnable_body takes data, bodyUnitEnable_done (s := heldTake c i s) allowed, heldTake_withHeld,
    switchAll_withHeld m _ takes.settled, enableData_switchAll, answer_withHeld c .ok _ free]

/-- R102, R116: a disabled SDV unit is OFF, with boost 0 and no manual speed, whether it was disabled before or not. -/
theorem switchAll_sdv_off (inv : SdvInv s.ctl.enabled.sdv s.sdv) (off : m.sdv = false) :
    (switchAll m s).sdv.state = .off ∧ (switchAll m s).sdv.boost = 0 ∧ (switchAll m s).sdv.manual = none := by
  have switched := switchAll_sdv m s
  cases was : s.ctl.enabled.sdv with
  | true =>
    obtain ⟨state, boost, manual, -⟩ := switched.off off was
    exact ⟨state, boost, manual⟩
  | false =>
    have state := inv.disabled was
    have manual : s.sdv.manual = none := by
      by_contra some
      exact absurd (state.symm.trans (inv.manualSpeed.mp some)) (by decide)
    rw [switched.stood (off.trans was.symm)]
    exact ⟨state, inv.boostZero (.inl state), manual⟩

end

/-- Settles O58: the units are switched one after the other (`switchAll`), each by what its own switch makes of any state; the request's
answer follows. -/
theorem unitEnableTakesMap : Obligations.UnitEnableTakesMap := by
  unfold Obligations.UnitEnableTakesMap
  intro c i w x y z s inv takes data
  have held := inv.noHeld
  refine ⟨fun bad => ?bad, fun eq sdv cue table bytes => ?map⟩
  case bad =>
    rw [exec_unitEnable_body takes data, bodyUnitEnable, parseFour_of_bad bad]
    exact congrArg _ (answer_heldTake c i .badValue [] held)
  case map =>
    rw [bytes] at data ⊢
    intro map
    refine ⟨fun changed mode => ?mode, fun same => ?same, fun allowed => ?done⟩
    case mode =>
      rw [exec_unitEnable_body takes data]
      exact congrArg _ ((bodyUnitEnable_mode (m := map) (s := heldTake c i s) changed mode).trans
        (answer_heldTake c i .wrongMode [] held))
    case same =>
      have taken := exec_unitEnable (m := map) held takes data (.inl (congrArg UnitEnables.eq same))
      have stands : switchAll map (afterTake i s) = afterTake i s := by
        rw [same]
        exact switchAll_stands (afterTake i s)
      rw [stands] at taken
      exact taken
    case done =>
      have eqUnit := switchAll_eq map (afterTake i s)
      have sdvUnit := switchAll_sdv map (afterTake i s)
      have cueUnit := afterCue_switched map (afterTake i s)
      have sdvInv : SdvInv s.ctl.enabled.sdv s.sdv := ⟨inv.boostZero, inv.ageSpeed, inv.manualSpeed, inv.sdvDisabled⟩
      obtain ⟨told, untold⟩ := switchAll_told map (afterTake i s)
      obtain ⟨enabled, flags, clip, noticeOn⟩ := switchAll_settings map (afterTake i s)
      obtain ⟨idle, busy⟩ := switchAll_answered map (afterTake i s)
      have same := switchAll_same map (afterTake i s)
      have duck : DuckInv (afterTake i s) := inv.duck
      refine ⟨switchAll map (afterTake i s), exec_unitEnable (m := map) held takes data allowed, enabled, eqUnit.off, eqUnit.others,
        eqUnit.chains, eqUnit.slots, fun kept => eqUnit.stood (not_off_of_kept kept), fun on => eqUnit.stood (not_off_of_on on),
        fun off => ?sdvOff, sdvUnit.stood, sdvUnit.rest, fun off was => ?targets, sdvUnit.bare, sdvUnit.tracks, told, untold,
        switchAll_cue_off (m := map) duck, fun kept => ?cueKept, fun on => ?cueOn, switchAll_ducks (m := map) duck, fun table => ?ramps,
        idle, busy, ?memory, flags, clip, noticeOn, same .port (by decide), ?same⟩
      case sdvOff =>
        obtain ⟨state, boost, manual⟩ := switchAll_sdv_off (m := map) (s := afterTake i s) sdvInv off
        exact ⟨state, boost, manual, by rw [sdvUnit.rest]; rfl⟩
      case targets =>
        obtain ⟨-, -, -, targets⟩ := sdvUnit.off off was
        exact targets
      case cueKept =>
        obtain ⟨cue, -⟩ := switchAll_cue_stood (m := map) (s := afterTake i s) (not_off_of_kept kept)
        exact cue
      case cueOn =>
        obtain ⟨cue, -⟩ := switchAll_cue_stood (m := map) (s := afterTake i s) (not_off_of_on on)
        exact cue
      case ramps =>
        have ramps := afterCue_ramps map duck ((rampInv_iff (afterTake i s)).mpr ((rampInv_iff s).mp table))
        have sdvLast : (switchAll map (afterTake i s)).sdv = (afterCue map (afterTake i s)).sdv :=
          switchAll_afterCue map (afterTake i s) .sdv (by decide)
        unfold DucksRetargeted BoostsRetargeted at ramps ⊢
        rw [switchAll_ramp, sdvLast]
        exact ramps
      case memory =>
        rw [switchAll_cueUnit, cueUnit.memory, afterSdv_cue]
        rfl
      case same => exact ((afterTake_same i s).mono (by decide)).trans (same.mono (by decide))

end Sys2Proof.Machine
